-- ==== Sys2Proof/Word.lean ====
section
/-!
DEFINITION. The word types of the LA-512's two paths (R167) and the two kinds of index by which the
part names its stations and awards (R1, R81). Handles and award ids are indices, not words, so they
are bounded numbers.
-/

namespace Sys2Proof

/-- A byte of the Management Port (R167). -/
abbrev Byte := BitVec 8

/-- One clock's four data bits on the MAC Link (R124). -/
abbrev Nibble := BitVec 4

/-- A 32-bit word of the MAC Link, or a timebase value (R105, R167). -/
abbrev Word := BitVec 32

/-- A handle, 0..511: the index of a station record (R1). -/
abbrev Handle := Fin 512

/-- An award id, 0..15: the index of an Award Table entry (R81). -/
abbrev AwardId := Fin 16

end Sys2Proof
end

