-- ==== Sys2Proof/Syntax.lean ====
section
/-!
DEFINITION. The commands of the LA-512: one constructor for each row of spec/opcode_table.json, with
the operands that come from outside the part (bytes on SPI_DIN, nibbles on the MAC Link, the award an
expiry names) and, for every visit, the other requesters whose visits have come to the table port.
-/

namespace Sys2Proof

/-- One truth value for each of the two requesters of the table port whose moment of asking the spec
does not fix everywhere (R17). The walker's is fixed: its visit waits whenever a step is in progress
(R109, R110). -/
structure PortAsks where
  award   : Bool
  request : Bool
deriving DecidableEq, Repr

/-- Neither requester. -/
def PortAsks.none : PortAsks := ⟨false, false⟩

/-- What a pop visit's command says: the requesters whose visits have come, and, where the visit ends
member selection, whether the issuing step comes after it and not within it (R89, R91; log 10). -/
structure PopOperands where
  asks   : PortAsks
  defers : Bool
deriving DecidableEq, Repr

/-- The commands of the part, in the order of the table. The operand `asks` of a visit names the
requesters whose visits have come to the table port since the last grant (R17): where the spec does not
fix the moment at which a due visit is asked for, the command says which have arrived (log 3). -/
inductive Instr where
  /-- RESET_N is driven low (R146). -/
  | resetAssert
  /-- RESET_N is released (R106). -/
  | resetRelease
  /-- SPI_CS_N falls (R137). -/
  | chipSelectFall
  /-- The transaction byte 0xB1 is complete (R139). -/
  | put
  /-- The transaction byte 0xB2 is complete (R144). -/
  | take
  /-- The transaction byte 0xB4 is complete (R145). -/
  | peek
  /-- A transaction byte of any other value is complete (R138). -/
  | ignoring (byte : Byte)
  /-- SPI_CS_N rises (R137); `bytes` are the whole bytes shifted in since the transaction byte, and
  `strayBits` the number of bits of an incomplete last byte. -/
  | chipSelectRise (bytes : List Byte) (strayBits : Nat)
  /-- A started request is refused BAD_KIND (R147). -/
  | badKind
  /-- ADMIT starts (R148). -/
  | admitStart
  /-- The allocation visit of ADMIT (R18). -/
  | admitAllocationVisit (asks : PortAsks)
  /-- The completion visit of ADMIT (R19). -/
  | admitCompletionVisit (asks : PortAsks)
  /-- AMEND starts (R149). -/
  | amend
  /-- The AMEND visit (R149). -/
  | amendVisit (asks : PortAsks)
  /-- REAPPLY starts (R150). -/
  | reapply
  /-- The read visit of REAPPLY (R39). -/
  | reapplyReadVisit (asks : PortAsks)
  /-- The apply visit of REAPPLY (R40). -/
  | reapplyApplyVisit (asks : PortAsks)
  /-- RETIRE starts (R151). -/
  | retire
  /-- The RETIRE visit (R20). -/
  | retireVisit (asks : PortAsks)
  /-- FIND starts (R152). -/
  | find
  /-- The probe visit of FIND (R14). -/
  | findProbeVisit (asks : PortAsks)
  /-- QUERY starts (R153). -/
  | query
  /-- The QUERY visit (R153). -/
  | queryVisit (asks : PortAsks)
  /-- LIST starts (R154). -/
  | list
  /-- One scan visit of LIST (R154). -/
  | listScanVisit (asks : PortAsks)
  /-- RULE_PUT executes (R27). -/
  | rulePut
  /-- RULE_GET executes (R27). -/
  | ruleGet
  /-- ITEM_PUT executes (R158). -/
  | itemPut
  /-- ITEM_GET executes (R160). -/
  | itemGet
  /-- SUMMARY_CLEAR executes (R163). -/
  | summaryClear
  /-- TABLE_CLEAR starts (R22). -/
  | tableClear
  /-- The Award Engine takes the clear's release (R101). -/
  | tableClearRelease
  /-- One release visit (R101, R129). -/
  | releaseVisit (asks : PortAsks)
  /-- One record visit of TABLE_CLEAR (R22). -/
  | tableClearRecordVisit (asks : PortAsks)
  /-- LKI_STB falls (R125); `nibbles` were taken while it was high, and `cut` says that RESET_N was low at
  some time since its rise: the message was begun in reset or cut off by its assertion (R124; log 7). -/
  | messageReceived (nibbles : List Nibble) (cut : Bool)
  /-- A SYNC at the head of the inbound queue in DOWN (R127). -/
  | firstSync
  /-- Another message at the head of the inbound queue in DOWN (R127). -/
  | downMessageDrop
  /-- The Award Engine takes an ASK (R86). -/
  | ask
  /-- The first pop visit of an ASK (R87). -/
  | popVisit (pop : PopOperands)
  /-- A conditional pop visit (R70). -/
  | conditionalPopVisit (pop : PopOperands)
  /-- A message enters the outbound queue (R135), an AWARD after the issuing step where it is still to
  come (R89, R91). -/
  | outboundEnqueue
  /-- The last nibble of the oldest outbound message has been sent (R135). -/
  | outboundSent
  /-- The Award Engine takes a DONE (R92). -/
  | done
  /-- One DONE member visit (R95). -/
  | doneMemberVisit (asks : PortAsks)
  /-- The Award Engine takes the expiry that names this entry and generation (R98, R99). -/
  | awardExpiry (id : AwardId) (generation : BitVec 4)
  /-- One expiry member visit (R99). -/
  | expiryMemberVisit (asks : PortAsks)
  /-- The Award Engine takes a BACKLOG (R132). -/
  | backlog
  /-- One BACKLOG entry visit (R131). -/
  | backlogEntryVisit (asks : PortAsks)
  /-- The Award Engine takes an UPLINK (R128). -/
  | uplink
  /-- The UPLINK visit (R133). -/
  | uplinkVisit (asks : PortAsks)
  /-- The Award Engine takes a SYNC while the link is UP (R129). -/
  | linkRestart
  /-- One visit of the restart's second part (R130). -/
  | linkRestartBacklogVisit (asks : PortAsks)
  /-- The step timer expires (R107). -/
  | stepTimerExpiry
  /-- One walker visit (R116). -/
  | walkerVisit (asks : PortAsks)
deriving DecidableEq, Repr

end Sys2Proof
end

