-- ==== Sys2Proof/Decode.lean ====
section
/-!
DEFINITION. The commands that a word spells by the bits of spec/opcode_table.json. No row of this
table gives bits (the commands are events of pins, bytes and the part's own steps), so no word spells
one.
-/

namespace Sys2Proof

/-- The command that the low `nbits` bits of `w` spell: none, as the table gives no row any bits. -/
def decodeTableWord (_nbits _w : Nat) : Option Instr := none

end Sys2Proof
end

