-- ==== Sys2Proof/Config.lean ====
section
/-!
DEFINITION. The fixed numbers of the part: queue depths, limits of the arithmetic, and the byte codes
of the Management Port. The spec leaves no value of this hardware to the implementation, so there is
no free value here.
-/

namespace Sys2Proof.Config

/-- Slots of the request queue and of the response queue (R139, R141). -/
def queueSlots : Nat := 4

/-- Messages the inbound queue holds (R126). -/
def inboundDepth : Nat := 8

/-- Messages the outbound queue holds (R135). -/
def outboundDepth : Nat := 4

/-- Words of one inbound message that the MAC Link Interface holds (R124). -/
def assemblyWords : Nat := 24

/-- The lag and the lead each stay within this bound (R112). -/
def walkerLimit : Nat := 8

/-- The occupancy of a full ring (R66). -/
def ringFull : Nat := 255

/-- The largest 16-bit count: usage, average and the counters saturate here (R44, R161). -/
def countLimit : Nat := 65535

/-- The largest debit (R55). -/
def debitLimit : Nat := 65535

/-- The least credit (R44). -/
def creditFloor : Int := -524288

/-- The greatest credit (R44). -/
def creditTop : Int := 524287

/-- The greatest award duration (R52). -/
def durationLimit : Nat := 16383

/-- The least txop that enters the duration (R52). -/
def txopLeast : Nat := 32

/-- The fail streak saturates here (R134). -/
def streakLimit : Nat := 15

/-- Handles in one LIST response (R154). -/
def listLimit : Nat := 28

/-- The greatest payload length of a request frame (R140). -/
def payloadLimit : Nat := 60

/-- Members of an award, and entries of a DONE or BACKLOG, at most (R81, R125). -/
def memberLimit : Nat := 8

/-- PUT transaction byte (R168). -/
def putByte : Byte := 0xB1
/-- TAKE transaction byte (R168). -/
def takeByte : Byte := 0xB2
/-- PEEK transaction byte (R168). -/
def peekByte : Byte := 0xB4
/-- Shifted out for an accepted PUT (R168). -/
def acceptByte : Byte := 0xAC
/-- Shifted out for a refused PUT (R168). -/
def fullByte : Byte := 0xF0
/-- Shifted out when the part has no byte of its own (R168). -/
def fillByte : Byte := 0x00

/-- VERSION reads 1 (R160). -/
def version : Nat := 1

end Sys2Proof.Config
end

