-- ==== Sys2Proof/Machine/Types.lean ====
section
/-!
DEFINITION. The data of the LA-512: sets of classes, station records, policy rules, settings, rings,
awards, messages, requests and the walker, as the chapters of spec/ give them, with the plain readers
and writers of each.
-/

namespace Sys2Proof.Machine

/-! ### Service classes (00, Conventions) -/

/-- The four service classes. -/
inductive ServiceClass where
  | sc0 | sc1 | sc2 | sc3
deriving DecidableEq, Repr

/-- One value for each service class. -/
structure PerClass (α : Type) where
  sc0 : α
  sc1 : α
  sc2 : α
  sc3 : α
deriving DecidableEq, Repr

/-- The same value for every class. -/
def PerClass.const {α : Type} (x : α) : PerClass α := ⟨x, x, x, x⟩

/-- The value of one class. -/
def PerClass.get {α : Type} (p : PerClass α) : ServiceClass → α
  | .sc0 => p.sc0
  | .sc1 => p.sc1
  | .sc2 => p.sc2
  | .sc3 => p.sc3

/-- Replace the value of one class. -/
def PerClass.set {α : Type} (p : PerClass α) (c : ServiceClass) (x : α) : PerClass α :=
  match c with
  | .sc0 => { p with sc0 := x }
  | .sc1 => { p with sc1 := x }
  | .sc2 => { p with sc2 := x }
  | .sc3 => { p with sc3 := x }

/-- A set of service classes: whether each is a member. -/
abbrev ClassSet := PerClass Bool

/-- The empty set of classes. -/
def ClassSet.none : ClassSet := PerClass.const false

/-- All four classes. -/
def ClassSet.all : ClassSet := PerClass.const true

/-- The intersection of two sets of classes (R37). -/
def ClassSet.inter (a b : ClassSet) : ClassSet :=
  ⟨a.sc0 && b.sc0, a.sc1 && b.sc1, a.sc2 && b.sc2, a.sc3 && b.sc3⟩

/-! ### Station records (R1 to R5) -/

/-- The six station states (R1). -/
inductive StationState where
  | free | forming | active | dormant | draining | cooling
deriving DecidableEq, Repr

/-- The nine descriptor fields (R3). Byte 0 of the link address is the most significant. -/
structure Descriptor where
  linkAddress : BitVec 48
  deviceTag   : Nat
  band        : Nat
  streams     : Nat
  topRate     : Nat
  legacy      : Bool
  multiUser   : Bool
  signal      : Int
  requested   : ClassSet
deriving DecidableEq, Repr

/-- The seven profile fields (R4). -/
structure Profile where
  weight        : Nat
  classes       : ClassSet
  ceiling       : Nat
  borrow        : Nat
  costShift     : Int
  uplinkEighths : Nat
  softCap       : Nat
deriving DecidableEq, Repr

/-- One entry of a rule trace (R4, R35). -/
structure TraceEntry where
  stage : Fin 4
  rule  : Fin 64
deriving DecidableEq, Repr

/-- A present overflow place (R1, R71). -/
structure OverflowPlace where
  prev : Option Handle
  next : Option Handle
deriving DecidableEq, Repr

/-- A station record (R1). -/
structure StationRecord where
  state         : StationState
  descriptor    : Descriptor
  profile       : Profile
  trace         : List TraceEntry
  credit        : Int
  usage         : Nat
  average       : Nat
  backlog       : ClassSet
  inFlight      : ClassSet
  ringSlot      : PerClass (Option (BitVec 8))
  overflow      : PerClass (Option OverflowPlace)
  idleCountdown : Nat
  coolCountdown : Nat
  failStreak    : Nat
  nextInBucket  : Option Handle
  nextFree      : Option Handle
deriving DecidableEq, Repr

/-! ### Rings and overflow lists (R66, R71) -/

/-- A service ring: 256 slots, each a handle or a hole. -/
structure Ring where
  slots : Vector (Option Handle) 256
  head  : BitVec 8
  tail  : BitVec 8
deriving DecidableEq, Repr

/-- An overflow list; its links are the overflow places of its members. -/
structure OverflowList where
  head   : Option Handle
  tail   : Option Handle
  length : Nat
deriving DecidableEq, Repr

/-! ### Policy rules and range checkers (R24, R28) -/

/-- The kinds of key (R24, R30). -/
inductive KeyKind where
  | address | capability | tag | chain
deriving DecidableEq, Repr

/-- What follows a stage (R24). -/
inductive Verdict where
  | goOn | accept | deny
deriving DecidableEq, Repr

/-- How the chain index changes (R24). -/
inductive ChainControl where
  | keep | set | add
deriving DecidableEq, Repr

/-- Which profile fields a rule's action or an AMEND writes (R24, R149). -/
structure WriteSet where
  weight        : Bool
  classes       : Bool
  ceiling       : Bool
  borrow        : Bool
  costShift     : Bool
  uplinkEighths : Bool
  softCap       : Bool
deriving DecidableEq, Repr

/-- The action of a rule: its write set, the seven action values, and what follows (R24). -/
structure Action where
  writes       : WriteSet
  values       : Profile
  verdict      : Verdict
  nextKind     : KeyKind
  chainControl : ChainControl
  chainValue   : Nat
deriving DecidableEq, Repr

/-- A policy rule (R24); bit `n` of the stage set stands for stage `n`. -/
structure PolicyRule where
  valid  : Bool
  kind   : KeyKind
  stages : BitVec 4
  value  : BitVec 48
  mask   : BitVec 48
  action : Action
deriving DecidableEq, Repr

/-- What a range checker selects (R28). -/
inductive CheckerSelect where
  | off | signal | rate | tag | streams
deriving DecidableEq, Repr

/-- A range checker (R28). -/
structure Checker where
  select : CheckerSelect
  low    : Byte
  high   : Byte
deriving DecidableEq, Repr

/-- How a classification ends (R36, R37). -/
inductive ClassOutcome where
  | accept | denied | noClass
deriving DecidableEq, Repr

/-- What the classifier hands to the Request Processor (R35, R38). -/
structure ClassResult where
  outcome : ClassOutcome
  profile : Profile
  trace   : List TraceEntry
deriving DecidableEq, Repr

/-! ### Settings (R157) -/

/-- The programmable items. -/
structure Settings where
  stepInterval   : Nat
  quantum        : Nat
  holdMask       : BitVec 16
  idleLimit      : Nat
  coolEpochs     : Nat
  awardTimeout   : Nat
  overhead       : PerClass Nat
  avgShift       : Nat
  penaltyShift   : Nat
  failLimit      : Nat
  classEnable    : ClassSet
  firstKind      : KeyKind
  defaultProfile : Profile
  pullIn         : Nat
  checkers       : Vector Checker 4
  attnMask       : BitVec 14
deriving DecidableEq, Repr

/-- The names of the settings items (R157, R160). -/
inductive SettingItem where
  | stepInterval | quantum | holdMask | idleLimit | coolEpochs | awardTimeout
  | overhead (c : ServiceClass)
  | avgShift | penaltyShift | failLimit | classEnable | firstKind
  | defaultWeight | defaultClasses | defaultCeiling | defaultBorrow | defaultCostShift
  | defaultUplinkEighths | defaultSoftCap
  | pullIn
  | checker (i : Fin 4)
  | attnMask
deriving DecidableEq, Repr

/-- The read-only items (R160). -/
inductive ReadOnlyItem where
  | version | activeCount | freeCount
  | ringOccupancy (c : ServiceClass)
  | overflowLength (c : ServiceClass)
  | lagLead | epoch | groupPointer | openAwards
  | staleCount | lateCount | malformedCount | forfeitCount | expiredCount | frameErrorCount
deriving DecidableEq, Repr

/-! ### Counters and flags (R161, R162) -/

/-- The six event counters. -/
structure Counters where
  stale      : Nat
  late       : Nat
  malformed  : Nat
  expired    : Nat
  forfeit    : Nat
  frameError : Nat
deriving DecidableEq, Repr

/-- The thirteen sticky flags, in the flag order of R168. -/
inductive Flag where
  | stale | late | malformed | expired | floor | forfeit | chainRange | overflow | unreachable
  | frameError | linkRestart | debitSat | noRoom
deriving DecidableEq, Repr

/-- Whether each sticky flag is set. -/
structure Flags where
  stale       : Bool
  late        : Bool
  malformed   : Bool
  expired     : Bool
  floor       : Bool
  forfeit     : Bool
  chainRange  : Bool
  overflow    : Bool
  unreachable : Bool
  frameError  : Bool
  linkRestart : Bool
  debitSat    : Bool
  noRoom      : Bool
deriving DecidableEq, Repr

/-! ### Awards (R81, R98) -/

/-- A member of an award: held, or released (R81). -/
structure Member where
  handle : Handle
  held   : Bool
deriving DecidableEq, Repr

/-- What issue writes into an entry (R89). -/
structure Issue where
  duration : Nat
  deadline : Word
deriving DecidableEq, Repr

/-- The award an OPEN entry holds; it is issued when `issue` is present (R81). -/
structure OpenAward where
  askTag  : Byte
  cls     : ServiceClass
  issue   : Option Issue
  members : List Member
deriving DecidableEq, Repr

/-- An Award Table entry: its generation, and its award while it is OPEN (R81). -/
structure AwardEntry where
  generation : BitVec 4
  award      : Option OpenAward
deriving DecidableEq, Repr

/-- A due expiry names an entry and its generation (R98). -/
structure DueExpiry where
  id         : AwardId
  generation : BitVec 4
deriving DecidableEq, Repr

/-! ### Messages of the MAC Link (R176) -/

/-- The fields of an ASK (R85). -/
structure AskFields where
  tag       : Byte
  cls       : ServiceClass
  maximum   : Nat
  multiUser : Bool
  txop      : Nat
deriving DecidableEq, Repr

/-- The outcome code of a DONE member entry; code 3 is not assigned (R92, R177). -/
inductive TxOutcome where
  | delivered | partly | failed | unassigned
deriving DecidableEq, Repr

/-- A member entry of a DONE (R92). -/
structure DoneEntry where
  outcome    : TxOutcome
  share      : Nat
  backlogged : Bool
deriving DecidableEq, Repr

/-- An entry of a BACKLOG (R131). -/
structure BacklogEntry where
  handle : Handle
  cls    : ServiceClass
  sets   : Bool
deriving DecidableEq, Repr

/-- A well-formed inbound message (R125). -/
inductive InMessage where
  | ask (fields : AskFields)
  | done (id : AwardId) (generation : BitVec 4) (airtime : Nat) (entries : List DoneEntry)
  | backlog (entries : List BacklogEntry)
  | uplink (handle : Handle) (airtime : Nat)
  | sync (tag : Byte)
deriving DecidableEq, Repr

/-- What is seen on LKO: the strobe that frames a message, and the nibbles it carries (R124, R135). -/
inductive LkoEvent where
  | strobeRise
  | nibble (value : Nibble)
  | strobeFall
deriving DecidableEq, Repr

/-- The reasons of a DECLINE (R90). -/
inductive DeclineReason where
  | clearing | classOff | awardsFull | noCredit | noStation
deriving DecidableEq, Repr

/-- A message the part sends (R135). -/
inductive OutMessage where
  | award (tag : Byte) (id : AwardId) (generation : BitVec 4) (cls : ServiceClass)
      (duration : Nat) (members : List Handle)
  | decline (tag : Byte) (cls : ServiceClass) (reason : DeclineReason)
  | sync (tag : Byte)
deriving DecidableEq, Repr

/-- A member of an OPEN entry, as a release names it (R101). -/
structure ReleaseWork where
  id     : AwardId
  handle : Handle
deriving DecidableEq, Repr

/-- A member of an award with its entry of the DONE, matched by position (R92). -/
structure DoneWork where
  handle : Handle
  entry  : DoneEntry
deriving DecidableEq, Repr

/-- The Award Engine's item in hand and the visits it has still to make (R80). -/
inductive EngineItem where
  /-- No item in hand. -/
  | idle
  /-- An ASK whose checks passed; its first pop visit is due (R86, R87). -/
  | askFirst (ask : AskFields)
  /-- An ASK that seeks a further member; `allowances` are the recorded ones (R51, R88). -/
  | askMore (ask : AskFields) (id : AwardId) (allowances : List Int)
  /-- An ASK whose member selection has ended, its issuing step still to come (R89, R91). -/
  | issuing (ask : AskFields) (id : AwardId) (allowances : List Int)
  /-- An item whose answer waits to enter the outbound queue (R135). -/
  | answer (message : OutMessage)
  /-- An accepted DONE, with the members still to visit (R95). -/
  | done (id : AwardId) (airtime : Nat) (work : List DoneWork)
  /-- An expiry, with the members still to visit (R99). -/
  | expiry (id : AwardId) (work : List Handle)
  /-- A BACKLOG, with the entries still to visit (R132). -/
  | backlog (work : List BacklogEntry)
  /-- An UPLINK whose visit is due (R133). -/
  | uplink (handle : Handle) (airtime : Nat)
  /-- The release at the start of a TABLE_CLEAR (R101). -/
  | clearRelease (work : List ReleaseWork)
  /-- The first part of a link restart (R129). -/
  | restartRelease (tag : Byte) (work : List ReleaseWork)
  /-- The second part of a link restart (R130). -/
  | restartBacklog (tag : Byte) (next : Handle)
deriving DecidableEq, Repr

/-- The kinds of visit the Award Engine makes (R17). -/
inductive EngineVisit where
  | pop | conditionalPop | doneMember | expiryMember | release | backlogEntry | uplink
  | restartBacklog
deriving DecidableEq, Repr

/-! ### Requests and responses (R140, R143) -/

/-- The request kinds (R147). -/
inductive RequestKind where
  | admitting | amend | reapply | retire | find | query | list | rulePut | ruleGet | itemPut
  | itemGet | summaryClear | tableClear
deriving DecidableEq, Repr

/-- A request as accepted: its kind byte and its payload (R140). -/
structure Request where
  kind    : Byte
  payload : List Byte
deriving DecidableEq, Repr

/-- The status codes (R143). -/
inductive Status where
  | ok | deferred | noRoom | duplicate | denied | noClass | noStation | notFound | badKind
  | badItem | badRule | readOnly
deriving DecidableEq, Repr

/-- A response (R143). -/
structure Response where
  kind    : Byte
  status  : Status
  clamped : Bool
  payload : List Byte
deriving DecidableEq, Repr

/-- The field set and the values of an AMEND, after clamping (R149). -/
structure AmendFields where
  writes       : WriteSet
  writesSignal : Bool
  writesCredit : Bool
  values       : Profile
  signal       : Int
  credit       : Int
deriving DecidableEq, Repr

/-- The request being executed and what it holds between its visits (R142). -/
inductive Execution where
  /-- No request is executing. -/
  | idle
  /-- ADMIT, its allocation visit due (R18). -/
  | admitAllocate (descriptor : Descriptor) (clamped : Bool)
  /-- ADMIT, classified, its completion visit due (R19). -/
  | admitComplete (handle : Handle) (result : ClassResult) (clamped : Bool)
  /-- AMEND, its visit due (R149). -/
  | amend (handle : Handle) (fields : AmendFields) (clamped : Bool)
  /-- REAPPLY, its read visit due (R39). -/
  | reapplyRead (handle : Handle)
  /-- REAPPLY, accepted, its apply visit due (R40). -/
  | reapplyApply (handle : Handle) (result : ClassResult)
  /-- RETIRE, its visit due (R20). -/
  | retire (handle : Handle)
  /-- FIND, its probe visit due (R14). -/
  | find (linkAddress : BitVec 48)
  /-- QUERY, its visit due (R153). -/
  | query (handle : Handle)
  /-- LIST, the visit to `next` due (R154). -/
  | list (states : BitVec 6) (next : Handle) (found : List Handle)
  /-- TABLE_CLEAR, before the engine reports the release done (R101). -/
  | clearRelease
  /-- TABLE_CLEAR, the record visit to `next` due (R22). -/
  | clearRecords (next : Handle)
deriving DecidableEq, Repr

/-- The kinds of visit the Request Processor makes (R147). -/
inductive RequestVisit where
  | allocation | completion | amend | reapplyRead | reapplyApply | retire | probe | query | scan
  | clearRecord
deriving DecidableEq, Repr

/-- The transaction states of the Management Port, with what the part shifts out (R137, R144, R145). -/
inductive PortState where
  | idle
  | opening
  | putFrame
  | putRefused
  /-- The response fixed at the transaction byte, none for the empty frame. -/
  | takeSending (fixed : Option Response)
  /-- The captured summary. -/
  | peekSending (summary : List Byte)
  | ignoring
deriving DecidableEq, Repr

/-! ### The walker (R108) -/

/-- Owed or pulled in (R109). -/
inductive StepKind where
  | owed | pulledIn
deriving DecidableEq, Repr

/-- A step in progress (R108). -/
structure WalkerStep where
  kind : StepKind
  next : Handle
deriving DecidableEq, Repr

/-- The walker and its step timer (R106, R108). -/
structure Walker where
  lag          : Nat
  lead         : Nat
  groupPointer : Fin 16
  epoch        : BitVec 16
  step         : Option WalkerStep
  nextExpiry   : Word
  timerRunning : Bool
deriving DecidableEq, Repr

/-- The requesters of the table port (R17). -/
inductive Requester where
  | award | request | walker
deriving DecidableEq, Repr

end Sys2Proof.Machine
end

