-- ==== Sys2Proof/Machine/PowerOn.lean ====
section
/-!
DEFINITION. The power-on values of the part's state, block by block, each from the rule of its
chapter.
-/

namespace Sys2Proof.Machine

/-- Every descriptor field cleared (R2). DESIGN CHOICE (log 27): R2 gives no cleared value for a flag, and the
legacy and multi-user capable flags are cleared to false. -/
def Descriptor.cleared : Descriptor :=
  { linkAddress := 0, deviceTag := 0, band := 0, streams := 0, topRate := 0, legacy := false,
    multiUser := false, signal := 0, requested := ClassSet.none }

/-- Every profile field cleared (R2). -/
def Profile.cleared : Profile :=
  { weight := 0, classes := ClassSet.none, ceiling := 0, borrow := 0, costShift := 0,
    uplinkEighths := 0, softCap := 0 }

/-- A FREE record with every field at its cleared value (R2). Its next-free link is given by the transition
that makes it FREE; the none that stands here is the model's own (log 28). -/
def StationRecord.cleared : StationRecord :=
  { state := .free, descriptor := Descriptor.cleared, profile := Profile.cleared, trace := [],
    credit := 0, usage := 0, average := 0, backlog := ClassSet.none, inFlight := ClassSet.none,
    ringSlot := PerClass.const none, overflow := PerClass.const none, idleCountdown := 0,
    coolCountdown := 0, failStreak := 0, nextInBucket := none, nextFree := none }

/-- The handle after `h`, none after 511. -/
def Handle.after (h : Handle) : Option Handle :=
  if lt : h.val + 1 < 512 then some ⟨h.val + 1, lt⟩ else none

/-- The handle before `h`, none before 0. -/
def Handle.before (h : Handle) : Option Handle :=
  if h.val = 0 then none else some ⟨h.val - 1, by omega⟩

/-- The table after power-on reset: every record FREE, the free list ascending (R2). -/
def stationsPowerOn : Vector StationRecord 512 :=
  Vector.ofFn fun h : Handle => { StationRecord.cleared with nextFree := Handle.after h }

/-- A ring with head 0, tail 0 and every slot a hole (R66). -/
def Ring.powerOn : Ring := { slots := Vector.replicate 256 none, head := 0, tail := 0 }

/-- An empty overflow list (R71). -/
def OverflowList.powerOn : OverflowList := { head := none, tail := none, length := 0 }

/-- A rule of zeros with the given verdict (R26). -/
def PolicyRule.zero (verdict : Verdict) : PolicyRule :=
  { valid := false, kind := .address, stages := 0, value := 0, mask := 0,
    action :=
      { writes :=
          { weight := false, classes := false, ceiling := false, borrow := false,
            costShift := false, uplinkEighths := false, softCap := false },
        values := Profile.cleared, verdict := verdict, nextKind := .address,
        chainControl := .keep, chainValue := 0 } }

/-- The power-on policy: rules 60..63 accept, every other field zero (R26). -/
def rulesPowerOn : Vector PolicyRule 64 :=
  Vector.ofFn fun i : Fin 64 => PolicyRule.zero (if i.val < 60 then .goOn else .accept)

/-- The default profile items 0x10..0x16 (R157). -/
def Profile.default : Profile :=
  { weight := 16, classes := ClassSet.all, ceiling := 8000, borrow := 500, costShift := 0,
    uplinkEighths := 8, softCap := 0 }

/-- The defaults of the table of R157. -/
def Settings.powerOn : Settings :=
  { stepInterval := 1000, quantum := 1000, holdMask := 0, idleLimit := 60, coolEpochs := 2,
    awardTimeout := 20000, overhead := ⟨120, 100, 80, 60⟩, avgShift := 3, penaltyShift := 1,
    failLimit := 6, classEnable := ClassSet.all, firstKind := .capability,
    defaultProfile := Profile.default, pullIn := 1,
    checkers := Vector.replicate 4 { select := .off, low := 0, high := 0 },
    attnMask := 0x2000 }

/-- Every counter 0 (R161). -/
def Counters.zero : Counters :=
  { stale := 0, late := 0, malformed := 0, expired := 0, forfeit := 0, frameError := 0 }

/-- Every sticky flag clear (R162). -/
def Flags.clear : Flags :=
  { stale := false, late := false, malformed := false, expired := false, floor := false,
    forfeit := false, chainRange := false, overflow := false, unreachable := false,
    frameError := false, linkRestart := false, debitSat := false, noRoom := false }

/-- Every entry FREE with generation 0 (R82). -/
def awardsPowerOn : Vector AwardEntry 16 := Vector.replicate 16 { generation := 0, award := none }

/-- The walker while RESET_N is low: counts 0, no step, the timer stopped (R122). DESIGN CHOICE (log
5): the stopped timer's next expiry holds 0. -/
def Walker.held : Walker :=
  { lag := 0, lead := 0, groupPointer := 0, epoch := 0, step := none, nextExpiry := 0,
    timerRunning := false }

/-- The timer starts running with its first expiry STEP_INTERVAL after `now` (R106). -/
def Walker.start (w : Walker) (now : Word) (stepInterval : Nat) : Walker :=
  { w with timerRunning := true, nextExpiry := now + BitVec.ofNat 32 stepInterval }

end Sys2Proof.Machine
end

