-- ==== Sys2Proof/Machine/State.lean ====
section
/-!
DEFINITION. The state of the LA-512 as plain data, its stops, and the machine right after power-on
reset.
-/

namespace Sys2Proof.Machine

/-- The faults of the machine. The spec names no event that stops the part (INVENTORY, Faults), so
there is none. -/
inductive Fault where
deriving DecidableEq, Repr

/-- The refusals of the machine. -/
inductive Refusal where
  /-- A command that has no meaning yet, raised by an arm of exec only; safe. No arm raises it. -/
  | notModelled (mnemonic : String)
deriving DecidableEq, Repr

/-- The state of the part. INVENTORY.md lists each field with its rule and its reset value. -/
structure State where
  /-- The commands that wait, first in, first out (the model's own). -/
  pending : List Instr
  /-- RESET_N is low (R105, R146). -/
  resetLow : Bool
  /-- SPI_CS_N is low (R137, R146). -/
  csLow : Bool
  /-- The transaction state (R137). -/
  port : PortState
  /-- The bytes shifted out on SPI_DOUT in the transaction (the model's own record; R137). -/
  spiOut : List Byte
  /-- The request queue, its head executing when `executing` is not idle (R141). -/
  requests : List Request
  /-- The request being executed (R142). -/
  executing : Execution
  /-- The response queue, oldest first (R141). -/
  responses : List Response
  /-- The station records (R1). -/
  stations : Vector StationRecord 512
  /-- The head of the free list (R11). -/
  freeHead : Option Handle
  /-- The tail of the free list (R11). -/
  freeTail : Option Handle
  /-- The heads of the address index (R12). -/
  buckets : Vector (Option Handle) 256
  /-- The visits of the Award Engine and the Request Processor that wait at the table port (R17); the
  walker's waits whenever a step is in progress (R109, R110). -/
  tablePort : PortAsks
  /-- The Policy Rule Table (R23). -/
  rules : Vector PolicyRule 64
  /-- The programmable settings items (R157). -/
  settings : Settings
  /-- The service rings (R66). -/
  rings : PerClass Ring
  /-- The overflow lists (R71). -/
  overflows : PerClass OverflowList
  /-- The waiting counts (R64). -/
  waiting : PerClass Nat
  /-- The Award Table (R81). -/
  awards : Vector AwardEntry 16
  /-- The Award Engine's item in hand (R80). -/
  engine : EngineItem
  /-- The expiries that are due and not yet taken (R98). -/
  dueExpiries : List DueExpiry
  /-- The clear's release is due (R80, R101). -/
  releaseDue : Bool
  /-- The clearing flag (R22). -/
  clearing : Bool
  /-- The timebase (R105). -/
  timebase : Word
  /-- The walker and its step timer (R106, R108). -/
  walker : Walker
  /-- The link is UP (R123). -/
  linkUp : Bool
  /-- The inbound queue, oldest first (R126). -/
  inbound : List InMessage
  /-- The outbound queue, oldest first (R135). -/
  outbound : List OutMessage
  /-- The message last sent on LKO, framed by the strobe (the model's own record; R135). -/
  lkoSent : List LkoEvent
  /-- The event counters (R161). -/
  counters : Counters
  /-- The sticky flags (R162). -/
  flags : Flags
deriving DecidableEq, Repr

/-- The machine at the release of RESET_N: the power-on values, the timebase at 0 and the step timer
running with its first expiry at STEP_INTERVAL (R106, R122). DESIGN CHOICE (log 4): SPI_CS_N is high. -/
def State.reset : State :=
  { pending := [], resetLow := false, csLow := false, port := .idle, spiOut := [],
    requests := [], executing := .idle, responses := [],
    stations := stationsPowerOn, freeHead := some 0, freeTail := some 511,
    buckets := Vector.replicate 256 none, tablePort := PortAsks.none,
    rules := rulesPowerOn, settings := Settings.powerOn,
    rings := PerClass.const Ring.powerOn, overflows := PerClass.const OverflowList.powerOn,
    waiting := PerClass.const 0,
    awards := awardsPowerOn, engine := .idle, dueExpiries := [], releaseDue := false,
    clearing := false, timebase := 0,
    walker := Walker.held.start 0 Settings.powerOn.stepInterval,
    linkUp := false, inbound := [], outbound := [], lkoSent := [],
    counters := Counters.zero, flags := Flags.clear }

end Sys2Proof.Machine
end

