-- ==== Sys2Proof/Machine/Flags.lean ====
section
/-!
DEFINITION. The sticky flags and event counters: setting, clearing, the flag order of R168, and the
ATTN output (R161 to R166).
-/

namespace Sys2Proof.Machine

/-- Whether a flag is set. -/
def Flags.get (fs : Flags) : Flag → Bool
  | .stale => fs.stale
  | .late => fs.late
  | .malformed => fs.malformed
  | .expired => fs.expired
  | .floor => fs.floor
  | .forfeit => fs.forfeit
  | .chainRange => fs.chainRange
  | .overflow => fs.overflow
  | .unreachable => fs.unreachable
  | .frameError => fs.frameError
  | .linkRestart => fs.linkRestart
  | .debitSat => fs.debitSat
  | .noRoom => fs.noRoom

/-- Set a flag (R162). -/
def Flags.set (fs : Flags) : Flag → Flags
  | .stale => { fs with stale := true }
  | .late => { fs with late := true }
  | .malformed => { fs with malformed := true }
  | .expired => { fs with expired := true }
  | .floor => { fs with floor := true }
  | .forfeit => { fs with forfeit := true }
  | .chainRange => { fs with chainRange := true }
  | .overflow => { fs with overflow := true }
  | .unreachable => { fs with unreachable := true }
  | .frameError => { fs with frameError := true }
  | .linkRestart => { fs with linkRestart := true }
  | .debitSat => { fs with debitSat := true }
  | .noRoom => { fs with noRoom := true }

/-- The bit of a flag in the flag order (R168). -/
def Flag.bit : Flag → Nat
  | .stale => 0
  | .late => 1
  | .malformed => 2
  | .expired => 3
  | .floor => 4
  | .forfeit => 5
  | .chainRange => 6
  | .overflow => 7
  | .unreachable => 8
  | .frameError => 9
  | .linkRestart => 10
  | .debitSat => 11
  | .noRoom => 12

/-- The flags in the flag order. -/
def Flag.all : List Flag :=
  [.stale, .late, .malformed, .expired, .floor, .forfeit, .chainRange, .overflow, .unreachable,
    .frameError, .linkRestart, .debitSat, .noRoom]

/-- The 16-bit flag field of PEEK: bits 0..12 in the flag order, bits 13..15 zero (R168). -/
def Flags.word (fs : Flags) : BitVec 16 :=
  0#3 ++ BitVec.ofBool fs.noRoom ++ BitVec.ofBool fs.debitSat ++ BitVec.ofBool fs.linkRestart ++
    BitVec.ofBool fs.frameError ++ BitVec.ofBool fs.unreachable ++ BitVec.ofBool fs.overflow ++
    BitVec.ofBool fs.chainRange ++ BitVec.ofBool fs.forfeit ++ BitVec.ofBool fs.floor ++
    BitVec.ofBool fs.expired ++ BitVec.ofBool fs.malformed ++ BitVec.ofBool fs.late ++
    BitVec.ofBool fs.stale

/-- Whether a 16-bit flag set names a flag; bits 13..15 name none (R163, R168). -/
def named (set : BitVec 16) (f : Flag) : Bool := set.getLsbD f.bit

/-- Clear the flags that a flag set names (R163). -/
def Flags.clearNamed (fs : Flags) (set : BitVec 16) : Flags :=
  { stale := fs.stale && !named set .stale
    late := fs.late && !named set .late
    malformed := fs.malformed && !named set .malformed
    expired := fs.expired && !named set .expired
    floor := fs.floor && !named set .floor
    forfeit := fs.forfeit && !named set .forfeit
    chainRange := fs.chainRange && !named set .chainRange
    overflow := fs.overflow && !named set .overflow
    unreachable := fs.unreachable && !named set .unreachable
    frameError := fs.frameError && !named set .frameError
    linkRestart := fs.linkRestart && !named set .linkRestart
    debitSat := fs.debitSat && !named set .debitSat
    noRoom := fs.noRoom && !named set .noRoom }

/-- A counter rises by 1 and saturates (R161). -/
def countUp (n : Nat) : Nat := min (n + 1) Config.countLimit

/-- The counter raised with a flag, where the flag has one (R161, R162). -/
def Counters.raise (cs : Counters) : Flag → Counters
  | .stale => { cs with stale := countUp cs.stale }
  | .late => { cs with late := countUp cs.late }
  | .malformed => { cs with malformed := countUp cs.malformed }
  | .expired => { cs with expired := countUp cs.expired }
  | .forfeit => { cs with forfeit := countUp cs.forfeit }
  | .frameError => { cs with frameError := countUp cs.frameError }
  | .floor => cs
  | .chainRange => cs
  | .overflow => cs
  | .unreachable => cs
  | .linkRestart => cs
  | .debitSat => cs
  | .noRoom => cs

/-- The counters whose flags a set names become 0 (R163). -/
def Counters.clearNamed (cs : Counters) (set : BitVec 16) : Counters :=
  { stale := if named set .stale then 0 else cs.stale
    late := if named set .late then 0 else cs.late
    malformed := if named set .malformed then 0 else cs.malformed
    expired := if named set .expired then 0 else cs.expired
    forfeit := if named set .forfeit then 0 else cs.forfeit
    frameError := if named set .frameError then 0 else cs.frameError }

/-- The event of a flag: the flag is set and its counter, if it has one, rises (R161, R162). -/
def State.raise (s : State) (f : Flag) : State :=
  { s with flags := s.flags.set f, counters := s.counters.raise f }

/-- The event of a flag, when it comes about. -/
def State.raiseIf (s : State) (happens : Bool) (f : Flag) : State :=
  if happens then s.raise f else s

/-- The bit of RESPONSE_READY in ATTN_MASK (R174). -/
def responseReadyBit : Nat := 13

/-- ATTN is asserted (its pin low) while RESPONSE_READY is in ATTN_MASK and a response waits, or some
flag in ATTN_MASK is set (R165). -/
def State.attnAsserted (s : State) : Bool :=
  (s.settings.attnMask.getLsbD responseReadyBit && !s.responses.isEmpty) ||
    Flag.all.any fun f => s.settings.attnMask.getLsbD f.bit && s.flags.get f

end Sys2Proof.Machine
end

