-- ==== Sys2Proof/Machine/Ops.lean ====
section
/-!
DEFINITION. The named operations over the state that several commands share: reading and writing
station records and award entries, visits through the table port, ending a request with its response,
counts the part reports, and the passing of time.
-/

namespace Sys2Proof.Machine

/-! ### Station records -/

/-- The record of a handle. -/
def State.station (s : State) (h : Handle) : StationRecord := s.stations[h.val]

/-- Replace the record of a handle. -/
def State.setStation (s : State) (h : Handle) (r : StationRecord) : State :=
  { s with stations := s.stations.set h.val r }

/-- Change the record of a handle. -/
def State.changeStation (s : State) (h : Handle) (f : StationRecord → StationRecord) : State :=
  s.setStation h (f (s.station h))

/-- The handle a number names, none above 511. -/
def handleOf (n : Nat) : Option Handle := if lt : n < 512 then some ⟨n, lt⟩ else none

/-- All handles, ascending. -/
def allHandles : List Handle := List.finRange 512

/-- ACTIVE_COUNT: the number of records in state ACTIVE (R2). -/
def State.activeCount (s : State) : Nat :=
  (allHandles.filter fun h => (s.station h).state == .active).length

/-! ### Award entries -/

/-- The entry of an award id. -/
def State.entry (s : State) (id : AwardId) : AwardEntry := s.awards[id.val]

/-- Replace an entry. -/
def State.setEntry (s : State) (id : AwardId) (e : AwardEntry) : State :=
  { s with awards := s.awards.set id.val e }

/-- The award ids, ascending. -/
def allAwardIds : List AwardId := [0, 1, 2, 3, 4, 5, 6, 7, 8, 9, 10, 11, 12, 13, 14, 15]

/-- OPEN_AWARDS: the number of entries in state OPEN (R81). -/
def State.openAwards (s : State) : Nat :=
  (allAwardIds.filter fun id => (s.entry id).award.isSome).length

/-- The lowest-numbered FREE entry (R87). -/
def State.lowestFreeEntry (s : State) : Option AwardId :=
  allAwardIds.find? fun id => (s.entry id).award.isNone

/-- The first held member with this handle is marked released (R81). -/
def markReleased (h : Handle) : List Member → List Member
  | [] => []
  | m :: ms =>
    if m.handle = h ∧ m.held = true then { m with held := false } :: ms
    else m :: markReleased h ms

/-- A member leaves its award: it is marked released, and the entry becomes FREE, keeping its
generation, when no member is held (R81, R84, R97). DESIGN CHOICE (log 15): the fields of a FREE entry,
which carry no meaning, are dropped. -/
def State.releaseMember (s : State) (id : AwardId) (h : Handle) : State :=
  match (s.entry id).award with
  | none => s
  | some a =>
    let members := markReleased h a.members
    s.setEntry id
      { s.entry id with
        award := if members.any (·.held) then some { a with members := members } else none }

/-- The handles of the held members of an award, in pop order (R81). -/
def OpenAward.heldHandles (a : OpenAward) : List Handle :=
  (a.members.filter (·.held)).map (·.handle)

/-- Every held member of every OPEN entry, in ascending award id and, within an entry, in pop order
(R101, R129). R129 gives this order for a link restart. DESIGN CHOICE (log 25): the release at the start of
a TABLE_CLEAR, for which R22 and R101 give none, takes it too. -/
def State.openMembers (s : State) : List ReleaseWork :=
  allAwardIds.flatMap fun id =>
    match (s.entry id).award with
    | none => []
    | some a => a.heldHandles.map fun h => ⟨id, h⟩

/-! ### Visits through the table port (R16, R17) -/

/-- The kind of visit that the engine's item has due. -/
def EngineItem.visit : EngineItem → Option EngineVisit
  | .idle => none
  | .askFirst _ => some .pop
  | .askMore _ _ _ => some .conditionalPop
  | .issuing _ _ _ => none
  | .answer _ => none
  | .done _ _ _ => some .doneMember
  | .expiry _ _ => some .expiryMember
  | .backlog _ => some .backlogEntry
  | .uplink _ _ => some .uplink
  | .clearRelease _ => some .release
  | .restartRelease _ _ => some .release
  | .restartBacklog _ _ => some .restartBacklog

/-- The kind of visit that the request being executed has due. -/
def Execution.visit : Execution → Option RequestVisit
  | .idle => none
  | .admitAllocate _ _ => some .allocation
  | .admitComplete _ _ _ => some .completion
  | .amend _ _ _ => some .amend
  | .reapplyRead _ => some .reapplyRead
  | .reapplyApply _ _ => some .reapplyApply
  | .retire _ => some .retire
  | .find _ => some .probe
  | .query _ => some .query
  | .list _ _ _ => some .scan
  | .clearRelease => none
  | .clearRecords _ => some .clearRecord

/-- A requester has a visit due. -/
def State.visitDue (s : State) : Requester → Bool
  | .award => s.engine.visit.isSome
  | .request => s.executing.visit.isSome
  | .walker => s.walker.step.isSome

/-- The visits of the Award Engine and the Request Processor waiting at a grant: those that waited
already, those that have come since, and the one the command names. Only a visit that is due can wait
(R17). -/
def State.arrivals (s : State) (r : Requester) (asks : PortAsks) : PortAsks :=
  { award := s.visitDue .award && (s.tablePort.award || asks.award || r == .award)
    request := s.visitDue .request && (s.tablePort.request || asks.request || r == .request) }

/-- The arbiter's choice: an urgent walker, then the Award Engine, then the Request Processor, then the
walker (R17). -/
def arbitrate (lag : Nat) (walkerWaits : Bool) (waiting : PortAsks) : Option Requester :=
  if walkerWaits && lag == Config.walkerLimit then some .walker
  else if waiting.award then some .award
  else if waiting.request then some .request
  else if walkerWaits then some .walker
  else none

/-- The visit of one requester no longer waits. -/
def withoutVisit (w : PortAsks) : Requester → PortAsks
  | .award => { w with award := false }
  | .request => { w with request := false }
  | .walker => w

/-- The arbiter grants the port to this requester. The walker asks for the first visit of a step as the
step begins, and for each other as the one before it has been made, so its visit waits whenever a step is
in progress (R109, R110). -/
def State.grants (s : State) (r : Requester) (asks : PortAsks) : Bool :=
  arbitrate s.walker.lag (s.visitDue .walker) (s.arrivals r asks) == some r

/-- The command of a visit: when the visit is due and the arbiter grants it, it is made whole; when the
arbiter grants the port to another, the visit keeps waiting (R16, R17). DESIGN CHOICE (log 2): the
command of a visit that is not due changes nothing. -/
def State.visit (s : State) (r : Requester) (asks : PortAsks) (due : Bool)
    (work : State → State) : State :=
  if s.resetLow || !due then s
  else if s.grants r asks then
    work { s with tablePort := withoutVisit (s.arrivals r asks) r }
  else { s with tablePort := s.arrivals r asks }

/-- A request asks for its first visit as it starts (R142; the table's rows of the starts). -/
def State.asksFor (s : State) (e : Execution) : State :=
  { s with executing := e, tablePort := { s.tablePort with request := true } }

/-- A visit of the Award Engine. -/
def State.engineVisit (s : State) (kind : EngineVisit) (asks : PortAsks)
    (work : State → State) : State :=
  s.visit .award asks (s.engine.visit == some kind) work

/-- A visit of the Request Processor. -/
def State.requestVisit (s : State) (kind : RequestVisit) (asks : PortAsks)
    (work : State → State) : State :=
  s.visit .request asks (s.executing.visit == some kind) work

/-! ### Ending a request (R142, R143) -/

/-- The executing request ends: its response enters the response queue, its slot is freed and no
request executes (R141, R142). -/
def State.respond (s : State) (status : Status) (clamped : Bool) (payload : List Byte) : State :=
  match s.requests with
  | [] => { s with executing := .idle }
  | q :: rest =>
    { s with
      executing := .idle
      requests := rest
      responses := s.responses ++ [⟨q.kind, status, clamped, payload⟩] }

/-! ### The passing of time (R98, R105) -/

/-- The distance from one timebase value to a later one, modulo 2^32 (R105). -/
def distance (now later : Word) : Nat := (later - now).toNat

/-- The expiries that become due when the timebase goes on by `n` µs: those of the issued entries whose
deadline it reaches (R98). -/
def State.newlyDue (s : State) (n : Nat) : List DueExpiry :=
  allAwardIds.filterMap fun id =>
    match (s.entry id).award with
    | none => none
    | some a =>
      match a.issue with
      | none => none
      | some i =>
        if 0 < distance s.timebase i.deadline ∧ distance s.timebase i.deadline ≤ n then
          some ⟨id, (s.entry id).generation⟩
        else none

/-- The timebase goes on by `n` µs, and the expiries whose deadlines it reaches become due. -/
def State.pass (s : State) (n : Nat) : State :=
  { s with
    timebase := s.timebase + BitVec.ofNat 32 n
    dueExpiries := s.dueExpiries ++ s.newlyDue n }

end Sys2Proof.Machine
end

