-- ==== Sys2Proof/Machine/Operands.lean ====
section
/-!
DEFINITION. The codings of the Management Port and the MAC Link: frames, payloads, the snapshot,
rules, items, messages in words and nibbles (chapter 10, R167 to R177), with the clamping of each
field where the coding carries it.
-/

namespace Sys2Proof.Machine

/-! ### Numbers in bytes (R167) -/

/-- The `n` low bytes of a number, most significant first. -/
def bytesOf (n x : Nat) : List Byte :=
  match n with
  | 0 => []
  | n + 1 => BitVec.ofNat 8 (x / 256 ^ n) :: bytesOf n x

/-- The number that bytes carry, most significant first. -/
def natOf (bytes : List Byte) : Nat := bytes.foldl (fun acc b => acc * 256 + b.toNat) 0

/-- A field of a payload: `n` bytes from byte `i`, as a number. -/
def fieldAt (p : List Byte) (i n : Nat) : Nat := natOf ((p.drop i).take n)

/-- A byte of a payload. -/
def byteAt (p : List Byte) (i : Nat) : Byte := p.getD i 0

/-- A number of `w` bits read as two's complement (R167). -/
def signedOf (w x : Nat) : Int := (BitVec.ofNat w x).toInt

/-- A signed number at `w` bits, as the number its bits carry (R167). -/
def codeSigned (w : Nat) (x : Int) : Nat := (BitVec.ofInt w x).toNat

/-- The nearer end of a range (00, Clamped). -/
def clampNat (x lo hi : Nat) : Nat := max lo (min x hi)

/-- The nearer end of a signed range. -/
def clampInt (x lo hi : Int) : Int := max lo (min x hi)

/-- A class set in the low four bits of a field (R167). -/
def classesOfBits (b : BitVec 4) : ClassSet :=
  ⟨b.getLsbD 0, b.getLsbD 1, b.getLsbD 2, b.getLsbD 3⟩

/-- The four bits of a class set (R167). -/
def bitsOfClasses (c : ClassSet) : BitVec 4 :=
  BitVec.ofBool c.sc3 ++ BitVec.ofBool c.sc2 ++ BitVec.ofBool c.sc1 ++ BitVec.ofBool c.sc0

/-- The class of a two-bit field (R176). -/
def classOfBits (b : BitVec 2) : ServiceClass :=
  match b.toNat with
  | 0 => .sc0
  | 1 => .sc1
  | 2 => .sc2
  | _ => .sc3

/-- The number of a class. -/
def ServiceClass.number : ServiceClass → Nat
  | .sc0 => 0
  | .sc1 => 1
  | .sc2 => 2
  | .sc3 => 3

/-- All classes in order. -/
def allClasses : List ServiceClass := [.sc0, .sc1, .sc2, .sc3]

/-- The 16-bit coding of no handle (R167). -/
def noHandle : Nat := 0xFFFF

/-- A handle field, 0xFFFF for none (R167). -/
def handleBytes (h : Option Handle) : List Byte :=
  match h with
  | none => bytesOf 2 noHandle
  | some h => bytesOf 2 h.val

/-! ### Codes of enumerations -/

/-- The code of a key kind (R173). -/
def KeyKind.code : KeyKind → BitVec 2
  | .address => 0
  | .capability => 1
  | .tag => 2
  | .chain => 3

/-- The key kind of a code; all four are assigned (R173). -/
def keyKindOf (b : BitVec 2) : KeyKind :=
  match b.toNat with
  | 0 => .address
  | 1 => .capability
  | 2 => .tag
  | _ => .chain

/-- The code of a verdict (R173). -/
def Verdict.code : Verdict → BitVec 2
  | .goOn => 0
  | .accept => 1
  | .deny => 2

/-- The verdict of a code, 3 taken as DENY (R27, R173). -/
def verdictOf (b : BitVec 2) : Verdict :=
  match b.toNat with
  | 0 => .goOn
  | 1 => .accept
  | _ => .deny

/-- The code of a chain control (R173). -/
def ChainControl.code : ChainControl → BitVec 2
  | .keep => 0
  | .set => 1
  | .add => 2

/-- The chain control of a code, 3 taken as ADD (R27, R173). -/
def chainControlOf (b : BitVec 2) : ChainControl :=
  match b.toNat with
  | 0 => .keep
  | 1 => .set
  | _ => .add

/-- The code of a checker's select (R174). -/
def CheckerSelect.code : CheckerSelect → Byte
  | .off => 0
  | .signal => 1
  | .rate => 2
  | .tag => 3
  | .streams => 4

/-- The select of a code; 5..255 store OFF (R28, R174). -/
def checkerSelectOf (b : Byte) : CheckerSelect :=
  match b.toNat with
  | 1 => .signal
  | 2 => .rate
  | 3 => .tag
  | 4 => .streams
  | _ => .off

/-- The code of a status (R169). -/
def Status.code : Status → Byte
  | .ok => 0
  | .deferred => 1
  | .noRoom => 2
  | .duplicate => 3
  | .denied => 4
  | .noClass => 5
  | .noStation => 6
  | .notFound => 7
  | .badKind => 8
  | .badItem => 9
  | .badRule => 10
  | .readOnly => 11

/-- The state code (R171). -/
def StationState.code : StationState → Nat
  | .free => 0
  | .forming => 1
  | .active => 2
  | .dormant => 3
  | .draining => 4
  | .cooling => 5

/-- The reason code of a DECLINE (R176). -/
def DeclineReason.code : DeclineReason → Nat
  | .clearing => 1
  | .classOff => 2
  | .awardsFull => 3
  | .noCredit => 4
  | .noStation => 5

/-! ### Frames (R140, R169) -/

/-- The request kind of a code (R169). -/
def requestKindOf (b : Byte) : Option RequestKind :=
  match b.toNat with
  | 0x01 => some .admitting
  | 0x02 => some .amend
  | 0x03 => some .reapply
  | 0x04 => some .retire
  | 0x05 => some .find
  | 0x06 => some .query
  | 0x07 => some .list
  | 0x10 => some .rulePut
  | 0x11 => some .ruleGet
  | 0x12 => some .itemPut
  | 0x13 => some .itemGet
  | 0x14 => some .summaryClear
  | 0x1F => some .tableClear
  | _ => none

/-- The request payload length of a kind (R169). -/
def RequestKind.payloadLength : RequestKind → Nat
  | .admitting => 11
  | .amend => 18
  | .reapply => 2
  | .retire => 2
  | .find => 6
  | .query => 2
  | .list => 3
  | .rulePut => 27
  | .ruleGet => 1
  | .itemPut => 5
  | .itemGet => 1
  | .summaryClear => 3
  | .tableClear => 0

/-- The kind of a request whose kind byte is known and whose payload length suits it; none is refused
BAD_KIND (R147). -/
def Request.form (q : Request) : Option RequestKind :=
  match requestKindOf q.kind with
  | none => none
  | some k => if q.payload.length = k.payloadLength then some k else none

/-- The request of a well-formed frame: two header bytes, a length byte in 0..60, and as many bytes
after the header as it says (R140). -/
def requestOfFrame (frame : List Byte) : Option Request :=
  match frame with
  | kind :: len :: payload =>
    if len.toNat ≤ Config.payloadLimit ∧ payload.length = len.toNat then some ⟨kind, payload⟩
    else none
  | _ => none

/-- The bytes of a response frame: kind, status, flags with the clamped bit in bit 0, length, payload
(R143, R169). -/
def Response.bytes (r : Response) : List Byte :=
  [r.kind, r.status.code, if r.clamped then 1 else 0, BitVec.ofNat 8 r.payload.length] ++ r.payload

/-- The empty frame, four bytes of 0 (R144, R169). -/
def emptyFrame : List Byte := [0, 0, 0, 0]

/-- The frame that a TAKE has fixed (R144). -/
def fixedFrame (fixed : Option Response) : List Byte :=
  match fixed with
  | none => emptyFrame
  | some r => r.bytes

/-- The three bytes of the PEEK summary as the state stands (R145, R168). -/
def State.summary (s : State) : List Byte :=
  [BitVec.ofBool s.clearing ++ BitVec.ofBool s.linkUp ++ BitVec.ofNat 3 s.responses.length ++
      BitVec.ofNat 3 s.requests.length,
    s.flags.word.extractLsb' 8 8, s.flags.word.extractLsb' 0 8]

/-! ### The descriptor (R170) -/

/-- Bits of a byte as a number. -/
def bitsAt (b : Byte) (lo n : Nat) : Nat := (b.extractLsb' lo n).toNat

/-- The descriptor of an ADMIT payload, its numeric fields clamped (R148, R170). -/
def descriptorOf (p : List Byte) : Descriptor :=
  { linkAddress := BitVec.ofNat 48 (fieldAt p 0 6)
    deviceTag := (byteAt p 6).toNat
    band := min (bitsAt (byteAt p 7) 0 2) 2
    streams := clampNat (bitsAt (byteAt p 7) 2 3) 1 4
    topRate := min (byteAt p 8).toNat 31
    legacy := (byteAt p 7).getLsbD 5
    multiUser := (byteAt p 7).getLsbD 6
    signal := (byteAt p 9).toInt
    requested := classesOfBits ((byteAt p 10).extractLsb' 0 4) }

/-- Some numeric field of an ADMIT payload was out of range (R148, R170). -/
def descriptorClamped (p : List Byte) : Bool :=
  decide (2 < bitsAt (byteAt p 7) 0 2) || decide (bitsAt (byteAt p 7) 2 3 < 1) ||
    decide (4 < bitsAt (byteAt p 7) 2 3) || decide (31 < (byteAt p 8).toNat)

/-- The 11 bytes of a stored descriptor (R170). -/
def Descriptor.bytes (d : Descriptor) : List Byte :=
  bytesOf 6 d.linkAddress.toNat ++
    [BitVec.ofNat 8 d.deviceTag,
      0#1 ++ BitVec.ofBool d.multiUser ++ BitVec.ofBool d.legacy ++ BitVec.ofNat 3 d.streams ++
        BitVec.ofNat 2 d.band,
      BitVec.ofNat 8 d.topRate, BitVec.ofInt 8 d.signal, 0#4 ++ bitsOfClasses d.requested]

/-! ### The rule trace (R170) -/

/-- One entry byte of a trace. -/
def TraceEntry.byte (t : TraceEntry) : Byte := BitVec.ofNat 2 t.stage.val ++ BitVec.ofNat 6 t.rule.val

/-- A rule trace in five bytes: the count, then four entry bytes, 0 beyond the count (R170). -/
def traceBytes (entries : List TraceEntry) : List Byte :=
  BitVec.ofNat 8 entries.length :: (List.range 4).map fun i =>
    match entries[i]? with
    | none => 0
    | some t => t.byte

/-! ### Rules (R173) -/

/-- A write set from its bits, in the order of AMEND bits 0..6 (R171, R173). -/
def writeSetOf (x : Nat) : WriteSet :=
  { weight := x.testBit 0, classes := x.testBit 1, ceiling := x.testBit 2, borrow := x.testBit 3,
    costShift := x.testBit 4, uplinkEighths := x.testBit 5, softCap := x.testBit 6 }

/-- The bits of a write set. -/
def WriteSet.bits (w : WriteSet) : BitVec 7 :=
  BitVec.ofBool w.softCap ++ BitVec.ofBool w.uplinkEighths ++ BitVec.ofBool w.costShift ++
    BitVec.ofBool w.borrow ++ BitVec.ofBool w.ceiling ++ BitVec.ofBool w.classes ++
    BitVec.ofBool w.weight

/-- The numeric profile values clamped into the ranges of R4 (R27, R149). -/
def Profile.clamp (v : Profile) : Profile :=
  { weight := clampNat v.weight 1 64
    classes := v.classes
    ceiling := min v.ceiling 65535
    borrow := min v.borrow 8191
    costShift := clampInt v.costShift (-3) 3
    uplinkEighths := min v.uplinkEighths 8
    softCap := min v.softCap 65535 }

/-- The profile values a rule's bytes carry from byte `i`, before clamping (R173). -/
def profileValuesAt (p : List Byte) (i : Nat) : Profile :=
  { weight := fieldAt p i 1
    classes := classesOfBits ((byteAt p (i + 1)).extractLsb' 0 4)
    ceiling := fieldAt p (i + 2) 2
    borrow := fieldAt p (i + 4) 2
    costShift := (byteAt p (i + 6)).toInt
    uplinkEighths := fieldAt p (i + 7) 1
    softCap := fieldAt p (i + 8) 2 }

/-- The ten bytes of profile values (R172, R173). -/
def Profile.bytes (v : Profile) : List Byte :=
  [BitVec.ofNat 8 v.weight, 0#4 ++ bitsOfClasses v.classes] ++ bytesOf 2 v.ceiling ++
    bytesOf 2 v.borrow ++ [BitVec.ofInt 8 v.costShift, BitVec.ofNat 8 v.uplinkEighths] ++
    bytesOf 2 v.softCap

/-- The rule that 26 bytes carry, with its adjustments (R173). -/
def ruleOf (p : List Byte) : PolicyRule :=
  { valid := (byteAt p 0).getLsbD 7
    kind := keyKindOf ((byteAt p 0).extractLsb' 4 2)
    stages := (byteAt p 0).extractLsb' 0 4
    value := BitVec.ofNat 48 (fieldAt p 1 6)
    mask := BitVec.ofNat 48 (fieldAt p 7 6)
    action :=
      { writes := writeSetOf (byteAt p 13).toNat
        values := (profileValuesAt p 14).clamp
        verdict := verdictOf ((byteAt p 24).extractLsb' 0 2)
        nextKind := keyKindOf ((byteAt p 24).extractLsb' 4 2)
        chainControl := chainControlOf ((byteAt p 24).extractLsb' 2 2)
        chainValue := (byteAt p 25).toNat } }

/-- Some field of a rule's bytes was adjusted (R173). -/
def ruleClamped (p : List Byte) : Bool :=
  (profileValuesAt p 14).clamp != profileValuesAt p 14 ||
    (byteAt p 24).extractLsb' 0 2 == 3 || (byteAt p 24).extractLsb' 2 2 == 3

/-- The 26 bytes of a stored rule (R173). -/
def PolicyRule.bytes (r : PolicyRule) : List Byte :=
  [BitVec.ofBool r.valid ++ 0#1 ++ r.kind.code ++ r.stages] ++ bytesOf 6 r.value.toNat ++
    bytesOf 6 r.mask.toNat ++ [0#1 ++ r.action.writes.bits] ++ r.action.values.bytes ++
    [0#2 ++ r.action.nextKind.code ++ r.action.chainControl.code ++ r.action.verdict.code,
      BitVec.ofNat 8 r.action.chainValue]

/-! ### AMEND (R149, R171) -/

/-- The values an AMEND payload carries, before clamping. The ten profile bytes have the layout of a
rule's (R171). -/
def amendRaw (p : List Byte) : AmendFields :=
  { writes := writeSetOf (fieldAt p 2 2)
    writesSignal := (fieldAt p 2 2).testBit 7
    writesCredit := (fieldAt p 2 2).testBit 8
    values := profileValuesAt p 4
    signal := (byteAt p 14).toInt
    credit := signedOf 24 (fieldAt p 15 3) }

/-- The AMEND fields with every value clamped (R149). -/
def amendOf (p : List Byte) : AmendFields :=
  { amendRaw p with
    values := (amendRaw p).values.clamp
    credit := clampInt (amendRaw p).credit Config.creditFloor Config.creditTop }

/-- Some named value of an AMEND was out of range; a value not named is not clamped (R171). -/
def amendClamped (p : List Byte) : Bool :=
  let raw := amendRaw p
  let fit := amendOf p
  (raw.writes.weight && raw.values.weight != fit.values.weight) ||
    (raw.writes.borrow && raw.values.borrow != fit.values.borrow) ||
    (raw.writes.costShift && raw.values.costShift != fit.values.costShift) ||
    (raw.writes.uplinkEighths && raw.values.uplinkEighths != fit.values.uplinkEighths) ||
    (raw.writesCredit && raw.credit != fit.credit)

/-- The 18 bytes of an AMEND response: the handle, the field set less bits 9..15, each named value as
written and 0 for each not named (R171). -/
def amendResponse (h : Handle) (f : AmendFields) : List Byte :=
  let w := f.writes
  let v := f.values
  bytesOf 2 h.val ++
    [0#7 ++ BitVec.ofBool f.writesCredit,
      BitVec.ofBool f.writesSignal ++ w.bits,
      if w.weight then BitVec.ofNat 8 v.weight else 0,
      if w.classes then 0#4 ++ bitsOfClasses v.classes else 0] ++
    bytesOf 2 (if w.ceiling then v.ceiling else 0) ++
    bytesOf 2 (if w.borrow then v.borrow else 0) ++
    [if w.costShift then BitVec.ofInt 8 v.costShift else 0,
      if w.uplinkEighths then BitVec.ofNat 8 v.uplinkEighths else 0] ++
    bytesOf 2 (if w.softCap then v.softCap else 0) ++
    [if f.writesSignal then BitVec.ofInt 8 f.signal else 0] ++
    bytesOf 3 (if f.writesCredit then codeSigned 24 f.credit else 0)

/-! ### Payloads of the other responses (R169, R171) -/

/-- The payload of a refused AMEND: the handle as received, every other field 0 (R169). -/
def amendRefused (handle : Nat) : List Byte := bytesOf 2 handle ++ List.replicate 16 0

/-- The ADMIT response payload (R170). -/
def admitResponse (h : Option Handle) (entries : List TraceEntry) : List Byte :=
  handleBytes h ++ traceBytes entries

/-- The LIST response payload: the count, 28 handle fields, the next handle (R171). -/
def listResponse (found : List Handle) (next : Option Handle) : List Byte :=
  BitVec.ofNat 8 found.length ::
    ((List.range Config.listLimit).flatMap fun i => handleBytes found[i]?) ++ handleBytes next

/-- The QUERY payload of a refusal: every handle field 0xFFFF, every other field 0 (R169). -/
def queryRefused : List Byte :=
  List.replicate 40 0 ++ List.replicate 16 0xFF ++ List.replicate 4 0

/-- The handle fields of an overflow place, previous then next (R172). -/
def overflowBytes (o : Option OverflowPlace) : List Byte :=
  match o with
  | none => handleBytes none ++ handleBytes none
  | some p => handleBytes p.prev ++ handleBytes p.next

/-- A set of classes from what holds of each. -/
def classesWhere (p : ServiceClass → Bool) : ClassSet := ⟨p .sc0, p .sc1, p .sc2, p .sc3⟩

/-- The record with each field that carries no meaning in its state at its cleared value (R1, R153). -/
def StationRecord.shown (r : StationRecord) : StationRecord :=
  let settled := r.state == .active || r.state == .dormant || r.state == .draining ||
    r.state == .cooling
  let bound := r.state == .active || r.state == .dormant || r.state == .draining
  let active := r.state == .active
  { StationRecord.cleared with
    state := r.state
    descriptor := if r.state == .free then Descriptor.cleared else r.descriptor
    profile := if settled then r.profile else Profile.cleared
    trace := if settled then r.trace else []
    credit := if settled then r.credit else 0
    usage := if settled then r.usage else 0
    average := if settled then r.average else 0
    backlog := if active then r.backlog else ClassSet.none
    inFlight := if bound then r.inFlight else ClassSet.none
    ringSlot := if active then r.ringSlot else PerClass.const none
    overflow := if active then r.overflow else PerClass.const none
    idleCountdown := if settled then r.idleCountdown else 0
    coolCountdown := if r.state == .cooling then r.coolCountdown else 0
    failStreak := if settled then r.failStreak else 0 }

/-- The 60 bytes of a snapshot (R172). -/
def snapshotBytes (r : StationRecord) (epoch : BitVec 16) : List Byte :=
  let v := r.shown
  [BitVec.ofNat 8 v.state.code] ++ v.descriptor.bytes ++ v.profile.bytes ++ traceBytes v.trace ++
    bytesOf 3 (codeSigned 24 v.credit) ++ bytesOf 2 v.usage ++ bytesOf 2 v.average ++
    [bitsOfClasses v.inFlight ++ bitsOfClasses v.backlog,
      bitsOfClasses (classesWhere fun c => (v.overflow.get c).isSome) ++
        bitsOfClasses (classesWhere fun c => (v.ringSlot.get c).isSome)] ++
    (allClasses.map fun c => (v.ringSlot.get c).getD 0) ++
    (allClasses.flatMap fun c => overflowBytes (v.overflow.get c)) ++
    [BitVec.ofNat 8 v.idleCountdown, BitVec.ofNat 4 v.coolCountdown ++ BitVec.ofNat 4 v.failStreak] ++
    bytesOf 2 epoch.toNat

/-! ### Settings items (R157, R160, R174) -/

/-- The programmable item of a number (R157). -/
def settingItemOf (n : Nat) : Option SettingItem :=
  match n with
  | 0x01 => some .stepInterval
  | 0x02 => some .quantum
  | 0x03 => some .holdMask
  | 0x04 => some .idleLimit
  | 0x05 => some .coolEpochs
  | 0x06 => some .awardTimeout
  | 0x07 => some (.overhead .sc0)
  | 0x08 => some (.overhead .sc1)
  | 0x09 => some (.overhead .sc2)
  | 0x0A => some (.overhead .sc3)
  | 0x0B => some .avgShift
  | 0x0C => some .penaltyShift
  | 0x0D => some .failLimit
  | 0x0E => some .classEnable
  | 0x0F => some .firstKind
  | 0x10 => some .defaultWeight
  | 0x11 => some .defaultClasses
  | 0x12 => some .defaultCeiling
  | 0x13 => some .defaultBorrow
  | 0x14 => some .defaultCostShift
  | 0x15 => some .defaultUplinkEighths
  | 0x16 => some .defaultSoftCap
  | 0x17 => some .pullIn
  | 0x18 => some (.checker 0)
  | 0x19 => some (.checker 1)
  | 0x1A => some (.checker 2)
  | 0x1B => some (.checker 3)
  | 0x1C => some .attnMask
  | _ => none

/-- The read-only item of a number (R160). -/
def readOnlyItemOf (n : Nat) : Option ReadOnlyItem :=
  match n with
  | 0x00 => some .version
  | 0x30 => some .activeCount
  | 0x31 => some .freeCount
  | 0x32 => some (.ringOccupancy .sc0)
  | 0x33 => some (.ringOccupancy .sc1)
  | 0x34 => some (.ringOccupancy .sc2)
  | 0x35 => some (.ringOccupancy .sc3)
  | 0x36 => some (.overflowLength .sc0)
  | 0x37 => some (.overflowLength .sc1)
  | 0x38 => some (.overflowLength .sc2)
  | 0x39 => some (.overflowLength .sc3)
  | 0x3A => some .lagLead
  | 0x3B => some .epoch
  | 0x3C => some .groupPointer
  | 0x3D => some .openAwards
  | 0x3E => some .staleCount
  | 0x3F => some .lateCount
  | 0x40 => some .malformedCount
  | 0x41 => some .forfeitCount
  | 0x42 => some .expiredCount
  | 0x43 => some .frameErrorCount
  | _ => none

/-- The coded value of a range checker (R174). -/
def Checker.word (c : Checker) : Word := c.select.code ++ c.low ++ c.high ++ 0#8

/-- The checker of a coded value; bits 7..0 are not assigned (R174). -/
def checkerOf (v : Word) : Checker :=
  { select := checkerSelectOf (v.extractLsb' 24 8)
    low := v.extractLsb' 16 8
    high := v.extractLsb' 8 8 }

/-- The coded value of a programmable item (R174). -/
def Settings.read (t : Settings) : SettingItem → Word
  | .stepInterval => BitVec.ofNat 32 t.stepInterval
  | .quantum => BitVec.ofNat 32 t.quantum
  | .holdMask => t.holdMask.setWidth 32
  | .idleLimit => BitVec.ofNat 32 t.idleLimit
  | .coolEpochs => BitVec.ofNat 32 t.coolEpochs
  | .awardTimeout => BitVec.ofNat 32 t.awardTimeout
  | .overhead c => BitVec.ofNat 32 (t.overhead.get c)
  | .avgShift => BitVec.ofNat 32 t.avgShift
  | .penaltyShift => BitVec.ofNat 32 t.penaltyShift
  | .failLimit => BitVec.ofNat 32 t.failLimit
  | .classEnable => (bitsOfClasses t.classEnable).setWidth 32
  | .firstKind => t.firstKind.code.setWidth 32
  | .defaultWeight => BitVec.ofNat 32 t.defaultProfile.weight
  | .defaultClasses => (bitsOfClasses t.defaultProfile.classes).setWidth 32
  | .defaultCeiling => BitVec.ofNat 32 t.defaultProfile.ceiling
  | .defaultBorrow => BitVec.ofNat 32 t.defaultProfile.borrow
  | .defaultCostShift => BitVec.ofInt 32 t.defaultProfile.costShift
  | .defaultUplinkEighths => BitVec.ofNat 32 t.defaultProfile.uplinkEighths
  | .defaultSoftCap => BitVec.ofNat 32 t.defaultProfile.softCap
  | .pullIn => BitVec.ofNat 32 t.pullIn
  | .checker i => t.checkers[i.val].word
  | .attnMask => t.attnMask.setWidth 32

/-- Store a coded value in a programmable item, clamped into its range; a set keeps its members only
(R157, R158, R174). -/
def Settings.write (t : Settings) (v : Word) : SettingItem → Settings
  | .stepInterval => { t with stepInterval := clampNat v.toNat 100 20000 }
  | .quantum => { t with quantum := clampNat v.toNat 16 4095 }
  | .holdMask => { t with holdMask := v.setWidth 16 }
  | .idleLimit => { t with idleLimit := clampNat v.toNat 1 255 }
  | .coolEpochs => { t with coolEpochs := clampNat v.toNat 1 15 }
  | .awardTimeout => { t with awardTimeout := clampNat v.toNat 1000 65000 }
  | .overhead c => { t with overhead := t.overhead.set c (clampNat v.toNat 0 1023) }
  | .avgShift => { t with avgShift := clampNat v.toNat 1 7 }
  | .penaltyShift => { t with penaltyShift := clampNat v.toNat 0 4 }
  | .failLimit => { t with failLimit := clampNat v.toNat 1 15 }
  | .classEnable => { t with classEnable := classesOfBits (v.setWidth 4) }
  | .firstKind => { t with firstKind := keyKindOf (BitVec.ofNat 2 (clampNat v.toNat 0 3)) }
  | .defaultWeight =>
    { t with defaultProfile := { t.defaultProfile with weight := clampNat v.toNat 1 64 } }
  | .defaultClasses =>
    { t with defaultProfile := { t.defaultProfile with classes := classesOfBits (v.setWidth 4) } }
  | .defaultCeiling =>
    { t with defaultProfile := { t.defaultProfile with ceiling := clampNat v.toNat 0 65535 } }
  | .defaultBorrow =>
    { t with defaultProfile := { t.defaultProfile with borrow := clampNat v.toNat 0 8191 } }
  | .defaultCostShift =>
    { t with defaultProfile := { t.defaultProfile with costShift := clampInt v.toInt (-3) 3 } }
  | .defaultUplinkEighths =>
    { t with defaultProfile := { t.defaultProfile with uplinkEighths := clampNat v.toNat 0 8 } }
  | .defaultSoftCap =>
    { t with defaultProfile := { t.defaultProfile with softCap := clampNat v.toNat 0 65535 } }
  | .pullIn => { t with pullIn := clampNat v.toNat 0 1 }
  | .checker i => { t with checkers := t.checkers.set i.val (checkerOf v) }
  | .attnMask => { t with attnMask := v.setWidth 14 }

/-- The bits of the value that an item's coding assigns to no field; they are ignored (R167, R174). -/
def SettingItem.carried (v : Word) : SettingItem → Word
  | .checker _ => v &&& 0xFFFFFF00
  | _ => v

/-- The value stored differs from the value carried: it was clamped, or a position was dropped (R158). -/
def Settings.clamps (t : Settings) (v : Word) (i : SettingItem) : Bool :=
  (t.write v i).read i != SettingItem.carried v i

/-! ### Messages of the MAC Link (R124, R125, R176) -/

/-- Nibbles into words, bits 31..28 first; none when an incomplete word is left over (R124, R167). -/
def wordsOf : List Nibble → Option (List Word)
  | [] => some []
  | a :: b :: c :: d :: e :: f :: g :: h :: rest =>
    (wordsOf rest).map fun ws => (a ++ b ++ c ++ d ++ e ++ f ++ g ++ h : Word) :: ws
  | _ => none

/-- A word's eight nibbles, bits 31..28 first (R167). -/
def nibblesOf (w : Word) : List Nibble :=
  [w.extractLsb' 28 4, w.extractLsb' 24 4, w.extractLsb' 20 4, w.extractLsb' 16 4,
    w.extractLsb' 12 4, w.extractLsb' 8 4, w.extractLsb' 4 4, w.extractLsb' 0 4]

/-- A field of a word, `n` bits from bit `lo`, as a number. -/
def fieldOf (w : Word) (lo n : Nat) : Nat := (w.extractLsb' lo n).toNat

/-- The outcome of its code (R176). -/
def outcomeOf (code : Nat) : TxOutcome :=
  match code with
  | 0 => .delivered
  | 1 => .partly
  | 2 => .failed
  | _ => .unassigned

/-- A DONE member entry (R176). -/
def doneEntryOf (w : Word) : DoneEntry :=
  { outcome := outcomeOf (fieldOf w 30 2), share := fieldOf w 25 5, backlogged := w.getLsbD 24 }

/-- A BACKLOG entry; none for a handle above 511 (R125, R176). -/
def backlogEntryOf (w : Word) : Option BacklogEntry :=
  (handleOf (fieldOf w 16 16)).map fun h => ⟨h, classOfBits (w.extractLsb' 14 2), w.getLsbD 13⟩

/-- A member or entry count within 1..8 that agrees with the words that follow (R125). -/
def countAgrees (count : Nat) (rest : List Word) : Bool :=
  decide (1 ≤ count) && decide (count ≤ Config.memberLimit) && decide (rest.length = count)

/-- The message that the words of an inbound message carry, none when a check of R125 fails: the type,
then the length, then the handles. -/
def inMessageOf (words : List Word) : Option InMessage :=
  match words with
  | [] => none
  | w :: rest =>
    match fieldOf w 28 4 with
    | 0x1 =>
      match rest with
      | [t] =>
        some (.ask
          { tag := w.extractLsb' 0 8, cls := classOfBits (w.extractLsb' 26 2),
            maximum := fieldOf w 21 4, multiUser := w.getLsbD 25, txop := fieldOf t 0 16 })
      | _ => none
    | 0x2 =>
      if countAgrees (fieldOf w 16 4) rest then
        some (.done (w.extractLsb' 24 4).toFin (w.extractLsb' 20 4) (fieldOf w 0 14)
          (rest.map doneEntryOf))
      else none
    | 0x3 =>
      if countAgrees (fieldOf w 24 4) rest then (rest.mapM backlogEntryOf).map .backlog else none
    | 0x4 =>
      match rest with
      | [t] => (handleOf (fieldOf w 0 16)).map fun h => .uplink h (fieldOf t 0 14)
      | _ => none
    | 0x5 =>
      match rest with
      | [] => some (.sync (w.extractLsb' 0 8))
      | _ => none
    | _ => none

/-- The well-formed message of a strobe's nibbles; words beyond the 24th make it malformed by its
length (R124, R125). -/
def receivedMessage (nibbles : List Nibble) : Option InMessage :=
  match wordsOf nibbles with
  | none => none
  | some words => if Config.assemblyWords < words.length then none else inMessageOf words

/-- Member handles two to a word, an unused half 0xFFFF (R176). -/
def memberWords : List Handle → List Word
  | [] => []
  | [h] => [(BitVec.ofNat 16 h.val ++ BitVec.ofNat 16 noHandle : Word)]
  | h :: k :: rest => (BitVec.ofNat 16 h.val ++ BitVec.ofNat 16 k.val : Word) :: memberWords rest

/-- The words of an outbound message; bits of no field are 0 (R167, R176). -/
def OutMessage.words : OutMessage → List Word
  | .award tag id generation cls duration members =>
    [(0x9#4 ++ BitVec.ofNat 4 id.val ++ generation ++ BitVec.ofNat 2 cls.number ++
        BitVec.ofNat 4 members.length ++ 0#6 ++ tag : Word),
      (0#18 ++ BitVec.ofNat 14 duration : Word)] ++ memberWords members
  | .decline tag cls reason =>
    [(0xA#4 ++ BitVec.ofNat 2 cls.number ++ 0#7 ++ BitVec.ofNat 3 reason.code ++ 0#8 ++ tag : Word)]
  | .sync tag => [(0x5#4 ++ 0#20 ++ tag : Word)]

/-- The nibbles of an outbound message in the order sent (R135, R167). -/
def OutMessage.nibbles (m : OutMessage) : List Nibble := m.words.flatMap nibblesOf

end Sys2Proof.Machine
end

