-- ==== Sys2Proof/Machine/Arithmetic.lean ====
section
/-!
DEFINITION. Credit arithmetic (chapter 3): replenishment, the usage average, allowance and duration,
and the DONE, expiry and uplink debits. Every figure is an exact integer; division rounds toward minus
infinity unless a rule says up.
-/

namespace Sys2Proof.Machine

/-- The amount of a replenishment before the penalty (R45). -/
def replenishAmount (quantum weight : Nat) : Nat := quantum * weight / 16

/-- The amount after the soft-cap penalty (R46). -/
def penalised (amount softCap average penaltyShift : Nat) : Nat :=
  if 0 < softCap ∧ softCap < average then amount / 2 ^ penaltyShift else amount

/-- The credit after a payment under the ceiling (R47). -/
def paid (credit : Int) (ceiling amount : Nat) : Int :=
  if credit < ceiling then min (credit + amount) ceiling else credit

/-- The initial credit of an admitted station (R48). -/
def initialCredit (quantum : Nat) (p : Profile) : Int :=
  min (p.ceiling : Int) (replenishAmount quantum p.weight)

/-- The average after a walker visit (R49). -/
def newAverage (average usage avgShift : Nat) : Nat :=
  ((average : Int) + ((usage : Int) - (average : Int)) / 2 ^ avgShift).toNat

/-- Usage rises and saturates at 65535 (R53, R58). -/
def raisedUsage (usage airtime : Nat) : Nat := min (usage + airtime) Config.countLimit

/-- A member's allowance: credit plus borrow (R51). -/
def allowance (r : StationRecord) : Int := r.credit + r.profile.borrow

/-- The duration of an award: the least of the txop taken into 32..16383, the recorded allowances and
16383 (R52). -/
def awardDuration (txop : Nat) (allowances : List Int) : Nat :=
  (allowances.foldl min (min (clampNat txop Config.txopLeast Config.durationLimit : Nat)
    (Config.durationLimit : Nat) : Int)).toNat

/-- The share as read: 16 for a one-member award, else taken into 1..16 (R53). -/
def readShare (oneMember : Bool) (share : Nat) : Nat :=
  if oneMember then 16 else clampNat share 1 16

/-- A member's portion of the airtime, rounded up (R53). -/
def portionOf (airtime share : Nat) : Nat := (airtime * share + 15) / 16

/-- The base charge scaled by the cost shift: multiplied by 1, 2, 4 or 8, or divided by 2, 4 or 8 and
rounded down (R54). -/
def scaledBy (base : Nat) (costShift : Int) : Nat :=
  if 0 ≤ costShift then base * 2 ^ costShift.toNat else base / 2 ^ (-costShift).toNat

/-- The debit before its limit, from a portion and the class's overhead (R54, R57). -/
def rawDebit (portion overhead : Nat) (costShift : Int) : Nat :=
  scaledBy (portion + overhead) costShift

/-- A debit limited at 65535 (R55). -/
def saturatedDebit (debit : Nat) : Nat := min debit Config.debitLimit

/-- The saturation of R55 comes about. -/
def debitSaturates (debit : Nat) : Bool := decide (Config.debitLimit < debit)

/-- A debit subtracted from credit, floored at -524288 (R56). -/
def flooredCredit (credit : Int) (debit : Nat) : Int := max (credit - debit) Config.creditFloor

/-- The floor of R56 comes about. -/
def creditFloors (credit : Int) (debit : Nat) : Bool :=
  decide (credit - debit < Config.creditFloor)

/-- The uplink debit (R58). -/
def uplinkDebit (airtime uplinkEighths : Nat) : Nat := airtime * uplinkEighths / 8

/-- The group of a handle (00, Handles and groups). -/
def groupOf (h : Handle) : Nat := h.val / 32

end Sys2Proof.Machine
end

