-- ==== Sys2Proof/Machine/Index.lean ====
section
/-!
DEFINITION. The free list (R11) and the address index (R12 to R14): chains of records linked through
the table.
-/

namespace Sys2Proof.Machine

/-- The handles reached from a handle by a link of the records, at most `fuel` of them. A chain holds at
most 512 records, so a walk of 512 reaches its end (log 16). -/
def State.walk (fuel : Nat) (s : State) (link : StationRecord → Option Handle)
    (h : Option Handle) : List Handle :=
  match fuel with
  | 0 => []
  | fuel + 1 =>
    match h with
    | none => []
    | some h => h :: State.walk fuel s link (link (s.station h))

/-- The handle before `h` in a chain, none where `h` is first or absent. -/
def predecessorIn (h : Handle) : List Handle → Option Handle
  | a :: b :: rest => if b = h then some a else predecessorIn h (b :: rest)
  | _ => none

/-! ### The free list (R11) -/

/-- The free list, head first. -/
def State.freeList (s : State) : List Handle := s.walk 512 (·.nextFree) s.freeHead

/-- FREE_COUNT: the length of the free list (R2, R11). -/
def State.freeCount (s : State) : Nat := s.freeList.length

/-- The next-free link of a record. -/
def State.setNextFree (s : State) (h : Handle) (next : Option Handle) : State :=
  s.changeStation h fun r => { r with nextFree := next }

/-- Take the head record from the free list (R11 (a)). DESIGN CHOICE (log 28): no rule says what the next-free
link of the record taken becomes; the model makes it none. -/
def State.takeFree (s : State) (h : Handle) : State :=
  let next := (s.station h).nextFree
  let s := s.setNextFree h none
  { s with freeHead := next, freeTail := if next.isNone then none else s.freeTail }

/-- A record becomes FREE, cleared, at the head of the free list (R11 (b)). -/
def State.freeAtHead (s : State) (h : Handle) : State :=
  let old := s.freeHead
  let s := s.setStation h { StationRecord.cleared with nextFree := old }
  { s with freeHead := some h, freeTail := if old.isNone then some h else s.freeTail }

/-- A record becomes FREE, cleared, at the tail of the free list (R11 (c)). -/
def State.freeAtTail (s : State) (h : Handle) : State :=
  let s := s.setStation h StationRecord.cleared
  match s.freeTail with
  | none => { s with freeHead := some h, freeTail := some h }
  | some t => { s.setNextFree t (some h) with freeTail := some h }

/-- Take a record out of the free list wherever it stands. -/
def State.unlinkFree (s : State) (h : Handle) : State :=
  let next := (s.station h).nextFree
  let pred := predecessorIn h s.freeList
  let s' := match pred with
    | some a => s.setNextFree a next
    | none => if s.freeHead = some h then { s with freeHead := next } else s
  { s' with freeTail := if s.freeTail = some h then pred else s.freeTail }

/-- A record becomes FREE, cleared, and stands in the free list just after the handle below it, or at
the head for handle 0: the record visits of TABLE_CLEAR so build the ascending list (R11 (d), R22). -/
def State.freeInOrder (s : State) (h : Handle) : State :=
  match Handle.before h with
  | none => s.freeAtHead h
  | some a =>
    let next := (s.station a).nextFree
    let s := (s.setStation h { StationRecord.cleared with nextFree := next }).setNextFree a (some h)
    { s with freeTail := if next.isNone then some h else s.freeTail }

/-! ### The address index (R12 to R14) -/

/-- The bucket of a link address: the exclusive OR of its six bytes (R12). -/
def bucketOf (a : BitVec 48) : BitVec 8 :=
  a.extractLsb' 40 8 ^^^ a.extractLsb' 32 8 ^^^ a.extractLsb' 24 8 ^^^ a.extractLsb' 16 8 ^^^
    a.extractLsb' 8 8 ^^^ a.extractLsb' 0 8

/-- The head of a bucket. -/
def State.bucketHead (s : State) (b : BitVec 8) : Option Handle := s.buckets[b.toFin.val]

/-- Replace the head of a bucket. -/
def State.setBucketHead (s : State) (b : BitVec 8) (h : Option Handle) : State :=
  { s with buckets := s.buckets.set b.toFin.val h }

/-- The next-in-bucket link of a record. -/
def State.setNextInBucket (s : State) (h : Handle) (next : Option Handle) : State :=
  s.changeStation h fun r => { r with nextInBucket := next }

/-- The chain of a bucket, head first (R12). -/
def State.chain (s : State) (b : BitVec 8) : List Handle :=
  s.walk 512 (·.nextInBucket) (s.bucketHead b)

/-- An index probe: the first record of the address's chain that carries it (R14). The chains hold ACTIVE and
DORMANT records only (R13): of R152's words on DRAINING records, see log 9. -/
def State.probe (s : State) (a : BitVec 48) : Option Handle :=
  (s.chain (bucketOf a)).find? fun h => (s.station h).descriptor.linkAddress == a

/-- A record enters the index at the head of its chain (R13). -/
def State.enterIndex (s : State) (h : Handle) : State :=
  let b := bucketOf (s.station h).descriptor.linkAddress
  (s.setNextInBucket h (s.bucketHead b)).setBucketHead b (some h)

/-- A record leaves the index: its predecessor, or the bucket head, takes its link (R13). -/
def State.leaveIndex (s : State) (h : Handle) : State :=
  let b := bucketOf (s.station h).descriptor.linkAddress
  let next := (s.station h).nextInBucket
  let s' := match predecessorIn h (s.chain b) with
    | some a => s.setNextInBucket a next
    | none => if s.bucketHead b = some h then s.setBucketHead b next else s
  s'.setNextInBucket h none

end Sys2Proof.Machine
end

