-- ==== Sys2Proof/Machine/Rings.lean ====
section
/-!
DEFINITION. The Ring Controller (chapter 4): eligibility and waiting, insertion, holes, overflow
lists, promotion, the pop, and the re-evaluation that every visit makes when it changes one of the
five inputs of eligibility.
-/

namespace Sys2Proof.Machine

/-! ### Eligibility and waiting (R63) -/

/-- The four conditions other than credit: ACTIVE, in the profile classes, in the backlog, not in
flight (R63). -/
def StationRecord.ready (r : StationRecord) (c : ServiceClass) : Bool :=
  r.state == .active && r.profile.classes.get c && r.backlog.get c && !r.inFlight.get c

/-- Eligible in a class (R63). -/
def StationRecord.eligible (r : StationRecord) (c : ServiceClass) : Bool :=
  r.ready c && decide (0 < r.credit)

/-- Waiting in a class (R63). -/
def StationRecord.isWaiting (r : StationRecord) (c : ServiceClass) : Bool :=
  r.ready c && decide (r.credit ≤ 0)

/-- The two records agree in the five inputs of R63. -/
def sameInputs (a b : StationRecord) : Bool :=
  a.state == b.state && a.profile.classes == b.profile.classes && a.backlog == b.backlog &&
    a.credit == b.credit && a.inFlight == b.inFlight

/-! ### The ring of a class (R66) -/

/-- The ring of a class. -/
def State.ring (s : State) (c : ServiceClass) : Ring := s.rings.get c

/-- Replace the ring of a class. -/
def State.setRing (s : State) (c : ServiceClass) (r : Ring) : State :=
  { s with rings := s.rings.set c r }

/-- The overflow list of a class. -/
def State.overflowList (s : State) (c : ServiceClass) : OverflowList := s.overflows.get c

/-- Replace the overflow list of a class. -/
def State.setOverflowList (s : State) (c : ServiceClass) (l : OverflowList) : State :=
  { s with overflows := s.overflows.set c l }

/-- The occupancy, holes included: tail minus head modulo 256 (R66). -/
def Ring.occupancy (r : Ring) : Nat := (r.tail - r.head).toNat

/-- What a slot holds: a station or a hole. -/
def Ring.at (r : Ring) (i : BitVec 8) : Option Handle := r.slots[i.toFin.val]

/-- Write a slot. -/
def Ring.write (r : Ring) (i : BitVec 8) (x : Option Handle) : Ring :=
  { r with slots := r.slots.set i.toFin.val x }

/-- A station's ring slot in a class becomes a slot or absent. -/
def State.setRingSlot (s : State) (h : Handle) (c : ServiceClass) (slot : Option (BitVec 8)) :
    State :=
  s.changeStation h fun r => { r with ringSlot := r.ringSlot.set c slot }

/-- A station's overflow place in a class becomes present or absent. -/
def State.setPlace (s : State) (h : Handle) (c : ServiceClass) (place : Option OverflowPlace) :
    State :=
  s.changeStation h fun r => { r with overflow := r.overflow.set c place }

/-- Write a station at the ring tail, which advances (R67). -/
def State.writeTail (s : State) (c : ServiceClass) (h : Handle) : State :=
  let r := s.ring c
  (s.setRing c { r.write r.tail (some h) with tail := r.tail + 1 }).setRingSlot h c (some r.tail)

/-- A station's slot becomes a hole and its ring slot absent (R68). -/
def State.makeHole (s : State) (c : ServiceClass) (h : Handle) (slot : BitVec 8) : State :=
  (s.setRing c ((s.ring c).write slot none)).setRingSlot h c none

/-! ### The overflow list of a class (R71 to R73) -/

/-- A present overflow place takes a new next handle. -/
def State.setPlaceNext (s : State) (h : Handle) (c : ServiceClass) (next : Option Handle) : State :=
  s.setPlace h c (((s.station h).overflow.get c).map fun p => { p with next := next })

/-- A present overflow place takes a new previous handle. -/
def State.setPlacePrev (s : State) (h : Handle) (c : ServiceClass) (prev : Option Handle) : State :=
  s.setPlace h c (((s.station h).overflow.get c).map fun p => { p with prev := prev })

/-- Append a station at the list's tail, and set OVERFLOW (R72). -/
def State.appendOverflow (s : State) (c : ServiceClass) (h : Handle) : State :=
  let l := s.overflowList c
  let linked := match l.tail with
    | none => s
    | some t => s.setPlaceNext t c (some h)
  ((linked.setPlace h c (some { prev := l.tail, next := none })).setOverflowList c
    { head := if l.tail.isNone then some h else l.head, tail := some h,
      length := l.length + 1 }).raise .overflow

/-- Unlink a station from the list (R73). -/
def State.unlinkOverflow (s : State) (c : ServiceClass) (h : Handle) (p : OverflowPlace) : State :=
  let l := s.overflowList c
  let s := match p.prev with
    | none => s
    | some a => s.setPlaceNext a c p.next
  let s := match p.next with
    | none => s
    | some b => s.setPlacePrev b c p.prev
  (s.setPlace h c none).setOverflowList c
    { head := if p.prev.isNone then p.next else l.head
      tail := if p.next.isNone then p.prev else l.tail
      length := l.length - 1 }

/-- Insert an eligible station that holds no place: at the ring tail, or at the list's tail when the
ring is full (R67, R72). -/
def State.insertStation (s : State) (c : ServiceClass) (h : Handle) : State :=
  if (s.ring c).occupancy < Config.ringFull then s.writeTail c h else s.appendOverflow c h

/-- Promotion: when the ring has room and the list a head, that station moves to the ring tail; made
once for each freed slot (R74). -/
def State.promote (s : State) (c : ServiceClass) : State :=
  if (s.ring c).occupancy < Config.ringFull then
    match (s.overflowList c).head with
    | none => s
    | some h =>
      match (s.station h).overflow.get c with
      | none => s
      | some p => (s.unlinkOverflow c h p).writeTail c h
  else s

/-! ### Re-evaluation (R64, R65) -/

/-- The waiting count of a class follows a station's change (R64). -/
def State.adjustWaiting (s : State) (c : ServiceClass) (was isNow : Bool) : State :=
  let n := s.waiting.get c
  { s with waiting := s.waiting.set c (if !was && isNow then n + 1 else if was && !isNow then n - 1 else n) }

/-- The place a station holds in a class follows its eligibility (the table of R65). -/
def State.placeStation (s : State) (h : Handle) (c : ServiceClass) : State :=
  let r := s.station h
  if r.eligible c then
    if (r.ringSlot.get c).isNone && (r.overflow.get c).isNone then s.insertStation c h else s
  else
    match r.ringSlot.get c with
    | some slot => s.makeHole c h slot
    | none =>
      match r.overflow.get c with
      | some p => s.unlinkOverflow c h p
      | none => s

/-- The re-evaluation of a station in one class; `before` is the record as the visit found it. -/
def State.reevaluateIn (s : State) (h : Handle) (before : StationRecord) (c : ServiceClass) : State :=
  (s.adjustWaiting c (before.isWaiting c) ((s.station h).isWaiting c)).placeStation h c

/-- The re-evaluation of a station in every class (R65). -/
def State.reevaluate (s : State) (h : Handle) (before : StationRecord) : State :=
  (((s.reevaluateIn h before .sc0).reevaluateIn h before .sc1).reevaluateIn h before
    .sc2).reevaluateIn h before .sc3

/-- A visit writes its record back: when it has changed one of the five inputs of eligibility, the
station is re-evaluated in every class (R16, R65). -/
def State.writeBack (s : State) (h : Handle) (r : StationRecord) : State :=
  if sameInputs (s.station h) r then s.setStation h r
  else (s.setStation h r).reevaluate h (s.station h)

/-! ### Pop visits (R69, R70) -/

/-- The head advances by 1, its slot left as a hole, and promotion follows (R69, R74). DESIGN CHOICE
(log 15): a slot outside the occupied run, which holds no meaning, holds a hole. -/
def State.advanceHead (s : State) (c : ServiceClass) : State :=
  let r := s.ring c
  (s.setRing c { r.write r.head none with head := r.head + 1 }).promote c

/-- Discard the holes at the head, at most `fuel` of them (R69). -/
def State.discardHoles (fuel : Nat) (s : State) (c : ServiceClass) : State :=
  match fuel with
  | 0 => s
  | fuel + 1 =>
    if (s.ring c).occupancy = 0 then s
    else
      match (s.ring c).at (s.ring c).head with
      | some _ => s
      | none => State.discardHoles fuel (s.advanceHead c) c

/-- The start of every pop visit: the holes at the head are discarded. A ring holds at most 255 of
them, and promotion brings in stations only. -/
def State.clearHead (s : State) (c : ServiceClass) : State := s.discardHoles 256 c

/-- The station at the head of the ring once holes are discarded, none when the ring is empty (R69). -/
def State.headStation (s : State) (c : ServiceClass) : Option Handle :=
  if (s.ring c).occupancy = 0 then none else (s.ring c).at (s.ring c).head

/-- Pop the station at the head: the head advances with promotion, its ring slot becomes absent, and
the class joins its in-flight set (R69). -/
def State.popHead (s : State) (c : ServiceClass) (h : Handle) : State :=
  (s.advanceHead c).changeStation h fun r =>
    { r with ringSlot := r.ringSlot.set c none, inFlight := r.inFlight.set c true }

/-- The end of a TABLE_CLEAR or a link restart: every ring's head and tail return to 0 (R78). -/
def State.resetRings (s : State) : State := { s with rings := PerClass.const Ring.powerOn }

end Sys2Proof.Machine
end

