-- ==== Sys2Proof/Machine/Walker.lean ====
section
/-!
DEFINITION. The Replenishment Walker (chapter 6): the step timer's expiry, the beginning and end of a
step, the pull-in, and the work of one visit.
-/

namespace Sys2Proof.Machine

/-! ### Steps (R109, R111) -/

/-- The first handle of the group at the group pointer (R109). -/
def Walker.firstHandle (w : Walker) : Handle := ⟨32 * w.groupPointer.val, by omega⟩

/-- A step of a kind begins at the group pointer (R109). -/
def Walker.beginStep (w : Walker) (kind : StepKind) : Walker :=
  { w with step := some { kind := kind, next := w.firstHandle } }

/-- An owed step begins whenever the lag is above 0, no step is in progress and the timer is running
(R109). -/
def Walker.beginOwed (w : Walker) : Walker :=
  if 0 < w.lag ∧ w.step = none ∧ w.timerRunning = true then w.beginStep .owed else w

/-- The end of a step: an owed one lowers the lag, the pointer advances, the epoch rises when it wraps,
and the next owed step begins when one is owed (R111). -/
def Walker.endStep (w : Walker) (kind : StepKind) : Walker :=
  { w with
    lag := if kind = StepKind.owed then w.lag - 1 else w.lag
    groupPointer := w.groupPointer + 1
    epoch := if w.groupPointer = 15 then w.epoch + 1 else w.epoch
    step := none }.beginOwed

/-- The visit to a handle of the step has been made: the step goes on to the next handle, or ends with
the 32nd (R110, R111). -/
def Walker.advance (w : Walker) (step : WalkerStep) : Walker :=
  if step.next.val % 32 = 31 then w.endStep step.kind
  else
    match Handle.after step.next with
    | some next => { w with step := some { step with next := next } }
    | none => w.endStep step.kind

/-! ### The step timer (R106, R107) -/

/-- The three cases of an expiry (R107). -/
def Walker.expire (w : Walker) : Walker :=
  if 0 < w.lead then { w with lead := w.lead - 1 }
  else if w.lag < Config.walkerLimit then { w with lag := w.lag + 1 }.beginOwed
  else w

/-- The expiry forfeits its step (R107 (c)). -/
def Walker.forfeits (w : Walker) : Bool :=
  w.lead == 0 && decide (Config.walkerLimit ≤ w.lag)

/-- The expiry of the step timer at its moment: the count of steps changes, and the next expiry is
scheduled with STEP_INTERVAL as it stands (R106, R107). -/
def State.timerExpiry (s : State) : State :=
  { s with
    walker := { s.walker.expire with
      nextExpiry := s.walker.nextExpiry + BitVec.ofNat 32 s.settings.stepInterval } }.raiseIf
    s.walker.forfeits .forfeit

/-- STEP_TIMER_EXPIRY: time goes on to the timer's expiry value, and the expiry is taken (R106, R107;
log 1). A stopped timer makes no expiry (R106). -/
def execStepTimerExpiry (s : State) : Host.Outcome State Fault Refusal :=
  .next (if s.resetLow then s
    else if s.walker.timerRunning then
      (s.pass (distance s.timebase s.walker.nextExpiry)).timerExpiry
    else s)

/-- The step timer has reached its expiry value (R106). -/
def State.timerDue (s : State) : Bool :=
  s.walker.timerRunning && s.timebase == s.walker.nextExpiry

/-- What the part does with no command: 1 µs passes (R105). An expiry of the step timer that is due is
taken first, so that no time passes beyond it (R106; DESIGN CHOICE, log 1). While RESET_N is low the
timebase holds 0 (R105). -/
def State.idleStep (s : State) : State :=
  if s.resetLow then s else if s.timerDue then s.timerExpiry else s.pass 1

/-! ### Pull-in (R114) -/

/-- The five conditions of a pull-in (R114). -/
def State.pullsIn (s : State) : Bool :=
  s.settings.pullIn == 1 && s.walker.lag == 0 && decide (s.walker.lead < Config.walkerLimit) &&
    s.walker.step.isNone && s.walker.timerRunning

/-- The walker takes a NO_CREDIT report (R114, R178). -/
def State.noCreditReport (s : State) : State :=
  if s.pullsIn then
    { s with walker := { s.walker with lead := s.walker.lead + 1 }.beginStep .pulledIn }
  else s

/-! ### The work of one visit (R116) -/

/-- Part (1): the usage average (R49). -/
def StationRecord.averaged (r : StationRecord) (avgShift : Nat) : StationRecord :=
  { r with average := newAverage r.average r.usage avgShift, usage := 0 }

/-- Part (2): replenishment (R45 to R47). -/
def StationRecord.replenished (r : StationRecord) (quantum penaltyShift : Nat) : StationRecord :=
  let amount := penalised (replenishAmount quantum r.profile.weight) r.profile.softCap r.average
    penaltyShift
  { r with credit := paid r.credit r.profile.ceiling amount }

/-- Idle: backlog and in-flight set empty (R117). -/
def StationRecord.isIdle (r : StationRecord) : Bool :=
  r.backlog == ClassSet.none && r.inFlight == ClassSet.none

/-- Part (3): the idle countdown, and DORMANT when it reaches 0 (R7, R117). -/
def StationRecord.idled (r : StationRecord) (idleLimit : Nat) : StationRecord :=
  if r.isIdle then
    if r.idleCountdown - 1 = 0 then { r with idleCountdown := 0, state := .dormant }
    else { r with idleCountdown := r.idleCountdown - 1 }
  else { r with idleCountdown := idleLimit }

/-- The group of a handle is in the hold mask (R119). -/
def Settings.holds (t : Settings) (h : Handle) : Bool := t.holdMask.getLsbD (groupOf h)

/-- Parts (1) to (3) on an ACTIVE record (R116). -/
def StationRecord.walkedActive (r : StationRecord) (t : Settings) (held : Bool) : StationRecord :=
  let r := r.averaged t.avgShift
  let r := if held then r else r.replenished t.quantum t.penaltyShift
  r.idled t.idleLimit

/-- The four parts of a walker visit, by the state found (R116). A COOLING record whose countdown
reaches 0 becomes FREE at the free-list tail (R10, R118). -/
def State.walkRecord (s : State) (h : Handle) : State :=
  let r := s.station h
  match r.state with
  | .free => s
  | .forming => s
  | .active => s.writeBack h (r.walkedActive s.settings (s.settings.holds h))
  | .dormant => s.writeBack h (r.averaged s.settings.avgShift)
  | .draining => s.writeBack h (r.averaged s.settings.avgShift)
  | .cooling =>
    if r.coolCountdown - 1 = 0 then s.freeAtTail h
    else s.setStation h { r with coolCountdown := r.coolCountdown - 1 }

/-- The walker's visit to its next handle, and what it does to the step (R110, R111). -/
def State.walk1 (s : State) (step : WalkerStep) : State :=
  let s := s.walkRecord step.next
  { s with walker := s.walker.advance step }

/-- WALKER_VISIT (R116). -/
def execWalkerVisit (asks : PortAsks) (s : State) : Host.Outcome State Fault Refusal :=
  .next (s.visit .walker asks s.walker.step.isSome fun s =>
    match s.walker.step with
    | some step => s.walk1 step
    | none => s)

end Sys2Proof.Machine
end

