-- ==== Sys2Proof/Machine/Awards.lean ====
section
/-!
DEFINITION. The Award Engine (chapter 5): ASK and member selection, DONE, expiry, and release without
charge.
-/

namespace Sys2Proof.Machine

/-! ### Taking an item (R80, R128) -/

/-- The engine may take an item: RESET_N is high and none is in hand (R80). -/
def State.engineFree (s : State) : Bool := !s.resetLow && s.engine == .idle

/-- The message at the head of the inbound queue is taken (R126). -/
def State.takeMessage (s : State) : State := { s with inbound := s.inbound.tail }

/-- The engine takes the message at the head while the link is UP, when its item in hand is finished
(R80, R126, R128). DESIGN CHOICE (log 2): otherwise the command changes nothing, and so it does when the
head is a message of another type. -/
def State.takeItem (s : State) (work : InMessage → Option (State → State)) : State :=
  if s.engineFree && s.linkUp then
    match s.inbound with
    | [] => s
    | m :: _ =>
      match work m with
      | none => s
      | some f => f s.takeMessage
  else s

/-- The item has its answer, which waits for the outbound queue (R135). -/
def State.answer (s : State) (m : OutMessage) : State := { s with engine := .answer m }

/-! ### ASK and member selection (R85 to R90) -/

/-- The maximum member count as taken: 0 as 1, above 8 as 8 (R85). -/
def AskFields.members (a : AskFields) : Nat := clampNat a.maximum 1 Config.memberLimit

/-- A DECLINE of an ASK (R90). -/
def State.decline (s : State) (a : AskFields) (reason : DeclineReason) : State :=
  s.answer (.decline a.tag a.cls reason)

/-- The three checks of an ASK, in order (R86). -/
def State.checkAsk (s : State) (a : AskFields) : State :=
  if s.clearing then s.decline a .clearing
  else if s.settings.classEnable.get a.cls = false then s.decline a .classOff
  else if s.lowestFreeEntry = none then s.decline a .awardsFull
  else { s with engine := .askFirst a }

/-- ASK (R86). -/
def execAsk (s : State) : Host.Outcome State Fault Refusal :=
  .next (s.takeItem fun m =>
    match m with
    | .ask a => some fun s => s.checkAsk a
    | _ => none)

/-- The award is issued: its duration and deadline are written, and the AWARD is its answer (R52, R89). -/
def State.issueAward (s : State) (a : AskFields) (id : AwardId) (allowances : List Int) : State :=
  match (s.entry id).award with
  | none => s
  | some w =>
    let d := awardDuration a.txop allowances
    let deadline := s.timebase + BitVec.ofNat 32 s.settings.awardTimeout
    let issued : OpenAward := { w with issue := some ⟨d, deadline⟩ }
    (s.setEntry id { s.entry id with award := some issued }).answer
      (.award w.askTag id (s.entry id).generation w.cls d (w.members.map (·.handle)))

/-- Member selection ends: the award is issued in the visit that ends it, or the issuing step is still to
come, and visits of the Request Processor and the walker may fall before it (R89, R91; log 10). -/
def State.endSelection (s : State) (defers : Bool) (a : AskFields) (id : AwardId)
    (allowances : List Int) : State :=
  if defers then { s with engine := .issuing a id allowances } else s.issueAward a id allowances

/-- The issuing step, where it is still to come (R89, R91). -/
def State.issueDue (s : State) : State :=
  match s.engine with
  | .issuing a id allowances => s.issueAward a id allowances
  | _ => s

/-- An entry is claimed for an ASK: OPEN, its generation advanced, its first member held (R84, R87). -/
def State.claimEntry (s : State) (id : AwardId) (a : AskFields) (h : Handle) : State :=
  s.setEntry id
    { generation := (s.entry id).generation + 1
      award := some { askTag := a.tag, cls := a.cls, issue := none, members := [⟨h, true⟩] } }

/-- A further member joins the award (R88). -/
def State.appendMember (s : State) (id : AwardId) (h : Handle) : State :=
  match (s.entry id).award with
  | none => s
  | some w =>
    s.setEntry id { s.entry id with award := some { w with members := w.members ++ [⟨h, true⟩] } }

/-- Further members are sought: the maximum is above 1, multi-user is allowed, and the first member is
capable (R88). -/
def AskFields.seeksMore (a : AskFields) (first : StationRecord) : Bool :=
  decide (1 < a.members) && a.multiUser && first.descriptor.multiUser

/-- An empty ring declines the ASK: NO_CREDIT, reported to the walker, with stations waiting, else
NO_STATION (R87, R178). -/
def State.declineEmpty (s : State) (a : AskFields) : State :=
  if 0 < s.waiting.get a.cls then s.noCreditReport.decline a .noCredit
  else s.decline a .noStation

/-- The first member: popped, its entry claimed and its allowance recorded; then further members are
sought or member selection ends (R87, R88). -/
def State.popFirst (s : State) (defers : Bool) (a : AskFields) (id : AwardId) (h : Handle) : State :=
  let first := s.station h
  let s := (s.popHead a.cls h).claimEntry id a h
  if a.seeksMore first then { s with engine := .askMore a id [allowance first] }
  else s.endSelection defers a id [allowance first]

/-- The first pop visit (R69, R87). The ASK was taken with an entry FREE, and it still is (R86). -/
def State.popVisit (s : State) (defers : Bool) (a : AskFields) : State :=
  let s := s.clearHead a.cls
  match s.headStation a.cls, s.lowestFreeEntry with
  | none, _ => s.declineEmpty a
  | some h, some id => s.popFirst defers a id h
  | some _, none => s

/-- POP_VISIT (R87). -/
def execPopVisit (pop : PopOperands) (s : State) : Host.Outcome State Fault Refusal :=
  .next (s.engineVisit .pop pop.asks fun s =>
    match s.engine with
    | .askFirst a => s.popVisit pop.defers a
    | _ => s)

/-- A further member: popped, appended and its allowance recorded; at the maximum member selection ends
(R70, R88). -/
def State.popFurther (s : State) (defers : Bool) (a : AskFields) (id : AwardId) (allowances : List Int)
    (h : Handle) : State :=
  let allowances := allowances ++ [allowance (s.station h)]
  let s := (s.popHead a.cls h).appendMember id h
  if allowances.length < a.members then { s with engine := .askMore a id allowances }
  else s.endSelection defers a id allowances

/-- A conditional pop visit: an empty ring or a station at the head that is not capable ends member
selection (R70, R88). -/
def State.conditionalPop (s : State) (defers : Bool) (a : AskFields) (id : AwardId)
    (allowances : List Int) : State :=
  let s := s.clearHead a.cls
  match s.headStation a.cls with
  | none => s.endSelection defers a id allowances
  | some h =>
    if (s.station h).descriptor.multiUser then s.popFurther defers a id allowances h
    else s.endSelection defers a id allowances

/-- CONDITIONAL_POP_VISIT (R70). -/
def execConditionalPopVisit (pop : PopOperands) (s : State) : Host.Outcome State Fault Refusal :=
  .next (s.engineVisit .conditionalPop pop.asks fun s =>
    match s.engine with
    | .askMore a id allowances => s.conditionalPop pop.defers a id allowances
    | _ => s)

/-! ### Closing an award for a member (R9, R95, R99, R101) -/

/-- A DRAINING member whose in-flight set is empty becomes COOLING (R9). -/
def State.drained (s : State) (h : Handle) : State :=
  let r := s.station h
  if r.state = .draining ∧ r.inFlight = ClassSet.none then
    s.setStation h { r with state := .cooling, coolCountdown := s.settings.coolEpochs }
  else s

/-- The end of a closing visit: the record is written back with its re-evaluation, a DRAINING member may
become COOLING, and the member is released (R95 (6), (7), R97). -/
def State.closeMember (s : State) (id : AwardId) (h : Handle) (r : StationRecord) : State :=
  ((s.writeBack h r).drained h).releaseMember id h

/-- A debit is charged to a record, with the flags of R55 and R56. -/
def State.chargeFlags (s : State) (r : StationRecord) (raw : Nat) : State :=
  (s.raiseIf (debitSaturates raw) .debitSat).raiseIf
    (creditFloors r.credit (saturatedDebit raw)) .floor

/-- The record with a debit charged (R55, R56). -/
def StationRecord.charged (r : StationRecord) (raw : Nat) : StationRecord :=
  { r with credit := flooredCredit r.credit (saturatedDebit raw) }

/-- The class leaves the in-flight set. -/
def StationRecord.landed (r : StationRecord) (c : ServiceClass) : StationRecord :=
  { r with inFlight := r.inFlight.set c false }

/-! ### DONE (R92 to R97) -/

/-- A DONE is late: its entry is FREE or holds another generation (R92, R93). -/
def State.doneIsLate (s : State) (id : AwardId) (generation : BitVec 4) : Bool :=
  (s.entry id).award.isNone || (s.entry id).generation != generation

/-- A DONE does not fit its award: its count differs, or an outcome code is not assigned (R92, R94). -/
def OpenAward.doneMisfits (w : OpenAward) (entries : List DoneEntry) : Bool :=
  entries.length != w.members.length || entries.any (·.outcome == .unassigned)

/-- The members matched to the DONE's entries by position (R92). -/
def doneWork (members : List Member) (entries : List DoneEntry) : List DoneWork :=
  List.zipWith (fun m e => ⟨m.handle, e⟩) members entries

/-- The two checks of a DONE: late, malformed, or accepted with its member visits due (R92 to R95). While
a TABLE_CLEAR runs every entry has been released and a DONE is late (R102). DEDUCED (log 26): a DONE taken
after the clear has begun and before its release is taken, which R80 lets come first, finds its entry
OPEN and is judged as any other. -/
def State.judgeDone (s : State) (id : AwardId) (generation : BitVec 4) (airtime : Nat)
    (entries : List DoneEntry) : State :=
  if s.doneIsLate id generation then s.raise .late
  else
    match (s.entry id).award with
    | none => s.raise .late
    | some w =>
      if w.doneMisfits entries then s.raise .malformed
      else { s with engine := .done id airtime (doneWork w.members entries) }

/-- DONE (R92). -/
def execDone (s : State) : Host.Outcome State Fault Refusal :=
  .next (s.takeItem fun m =>
    match m with
    | .done id generation airtime entries => some fun s => s.judgeDone id generation airtime entries
    | _ => none)

/-- The fail streak after an outcome (R95 (5), R134). -/
def nextStreak (streak : Nat) (o : TxOutcome) : Nat :=
  if o = .failed then min (streak + 1) Config.streakLimit else 0

/-- The member becomes unreachable: ACTIVE, FAILED, and its streak at or above FAIL_LIMIT (R7, R95). -/
def StationRecord.losesReach (r : StationRecord) (o : TxOutcome) (failLimit : Nat) : Bool :=
  r.state == .active && o == .failed && decide (failLimit ≤ nextStreak r.failStreak o)

/-- The debit of a DONE before its limit (R53, R54). -/
def doneDebit (r : StationRecord) (t : Settings) (w : OpenAward) (airtime share : Nat) : Nat :=
  rawDebit (portionOf airtime (readShare (w.members.length == 1) share)) (t.overhead.get w.cls)
    r.profile.costShift

/-- The member's record after steps (1) to (5) of R95. -/
def StationRecord.doneBy (r : StationRecord) (t : Settings) (w : OpenAward) (airtime : Nat)
    (e : DoneEntry) : StationRecord :=
  let portion := portionOf airtime (readShare (w.members.length == 1) e.share)
  let paid := { r.charged (doneDebit r t w airtime e.share) with
    usage := raisedUsage r.usage portion }
  let landed := paid.landed w.cls
  let reported :=
    if r.state = .active then
      { landed with backlog := landed.backlog.set w.cls e.backlogged, idleCountdown := t.idleLimit }
    else landed
  let counted := { reported with failStreak := nextStreak r.failStreak e.outcome }
  if r.losesReach e.outcome t.failLimit then
    { counted with state := .dormant, backlog := ClassSet.none }
  else counted

/-- One member visit of a DONE (R95, R96). -/
def State.doneMember (s : State) (id : AwardId) (w : OpenAward) (airtime : Nat) (h : Handle)
    (e : DoneEntry) : State :=
  let r := s.station h
  (((s.chargeFlags r (doneDebit r s.settings w airtime e.share)).raiseIf
    (r.losesReach e.outcome s.settings.failLimit) .unreachable).closeMember id h
    (r.doneBy s.settings w airtime e))

/-- DONE_MEMBER_VISIT (R95): the next member in pop order; the item ends with the last (R97). -/
def execDoneMemberVisit (asks : PortAsks) (s : State) : Host.Outcome State Fault Refusal :=
  .next (s.engineVisit .doneMember asks fun s =>
    match s.engine with
    | .done id airtime (m :: rest) =>
      match (s.entry id).award with
      | some w =>
        { s.doneMember id w airtime m.handle m.entry with
          engine := if rest = [] then .idle else .done id airtime rest }
      | none => { s with engine := .idle }
    | .done _ _ [] => { s with engine := .idle }
    | _ => s)

/-! ### Expiry (R98 to R100) -/

/-- The engine takes a due expiry: the award expires when its entry is still OPEN under the generation
named, else the expiry lapses (R99, R100). -/
def State.takeExpiry (s : State) (d : DueExpiry) : State :=
  let s := { s with dueExpiries := s.dueExpiries.erase d }
  match (s.entry d.id).award with
  | none => s
  | some w =>
    if (s.entry d.id).generation = d.generation then
      { s with engine := .expiry d.id w.heldHandles }
    else s

/-- The time to the deadline of the issued award an expiry names, where the timebase can reach it
before the step timer's next expiry is passed over (R98, R106; log 1). -/
def State.timeToExpiry (s : State) (d : DueExpiry) : Option Nat :=
  match (s.entry d.id).award with
  | none => none
  | some w =>
    match w.issue with
    | none => none
    | some i =>
      let n := distance s.timebase i.deadline
      if (s.entry d.id).generation = d.generation ∧ 0 < n ∧
          (s.walker.timerRunning = true → n ≤ distance s.timebase s.walker.nextExpiry) then some n
      else none

/-- AWARD_EXPIRY (R98, R99): the engine takes the expiry named when it is due; when its deadline is next
to be reached, time goes on to it first (log 1); else the command changes nothing (log 2). -/
def execAwardExpiry (id : AwardId) (generation : BitVec 4) (s : State) :
    Host.Outcome State Fault Refusal :=
  .next (if s.engineFree = false then s
    else if ⟨id, generation⟩ ∈ s.dueExpiries then s.takeExpiry ⟨id, generation⟩
    else
      match s.timeToExpiry ⟨id, generation⟩ with
      | some n => (s.pass n).takeExpiry ⟨id, generation⟩
      | none => s)

/-- The debit of an expiry before its limit: the portion is D (R57). -/
def expiryDebit (r : StationRecord) (t : Settings) (w : OpenAward) (i : Issue) : Nat :=
  rawDebit i.duration (t.overhead.get w.cls) r.profile.costShift

/-- One member visit of an expiry: charged on D, out of flight, usage and reports left as they are (R57,
R99). -/
def State.expiryMember (s : State) (id : AwardId) (w : OpenAward) (i : Issue) (h : Handle) : State :=
  let r := s.station h
  (s.chargeFlags r (expiryDebit r s.settings w i)).closeMember id h
    ((r.charged (expiryDebit r s.settings w i)).landed w.cls)

/-- EXPIRY_MEMBER_VISIT (R99): the next member in pop order; the visit of the last raises EXPIRED. -/
def execExpiryMemberVisit (asks : PortAsks) (s : State) : Host.Outcome State Fault Refusal :=
  .next (s.engineVisit .expiryMember asks fun s =>
    match s.engine with
    | .expiry id (h :: rest) =>
      match (s.entry id).award with
      | some w =>
        match w.issue with
        | some i =>
          { (s.expiryMember id w i h).raiseIf rest.isEmpty .expired with
            engine := if rest = [] then .idle else .expiry id rest }
        | none => { s with engine := .idle }
      | none => { s with engine := .idle }
    | .expiry _ [] => { s with engine := .idle }
    | _ => s)

/-! ### Release without charge (R101, R129) -/

/-- The clear's release has been reported done: the record visits begin (R101). -/
def State.releaseDone (s : State) : State :=
  { s with
    engine := .idle
    executing := if s.executing = .clearRelease then .clearRecords 0 else s.executing }

/-- TABLE_CLEAR_RELEASE (R101): the engine takes the due release; with no entry OPEN it makes no visit. -/
def execTableClearRelease (s : State) : Host.Outcome State Fault Refusal :=
  .next (if s.engineFree && s.releaseDue then
    let s := { s with releaseDue := false }
    if s.openMembers = [] then s.releaseDone else { s with engine := .clearRelease s.openMembers }
  else s)

/-- One release visit: the class leaves the in-flight set without charge; a link restart also empties
the backlog of an ACTIVE member (R101, R129). -/
def State.releaseOne (s : State) (w : ReleaseWork) (empties : Bool) : State :=
  match (s.entry w.id).award with
  | none => s
  | some a =>
    let r := (s.station w.handle).landed a.cls
    let r := if empties && r.state == .active then { r with backlog := ClassSet.none } else r
    s.closeMember w.id w.handle r

/-- RELEASE_VISIT (R101, R129): the next member; after the last, the clear's record visits or the
restart's second part follow. -/
def execReleaseVisit (asks : PortAsks) (s : State) : Host.Outcome State Fault Refusal :=
  .next (s.engineVisit .release asks fun s =>
    match s.engine with
    | .clearRelease (m :: rest) =>
      let s := s.releaseOne m false
      if rest = [] then s.releaseDone else { s with engine := .clearRelease rest }
    | .clearRelease [] => s.releaseDone
    | .restartRelease tag (m :: rest) =>
      { s.releaseOne m true with
        engine := if rest = [] then .restartBacklog tag 0 else .restartRelease tag rest }
    | .restartRelease tag [] => { s with engine := .restartBacklog tag 0 }
    | _ => s)

end Sys2Proof.Machine
end

