-- ==== Sys2Proof/Machine/Link.lean ====
section
/-!
DEFINITION. The MAC Link (chapter 7): receiving and sending messages, the first SYNC, BACKLOG, UPLINK
and the link restart.
-/

namespace Sys2Proof.Machine

/-! ### Receiving (R124 to R126) -/

/-- A message at the fall of the strobe: malformed, or dropped from a full queue and counted so, or
queued (R125, R126). -/
def State.receive (s : State) (nibbles : List Nibble) : State :=
  match receivedMessage nibbles with
  | none => s.raise .malformed
  | some m =>
    if s.inbound.length < Config.inboundDepth then { s with inbound := s.inbound ++ [m] }
    else s.raise .malformed

/-- MESSAGE_RECEIVED (R125). A message begun while RESET_N is low, or cut off by its assertion, is
discarded without being counted (R124). -/
def execMessageReceived (nibbles : List Nibble) (cut : Bool) (s : State) :
    Host.Outcome State Fault Refusal :=
  .next (if s.resetLow || cut then s else s.receive nibbles)

/-! ### DOWN (R127) -/

/-- FIRST_SYNC (R127): the link becomes UP and the SYNC is answered. The outbound queue is empty while
the link is DOWN (R123, R135), so the answer enters it at once (log 12). -/
def execFirstSync (s : State) : Host.Outcome State Fault Refusal :=
  .next (if s.resetLow || s.linkUp then s
    else
      match s.inbound with
      | .sync tag :: rest =>
        if s.outbound.length < Config.outboundDepth then
          { s with linkUp := true, inbound := rest, outbound := s.outbound ++ [.sync tag] }
        else s
      | _ => s)

/-- DOWN_MESSAGE_DROP (R127). -/
def execDownMessageDrop (s : State) : Host.Outcome State Fault Refusal :=
  .next (if s.resetLow || s.linkUp then s
    else
      match s.inbound with
      | [] => s
      | .sync _ :: _ => s
      | _ :: rest => { s with inbound := rest }.raise .malformed)

/-! ### Sending (R135) -/

/-- The answer in hand enters the queue when it has room, and its item ends (R135). -/
def State.enqueueAnswer (s : State) : State :=
  match s.engine with
  | .answer m =>
    if s.outbound.length < Config.outboundDepth then
      { s with engine := .idle, outbound := s.outbound ++ [m] }
    else s
  | _ => s

/-- OUTBOUND_ENQUEUE (R135): the issuing step is made where it is still to come (R89, R91), and the
answer enters the queue or waits for room. -/
def execOutboundEnqueue (s : State) : Host.Outcome State Fault Refusal :=
  .next (if s.resetLow then s else s.issueDue.enqueueAnswer)

/-- A message as it is seen on LKO: its nibbles, framed by the strobe (R124, R135). -/
def OutMessage.frame (m : OutMessage) : List LkoEvent :=
  .strobeRise :: m.nibbles.map .nibble ++ [.strobeFall]

/-- LKO_STB is high: a message is being sent. At power-on the strobe is low, and between two messages it
falls and rises again (R135; log 8). -/
def State.lkoStrobe (s : State) : Bool := !s.outbound.isEmpty

/-- OUTBOUND_SENT (R135). -/
def execOutboundSent (s : State) : Host.Outcome State Fault Refusal :=
  .next (if s.resetLow then s
    else
      match s.outbound with
      | [] => s
      | m :: rest => { s with outbound := rest, lkoSent := m.frame })

/-! ### BACKLOG (R131, R132) -/

/-- BACKLOG (R132): its entries are worked in order, one visit each. -/
def execBacklog (s : State) : Host.Outcome State Fault Refusal :=
  .next (s.takeItem fun m =>
    match m with
    | .backlog entries => some fun s => { s with engine := .backlog entries }
    | _ => none)

/-- An ACTIVE record after an entry (R131). -/
def StationRecord.backlogged (r : StationRecord) (e : BacklogEntry) (idleLimit : Nat) :
    StationRecord :=
  if e.sets then
    { r with backlog := r.backlog.set e.cls true, idleCountdown := idleLimit, state := .active }
  else { r with backlog := r.backlog.set e.cls false }

/-- One entry visit, by the state found (R15, R131). -/
def State.backlogEntry (s : State) (e : BacklogEntry) : State :=
  let r := s.station e.handle
  match r.state with
  | .free => s.raise .stale
  | .forming => s.raise .stale
  | .cooling => s.raise .stale
  | .active => s.writeBack e.handle (r.backlogged e s.settings.idleLimit)
  | .dormant => if e.sets then s.writeBack e.handle (r.backlogged e s.settings.idleLimit) else s
  | .draining => s

/-- BACKLOG_ENTRY_VISIT (R131). -/
def execBacklogEntryVisit (asks : PortAsks) (s : State) : Host.Outcome State Fault Refusal :=
  .next (s.engineVisit .backlogEntry asks fun s =>
    match s.engine with
    | .backlog (e :: rest) =>
      { s.backlogEntry e with engine := if rest = [] then .idle else .backlog rest }
    | .backlog [] => { s with engine := .idle }
    | _ => s)

/-! ### UPLINK (R133) -/

/-- UPLINK (R128): it asks for its one visit (the table's row). -/
def execUplink (s : State) : Host.Outcome State Fault Refusal :=
  .next (s.takeItem fun m =>
    match m with
    | .uplink h airtime => some fun s =>
      { s with engine := .uplink h airtime, tablePort := { s.tablePort with award := true } }
    | _ => none)

/-- An ACTIVE or DORMANT record after an UPLINK (R58, R133). -/
def StationRecord.uplinked (r : StationRecord) (airtime idleLimit : Nat) : StationRecord :=
  { r with
    credit := flooredCredit r.credit (uplinkDebit airtime r.profile.uplinkEighths)
    usage := raisedUsage r.usage airtime
    failStreak := 0
    idleCountdown := idleLimit
    state := .active }

/-- The UPLINK's visit, by the state found (R15, R133). -/
def State.uplinkStation (s : State) (h : Handle) (airtime : Nat) : State :=
  let r := s.station h
  match r.state with
  | .free => s.raise .stale
  | .forming => s.raise .stale
  | .cooling => s.raise .stale
  | .draining => s
  | .active =>
    (s.raiseIf (creditFloors r.credit (uplinkDebit airtime r.profile.uplinkEighths)) .floor).writeBack
      h (r.uplinked airtime s.settings.idleLimit)
  | .dormant =>
    (s.raiseIf (creditFloors r.credit (uplinkDebit airtime r.profile.uplinkEighths)) .floor).writeBack
      h (r.uplinked airtime s.settings.idleLimit)

/-- UPLINK_VISIT (R133). -/
def execUplinkVisit (asks : PortAsks) (s : State) : Host.Outcome State Fault Refusal :=
  .next (s.engineVisit .uplink asks fun s =>
    match s.engine with
    | .uplink h airtime => { s.uplinkStation h airtime with engine := .idle }
    | _ => s)

/-! ### Link restart (R129, R130) -/

/-- LINK_RESTART (R129): the release of every OPEN entry comes first; with none, the second part. A restart
during a TABLE_CLEAR finds no open award (R130). DEDUCED (log 26): a SYNC taken after the clear has begun
and before its release, which R80 lets come first, finds the entries that are still OPEN and releases them
as any other restart. -/
def execLinkRestart (s : State) : Host.Outcome State Fault Refusal :=
  .next (s.takeItem fun m =>
    match m with
    | .sync tag => some fun s =>
      { s with engine :=
          if s.openMembers = [] then .restartBacklog tag 0 else .restartRelease tag s.openMembers }
    | _ => none)

/-- One visit of the second part: the backlog of an ACTIVE record is emptied (R130). -/
def State.emptyBacklog (s : State) (h : Handle) : State :=
  let r := s.station h
  if r.state = .active then s.writeBack h { r with backlog := ClassSet.none } else s

/-- The completion of a link restart: the rings are reset, LINK_RESTART is set, and the SYNC is answered
(R78, R130). -/
def State.completeRestart (s : State) (tag : Byte) : State :=
  (s.resetRings.raise .linkRestart).answer (.sync tag)

/-- LINK_RESTART_BACKLOG_VISIT (R130). -/
def execLinkRestartBacklogVisit (asks : PortAsks) (s : State) : Host.Outcome State Fault Refusal :=
  .next (s.engineVisit .restartBacklog asks fun s =>
    match s.engine with
    | .restartBacklog tag h =>
      match Handle.after h with
      | some next => { s.emptyBacklog h with engine := .restartBacklog tag next }
      | none => (s.emptyBacklog h).completeRestart tag
    | _ => s)

end Sys2Proof.Machine
end

