-- ==== Sys2Proof/Machine/Requests.lean ====
section
/-!
DEFINITION. The Request Processor's starts (R142, R147 to R156): a request that needs no visit runs to
its end in the event that starts it; the others take their first visit in hand.
-/

namespace Sys2Proof.Machine

/-! ### Requests without a visit -/

/-- BAD_KIND: the kind is echoed, with no payload (R147). -/
def State.startBadKind (s : State) : State := s.respond .badKind false []

/-- RULE_PUT: the whole rule is written, adjusted, or BAD_RULE (R27, R155, R173). -/
def State.startRulePut (s : State) (p : List Byte) : State :=
  if lt : (byteAt p 0).toNat < 64 then
    { s with rules := s.rules.set (byteAt p 0).toNat (ruleOf (p.drop 1)) }.respond .ok
      (ruleClamped (p.drop 1)) []
  else s.respond .badRule false []

/-- RULE_GET: the rule as stored, or BAD_RULE with the number echoed (R27, R169, R173). -/
def State.startRuleGet (s : State) (p : List Byte) : State :=
  if lt : (byteAt p 0).toNat < 64 then
    s.respond .ok false (byteAt p 0 :: (s.rules[(byteAt p 0).toNat]).bytes)
  else s.respond .badRule false (byteAt p 0 :: List.replicate 26 0)

/-- The payload of an item response: the item number and a 32-bit value (R174). -/
def itemResponse (number : Byte) (value : Word) : List Byte := number :: bytesOf 4 value.toNat

/-- The value an ITEM_PUT carries (R174). -/
def itemValue (p : List Byte) : Word := BitVec.ofNat 32 (fieldAt p 1 4)

/-- ITEM_PUT: a programmable item stores the clamped value; a read-only item refuses READ_ONLY, an
unassigned number BAD_ITEM (R157, R158, R160). -/
def State.startItemPut (s : State) (p : List Byte) : State :=
  match settingItemOf (byteAt p 0).toNat with
  | some i =>
    { s with settings := s.settings.write (itemValue p) i }.respond .ok
      (s.settings.clamps (itemValue p) i)
      (itemResponse (byteAt p 0) ((s.settings.write (itemValue p) i).read i))
  | none =>
    s.respond (if (readOnlyItemOf (byteAt p 0).toNat).isSome then .readOnly else .badItem) false
      (itemResponse (byteAt p 0) 0)

/-- LAG_LEAD: the lag when above 0, the lead negated when above 0, else 0 (R160). -/
def Walker.lagLead (w : Walker) : Int := if 0 < w.lag then w.lag else -w.lead

/-- The value of a read-only item as it stands (R160). -/
def State.report (s : State) : ReadOnlyItem → Word
  | .version => BitVec.ofNat 32 Config.version
  | .activeCount => BitVec.ofNat 32 s.activeCount
  | .freeCount => BitVec.ofNat 32 s.freeCount
  | .ringOccupancy c => BitVec.ofNat 32 (s.ring c).occupancy
  | .overflowLength c => BitVec.ofNat 32 (s.overflowList c).length
  | .lagLead => BitVec.ofInt 32 s.walker.lagLead
  | .epoch => s.walker.epoch.setWidth 32
  | .groupPointer => BitVec.ofNat 32 s.walker.groupPointer.val
  | .openAwards => BitVec.ofNat 32 s.openAwards
  | .staleCount => BitVec.ofNat 32 s.counters.stale
  | .lateCount => BitVec.ofNat 32 s.counters.late
  | .malformedCount => BitVec.ofNat 32 s.counters.malformed
  | .forfeitCount => BitVec.ofNat 32 s.counters.forfeit
  | .expiredCount => BitVec.ofNat 32 s.counters.expired
  | .frameErrorCount => BitVec.ofNat 32 s.counters.frameError

/-- ITEM_GET: the item's value as it stands, or BAD_ITEM (R155, R160). -/
def State.startItemGet (s : State) (p : List Byte) : State :=
  match settingItemOf (byteAt p 0).toNat, readOnlyItemOf (byteAt p 0).toNat with
  | some i, _ => s.respond .ok false (itemResponse (byteAt p 0) (s.settings.read i))
  | none, some r => s.respond .ok false (itemResponse (byteAt p 0) (s.report r))
  | none, none => s.respond .badItem false (itemResponse (byteAt p 0) 0)

/-- SUMMARY_CLEAR: the named flags become clear and, with the clear-counters bit, the counters whose
flags are named become 0 (R163, R174). -/
def State.startSummaryClear (s : State) (p : List Byte) : State :=
  let set : BitVec 16 := BitVec.ofNat 16 (fieldAt p 0 2)
  { s with
    flags := s.flags.clearNamed set
    counters := if (byteAt p 2).getLsbD 0 then s.counters.clearNamed set else s.counters }.respond
      .ok false []

/-! ### Requests with visits -/

/-- ADMIT: the descriptor is clamped, and the allocation visit is due (R148). -/
def State.startAdmit (s : State) (p : List Byte) : State :=
  s.asksFor (.admitAllocate (descriptorOf p) (descriptorClamped p))

/-- AMEND: NO_STATION above 511, else the named values are clamped and the visit is due (R149). -/
def State.startAmend (s : State) (p : List Byte) : State :=
  match handleOf (fieldAt p 0 2) with
  | none => s.respond .noStation false (amendRefused (fieldAt p 0 2))
  | some h => s.asksFor (.amend h (amendOf p) (amendClamped p))

/-- REAPPLY: NO_STATION above 511, else the read visit is due (R150). -/
def State.startReapply (s : State) (p : List Byte) : State :=
  match handleOf (fieldAt p 0 2) with
  | none => s.respond .noStation false (traceBytes [])
  | some h => s.asksFor (.reapplyRead h)

/-- RETIRE: NO_STATION above 511 with the handle echoed, else the visit is due (R151, R169). -/
def State.startRetire (s : State) (p : List Byte) : State :=
  match handleOf (fieldAt p 0 2) with
  | none => s.respond .noStation false (bytesOf 2 (fieldAt p 0 2))
  | some h => s.asksFor (.retire h)

/-- FIND: the probe visit is due (R152). -/
def State.startFind (s : State) (p : List Byte) : State :=
  s.asksFor (.find (BitVec.ofNat 48 (fieldAt p 0 6)))

/-- QUERY: NO_STATION above 511, else the visit is due (R153). -/
def State.startQuery (s : State) (p : List Byte) : State :=
  match handleOf (fieldAt p 0 2) with
  | none => s.respond .noStation false queryRefused
  | some h => s.asksFor (.query h)

/-- LIST: NO_STATION above 511, else the scan begins at the start handle (R154, R171). -/
def State.startList (s : State) (p : List Byte) : State :=
  match handleOf (fieldAt p 1 2) with
  | none => s.respond .noStation false (listResponse [] none)
  | some h => { s with executing := .list ((byteAt p 0).extractLsb' 0 6) h [] }

/-- The walker at the start of a TABLE_CLEAR: the step is abandoned, the timer stops, and the lag, lead,
group pointer and epoch become 0 (R122). -/
def Walker.cleared (w : Walker) : Walker :=
  { w with lag := 0, lead := 0, groupPointer := 0, epoch := 0, step := none, timerRunning := false }

/-- TABLE_CLEAR: the clearing flag is set, the walker is reset, its waiting visit abandoned with its
step, and the release of the open awards becomes due (R22, R80, R122, R156). -/
def State.startTableClear (s : State) : State :=
  { s with
    clearing := true
    walker := s.walker.cleared
    releaseDue := true
    executing := .clearRelease }

/-! ### Starting a request (R142) -/

/-- The start of a request, by its kind (R147). -/
def State.start (s : State) (q : Request) : State :=
  match q.form with
  | none => s.startBadKind
  | some .admitting => s.startAdmit q.payload
  | some .amend => s.startAmend q.payload
  | some .reapply => s.startReapply q.payload
  | some .retire => s.startRetire q.payload
  | some .find => s.startFind q.payload
  | some .query => s.startQuery q.payload
  | some .list => s.startList q.payload
  | some .rulePut => s.startRulePut q.payload
  | some .ruleGet => s.startRuleGet q.payload
  | some .itemPut => s.startItemPut q.payload
  | some .itemGet => s.startItemGet q.payload
  | some .summaryClear => s.startSummaryClear q.payload
  | some .tableClear => s.startTableClear

/-- A request may start: RESET_N is high, none is executing, and the response queue has room (R142). -/
def State.canStart (s : State) : Bool :=
  !s.resetLow && s.executing == .idle && decide (s.responses.length < Config.queueSlots)

/-- The request at the head of the queue starts, when one may (R142). -/
def State.startHead (s : State) : State :=
  if s.canStart then
    match s.requests with
    | [] => s
    | q :: _ => s.start q
  else s

/-- The head request starts, when it may and has this form; else this command changes nothing (log 2). -/
def State.startForm (s : State) (form : Option RequestKind) : State :=
  match s.requests with
  | [] => s
  | q :: _ => if q.form = form then s.startHead else s

/-- BAD_KIND (R147). -/
def execBadKind (s : State) : Host.Outcome State Fault Refusal := .next (s.startForm none)

/-- ADMIT (R148). -/
def execAdmit (s : State) : Host.Outcome State Fault Refusal := .next (s.startForm (some .admitting))

/-- AMEND (R149). -/
def execAmend (s : State) : Host.Outcome State Fault Refusal := .next (s.startForm (some .amend))

/-- REAPPLY (R150). -/
def execReapply (s : State) : Host.Outcome State Fault Refusal := .next (s.startForm (some .reapply))

/-- RETIRE (R151). -/
def execRetire (s : State) : Host.Outcome State Fault Refusal := .next (s.startForm (some .retire))

/-- FIND (R152). -/
def execFind (s : State) : Host.Outcome State Fault Refusal := .next (s.startForm (some .find))

/-- QUERY (R153). -/
def execQuery (s : State) : Host.Outcome State Fault Refusal := .next (s.startForm (some .query))

/-- LIST (R154). -/
def execList (s : State) : Host.Outcome State Fault Refusal := .next (s.startForm (some .list))

/-- RULE_PUT (R27). -/
def execRulePut (s : State) : Host.Outcome State Fault Refusal := .next (s.startForm (some .rulePut))

/-- RULE_GET (R27). -/
def execRuleGet (s : State) : Host.Outcome State Fault Refusal := .next (s.startForm (some .ruleGet))

/-- ITEM_PUT (R158). -/
def execItemPut (s : State) : Host.Outcome State Fault Refusal := .next (s.startForm (some .itemPut))

/-- ITEM_GET (R160). -/
def execItemGet (s : State) : Host.Outcome State Fault Refusal := .next (s.startForm (some .itemGet))

/-- SUMMARY_CLEAR (R163). -/
def execSummaryClear (s : State) : Host.Outcome State Fault Refusal :=
  .next (s.startForm (some .summaryClear))

/-- TABLE_CLEAR (R22, R156). -/
def execTableClear (s : State) : Host.Outcome State Fault Refusal :=
  .next (s.startForm (some .tableClear))

end Sys2Proof.Machine
end

