-- ==== Sys2Proof/Machine/Port.lean ====
section
/-!
DEFINITION. RESET_N and the SPI transactions of the Management Port (R137 to R146).
-/

namespace Sys2Proof.Machine

/-! ### RESET_N (R105, R106, R122, R146) -/

/-- RESET_ASSERT: every block is held at its power-on values and whatever was in progress is
abandoned (R146). The pin SPI_CS_N and the command queue are outside the part and stay. -/
def execResetAssert (s : State) : Host.Outcome State Fault Refusal :=
  .next { State.reset with
    pending := s.pending, csLow := s.csLow, resetLow := true, walker := Walker.held }

/-- RESET_RELEASE: the timebase and the step timer start (R105, R106). -/
def execResetRelease (s : State) : Host.Outcome State Fault Refusal :=
  .next (if s.resetLow then
    { s with resetLow := false, walker := s.walker.start s.timebase s.settings.stepInterval }
  else s)

/-! ### The transaction byte (R138, R139, R144, R145) -/

/-- The port goes to a state at the completion of the transaction byte; the byte shifted out meanwhile
is the fill byte (R137). -/
def State.enter (s : State) (p : PortState) : State :=
  { s with port := p, spiOut := s.spiOut ++ [Config.fillByte] }

/-- PUT: a free slot is reserved, or the PUT is refused (R139). -/
def State.beginPut (s : State) : State :=
  s.enter (if s.requests.length < Config.queueSlots then .putFrame else .putRefused)

/-- TAKE: the oldest response, or the empty frame, is fixed (R144). -/
def State.beginTake (s : State) : State := s.enter (.takeSending s.responses.head?)

/-- PEEK: the summary is captured (R145). -/
def State.beginPeek (s : State) : State := s.enter (.peekSending s.summary)

/-- Any other transaction byte: FRAME_ERROR (R138). -/
def State.beginIgnoring (s : State) : State := (s.enter .ignoring).raise .frameError

/-- The completion of a transaction byte, whatever its value (R138). -/
def State.transactionByte (s : State) (b : Byte) : State :=
  if b = Config.putByte then s.beginPut
  else if b = Config.takeByte then s.beginTake
  else if b = Config.peekByte then s.beginPeek
  else s.beginIgnoring

/-- A transaction byte comes to the part in OPENING only; elsewhere this command changes nothing (log
2). -/
def State.inOpening (s : State) (work : State → State) : State :=
  if s.resetLow then s else if s.port = .opening then work s else s

/-- CHIP_SELECT_FALL: in IDLE the port becomes OPENING (R137); while RESET_N is low, the pin falls and
no transaction opens (R146). -/
def execChipSelectFall (s : State) : Host.Outcome State Fault Refusal :=
  .next (if s.csLow then s
    else if s.resetLow then { s with csLow := true }
    else if s.port = .idle then { s with csLow := true, port := .opening, spiOut := [] }
    else { s with csLow := true })

/-- PUT (R139). -/
def execPut (s : State) : Host.Outcome State Fault Refusal := .next (s.inOpening State.beginPut)

/-- TAKE (R144). -/
def execTake (s : State) : Host.Outcome State Fault Refusal := .next (s.inOpening State.beginTake)

/-- PEEK (R145). -/
def execPeek (s : State) : Host.Outcome State Fault Refusal := .next (s.inOpening State.beginPeek)

/-- IGNORING (R138). A byte that names a transaction is no such byte. -/
def execIgnoring (byte : Byte) (s : State) : Host.Outcome State Fault Refusal :=
  .next (if byte = Config.putByte ∨ byte = Config.takeByte ∨ byte = Config.peekByte then s
    else s.inOpening State.beginIgnoring)

/-! ### The output pin (R137, R146) -/

/-- SPI_DOUT is at high impedance: SPI_CS_N is high, or RESET_N is low (R137, R146). -/
def State.doutHighImpedance (s : State) : Bool := s.resetLow || !s.csLow

/-! ### The rise of chip select (R137, R140, R144) -/

/-- The bytes the part has of its own to send after the transaction byte (R139, R144, R145). -/
def PortState.own : PortState → List Byte
  | .idle => []
  | .opening => []
  | .putFrame => [Config.acceptByte]
  | .putRefused => [Config.fullByte]
  | .takeSending fixed => fixedFrame fixed
  | .peekSending summary => summary
  | .ignoring => []

/-- The part's bytes over `n` byte times: its own, then fill bytes (R137). -/
def shiftedOut (own : List Byte) (n : Nat) : List Byte :=
  own.take n ++ List.replicate (n - own.length) Config.fillByte

/-- A request that found the response queue full starts in the event that frees a slot (R142). -/
def State.startWaiting (s : State) (wasFull : Bool) : State :=
  if wasFull then s.startHead else s

/-- The oldest response leaves its queue, and a request waiting for room starts (R142, R144). -/
def State.removeResponse (s : State) : State :=
  { s with responses := s.responses.tail }.startWaiting
    (decide (Config.queueSlots ≤ s.responses.length))

/-- The ending work of a transaction, from the bytes shifted in since the transaction byte (R137, R140,
R144). -/
def State.endingWork (s : State) (bytes : List Byte) : State :=
  match s.port with
  | .putFrame =>
    match requestOfFrame bytes with
    | some q => { s with port := .idle, requests := s.requests ++ [q] }
    | none => { s with port := .idle }.raise .frameError
  | .takeSending (some r) =>
    if r.bytes.length ≤ bytes.length then { s with port := .idle }.removeResponse
    else { s with port := .idle }
  | .takeSending none => { s with port := .idle }
  | .idle => s
  | .opening => { s with port := .idle }
  | .putRefused => { s with port := .idle }
  | .peekSending _ => { s with port := .idle }
  | .ignoring => { s with port := .idle }

/-- The end of a transaction: the part's bytes have been shifted out, and the state's ending work is
done (R137). -/
def State.endTransaction (s : State) (bytes : List Byte) : State :=
  { s with csLow := false, spiOut := s.spiOut ++ shiftedOut s.port.own bytes.length }.endingWork bytes

/-- CHIP_SELECT_RISE (R137). A first whole byte in OPENING is the transaction byte (R138); the bits of
an incomplete byte are discarded. While RESET_N is low only the pin rises (R146). -/
def execChipSelectRise (bytes : List Byte) (_strayBits : Nat) (s : State) :
    Host.Outcome State Fault Refusal :=
  .next (if s.csLow = false then s
    else if s.resetLow then { s with csLow := false }
    else if s.port = .opening then
      match bytes with
      | [] => s.endTransaction []
      | b :: rest => (s.transactionByte b).endTransaction rest
    else s.endTransaction bytes)

end Sys2Proof.Machine
end

