-- ==== Sys2Proof/Machine/Classifier.lean ====
section
/-!
DEFINITION. The Admission Classifier (chapter 2): the range field, the four kinds of key, the
selection of a rule, the stages, and the final class check.
-/

namespace Sys2Proof.Machine

/-! ### The range field (R28, R29) -/

/-- A bound as the select reads its byte: signed under SIGNAL, else unsigned (R28). -/
def CheckerSelect.bound (select : CheckerSelect) (b : Byte) : Int :=
  match select with
  | .signal => b.toInt
  | .off => b.toNat
  | .rate => b.toNat
  | .tag => b.toNat
  | .streams => b.toNat

/-- The descriptor field a select names (R29); OFF names none. -/
def CheckerSelect.field (select : CheckerSelect) (d : Descriptor) : Option Int :=
  match select with
  | .off => none
  | .signal => some d.signal
  | .rate => some d.topRate
  | .tag => some d.deviceTag
  | .streams => some d.streams

/-- The bit of a checker: 1 when it is not OFF, its low bound does not exceed its high bound, and the
selected field lies within them (R29). -/
def Checker.bit (k : Checker) (d : Descriptor) : Bool :=
  match k.select.field d with
  | none => false
  | some x =>
    decide (k.select.bound k.low ≤ k.select.bound k.high) &&
      decide (k.select.bound k.low ≤ x) && decide (x ≤ k.select.bound k.high)

/-- The range field, bit `i` from checker `i` (R29). -/
def rangeField (checkers : Vector Checker 4) (d : Descriptor) : BitVec 4 :=
  BitVec.ofBool (checkers[3].bit d) ++ BitVec.ofBool (checkers[2].bit d) ++
    BitVec.ofBool (checkers[1].bit d) ++ BitVec.ofBool (checkers[0].bit d)

/-! ### Keys (R30, R175) -/

/-- The key of a kind, from the descriptor, the range field, the chain index and the stage; every bit of
no field is 0 (R30, R175). -/
def buildKey (kind : KeyKind) (d : Descriptor) (range : BitVec 4) (chain : Nat) (stage : Fin 4) :
    BitVec 48 :=
  match kind with
  | .address =>
    (d.linkAddress.extractLsb' 24 24 ++ BitVec.ofNat 8 d.deviceTag ++ 0#12 ++ range : BitVec 48)
  | .capability =>
    (BitVec.ofNat 2 d.band ++ BitVec.ofNat 3 d.streams ++ BitVec.ofNat 5 d.topRate ++
      BitVec.ofBool d.legacy ++ BitVec.ofBool d.multiUser ++ bitsOfClasses d.requested ++ range ++
      BitVec.ofNat 8 d.deviceTag ++ 0#20 : BitVec 48)
  | .tag =>
    (BitVec.ofNat 8 d.deviceTag ++ BitVec.ofNat 8 chain ++ range ++ BitVec.ofNat 2 d.band ++ 0#26 :
      BitVec 48)
  | .chain =>
    (BitVec.ofNat 8 chain ++ BitVec.ofNat 2 stage.val ++ 0#2 ++ range ++ 0#32 : BitVec 48)

/-! ### Rules (R25, R32, R33, R34) -/

/-- A rule of 0..59 takes part in a stage and agrees with its key (R32). -/
def PolicyRule.agrees (r : PolicyRule) (kind : KeyKind) (stage : Fin 4) (key : BitVec 48) : Bool :=
  r.valid && r.kind == kind && r.stages.getLsbD stage.val && ((key ^^^ r.value) &&& r.mask) == 0

/-- The default rule of a stage, 60 + n (R25). -/
def defaultRule (stage : Fin 4) : Fin 64 := ⟨60 + stage.val, by omega⟩

/-- The selected rule: the lowest-numbered of 0..59 that agrees, else the stage's default (R32). -/
def selectRule (rules : Vector PolicyRule 64) (kind : KeyKind) (stage : Fin 4) (key : BitVec 48) :
    Fin 64 :=
  match (List.finRange 64).find? fun i : Fin 64 =>
      decide (i.val < 60) && (rules[i.val]).agrees kind stage key with
  | some i => i
  | none => defaultRule stage

/-- A masked merge of profile values: the fields of the write set are replaced, the others kept (R33,
R149). -/
def Profile.merge (old : Profile) (w : WriteSet) (new : Profile) : Profile :=
  { weight := if w.weight then new.weight else old.weight
    classes := if w.classes then new.classes else old.classes
    ceiling := if w.ceiling then new.ceiling else old.ceiling
    borrow := if w.borrow then new.borrow else old.borrow
    costShift := if w.costShift then new.costShift else old.costShift
    uplinkEighths := if w.uplinkEighths then new.uplinkEighths else old.uplinkEighths
    softCap := if w.softCap then new.softCap else old.softCap }

/-- An ADD that would pass 255 (R34). -/
def Action.chainOverflows (a : Action) (chain : Nat) : Bool :=
  a.chainControl == .add && decide (255 < chain + a.chainValue)

/-- The chain index after a stage (R34). -/
def Action.nextChain (a : Action) (chain : Nat) : Nat :=
  match a.chainControl with
  | .keep => chain
  | .set => a.chainValue
  | .add => if 255 < chain + a.chainValue then chain else chain + a.chainValue

/-! ### Stages (R31 to R37) -/

/-- What a classification holds between its stages (R23, R31). -/
structure ClassWork where
  profile    : Profile
  chain      : Nat
  trace      : List TraceEntry
  chainRange : Bool
deriving DecidableEq, Repr

/-- The work after a stage whose selected rule is `i` (R33 to R35). -/
def ClassWork.apply (w : ClassWork) (stage : Fin 4) (i : Fin 64) (a : Action) : ClassWork :=
  { profile := w.profile.merge a.writes a.values
    chain := a.nextChain w.chain
    trace := w.trace ++ [⟨stage, i⟩]
    chainRange := w.chainRange || a.chainOverflows w.chain }

/-- The rules and settings a classification reads (R23). -/
structure ClassPolicy where
  rules          : Vector PolicyRule 64
  checkers       : Vector Checker 4
  defaultProfile : Profile
  firstKind      : KeyKind
deriving DecidableEq, Repr

/-- Run stage `stage` and, after CONTINUE below stage 3, the stages after it; `left` counts the stages
that may follow. The flag says whether the classification ended by ACCEPT or by CONTINUE in stage 3
(R32 to R36). -/
def runStages (p : ClassPolicy) (d : Descriptor) (left : Nat) (stage : Fin 4) (kind : KeyKind)
    (w : ClassWork) : ClassWork × Bool :=
  let i := selectRule p.rules kind stage
    (buildKey kind d (rangeField p.checkers d) w.chain stage)
  let a := (p.rules[i.val]).action
  let w := w.apply stage i a
  match a.verdict, left with
  | .deny, _ => (w, false)
  | .accept, _ => (w, true)
  | .goOn, 0 => (w, true)
  | .goOn, left + 1 => runStages p d left (stage + 1) a.nextKind w

/-- A whole classification: what it hands on, and whether a stage set CHAIN_RANGE (R31, R34, R37). -/
def classify (p : ClassPolicy) (d : Descriptor) : ClassResult × Bool :=
  let start : ClassWork := { profile := p.defaultProfile, chain := 0, trace := [], chainRange := false }
  let (w, accepted) := runStages p d 3 0 p.firstKind start
  let classes := w.profile.classes.inter d.requested
  let outcome :=
    if !accepted then ClassOutcome.denied
    else if classes = ClassSet.none then .noClass
    else .accept
  ({ outcome := outcome, profile := { w.profile with classes := classes }, trace := w.trace },
    w.chainRange)

/-- The policy as it stands (R23). -/
def State.classPolicy (s : State) : ClassPolicy :=
  { rules := s.rules, checkers := s.settings.checkers,
    defaultProfile := s.settings.defaultProfile, firstKind := s.settings.firstKind }

/-- The status of a refused classification, OK for an accepted one (R38). -/
def ClassOutcome.status : ClassOutcome → Status
  | .accept => .ok
  | .denied => .denied
  | .noClass => .noClass

end Sys2Proof.Machine
end

