-- ==== Sys2Proof/Machine/RequestVisits.lean ====
section
/-!
DEFINITION. The Request Processor's visits: ADMIT's two, AMEND's, REAPPLY's two, RETIRE's, FIND's probe,
QUERY's, LIST's scan and the record visits of TABLE_CLEAR.
-/

namespace Sys2Proof.Machine

/-! ### ADMIT (R18, R19) -/

/-- The CHAIN_RANGE flag of a classification, and its result (R34). -/
def State.runClassifier (s : State) (d : Descriptor) : State × ClassResult :=
  let (result, chainRange) := classify s.classPolicy d
  (s.raiseIf chainRange .chainRange, result)

/-- The allocation visit: DUPLICATE, or NO_ROOM, or the free-list head becomes FORMING with the
descriptor, and the classifier runs on it (R18, R31). -/
def State.allocate (s : State) (d : Descriptor) (clamped : Bool) : State :=
  match s.probe d.linkAddress with
  | some _ => s.respond .duplicate clamped (admitResponse none [])
  | none =>
    match s.freeHead with
    | none => (s.raise .noRoom).respond .noRoom clamped (admitResponse none [])
    | some h =>
      let s := (s.takeFree h).changeStation h fun r =>
        { r with state := .forming, descriptor := d }
      let (s, result) := s.runClassifier d
      { s with executing := .admitComplete h result clamped }

/-- The record an accepted ADMIT makes (R19). -/
def admitted (r : StationRecord) (t : Settings) (result : ClassResult) : StationRecord :=
  { r with
    state := .active, profile := result.profile, trace := result.trace
    credit := initialCredit t.quantum result.profile
    usage := 0, average := 0, failStreak := 0, backlog := ClassSet.none, inFlight := ClassSet.none
    idleCountdown := t.idleLimit }

/-- The completion visit: the FORMING record becomes ACTIVE and enters the index, or returns FREE to the
free-list head; the response enters its queue (R19, R148). -/
def State.completeAdmit (s : State) (h : Handle) (result : ClassResult) (clamped : Bool) : State :=
  match result.outcome with
  | .accept =>
    ((s.writeBack h (admitted (s.station h) s.settings result)).enterIndex h).respond .ok clamped
      (admitResponse (some h) result.trace)
  | .denied => (s.freeAtHead h).respond .denied clamped (admitResponse none result.trace)
  | .noClass => (s.freeAtHead h).respond .noClass clamped (admitResponse none result.trace)

/-- ADMIT_ALLOCATION_VISIT (R18). -/
def execAdmitAllocationVisit (asks : PortAsks) (s : State) : Host.Outcome State Fault Refusal :=
  .next (s.requestVisit .allocation asks fun s =>
    match s.executing with
    | .admitAllocate d clamped => s.allocate d clamped
    | _ => s)

/-- ADMIT_COMPLETION_VISIT (R19). -/
def execAdmitCompletionVisit (asks : PortAsks) (s : State) : Host.Outcome State Fault Refusal :=
  .next (s.requestVisit .completion asks fun s =>
    match s.executing with
    | .admitComplete h result clamped => s.completeAdmit h result clamped
    | _ => s)

/-! ### AMEND (R149, R59) -/

/-- The host may change the station: its record is ACTIVE or DORMANT (R39, R149). -/
def StationRecord.associated (r : StationRecord) : Bool := r.state == .active || r.state == .dormant

/-- The record with the named fields written as a masked merge (R149). -/
def StationRecord.amended (r : StationRecord) (f : AmendFields) : StationRecord :=
  { r with
    profile := r.profile.merge f.writes f.values
    descriptor := { r.descriptor with
      signal := if f.writesSignal then f.signal else r.descriptor.signal }
    credit := if f.writesCredit then f.credit else r.credit }

/-- The AMEND visit (R149). -/
def State.amendStation (s : State) (h : Handle) (f : AmendFields) (clamped : Bool) : State :=
  if (s.station h).associated then
    (s.writeBack h ((s.station h).amended f)).respond .ok clamped (amendResponse h f)
  else s.respond .noStation clamped (amendRefused h.val)

/-- AMEND_VISIT (R149). -/
def execAmendVisit (asks : PortAsks) (s : State) : Host.Outcome State Fault Refusal :=
  .next (s.requestVisit .amend asks fun s =>
    match s.executing with
    | .amend h f clamped => s.amendStation h f clamped
    | _ => s)

/-! ### REAPPLY (R39 to R41) -/

/-- The read visit: the stored descriptor is copied and classified; only an accepted result goes on to
the apply visit (R39, R41, R150). -/
def State.readForReapply (s : State) (h : Handle) : State :=
  if (s.station h).associated then
    let (s, result) := s.runClassifier (s.station h).descriptor
    match result.outcome with
    | .accept => { s with executing := .reapplyApply h result }
    | .denied => s.respond .denied false (traceBytes result.trace)
    | .noClass => s.respond .noClass false (traceBytes result.trace)
  else s.respond .noStation false (traceBytes [])

/-- The apply visit: the profile and trace are replaced, every other field is kept (R40). -/
def State.applyReapply (s : State) (h : Handle) (result : ClassResult) : State :=
  (s.writeBack h { s.station h with profile := result.profile, trace := result.trace }).respond .ok
    false (traceBytes result.trace)

/-- REAPPLY_READ_VISIT (R39). -/
def execReapplyReadVisit (asks : PortAsks) (s : State) : Host.Outcome State Fault Refusal :=
  .next (s.requestVisit .reapplyRead asks fun s =>
    match s.executing with
    | .reapplyRead h => s.readForReapply h
    | _ => s)

/-- REAPPLY_APPLY_VISIT (R40). -/
def execReapplyApplyVisit (asks : PortAsks) (s : State) : Host.Outcome State Fault Refusal :=
  .next (s.requestVisit .reapplyApply asks fun s =>
    match s.executing with
    | .reapplyApply h result => s.applyReapply h result
    | _ => s)

/-! ### RETIRE (R20) -/

/-- The record of a retired station: COOLING with its countdown when nothing is in flight, else
DRAINING (R20). -/
def StationRecord.retired (r : StationRecord) (coolEpochs : Nat) : StationRecord :=
  if r.inFlight = ClassSet.none then
    { r with state := .cooling, backlog := ClassSet.none, coolCountdown := coolEpochs }
  else { r with state := .draining, backlog := ClassSet.none }

/-- The RETIRE visit (R20, R151). The record leaves the index whether it becomes COOLING or DRAINING (R13;
log 9). -/
def State.retireStation (s : State) (h : Handle) : State :=
  if (s.station h).associated then
    let unindexed := s.leaveIndex h
    let r := unindexed.station h
    (unindexed.writeBack h (r.retired s.settings.coolEpochs)).respond
      (if r.inFlight = ClassSet.none then .ok else .deferred) false (handleBytes (some h))
  else s.respond .noStation false (handleBytes (some h))

/-- RETIRE_VISIT (R20). -/
def execRetireVisit (asks : PortAsks) (s : State) : Host.Outcome State Fault Refusal :=
  .next (s.requestVisit .retire asks fun s =>
    match s.executing with
    | .retire h => s.retireStation h
    | _ => s)

/-! ### FIND, QUERY, LIST (R14, R153, R154) -/

/-- FIND_PROBE_VISIT (R14, R152). -/
def execFindProbeVisit (asks : PortAsks) (s : State) : Host.Outcome State Fault Refusal :=
  .next (s.requestVisit .probe asks fun s =>
    match s.executing with
    | .find a =>
      match s.probe a with
      | some h => s.respond .ok false (handleBytes (some h))
      | none => s.respond .notFound false (handleBytes none)
    | _ => s)

/-- QUERY_VISIT (R153). No record is FORMING when a QUERY executes; DESIGN CHOICE (log 13): one that were
would be refused. -/
def execQueryVisit (asks : PortAsks) (s : State) : Host.Outcome State Fault Refusal :=
  .next (s.requestVisit .query asks fun s =>
    match s.executing with
    | .query h =>
      if (s.station h).state = .free ∨ (s.station h).state = .forming then
        s.respond .noStation false queryRefused
      else s.respond .ok false (snapshotBytes (s.station h) s.walker.epoch)
    | _ => s)

/-- The next handle of a LIST whose scan stopped at 28 handles (R154). -/
def listNext (found : List Handle) : Option Handle :=
  if found.length < Config.listLimit then none
  else
    match found.getLast? with
    | none => none
    | some h => Handle.after h

/-- One scan visit: the handle joins the list when its state is in the set; the scan ends at 28 handles
or after handle 511 (R154). -/
def State.scan (s : State) (states : BitVec 6) (h : Handle) (found : List Handle) : State :=
  let found := if states.getLsbD (s.station h).state.code then found ++ [h] else found
  match Handle.after h with
  | none => s.respond .ok false (listResponse found (listNext found))
  | some next =>
    if Config.listLimit ≤ found.length then s.respond .ok false (listResponse found (listNext found))
    else { s with executing := .list states next found }

/-- LIST_SCAN_VISIT (R154). -/
def execListScanVisit (asks : PortAsks) (s : State) : Host.Outcome State Fault Refusal :=
  .next (s.requestVisit .scan asks fun s =>
    match s.executing with
    | .list states h found => s.scan states h found
    | _ => s)

/-! ### TABLE_CLEAR (R22) -/

/-- The record visit of a handle: it leaves the index and, by re-evaluation, its rings and lists; it
becomes FREE and cleared; and it takes its place in the ascending free list (R22). -/
def State.clearRecord (s : State) (h : Handle) : State :=
  let s := if (s.station h).associated then s.leaveIndex h else s
  let s := if (s.station h).state = .free then s.unlinkFree h else s
  (s.writeBack h { s.station h with state := .free }).freeInOrder h

/-- The completion of a TABLE_CLEAR: the rings are reset, the clearing flag is cleared, the step timer
restarts, and the response is entered (R22, R78, R106, R122). -/
def State.completeClear (s : State) : State :=
  { s.resetRings with
    clearing := false
    walker := s.walker.start s.timebase s.settings.stepInterval }.respond .ok false []

/-- TABLE_CLEAR_RECORD_VISIT (R22). -/
def execTableClearRecordVisit (asks : PortAsks) (s : State) : Host.Outcome State Fault Refusal :=
  .next (s.requestVisit .clearRecord asks fun s =>
    match s.executing with
    | .clearRecords h =>
      match Handle.after h with
      | some next => { s.clearRecord h with executing := .clearRecords next }
      | none => (s.clearRecord h).completeClear
    | _ => s)

end Sys2Proof.Machine
end

