-- ==== Sys2Proof/Machine/Dispatch.lean ====
section
/-!
DEFINITION. One arm for each command: a direct call of its meaning.
-/

namespace Sys2Proof.Machine

def exec (i : Instr) (s : State) : Host.Outcome State Fault Refusal :=
  match i with
  | .resetAssert => Sys2Proof.Machine.execResetAssert s
  | .resetRelease => Sys2Proof.Machine.execResetRelease s
  | .chipSelectFall => Sys2Proof.Machine.execChipSelectFall s
  | .put => Sys2Proof.Machine.execPut s
  | .take => Sys2Proof.Machine.execTake s
  | .peek => Sys2Proof.Machine.execPeek s
  | .ignoring byte => Sys2Proof.Machine.execIgnoring byte s
  | .chipSelectRise bytes strayBits => Sys2Proof.Machine.execChipSelectRise bytes strayBits s
  | .badKind => Sys2Proof.Machine.execBadKind s
  | .admitStart => Sys2Proof.Machine.execAdmit s
  | .admitAllocationVisit asks => Sys2Proof.Machine.execAdmitAllocationVisit asks s
  | .admitCompletionVisit asks => Sys2Proof.Machine.execAdmitCompletionVisit asks s
  | .amend => Sys2Proof.Machine.execAmend s
  | .amendVisit asks => Sys2Proof.Machine.execAmendVisit asks s
  | .reapply => Sys2Proof.Machine.execReapply s
  | .reapplyReadVisit asks => Sys2Proof.Machine.execReapplyReadVisit asks s
  | .reapplyApplyVisit asks => Sys2Proof.Machine.execReapplyApplyVisit asks s
  | .retire => Sys2Proof.Machine.execRetire s
  | .retireVisit asks => Sys2Proof.Machine.execRetireVisit asks s
  | .find => Sys2Proof.Machine.execFind s
  | .findProbeVisit asks => Sys2Proof.Machine.execFindProbeVisit asks s
  | .query => Sys2Proof.Machine.execQuery s
  | .queryVisit asks => Sys2Proof.Machine.execQueryVisit asks s
  | .list => Sys2Proof.Machine.execList s
  | .listScanVisit asks => Sys2Proof.Machine.execListScanVisit asks s
  | .rulePut => Sys2Proof.Machine.execRulePut s
  | .ruleGet => Sys2Proof.Machine.execRuleGet s
  | .itemPut => Sys2Proof.Machine.execItemPut s
  | .itemGet => Sys2Proof.Machine.execItemGet s
  | .summaryClear => Sys2Proof.Machine.execSummaryClear s
  | .tableClear => Sys2Proof.Machine.execTableClear s
  | .tableClearRelease => Sys2Proof.Machine.execTableClearRelease s
  | .releaseVisit asks => Sys2Proof.Machine.execReleaseVisit asks s
  | .tableClearRecordVisit asks => Sys2Proof.Machine.execTableClearRecordVisit asks s
  | .messageReceived nibbles cut => Sys2Proof.Machine.execMessageReceived nibbles cut s
  | .firstSync => Sys2Proof.Machine.execFirstSync s
  | .downMessageDrop => Sys2Proof.Machine.execDownMessageDrop s
  | .ask => Sys2Proof.Machine.execAsk s
  | .popVisit pop => Sys2Proof.Machine.execPopVisit pop s
  | .conditionalPopVisit pop => Sys2Proof.Machine.execConditionalPopVisit pop s
  | .outboundEnqueue => Sys2Proof.Machine.execOutboundEnqueue s
  | .outboundSent => Sys2Proof.Machine.execOutboundSent s
  | .done => Sys2Proof.Machine.execDone s
  | .doneMemberVisit asks => Sys2Proof.Machine.execDoneMemberVisit asks s
  | .awardExpiry id generation => Sys2Proof.Machine.execAwardExpiry id generation s
  | .expiryMemberVisit asks => Sys2Proof.Machine.execExpiryMemberVisit asks s
  | .backlog => Sys2Proof.Machine.execBacklog s
  | .backlogEntryVisit asks => Sys2Proof.Machine.execBacklogEntryVisit asks s
  | .uplink => Sys2Proof.Machine.execUplink s
  | .uplinkVisit asks => Sys2Proof.Machine.execUplinkVisit asks s
  | .linkRestart => Sys2Proof.Machine.execLinkRestart s
  | .linkRestartBacklogVisit asks => Sys2Proof.Machine.execLinkRestartBacklogVisit asks s
  | .stepTimerExpiry => Sys2Proof.Machine.execStepTimerExpiry s
  | .walkerVisit asks => Sys2Proof.Machine.execWalkerVisit asks s

end Sys2Proof.Machine
end

