-- ==== Sys2Proof/Safety.lean ====
section
/-!
DEFINITION. What the part keeps: the laws of the walker, the port, the accounts, the rings, the free
list, the address index and the Award Table, as predicates of a state, and the two readings of a state
that the frame of a visit is said with.
-/

namespace Sys2Proof.Machine

/-! ### Frames -/

/-- A record without its places in rings and overflow lists. -/
def StationRecord.unplaced (r : StationRecord) : StationRecord :=
  { r with ringSlot := PerClass.const none, overflow := PerClass.const none }

/-- The state without what a re-evaluation, a pop or a promotion may write: the rings, the overflow
lists, the records' places in them, the waiting counts and the OVERFLOW flag (R65). Two states with the
same reading agree in everything else. -/
def State.beyondRings (s : State) : State :=
  { s with
    stations := s.stations.map StationRecord.unplaced
    rings := PerClass.const Ring.powerOn
    overflows := PerClass.const OverflowList.powerOn
    waiting := PerClass.const 0
    flags := { s.flags with overflow := false } }

/-- The state after the arbiter has granted a requester's visit: that visit no longer waits (R17). -/
def State.granted (s : State) (r : Requester) (asks : PortAsks) : State :=
  { s with tablePort := withoutVisit (s.arrivals r asks) r }

/-- The state after the executing request has ended with a response: its slot is freed, and the response
is the last of its queue (R141, R142). -/
def State.responded (s : State) (kind : Byte) (status : Status) (clamped : Bool)
    (payload : List Byte) : State :=
  { s with
    executing := .idle
    requests := s.requests.tail
    responses := s.responses ++ [⟨kind, status, clamped, payload⟩] }

/-- The command that starts a request (R147). -/
def Request.command (q : Request) : Instr :=
  match q.form with
  | none => .badKind
  | some .admitting => .admitStart
  | some .amend => .amend
  | some .reapply => .reapply
  | some .retire => .retire
  | some .find => .find
  | some .query => .query
  | some .list => .list
  | some .rulePut => .rulePut
  | some .ruleGet => .ruleGet
  | some .itemPut => .itemPut
  | some .itemGet => .itemGet
  | some .summaryClear => .summaryClear
  | some .tableClear => .tableClear

/-- The station that the next pop of a class reaches: the first in the occupied run of the ring, holes
passed over, and where the run holds none, the head of the overflow list (R69, R74). -/
def State.firstInLine (s : State) (c : ServiceClass) : Option Handle :=
  ((List.range (s.ring c).occupancy).findSome? fun n =>
    (s.ring c).at ((s.ring c).head + BitVec.ofNat 8 n)).or (s.overflowList c).head

/-! ### Settings (R157) -/

/-- The range of a numeric item (R157); set items and range checkers have none. -/
def SettingItem.range : SettingItem → Option (Int × Int)
  | .stepInterval => some (100, 20000)
  | .quantum => some (16, 4095)
  | .holdMask => none
  | .idleLimit => some (1, 255)
  | .coolEpochs => some (1, 15)
  | .awardTimeout => some (1000, 65000)
  | .overhead _ => some (0, 1023)
  | .avgShift => some (1, 7)
  | .penaltyShift => some (0, 4)
  | .failLimit => some (1, 15)
  | .classEnable => none
  | .firstKind => some (0, 3)
  | .defaultWeight => some (1, 64)
  | .defaultClasses => none
  | .defaultCeiling => some (0, 65535)
  | .defaultBorrow => some (0, 8191)
  | .defaultCostShift => some (-3, 3)
  | .defaultUplinkEighths => some (0, 8)
  | .defaultSoftCap => some (0, 65535)
  | .pullIn => some (0, 1)
  | .checker _ => none
  | .attnMask => none

/-- The number a coded value stands for: the default cost shift is signed, the others are not (R174). -/
def SettingItem.number (i : SettingItem) (v : Word) : Int :=
  match i with
  | .defaultCostShift => v.toInt
  | _ => v.toNat

/-! ### The walker (R108, R109, R112) -/

/-- Lag and lead within 0..8, at most one above 0; the step in progress within the pointer's group; an
owed step only with the lag above 0, and a step whenever it is; nothing while the timer is stopped. -/
structure Walker.Lawful (w : Walker) : Prop where
  lag_le : w.lag ≤ 8
  lead_le : w.lead ≤ 8
  one_zero : w.lag = 0 ∨ w.lead = 0
  inGroup : ∀ p, w.step = some p → p.next.val / 32 = w.groupPointer.val
  owed : ∀ p, w.step = some p → p.kind = .owed → 0 < w.lag
  begun : 0 < w.lag → w.step.isSome = true
  stopped : w.timerRunning = false → w.lag = 0 ∧ w.lead = 0 ∧ w.step = none

/-! ### The queues (R126, R135, R139, R141, R142) -/

/-- Each queue within its depth; a request executes only from the head of a non-empty queue with room
for its response; a PUT whose slot is reserved finds it free. -/
structure State.QueuesLawful (s : State) : Prop where
  requests_le : s.requests.length ≤ 4
  responses_le : s.responses.length ≤ 4
  inbound_le : s.inbound.length ≤ 8
  outbound_le : s.outbound.length ≤ 4
  executing : s.executing ≠ .idle → s.requests ≠ [] ∧ s.responses.length < 4
  reserved : s.port = .putFrame → s.requests.length < 4

/-! ### The accounts (R4, R44) -/

/-- A profile within the upper bounds of R4; a cleared profile is within them too. -/
structure Profile.Bounded (p : Profile) : Prop where
  weight : p.weight ≤ 64
  ceiling : p.ceiling ≤ 65535
  borrow : p.borrow ≤ 8191
  costShift : -3 ≤ p.costShift ∧ p.costShift ≤ 3
  uplinkEighths : p.uplinkEighths ≤ 8
  softCap : p.softCap ≤ 65535

/-- A record carries a profile: it is neither FREE nor FORMING (R2, R6). -/
def StationRecord.settled (r : StationRecord) : Bool := r.state != .free && r.state != .forming

/-- Credit, usage, average and profile of a record within their ranges; the weight is at least 1 where the
record carries a profile (R1, R4, R44). -/
structure StationRecord.Bounded (r : StationRecord) : Prop where
  credit : -524288 ≤ r.credit ∧ r.credit ≤ 524287
  usage : r.usage ≤ 65535
  average : r.average ≤ 65535
  profile : r.profile.Bounded
  weight : r.settled = true → 1 ≤ r.profile.weight

/-- What the executing request carries into a record is within the ranges. -/
def Execution.Bounded : Execution → Prop
  | .admitComplete _ result _ => result.profile.Bounded ∧ 1 ≤ result.profile.weight
  | .reapplyApply _ result => result.profile.Bounded ∧ 1 ≤ result.profile.weight
  | .amend _ f _ => f.values.Bounded ∧ 1 ≤ f.values.weight ∧ -524288 ≤ f.credit ∧ f.credit ≤ 524287
  | .idle => True
  | .admitAllocate _ _ => True
  | .reapplyRead _ => True
  | .retire _ => True
  | .find _ => True
  | .query _ => True
  | .list _ _ _ => True
  | .clearRelease => True
  | .clearRecords _ => True

/-- Every record is within its ranges, and so is everything that a record is written from: a rule that
writes the weight writes 1 at least. -/
structure State.AccountsLawful (s : State) : Prop where
  records : ∀ h, (s.station h).Bounded
  rules : ∀ i : Fin 64, (s.rules[i.val]).action.values.Bounded ∧
    ((s.rules[i.val]).action.writes.weight = true → 1 ≤ (s.rules[i.val]).action.values.weight)
  defaults : s.settings.defaultProfile.Bounded ∧ 1 ≤ s.settings.defaultProfile.weight
  executing : s.executing.Bounded

/-! ### The rings and overflow lists (R64, R65, R66, R71, R74) -/

/-- A station's overflow place in a class. -/
def State.placeOf (s : State) (c : ServiceClass) (h : Handle) : Option OverflowPlace :=
  (s.station h).overflow.get c

/-- The members of a list are linked through their places: the first follows `prev`, the last precedes
`next`, and each names its two neighbours (R71). -/
def Linked (place : Handle → Option OverflowPlace) (prev : Option Handle) :
    List Handle → Option Handle → Prop
  | [], _ => True
  | h :: rest, next =>
    place h = some { prev := prev, next := rest.head?.or next } ∧ Linked place (some h) rest next

/-- The overflow list of a class holds these members in order, each once, and no other station has a
place in it (R71). -/
structure State.ListedAs (s : State) (c : ServiceClass) (members : List Handle) : Prop where
  nodup : members.Nodup
  head : (s.overflowList c).head = members.head?
  tail : (s.overflowList c).tail = members.getLast?
  length : (s.overflowList c).length = members.length
  member : ∀ h, h ∈ members ↔ (s.placeOf c h).isSome = true
  linked : Linked (s.placeOf c) none members none

/-- The number of stations waiting in a class (R64). -/
def State.countWaiting (s : State) (c : ServiceClass) : Nat :=
  (allHandles.filter fun h => (s.station h).isWaiting c).length

/-- The laws of one class: a slot that is no hole lies in the occupied run and holds the station that
records it; a station is eligible exactly when it holds a place, and it never holds two; the overflow
list is linked through its members' places and is empty unless the ring is full; and the waiting count
is the number of waiting stations. -/
structure State.ClassLawful (s : State) (c : ServiceClass) : Prop where
  slots : ∀ i h, (s.ring c).at i = some h ↔ (s.station h).ringSlot.get c = some i
  run : ∀ i h, (s.ring c).at i = some h → (i - (s.ring c).head).toNat < (s.ring c).occupancy
  places : ∀ h, (s.station h).eligible c = true ↔
    ((s.station h).ringSlot.get c).isSome = true ∨ ((s.station h).overflow.get c).isSome = true
  single : ∀ h, ¬ (((s.station h).ringSlot.get c).isSome = true ∧
    ((s.station h).overflow.get c).isSome = true)
  list : ∃ members, s.ListedAs c members
  full : 0 < (s.overflowList c).length → (s.ring c).occupancy = 255
  waiting : s.waiting.get c = s.countWaiting c

/-- The stations a ring holds, head first, holes passed over (R66). -/
def Ring.stations (r : Ring) : List Handle :=
  (List.range r.occupancy).filterMap fun n => r.at (r.head + BitVec.ofNat 8 n)

/-- The stations in line in a class, in the order in which pops reach them: those of the ring, and behind
them the members of the overflow list, which stands behind a full ring only (R67, R69, R74). -/
def State.InLine (s : State) (c : ServiceClass) (line : List Handle) : Prop :=
  ∃ members, s.ListedAs c members ∧ line = (s.ring c).stations ++ members ∧
    (members ≠ [] → (s.ring c).occupancy = 255)

/-- The slots of the occupied run, head first (R66). -/
def Ring.line (r : Ring) : List (Option Handle) :=
  (List.range r.occupancy).map fun n => r.at (r.head + BitVec.ofNat 8 n)

/-- The holes at the head of the occupied run: those that a pop visit discards (R69). -/
def Ring.holesAhead (r : Ring) : Nat := (r.line.takeWhile (·.isNone)).length

/-- From the one state to the other the head of a class's ring has gone past `n` slots. Each fall of the
occupancy has promoted the head of the overflow list, where there was one, to the tail: the slots left are
those of the run and of the promoted stations behind it, the first `n` taken away; and each station in a slot
records that slot (R69, R74). -/
structure State.HeadAdvances (s t : State) (c : ServiceClass) (n : Nat) : Prop where
  head : (t.ring c).head = (s.ring c).head + BitVec.ofNat 8 n
  promoted : ∀ members, s.ListedAs c members →
    t.ListedAs c (members.drop n) ∧
    (t.ring c).tail = (s.ring c).tail + BitVec.ofNat 8 (members.take n).length ∧
    (t.ring c).occupancy + n = (s.ring c).occupancy + (members.take n).length ∧
    (t.ring c).line = ((s.ring c).line ++ (members.take n).map some).drop n
  slots : ∀ i h, (t.ring c).at i = some h ↔ (t.station h).ringSlot.get c = some i

/-- The command is of a visit that is due and granted, and this is the station it works on and
re-evaluates when it changes an input of its eligibility (R16, R65). The last visits of a TABLE_CLEAR and of
a link restart, which reset the rings, are not among them. -/
inductive State.Reevaluates (s : State) : Instr → Handle → Prop where
  /-- A BACKLOG entry's visit (R131). -/
  | backlogEntry {asks e rest} : s.engine = .backlog (e :: rest) → s.grants .award asks = true →
      s.Reevaluates (.backlogEntryVisit asks) e.handle
  /-- The UPLINK visit (R133). -/
  | uplink {asks h airtime} : s.engine = .uplink h airtime → s.grants .award asks = true →
      s.Reevaluates (.uplinkVisit asks) h
  /-- A DONE's member visit (R95). -/
  | doneMember {asks id airtime m rest w} : s.engine = .done id airtime (m :: rest) →
      (s.entry id).award = some w → s.grants .award asks = true →
      s.Reevaluates (.doneMemberVisit asks) m.handle
  /-- An expiry's member visit (R99). -/
  | expiryMember {asks id h rest w i} : s.engine = .expiry id (h :: rest) →
      (s.entry id).award = some w → w.issue = some i → s.grants .award asks = true →
      s.Reevaluates (.expiryMemberVisit asks) h
  /-- A release visit of a TABLE_CLEAR (R101). -/
  | clearRelease {asks m rest w} : s.engine = .clearRelease (m :: rest) →
      (s.entry m.id).award = some w → s.grants .award asks = true →
      s.Reevaluates (.releaseVisit asks) m.handle
  /-- A release visit of a link restart (R129). -/
  | restartRelease {asks tag m rest w} : s.engine = .restartRelease tag (m :: rest) →
      (s.entry m.id).award = some w → s.grants .award asks = true →
      s.Reevaluates (.releaseVisit asks) m.handle
  /-- A visit of a link restart's second part, below handle 511 (R130). -/
  | restartBacklog {asks tag h} : s.engine = .restartBacklog tag h → h.val < 511 →
      s.grants .award asks = true → s.Reevaluates (.linkRestartBacklogVisit asks) h
  /-- The completion visit of ADMIT (R19). -/
  | completion {asks h result clamped} : s.executing = .admitComplete h result clamped →
      s.grants .request asks = true → s.Reevaluates (.admitCompletionVisit asks) h
  /-- The AMEND visit (R149). -/
  | amend {asks h f clamped} : s.executing = .amend h f clamped → s.grants .request asks = true →
      s.Reevaluates (.amendVisit asks) h
  /-- The apply visit of REAPPLY (R40). -/
  | reapplyApply {asks h result} : s.executing = .reapplyApply h result →
      s.grants .request asks = true → s.Reevaluates (.reapplyApplyVisit asks) h
  /-- The RETIRE visit (R20). -/
  | retire {asks h} : s.executing = .retire h → s.grants .request asks = true →
      s.Reevaluates (.retireVisit asks) h
  /-- A record visit of a TABLE_CLEAR, below handle 511 (R22). -/
  | clearRecord {asks h} : s.executing = .clearRecords h → h.val < 511 →
      s.grants .request asks = true → s.Reevaluates (.tableClearRecordVisit asks) h
  /-- A walker visit (R116). -/
  | walker {asks p} : s.walker.step = some p → s.grants .walker asks = true →
      s.Reevaluates (.walkerVisit asks) p.next

/-- The ring laws of every class, with what the operations that reset the rings keep as they go: a
completion visit finds its record FORMING; the handles a TABLE_CLEAR has passed are FREE; and the ACTIVE
records a link restart has passed have no backlog (R6, R22, R130). -/
structure State.RingsLawful (s : State) : Prop where
  classes : ∀ c, s.ClassLawful c
  forming : ∀ h result clamped, s.executing = .admitComplete h result clamped →
    (s.station h).state = .forming
  cleared : ∀ next, s.executing = .clearRecords next →
    ∀ h : Handle, h < next → (s.station h).state = .free
  restarted : ∀ tag next, s.engine = .restartBacklog tag next →
    ∀ h : Handle, h < next → (s.station h).state = .active → (s.station h).backlog = ClassSet.none

/-! ### The free list and the address index (R11 to R14, R22) -/

/-- The members of a list are linked in order, the last to none. -/
def Chained (link : Handle → Option Handle) : List Handle → Prop
  | [] => True
  | h :: rest => link h = rest.head? ∧ Chained link rest

/-- The free list is these handles, in order (R11). -/
structure State.FreeOrder (s : State) (members : List Handle) : Prop where
  nodup : members.Nodup
  head : s.freeHead = members.head?
  tail : s.freeTail = members.getLast?
  linked : Chained (fun h => (s.station h).nextFree) members

/-- The free list holds every FREE record once and no other, from its head to its tail; while a
TABLE_CLEAR makes its record visits, it begins with the handles they have passed, ascending. A record that
is not FREE has no next-free link, as the model chose (log 28). -/
structure State.FreeListLawful (s : State) : Prop where
  list : ∃ members : List Handle,
    members.Nodup ∧ s.freeHead = members.head? ∧ s.freeTail = members.getLast? ∧
      (∀ h, h ∈ members ↔ (s.station h).state = .free) ∧
      Chained (fun h => (s.station h).nextFree) members ∧
      ∀ next, s.executing = .clearRecords next →
        ∃ rest, members = allHandles.take next.val ++ rest
  outside : ∀ h, (s.station h).state ≠ .free → (s.station h).nextFree = none
  forming : ∀ h result clamped, s.executing = .admitComplete h result clamped →
    (s.station h).state = .forming

/-- A record is in the address index: it is ACTIVE or DORMANT (R13). -/
def StationRecord.indexed (r : StationRecord) : Bool := r.state == .active || r.state == .dormant

/-- The chain of a bucket is these handles, in order (R12). -/
structure State.BucketOrder (s : State) (b : BitVec 8) (members : List Handle) : Prop where
  nodup : members.Nodup
  head : s.bucketHead b = members.head?
  linked : Chained (fun h => (s.station h).nextInBucket) members

/-- Each bucket's chain holds the ACTIVE and DORMANT records whose addresses fold to it, each once; no two
of them carry one address; and an ADMIT under way holds an address that none of them carries. -/
structure State.IndexLawful (s : State) : Prop where
  chains : ∀ b : BitVec 8, ∃ members : List Handle,
    members.Nodup ∧ s.bucketHead b = members.head? ∧
      (∀ h, h ∈ members ↔ (s.station h).indexed = true ∧
        bucketOf (s.station h).descriptor.linkAddress = b) ∧
      Chained (fun h => (s.station h).nextInBucket) members
  outside : ∀ h, (s.station h).indexed = false → (s.station h).nextInBucket = none
  distinct : ∀ h k, (s.station h).indexed = true → (s.station k).indexed = true →
    (s.station h).descriptor.linkAddress = (s.station k).descriptor.linkAddress → h = k
  forming : ∀ h result clamped, s.executing = .admitComplete h result clamped →
    (s.station h).state = .forming ∧
      ∀ k, (s.station k).indexed = true →
        (s.station k).descriptor.linkAddress ≠ (s.station h).descriptor.linkAddress

/-! ### The Award Table (R81, R83) -/

/-- The engine's item names the members it has still to visit: the held members of its award, or those of
every OPEN award; and a member selection, and one that has ended before its issuing step, hold an award that is not yet
issued. -/
def State.EngineLawful (s : State) : Prop :=
  match s.engine with
  | .askMore a id allowances =>
    ∃ w, (s.entry id).award = some w ∧ w.cls = a.cls ∧ w.issue = none ∧
      (∀ m ∈ w.members, m.held = true) ∧ allowances.length = w.members.length ∧
      w.members.length < a.members
  | .issuing _ id allowances =>
    ∃ w, (s.entry id).award = some w ∧ w.issue = none ∧ (∀ m ∈ w.members, m.held = true) ∧
      allowances.length = w.members.length
  | .askFirst _ => s.lowestFreeEntry ≠ none
  | .done id _ work =>
    ∃ w, (s.entry id).award = some w ∧ w.issue ≠ none ∧ work.map (·.handle) = w.heldHandles
  | .expiry id work => ∃ w, (s.entry id).award = some w ∧ w.issue ≠ none ∧ work = w.heldHandles
  | .clearRelease work => work = s.openMembers ∧ work ≠ []
  | .restartRelease _ work => work = s.openMembers ∧ work ≠ []
  | .idle => True
  | .answer _ => True
  | .backlog _ => True
  | .uplink _ _ => True
  | .restartBacklog _ _ => True

/-- The engine's item is closing this award member by member: a DONE or an expiry names it, or a release
has its member next. -/
def EngineItem.closes (e : EngineItem) (id : AwardId) : Prop :=
  match e with
  | .done k _ _ => k = id
  | .expiry k _ => k = id
  | .clearRelease work => ∃ m rest, work = m :: rest ∧ m.id = id
  | .restartRelease _ work => ∃ m rest, work = m :: rest ∧ m.id = id
  | .idle => False
  | .askFirst _ => False
  | .askMore _ _ _ => False
  | .issuing _ _ _ => False
  | .answer _ => False
  | .backlog _ => False
  | .uplink _ _ => False
  | .restartBacklog _ _ => False

/-- A station is in flight in a class exactly when it is a held member of an OPEN award of that class, of
one only and once; an OPEN award has 1 to 8 members, one at least held, and all of them while the engine is
not closing it; an award is not issued only while its members are selected or its issuing step is to come;
and no award is open while a
TABLE_CLEAR makes its record visits. -/
structure State.AwardsLawful (s : State) : Prop where
  inFlight : ∀ h c, (s.station h).inFlight.get c = true ↔
    ∃ id w, (s.entry id).award = some w ∧ w.cls = c ∧ h ∈ w.heldHandles
  single : ∀ id id' w w' h, (s.entry id).award = some w → (s.entry id').award = some w' →
    w.cls = w'.cls → h ∈ w.heldHandles → h ∈ w'.heldHandles → id = id'
  once : ∀ id w, (s.entry id).award = some w → w.heldHandles.Nodup ∧ w.heldHandles ≠ [] ∧
    w.members.length ≤ 8
  whole : ∀ id w, (s.entry id).award = some w → ¬ s.engine.closes id → ∀ m ∈ w.members, m.held = true
  selecting : ∀ id w, (s.entry id).award = some w → w.issue = none →
    ∃ a allowances, s.engine = .askMore a id allowances ∨ s.engine = .issuing a id allowances
  engine : s.EngineLawful
  states : ∀ h, (s.station h).state = .free ∨ (s.station h).state = .forming ∨
    (s.station h).state = .cooling → (s.station h).inFlight = ClassSet.none
  forming : ∀ h result clamped, s.executing = .admitComplete h result clamped →
    (s.station h).state = .forming
  clearing : s.clearing = true ↔ s.executing = .clearRelease ∨ ∃ next, s.executing = .clearRecords next
  cleared : ∀ next, s.executing = .clearRecords next →
    s.openMembers = [] ∧ ∀ a, s.engine ≠ .askFirst a

end Sys2Proof.Machine
end

