-- ==== Sys2Proof/Certificates/Slice0/Obligations.lean ====
section
/-!
DEFINITION. The statements about the LA-512 for the provers, chapter by chapter. A visit's result is said
beyond the rings, that is for every field of the state and every record but for rings, overflow lists,
places, waiting counts and the OVERFLOW flag; what becomes of those is said by the statements on rings.
-/

open Sys2Proof Sys2Proof.Machine

/-! ### The queue of commands -/

/-- A step takes the command at the front of the queue and runs it with the queue's rest; the queue is the
model's (log 21). -/
def Obligations.StepRunsFrontCommand : Prop :=
  ∀ (s : State) (c : Instr) (rest : List Instr), s.pending = c :: rest →
    step s = exec c { s with pending := rest }

/-- On an empty queue a microsecond passes, and the expiries whose deadline it reaches become due (R98,
R105); a step timer expiry that is due is taken first (R106); nothing happens while RESET_N is low. As time
goes on by a number of microseconds, the expiries whose deadlines it reaches become due, each once, and
nothing else changes. The expiry's command is the same command at the timer's expiry value, time having gone on
to it. That an empty queue lets time pass, and that the command carries it on, are the model's choice (log
1). -/
def Obligations.TimePassesToExpiries : Prop :=
  (∀ s : State, s.pending = [] →
    (s.resetLow = true → step s = .next s) ∧
    (s.resetLow = false → s.walker.timerRunning = true → s.timebase = s.walker.nextExpiry →
      step s = exec .stepTimerExpiry s) ∧
    (s.resetLow = false → ¬ (s.walker.timerRunning = true ∧ s.timebase = s.walker.nextExpiry) →
      ∃ due, step s = .next
          { s with timebase := s.timebase + 1, dueExpiries := s.dueExpiries ++ due } ∧
        ∀ d, d ∈ due ↔ ∃ w i, (s.entry d.id).award = some w ∧ w.issue = some i ∧
          i.deadline = s.timebase + 1 ∧ (s.entry d.id).generation = d.generation)) ∧
  (∀ (s : State) (n : Nat), ∃ due,
    s.pass n = { s with
      timebase := s.timebase + BitVec.ofNat 32 n
      dueExpiries := s.dueExpiries ++ due } ∧ due.Nodup ∧
    ∀ d, d ∈ due ↔ ∃ w i, (s.entry d.id).award = some w ∧ w.issue = some i ∧
      (s.entry d.id).generation = d.generation ∧
      0 < (i.deadline - s.timebase).toNat ∧ (i.deadline - s.timebase).toNat ≤ n) ∧
  ∀ s : State, s.resetLow = false → s.walker.timerRunning = true →
    let reached := s.pass (s.walker.nextExpiry - s.timebase).toNat
    reached.timebase = s.walker.nextExpiry ∧
    exec .stepTimerExpiry s = exec .stepTimerExpiry reached ∧
    ∃ t, exec .stepTimerExpiry s = .next t ∧ t.timebase = s.walker.nextExpiry ∧
      t.walker.nextExpiry = s.walker.nextExpiry + BitVec.ofNat 32 s.settings.stepInterval ∧
      t.stations = s.stations ∧ t.awards = s.awards ∧ t.engine = s.engine ∧
      ∀ id w i, (s.entry id).award = some w → w.issue = some i → i.deadline ≠ s.timebase →
        (i.deadline - s.timebase).toNat ≤ (s.walker.nextExpiry - s.timebase).toNat →
        ⟨id, (s.entry id).generation⟩ ∈ t.dueExpiries

/-! ### Reset -/

/-- While RESET_N is low every block holds its power-on values and the step timer is stopped (R105, R122,
R146); at its release the timer starts running, its first expiry STEP_INTERVAL later (R106). The stopped
timer's value is the model's choice (log 5), and so are the queue of commands and the level of SPI_CS_N,
which stay (log 23). -/
def Obligations.ResetHoldsPowerOnValues : Prop :=
  (∀ s : State, exec .resetAssert s = .next
    { State.reset with
      pending := s.pending, csLow := s.csLow, resetLow := true
      walker := { lag := 0, lead := 0, groupPointer := 0, epoch := 0, step := none, nextExpiry := 0,
                  timerRunning := false } }) ∧
  ∀ s : State, s.resetLow = true → exec .resetRelease s = .next
    { s with
      resetLow := false
      walker := { s.walker with
        timerRunning := true
        nextExpiry := s.timebase + BitVec.ofNat 32 s.settings.stepInterval } }

/-- While RESET_N is low no command but the pins' own has an effect (R146). That the level of SPI_CS_N
goes on to follow its pin is the model's choice (log 23). -/
def Obligations.NothingHappensInReset : Prop :=
  ∀ s : State, s.resetLow = true →
    exec .chipSelectFall s = .next { s with csLow := true } ∧
    (∀ bytes stray, exec (.chipSelectRise bytes stray) s = .next { s with csLow := false }) ∧
    ∀ c : Instr, c ≠ .resetAssert → c ≠ .resetRelease → c ≠ .chipSelectFall →
      (∀ bytes stray, c ≠ .chipSelectRise bytes stray) → exec c s = .next s

/-- The values at the release of RESET_N: every record FREE with its fields cleared and linked to the
next handle, the free list from 0 to 511, every bucket empty (R2, R11, R12), the rings, lists and
waiting counts empty (R66, R71, R64), every award entry FREE with generation 0 (R82), the 64 rules zero,
the last four accepting (R26), every settings item at its default (R157), the timebase 0 and the first
expiry at STEP_INTERVAL (R105, R106, R122), the link DOWN (R123), the port IDLE with empty queues (R137,
R141), no visit waiting and no expiry or release due, counters 0 and flags clear (R161, R162). That these
are the values of State.reset, and that the legacy and multi-user flags of a cleared descriptor are false, are
the model's choices (log 4, log 27). -/
def Obligations.ResetValues : Prop :=
  (∀ h : Handle, State.reset.station h =
    { state := .free
      descriptor := { linkAddress := 0, deviceTag := 0, band := 0, streams := 0, topRate := 0
                      legacy := false, multiUser := false, signal := 0, requested := ClassSet.none }
      profile := { weight := 0, classes := ClassSet.none, ceiling := 0, borrow := 0, costShift := 0
                   uplinkEighths := 0, softCap := 0 }
      trace := [], credit := 0, usage := 0, average := 0
      backlog := ClassSet.none, inFlight := ClassSet.none
      ringSlot := PerClass.const none, overflow := PerClass.const none
      idleCountdown := 0, coolCountdown := 0, failStreak := 0, nextInBucket := none
      nextFree := if lt : h.val + 1 < 512 then some ⟨h.val + 1, lt⟩ else none }) ∧
  State.reset.freeHead = some 0 ∧ State.reset.freeTail = some 511 ∧
  (∀ b, State.reset.bucketHead b = none) ∧
  (∀ c, (State.reset.ring c).head = 0 ∧ (State.reset.ring c).tail = 0 ∧
    (∀ i, (State.reset.ring c).at i = none) ∧
    State.reset.overflowList c = { head := none, tail := none, length := 0 } ∧
    State.reset.waiting.get c = 0) ∧
  (∀ id, State.reset.entry id = { generation := 0, award := none }) ∧
  (∀ i : Fin 64, State.reset.rules[i.val] =
    { valid := false, kind := .address, stages := 0, value := 0, mask := 0
      action :=
        { writes := { weight := false, classes := false, ceiling := false, borrow := false
                      costShift := false, uplinkEighths := false, softCap := false }
          values := { weight := 0, classes := ClassSet.none, ceiling := 0, borrow := 0, costShift := 0
                      uplinkEighths := 0, softCap := 0 }
          verdict := if i.val < 60 then .goOn else .accept
          nextKind := .address, chainControl := .keep, chainValue := 0 } }) ∧
  State.reset.settings =
    { stepInterval := 1000, quantum := 1000, holdMask := 0, idleLimit := 60, coolEpochs := 2
      awardTimeout := 20000, overhead := { sc0 := 120, sc1 := 100, sc2 := 80, sc3 := 60 }
      avgShift := 3, penaltyShift := 1, failLimit := 6, classEnable := ClassSet.all
      firstKind := .capability
      defaultProfile := { weight := 16, classes := ClassSet.all, ceiling := 8000, borrow := 500
                          costShift := 0, uplinkEighths := 8, softCap := 0 }
      pullIn := 1, checkers := Vector.replicate 4 { select := .off, low := 0, high := 0 }
      attnMask := 0x2000 } ∧
  State.reset.timebase = 0 ∧
  State.reset.walker = { lag := 0, lead := 0, groupPointer := 0, epoch := 0, step := none,
                         nextExpiry := 1000, timerRunning := true } ∧
  State.reset.linkUp = false ∧ State.reset.inbound = [] ∧ State.reset.outbound = [] ∧
  State.reset.lkoSent = [] ∧ State.reset.resetLow = false ∧ State.reset.csLow = false ∧
  State.reset.port = .idle ∧ State.reset.spiOut = [] ∧ State.reset.requests = [] ∧
  State.reset.responses = [] ∧ State.reset.executing = .idle ∧ State.reset.engine = .idle ∧
  State.reset.tablePort = { award := false, request := false } ∧ State.reset.dueExpiries = [] ∧
  State.reset.releaseDue = false ∧ State.reset.clearing = false ∧ State.reset.pending = [] ∧
  State.reset.counters = ⟨0, 0, 0, 0, 0, 0⟩ ∧
  (∀ f, State.reset.flags.get f = false)

/-! ### The Management Port -/

/-- The transaction byte decides the transaction: PUT reserves a slot or is refused (R139), TAKE fixes
the oldest response or the empty frame (R144), and any other value but PEEK's raises FRAME_ERROR (R138).
The byte shifted out meanwhile is the fill byte (R137). The record of the bytes shifted out is the
model's (log 6). -/
def Obligations.TransactionByteDecides : Prop :=
  ∀ s : State, s.resetLow = false → s.port = .opening →
    (s.requests.length < 4 →
      exec .put s = .next { s with port := .putFrame, spiOut := s.spiOut ++ [0x00] }) ∧
    (4 ≤ s.requests.length →
      exec .put s = .next { s with port := .putRefused, spiOut := s.spiOut ++ [0x00] }) ∧
    exec .take s = .next
      { s with port := .takeSending s.responses.head?, spiOut := s.spiOut ++ [0x00] } ∧
    ∀ byte : Byte, byte ≠ 0xB1 → byte ≠ 0xB2 → byte ≠ 0xB4 →
      exec (.ignoring byte) s = .next
        { s with
          port := .ignoring, spiOut := s.spiOut ++ [0x00]
          flags := { s.flags with frameError := true }
          counters := { s.counters with frameError := min (s.counters.frameError + 1) 65535 } }

/-- PEEK captures the counts of both queues, the link state, the clearing flag and the thirteen flags in
the flag order, and changes nothing else (R145, R168). ATTN is asserted exactly while RESPONSE_READY is
in ATTN_MASK and a response waits, or a flag in ATTN_MASK is set (R165). That ATTN is computed, and the
record of the bytes shifted out, are the model's (log 6, log 17). -/
def Obligations.PeekAndAttentionReport : Prop :=
  (∀ s : State, s.resetLow = false → s.port = .opening → s.QueuesLawful →
    ∃ b0 b1 b2 : Byte,
      exec .peek s = .next
        { s with port := .peekSending [b0, b1, b2], spiOut := s.spiOut ++ [0x00] } ∧
      b0.toNat = s.requests.length + 8 * s.responses.length + (if s.linkUp then 64 else 0) +
        (if s.clearing then 128 else 0) ∧
      (∀ f : Flag, (b1 ++ b2 : BitVec 16).getLsbD f.bit = s.flags.get f) ∧
      ∀ n, 13 ≤ n → (b1 ++ b2 : BitVec 16).getLsbD n = false) ∧
  ∀ s : State, s.attnAsserted = true ↔
    s.settings.attnMask.getLsbD 13 = true ∧ s.responses ≠ [] ∨
      ∃ f : Flag, s.settings.attnMask.getLsbD f.bit = true ∧ s.flags.get f = true

/-- At the rise of SPI_CS_N a PUT frame of a kind byte, a length byte in 0..60 and as many payload bytes
is accepted at the tail of the request queue; every other frame is a frame error (R140). The part has
shifted out ACCEPT and fill bytes (R139, R168). That the rise carries the bytes, and the record of those
shifted out, are the model's choice (log 6). -/
def Obligations.PutFrameIsJudged : Prop :=
  ∀ (s : State) (bytes : List Byte) (stray : Nat), s.resetLow = false → s.csLow = true →
    s.port = .putFrame →
    (∀ kind len payload, bytes = kind :: len :: payload → len.toNat ≤ 60 →
      payload.length = len.toNat →
      exec (.chipSelectRise bytes stray) s = .next
        { s with
          csLow := false, port := .idle, requests := s.requests ++ [⟨kind, payload⟩]
          spiOut := s.spiOut ++ 0xAC :: List.replicate (bytes.length - 1) 0x00 }) ∧
    ((∀ kind len payload, bytes = kind :: len :: payload →
        60 < len.toNat ∨ payload.length ≠ len.toNat) →
      exec (.chipSelectRise bytes stray) s = .next
        { s with
          csLow := false, port := .idle
          spiOut := s.spiOut ++ ((0xAC : Byte) :: List.replicate (bytes.length - 1) 0x00).take bytes.length
          flags := { s.flags with frameError := true }
          counters := { s.counters with frameError := min (s.counters.frameError + 1) 65535 } })

/-- A TAKE removes the response it has fixed when every byte of its frame was shifted out, and else
keeps it (R144). The frame is the kind, the status by its code, the flags byte, the length and the payload
(R169). A request that found the response queue full starts in the event that frees a slot: the
end of the TAKE then does what the request's own command does once the response is gone (R142). That the
start is part of the event of the TAKE is read from R142 (log 11), and the record of the bytes shifted
out is the model's (log 6). -/
def Obligations.TakeRemovesWholeFrame : Prop :=
  (∀ k ∈ ([(.ok, 0), (.deferred, 1), (.noRoom, 2), (.duplicate, 3), (.denied, 4), (.noClass, 5),
      (.noStation, 6), (.notFound, 7), (.badKind, 8), (.badItem, 9), (.badRule, 10), (.readOnly, 11)] :
        List (Status × Byte)), k.1.code = k.2) ∧
  ∀ (s : State) (bytes : List Byte) (stray : Nat) (r : Response) (rest : List Response),
    s.resetLow = false → s.csLow = true → s.port = .takeSending (some r) → s.responses = r :: rest →
    let frame := [r.kind, r.status.code, if r.clamped then 1 else 0, BitVec.ofNat 8 r.payload.length] ++
      r.payload
    let ended := { s with
      csLow := false, port := .idle
      spiOut := s.spiOut ++ frame.take bytes.length ++
        List.replicate (bytes.length - frame.length) 0x00 }
    (bytes.length < 4 + r.payload.length → exec (.chipSelectRise bytes stray) s = .next ended) ∧
    (4 + r.payload.length ≤ bytes.length →
      (rest.length < 3 ∨ s.requests = [] ∨ s.executing ≠ .idle →
        exec (.chipSelectRise bytes stray) s = .next { ended with responses := rest }) ∧
      ∀ q more, rest.length = 3 → s.requests = q :: more → s.executing = .idle →
        exec (.chipSelectRise bytes stray) s = exec q.command { ended with responses := rest })

/-- A transaction begins at the fall of SPI_CS_N in IDLE, which makes the port OPENING (R137). There the
first whole byte shifted in is the transaction byte, whether a command of its own or the rise of
SPI_CS_N brings it (R138). The rise in OPENING with no byte shifted in, in PUT_REFUSED, in PEEK_SENDING,
in IGNORING and in a TAKE of the empty frame ends the transaction with no other effect (R137, R144). With
SPI_CS_N low and the port in IDLE, after a reset, there is no transaction until SPI_CS_N has risen and
fallen again: a transaction byte has no effect, and the rise only raises the pin (R146). SPI_DOUT is at high
impedance while SPI_CS_N is high or RESET_N is low (R137, R146). That the rise carries the bytes, the fill
bytes shifted out in IDLE, and that the impedance is computed, are the model's (log 6, log 24, log 17). -/
def Obligations.TransactionsBeginAndEnd : Prop :=
  (∀ s : State, s.doutHighImpedance = true ↔ s.csLow = false ∨ s.resetLow = true) ∧
  (∀ s : State, s.resetLow = false → s.csLow = true → s.port = .idle →
    exec .chipSelectFall s = .next s ∧ exec .put s = .next s ∧ exec .take s = .next s ∧
    exec .peek s = .next s ∧ (∀ byte, exec (.ignoring byte) s = .next s) ∧
    ∀ bytes stray, exec (.chipSelectRise bytes stray) s = .next
      { s with csLow := false, spiOut := s.spiOut ++ List.replicate bytes.length 0x00 }) ∧
  (∀ s : State, s.resetLow = false → s.csLow = false → s.port = .idle →
    exec .chipSelectFall s = .next { s with csLow := true, port := .opening, spiOut := [] }) ∧
  (∀ (s t : State) (byte : Byte) (rest : List Byte) (stray : Nat), s.resetLow = false →
    s.csLow = true → s.port = .opening →
    exec (if byte = 0xB1 then .put else if byte = 0xB2 then .take else if byte = 0xB4 then .peek
      else .ignoring byte) s = .next t →
    exec (.chipSelectRise (byte :: rest) stray) s = exec (.chipSelectRise rest stray) t) ∧
  ∀ (s : State) (bytes : List Byte) (stray : Nat), s.resetLow = false → s.csLow = true →
    (s.port = .opening ∧ bytes = [] ∨ s.port = .putRefused ∨ (∃ b, s.port = .peekSending b) ∨
      s.port = .ignoring ∨ s.port = .takeSending none) →
    ∃ out, exec (.chipSelectRise bytes stray) s = .next
      { s with csLow := false, port := .idle, spiOut := s.spiOut ++ out } ∧
      (∀ summary, s.port = .peekSending summary →
        out = summary.take bytes.length ++ List.replicate (bytes.length - summary.length) 0x00) ∧
      (s.port = .putRefused → out = ((0xF0 : Byte) :: List.replicate (bytes.length - 1) 0x00).take bytes.length) ∧
      (s.port = .ignoring ∨ s.port = .takeSending none → out = List.replicate bytes.length 0x00) ∧
      (s.port = .opening → out = [])

/-! ### Requests that need no visit -/

/-- A request of an unknown kind, or whose payload length is not its kind's, is refused BAD_KIND with its
kind echoed and no payload, and changes nothing (R147, R169). -/
def Obligations.UnknownKindIsRefused : Prop :=
  ∀ (s : State) (q : Request) (rest : List Request), s.resetLow = false → s.executing = .idle →
    s.responses.length < 4 → s.requests = q :: rest →
    (∀ kindAndLength ∈ ([(0x01, 11), (0x02, 18), (0x03, 2), (0x04, 2), (0x05, 6), (0x06, 2), (0x07, 3),
      (0x10, 27), (0x11, 1), (0x12, 5), (0x13, 1), (0x14, 3), (0x1F, 0)] : List (Byte × Nat)),
      (q.kind, q.payload.length) ≠ kindAndLength) →
    exec .badKind s = .next (s.responded q.kind .badKind false [])

/-- RULE_PUT writes the whole rule its payload carries and sets the clamped bit where the coding
adjusted a field; RULE_GET returns the rule as stored; a rule number above 63 refuses both with
BAD_RULE, RULE_GET echoing it (R27, R155, R169). The payload of a refusal is the model's reading (log
18). -/
def Obligations.RulesArePutAndGot : Prop :=
  ∀ (s : State) (number : Byte) (coded : List Byte) (rest : List Request), s.resetLow = false →
    s.executing = .idle → s.responses.length < 4 →
    (coded.length = 26 → s.requests = ⟨0x10, number :: coded⟩ :: rest →
      (∀ lt : number.toNat < 64, exec .rulePut s = .next
        ({ s with rules := s.rules.set number.toNat (ruleOf coded) }.responded 0x10 .ok
          (ruleClamped coded) [])) ∧
      (64 ≤ number.toNat → exec .rulePut s = .next (s.responded 0x10 .badRule false []))) ∧
    (s.requests = ⟨0x11, [number]⟩ :: rest →
      (∀ lt : number.toNat < 64, exec .ruleGet s = .next
        (s.responded 0x11 .ok false (number :: (s.rules[number.toNat]).bytes))) ∧
      (64 ≤ number.toNat → exec .ruleGet s = .next
        (s.responded 0x11 .badRule false (number :: List.replicate 26 0))))

/-- A rule within the ranges of R24 survives its coding: the 26 bytes that RULE_GET returns for it carry
it again, with no field adjusted and every unassigned bit 0 (R24, R167, R173). The weight 0 of a rule never
written is byte 14 of 0, which a RULE_PUT would raise to 1; the bytes of the power-on rules are 0, but for the
ACCEPT of rules 60..63 in byte 24 (R26). Whatever 26 bytes a RULE_PUT
carries, the stored rule has each field from its place in them and within its range, and the clamped bit
tells whether a numeric value or a code was adjusted (R27, R173). -/
def Obligations.RuleCodingRoundTrips : Prop :=
  (∀ r : PolicyRule, r.action.values.Bounded → r.action.chainValue ≤ 255 →
    r.bytes.length = 26 ∧ (byteAt r.bytes 14).toNat = r.action.values.weight ∧
    (1 ≤ r.action.values.weight → ruleOf r.bytes = r ∧ ruleClamped r.bytes = false) ∧
    (r.action.values.weight = 0 → ruleClamped r.bytes = true ∧ ruleOf r.bytes =
      { r with action := { r.action with values := { r.action.values with weight := 1 } } }) ∧
    (byteAt r.bytes 0).getLsbD 6 = false ∧ (byteAt r.bytes 13).getLsbD 7 = false ∧
    (byteAt r.bytes 15).extractLsb' 4 4 = 0 ∧ (byteAt r.bytes 24).extractLsb' 6 2 = 0) ∧
  (∀ i : Fin 64, (State.reset.rules[i.val]).bytes =
    (List.replicate 26 0).set 24 (if 60 ≤ i.val then 1 else 0)) ∧
  ∀ coded : List Byte, coded.length = 26 →
    let kinds : List (BitVec 2 × KeyKind) := [(0, .address), (1, .capability), (2, .tag), (3, .chain)]
    let writes := byteAt coded 13
    let classes := byteAt coded 15
    (ruleOf coded).valid = (byteAt coded 0).getLsbD 7 ∧
    (∀ k ∈ kinds, (byteAt coded 0).extractLsb' 4 2 = k.1 → (ruleOf coded).kind = k.2) ∧
    (ruleOf coded).stages = (byteAt coded 0).extractLsb' 0 4 ∧
    (ruleOf coded).value.toNat = fieldAt coded 1 6 ∧ (ruleOf coded).mask.toNat = fieldAt coded 7 6 ∧
    (ruleOf coded).action.writes =
      { weight := writes.getLsbD 0, classes := writes.getLsbD 1, ceiling := writes.getLsbD 2
        borrow := writes.getLsbD 3, costShift := writes.getLsbD 4, uplinkEighths := writes.getLsbD 5
        softCap := writes.getLsbD 6 } ∧
    (ruleOf coded).action.values =
      { weight := max 1 (min (byteAt coded 14).toNat 64)
        classes := { sc0 := classes.getLsbD 0, sc1 := classes.getLsbD 1
                     sc2 := classes.getLsbD 2, sc3 := classes.getLsbD 3 }
        ceiling := fieldAt coded 16 2, borrow := min (fieldAt coded 18 2) 8191
        costShift := max (-3) (min (byteAt coded 20).toInt 3)
        uplinkEighths := min (byteAt coded 21).toNat 8, softCap := fieldAt coded 22 2 } ∧
    (∀ k ∈ ([(0, .goOn), (1, .accept), (2, .deny), (3, .deny)] : List (BitVec 2 × Verdict)),
      (byteAt coded 24).extractLsb' 0 2 = k.1 → (ruleOf coded).action.verdict = k.2) ∧
    (∀ k ∈ ([(0, .keep), (1, .set), (2, .add), (3, .add)] : List (BitVec 2 × ChainControl)),
      (byteAt coded 24).extractLsb' 2 2 = k.1 → (ruleOf coded).action.chainControl = k.2) ∧
    (∀ k ∈ kinds, (byteAt coded 24).extractLsb' 4 2 = k.1 → (ruleOf coded).action.nextKind = k.2) ∧
    (ruleOf coded).action.chainValue = (byteAt coded 25).toNat ∧
    (ruleOf coded).action.values.Bounded ∧ 1 ≤ (ruleOf coded).action.values.weight ∧
    (ruleOf coded).action.chainValue ≤ 255 ∧
    (ruleClamped coded = true ↔
      (byteAt coded 14).toNat = 0 ∨ 64 < (byteAt coded 14).toNat ∨
      8191 < (byteAt coded 18).toNat * 256 + (byteAt coded 19).toNat ∨
      (byteAt coded 20).toInt < -3 ∨ 3 < (byteAt coded 20).toInt ∨ 8 < (byteAt coded 21).toNat ∨
      (byteAt coded 24).extractLsb' 0 2 = 3 ∨ (byteAt coded 24).extractLsb' 2 2 = 3)

/-- ITEM_PUT of a programmable item stores the value and answers with the value as stored; of a
read-only item it is refused READ_ONLY, of an unassigned number BAD_ITEM. ITEM_GET answers with the
value as it stands, or BAD_ITEM (R157, R158, R160). Which item each number names (R157, R160), and what
the read-only items report: VERSION 1; the numbers of ACTIVE and of FREE records (R2); the occupancies and
overflow lengths (R66, R71); LAG_LEAD as the lag, or the lead negated; the epoch and the group pointer; the
number of OPEN entries (R81); and the six counters (R161). The payload of a refusal, and that VERSION reads
1, are the model's reading (log 14, log 18). -/
def Obligations.ItemsArePutAndGot : Prop :=
  (∀ k ∈ ([(0x01, .stepInterval), (0x02, .quantum), (0x03, .holdMask), (0x04, .idleLimit),
      (0x05, .coolEpochs), (0x06, .awardTimeout), (0x07, .overhead .sc0), (0x08, .overhead .sc1),
      (0x09, .overhead .sc2), (0x0A, .overhead .sc3), (0x0B, .avgShift), (0x0C, .penaltyShift),
      (0x0D, .failLimit), (0x0E, .classEnable), (0x0F, .firstKind), (0x10, .defaultWeight),
      (0x11, .defaultClasses), (0x12, .defaultCeiling), (0x13, .defaultBorrow),
      (0x14, .defaultCostShift), (0x15, .defaultUplinkEighths), (0x16, .defaultSoftCap),
      (0x17, .pullIn), (0x18, .checker 0), (0x19, .checker 1), (0x1A, .checker 2), (0x1B, .checker 3),
      (0x1C, .attnMask)] : List (Nat × SettingItem)), settingItemOf k.1 = some k.2) ∧
  (∀ k ∈ ([(0x00, .version), (0x30, .activeCount), (0x31, .freeCount), (0x32, .ringOccupancy .sc0),
      (0x33, .ringOccupancy .sc1), (0x34, .ringOccupancy .sc2), (0x35, .ringOccupancy .sc3),
      (0x36, .overflowLength .sc0), (0x37, .overflowLength .sc1), (0x38, .overflowLength .sc2),
      (0x39, .overflowLength .sc3), (0x3A, .lagLead), (0x3B, .epoch), (0x3C, .groupPointer),
      (0x3D, .openAwards), (0x3E, .staleCount), (0x3F, .lateCount), (0x40, .malformedCount),
      (0x41, .forfeitCount), (0x42, .expiredCount), (0x43, .frameErrorCount)] :
        List (Nat × ReadOnlyItem)), readOnlyItemOf k.1 = some k.2) ∧
  (∀ s : State,
    s.report .version = 1 ∧
    s.report .activeCount =
      BitVec.ofNat 32 ((List.finRange 512).countP fun h => (s.station h).state == .active) ∧
    (s.FreeListLawful → s.report .freeCount =
      BitVec.ofNat 32 ((List.finRange 512).countP fun h => (s.station h).state == .free)) ∧
    (∀ c, s.report (.ringOccupancy c) = BitVec.ofNat 32 ((s.ring c).tail - (s.ring c).head).toNat ∧
      s.report (.overflowLength c) = BitVec.ofNat 32 (s.overflowList c).length) ∧
    (s.walker.Lawful →
      (0 < s.walker.lag → (s.report .lagLead).toInt = s.walker.lag) ∧
      (0 < s.walker.lead → (s.report .lagLead).toInt = -s.walker.lead) ∧
      (s.walker.lag = 0 → s.walker.lead = 0 → s.report .lagLead = 0)) ∧
    (s.report .epoch).toNat = s.walker.epoch.toNat ∧
    (s.report .groupPointer).toNat = s.walker.groupPointer.val ∧
    s.report .openAwards =
      BitVec.ofNat 32 ((List.finRange 16).countP fun id => (s.entry id).award.isSome) ∧
    s.report .staleCount = BitVec.ofNat 32 s.counters.stale ∧
    s.report .lateCount = BitVec.ofNat 32 s.counters.late ∧
    s.report .malformedCount = BitVec.ofNat 32 s.counters.malformed ∧
    s.report .forfeitCount = BitVec.ofNat 32 s.counters.forfeit ∧
    s.report .expiredCount = BitVec.ofNat 32 s.counters.expired ∧
    s.report .frameErrorCount = BitVec.ofNat 32 s.counters.frameError) ∧
  ∀ (s : State) (number : Byte) (v : Word) (rest : List Request), s.resetLow = false →
    s.executing = .idle → s.responses.length < 4 →
    (s.requests = ⟨0x12, itemResponse number v⟩ :: rest →
      (∀ i, settingItemOf number.toNat = some i → exec .itemPut s = .next
        ({ s with settings := s.settings.write v i }.responded 0x12 .ok (s.settings.clamps v i)
          (itemResponse number ((s.settings.write v i).read i)))) ∧
      (number = 0 ∨ 0x30 ≤ number.toNat ∧ number.toNat ≤ 0x43 →
        exec .itemPut s = .next (s.responded 0x12 .readOnly false (itemResponse number 0))) ∧
      (0x1D ≤ number.toNat ∧ number.toNat ≤ 0x2F ∨ 0x43 < number.toNat →
        exec .itemPut s = .next (s.responded 0x12 .badItem false (itemResponse number 0)))) ∧
    (s.requests = ⟨0x13, [number]⟩ :: rest →
      (∀ i, settingItemOf number.toNat = some i → exec .itemGet s = .next
        (s.responded 0x13 .ok false (itemResponse number (s.settings.read i)))) ∧
      (∀ i, readOnlyItemOf number.toNat = some i → exec .itemGet s = .next
        (s.responded 0x13 .ok false (itemResponse number (s.report i)))) ∧
      (0x1D ≤ number.toNat ∧ number.toNat ≤ 0x2F ∨ 0x43 < number.toNat →
        exec .itemGet s = .next (s.responded 0x13 .badItem false (itemResponse number 0))))

/-- What an ITEM_PUT stores: a numeric value taken to the nearer end of its range, a set without the
positions that name no member, a checker with an unassigned select as OFF; the clamped bit tells that the
stored value differs; and no other item changes (R28, R157, R158, R174). Each item is read from, and written
to, the one setting of its name, in the coding of R174; and nothing else of the settings changes. -/
def Obligations.ItemWritesClampToRange : Prop :=
  ∀ (t : Settings) (v : Word),
    let within := fun lo hi : Nat => max lo (min v.toNat hi)
    let classes : ClassSet :=
      { sc0 := v.getLsbD 0, sc1 := v.getLsbD 1, sc2 := v.getLsbD 2, sc3 := v.getLsbD 3 }
    let coded := fun k : ClassSet => (0#28 ++ BitVec.ofBool k.sc3 ++ BitVec.ofBool k.sc2 ++
      BitVec.ofBool k.sc1 ++ BitVec.ofBool k.sc0 : Word)
    (t.read .stepInterval = BitVec.ofNat 32 t.stepInterval ∧ t.write v .stepInterval = { t with stepInterval := within 100 20000 }) ∧
    (t.read .quantum = BitVec.ofNat 32 t.quantum ∧ t.write v .quantum = { t with quantum := within 16 4095 }) ∧
    (t.read .idleLimit = BitVec.ofNat 32 t.idleLimit ∧ t.write v .idleLimit = { t with idleLimit := within 1 255 }) ∧
    (t.read .coolEpochs = BitVec.ofNat 32 t.coolEpochs ∧ t.write v .coolEpochs = { t with coolEpochs := within 1 15 }) ∧
    (t.read .awardTimeout = BitVec.ofNat 32 t.awardTimeout ∧ t.write v .awardTimeout = { t with awardTimeout := within 1000 65000 }) ∧
    (t.read .avgShift = BitVec.ofNat 32 t.avgShift ∧ t.write v .avgShift = { t with avgShift := within 1 7 }) ∧
    (t.read .penaltyShift = BitVec.ofNat 32 t.penaltyShift ∧ t.write v .penaltyShift = { t with penaltyShift := within 0 4 }) ∧
    (t.read .failLimit = BitVec.ofNat 32 t.failLimit ∧ t.write v .failLimit = { t with failLimit := within 1 15 }) ∧
    (t.read .pullIn = BitVec.ofNat 32 t.pullIn ∧ t.write v .pullIn = { t with pullIn := within 0 1 }) ∧
    (∀ c, t.read (.overhead c) = BitVec.ofNat 32 (t.overhead.get c) ∧
      t.write v (.overhead c) = { t with overhead := t.overhead.set c (within 0 1023) }) ∧
    (t.read .defaultWeight = BitVec.ofNat 32 t.defaultProfile.weight ∧
      t.write v .defaultWeight = { t with defaultProfile := { t.defaultProfile with weight := within 1 64 } }) ∧
    (t.read .defaultCeiling = BitVec.ofNat 32 t.defaultProfile.ceiling ∧
      t.write v .defaultCeiling = { t with defaultProfile := { t.defaultProfile with ceiling := within 0 65535 } }) ∧
    (t.read .defaultBorrow = BitVec.ofNat 32 t.defaultProfile.borrow ∧
      t.write v .defaultBorrow = { t with defaultProfile := { t.defaultProfile with borrow := within 0 8191 } }) ∧
    (t.read .defaultUplinkEighths = BitVec.ofNat 32 t.defaultProfile.uplinkEighths ∧
      t.write v .defaultUplinkEighths = { t with defaultProfile := { t.defaultProfile with uplinkEighths := within 0 8 } }) ∧
    (t.read .defaultSoftCap = BitVec.ofNat 32 t.defaultProfile.softCap ∧
      t.write v .defaultSoftCap = { t with defaultProfile := { t.defaultProfile with softCap := within 0 65535 } }) ∧
    (t.read .defaultCostShift = BitVec.ofInt 32 t.defaultProfile.costShift ∧ t.write v .defaultCostShift =
      { t with defaultProfile := { t.defaultProfile with costShift := max (-3) (min v.toInt 3) } }) ∧
    (t.read .defaultClasses = coded t.defaultProfile.classes ∧ t.write v .defaultClasses =
      { t with defaultProfile := { t.defaultProfile with classes := classes } }) ∧
    (t.read .classEnable = coded t.classEnable ∧ t.write v .classEnable = { t with classEnable := classes }) ∧
    (t.read .holdMask = t.holdMask.setWidth 32 ∧ t.write v .holdMask = { t with holdMask := v.setWidth 16 }) ∧
    (t.read .attnMask = t.attnMask.setWidth 32 ∧ t.write v .attnMask = { t with attnMask := v.setWidth 14 }) ∧
    (∀ k ∈ ([(0, .address), (1, .capability), (2, .tag), (3, .chain)] : List (Nat × KeyKind)),
      (t.firstKind = k.2 → t.read .firstKind = BitVec.ofNat 32 k.1) ∧
      (min v.toNat 3 = k.1 → t.write v .firstKind = { t with firstKind := k.2 })) ∧
    (∀ i : Fin 4, t.read (.checker i) =
        (t.checkers[i.val]).select.code ++ (t.checkers[i.val]).low ++ (t.checkers[i.val]).high ++ 0#8 ∧
      t.write v (.checker i) = { t with
        checkers := t.checkers.set i.val
          { select := if v.extractLsb' 24 8 = 1 then .signal else if v.extractLsb' 24 8 = 2 then .rate
              else if v.extractLsb' 24 8 = 3 then .tag else if v.extractLsb' 24 8 = 4 then .streams
              else .off
            low := v.extractLsb' 16 8, high := v.extractLsb' 8 8 } }) ∧
    (CheckerSelect.off.code = 0 ∧ CheckerSelect.signal.code = 1 ∧ CheckerSelect.rate.code = 2 ∧
      CheckerSelect.tag.code = 3 ∧ CheckerSelect.streams.code = 4) ∧
    (∀ i lo hi, SettingItem.range i = some (lo, hi) →
      i.number ((t.write v i).read i) = max lo (min (i.number v) hi) ∧
      (t.clamps v i = true ↔ i.number v < lo ∨ hi < i.number v)) ∧
    (∀ i ∈ [(SettingItem.holdMask, (0xFFFF : Word)), (.classEnable, 0xF), (.defaultClasses, 0xF),
        (.attnMask, 0x3FFF)],
      (t.write v i.1).read i.1 = v &&& i.2 ∧ (t.clamps v i.1 = true ↔ v &&& ~~~i.2 ≠ 0)) ∧
    (∀ i : Fin 4, (t.write v (.checker i)).read (.checker i) =
        (if (v.extractLsb' 24 8).toNat ≤ 4 then v &&& 0xFFFFFF00 else v &&& 0x00FFFF00) ∧
      (t.clamps v (.checker i) = true ↔ 4 < (v.extractLsb' 24 8).toNat)) ∧
    ∀ i j, i ≠ j → (t.write v i).read j = t.read j

/-- SUMMARY_CLEAR clears the named flags, with the clear-counters bit returns the counters of the named
flags to 0, and changes nothing else; positions 13 to 15 name no flag (R163). -/
def Obligations.SummaryClearClearsNamedFlags : Prop :=
  ∀ (s : State) (hi lo bit : Byte) (rest : List Request), s.resetLow = false → s.executing = .idle →
    s.responses.length < 4 → s.requests = ⟨0x14, [hi, lo, bit]⟩ :: rest →
    ∃ flags counters,
      exec .summaryClear s = .next
        ({ s with flags := flags, counters := counters }.responded 0x14 .ok false []) ∧
      (∀ f : Flag, flags.get f = (s.flags.get f && !(hi ++ lo : BitVec 16).getLsbD f.bit)) ∧
      (bit.getLsbD 0 = false → counters = s.counters) ∧
      (bit.getLsbD 0 = true →
        counters.stale = (if lo.getLsbD 0 then 0 else s.counters.stale) ∧
        counters.late = (if lo.getLsbD 1 then 0 else s.counters.late) ∧
        counters.malformed = (if lo.getLsbD 2 then 0 else s.counters.malformed) ∧
        counters.expired = (if lo.getLsbD 3 then 0 else s.counters.expired) ∧
        counters.forfeit = (if lo.getLsbD 5 then 0 else s.counters.forfeit) ∧
        counters.frameError = (if hi.getLsbD 1 then 0 else s.counters.frameError))

/-! ### Requests that start a visit -/

/-- ADMIT and FIND take their visit in hand and ask for it; AMEND, REAPPLY, RETIRE, QUERY and LIST do so
for a handle up to 511 and refuse a larger one with NO_STATION, AMEND and RETIRE echoing it (R148 to R154,
R169). The descriptor an ADMIT carries is taken into the ranges of R3, and the clamped bit tells that band,
streams or top rate index was out of them (R148, R170). The field set and the values an AMEND carries, and
its clamped bit, which tells that a named value was out of range (R149, R171). That the table port takes
each such visit as asked for at the start is the table's word, except for LIST (log 3); the payload of a
refusal is the model's reading (log 18). -/
def Obligations.StationRequestsStart : Prop :=
  ∀ (s : State) (p : List Byte) (rest : List Request), s.resetLow = false → s.executing = .idle →
    s.responses.length < 4 →
    let asked : PortAsks := { s.tablePort with request := true }
    (p.length = 11 → s.requests = ⟨0x01, p⟩ :: rest →
      let d := descriptorOf p
      exec .admitStart s = .next
        { s with executing := .admitAllocate d (descriptorClamped p), tablePort := asked } ∧
      d.band = min ((byteAt p 7).toNat % 4) 2 ∧
      d.streams = max 1 (min ((byteAt p 7).toNat / 4 % 8) 4) ∧
      d.topRate = min (byteAt p 8).toNat 31 ∧
      d.linkAddress.toNat = fieldAt p 0 6 ∧ d.deviceTag = (byteAt p 6).toNat ∧
      d.signal = (byteAt p 9).toInt ∧
      d.legacy = (byteAt p 7).getLsbD 5 ∧ d.multiUser = (byteAt p 7).getLsbD 6 ∧
      d.requested = { sc0 := (byteAt p 10).getLsbD 0, sc1 := (byteAt p 10).getLsbD 1
                      sc2 := (byteAt p 10).getLsbD 2, sc3 := (byteAt p 10).getLsbD 3 } ∧
      (descriptorClamped p = true ↔ (byteAt p 7).toNat % 4 = 3 ∨ (byteAt p 7).toNat / 4 % 8 = 0 ∨
        4 < (byteAt p 7).toNat / 4 % 8 ∨ 31 < (byteAt p 8).toNat)) ∧
    (p.length = 6 → s.requests = ⟨0x05, p⟩ :: rest → exec .find s = .next
      { s with executing := .find (BitVec.ofNat 48 (fieldAt p 0 6)), tablePort := asked }) ∧
    (p.length = 18 → s.requests = ⟨0x02, p⟩ :: rest →
      let names := fieldAt p 2 2
      let credit := (BitVec.ofNat 24 (fieldAt p 15 3)).toInt
      (∀ lt : fieldAt p 0 2 < 512, exec .amend s = .next
        { s with executing := .amend ⟨fieldAt p 0 2, lt⟩ (amendOf p) (amendClamped p)
                 tablePort := asked }) ∧
      amendOf p =
        { writes := { weight := names.testBit 0, classes := names.testBit 1
                      ceiling := names.testBit 2, borrow := names.testBit 3
                      costShift := names.testBit 4, uplinkEighths := names.testBit 5
                      softCap := names.testBit 6 }
          writesSignal := names.testBit 7
          writesCredit := names.testBit 8
          values := { weight := max 1 (min (byteAt p 4).toNat 64)
                      classes := { sc0 := (byteAt p 5).getLsbD 0, sc1 := (byteAt p 5).getLsbD 1
                                   sc2 := (byteAt p 5).getLsbD 2, sc3 := (byteAt p 5).getLsbD 3 }
                      ceiling := fieldAt p 6 2
                      borrow := min (fieldAt p 8 2) 8191
                      costShift := max (-3) (min (byteAt p 10).toInt 3)
                      uplinkEighths := min (byteAt p 11).toNat 8
                      softCap := fieldAt p 12 2 }
          signal := (byteAt p 14).toInt
          credit := max (-524288) (min credit 524287) } ∧
      (amendClamped p = true ↔
        names.testBit 0 = true ∧ ((byteAt p 4).toNat = 0 ∨ 64 < (byteAt p 4).toNat) ∨
        names.testBit 3 = true ∧ 8191 < fieldAt p 8 2 ∨
        names.testBit 4 = true ∧ ((byteAt p 10).toInt < -3 ∨ 3 < (byteAt p 10).toInt) ∨
        names.testBit 5 = true ∧ 8 < (byteAt p 11).toNat ∨
        names.testBit 8 = true ∧ (credit < -524288 ∨ 524287 < credit)) ∧
      (512 ≤ fieldAt p 0 2 → exec .amend s = .next
        (s.responded 0x02 .noStation false (p.take 2 ++ List.replicate 16 0)))) ∧
    (p.length = 2 → s.requests = ⟨0x03, p⟩ :: rest →
      (∀ lt : fieldAt p 0 2 < 512, exec .reapply s = .next
        { s with executing := .reapplyRead ⟨fieldAt p 0 2, lt⟩, tablePort := asked }) ∧
      (512 ≤ fieldAt p 0 2 → exec .reapply s = .next
        (s.responded 0x03 .noStation false [0, 0, 0, 0, 0]))) ∧
    (p.length = 2 → s.requests = ⟨0x04, p⟩ :: rest →
      (∀ lt : fieldAt p 0 2 < 512, exec .retire s = .next
        { s with executing := .retire ⟨fieldAt p 0 2, lt⟩, tablePort := asked }) ∧
      (512 ≤ fieldAt p 0 2 → exec .retire s = .next (s.responded 0x04 .noStation false p))) ∧
    (p.length = 2 → s.requests = ⟨0x06, p⟩ :: rest →
      (∀ lt : fieldAt p 0 2 < 512, exec .query s = .next
        { s with executing := .query ⟨fieldAt p 0 2, lt⟩, tablePort := asked }) ∧
      (512 ≤ fieldAt p 0 2 → exec .query s = .next (s.responded 0x06 .noStation false
        (List.replicate 40 0 ++ List.replicate 16 0xFF ++ List.replicate 4 0)))) ∧
    (p.length = 3 → s.requests = ⟨0x07, p⟩ :: rest →
      (∀ lt : fieldAt p 1 2 < 512, exec .list s = .next
        { s with executing := .list ((byteAt p 0).extractLsb' 0 6) ⟨fieldAt p 1 2, lt⟩ [] }) ∧
      (512 ≤ fieldAt p 1 2 → exec .list s = .next
        (s.responded 0x07 .noStation false (0 :: List.replicate 58 0xFF))))

/-- At the start of a TABLE_CLEAR the clearing flag is set, the walker's step is abandoned with its due
visit, the step timer stops, lag, lead, group pointer and epoch become 0, and the release of the open
awards becomes due (R22, R80, R122, R156). -/
def Obligations.TableClearStarts : Prop :=
  ∀ (s : State) (rest : List Request), s.resetLow = false → s.executing = .idle →
    s.responses.length < 4 → s.requests = ⟨0x1F, []⟩ :: rest →
    exec .tableClear s = .next
      { s with
        clearing := true, releaseDue := true, executing := .clearRelease
        walker := { s.walker with
          lag := 0, lead := 0, groupPointer := 0, epoch := 0, step := none, timerRunning := false } }

/-! ### The visits of the Request Processor -/

/-- The allocation visit of ADMIT: DUPLICATE when an indexed record carries the address; else NO_ROOM
with its flag when the free list is empty; else the free-list head leaves the list and becomes FORMING
with the descriptor, and the classifier's result waits for the completion visit, CHAIN_RANGE set where a
stage overflowed (R18, R34). No ring, list or waiting count changes. That the classification is part of
the visit's event, and the payload of a refusal, are the model's reading (log 10, log 18); that the record's
own next-free link becomes none is its choice (log 28). -/
def Obligations.AdmitAllocationVisitAllocates : Prop :=
  ∀ (s : State) (asks : PortAsks) (d : Descriptor) (clamped : Bool) (q : Request) (rest : List Request),
    s.resetLow = false → s.executing = .admitAllocate d clamped → s.requests = q :: rest →
    s.grants .request asks = true → s.IndexLawful → s.FreeListLawful →
    ((∃ h, (s.station h).indexed = true ∧ (s.station h).descriptor.linkAddress = d.linkAddress) →
      exec (.admitAllocationVisit asks) s = .next ((s.granted .request asks).responded q.kind .duplicate
        clamped [0xFF, 0xFF, 0, 0, 0, 0, 0])) ∧
    ((∀ h, (s.station h).indexed = true → (s.station h).descriptor.linkAddress ≠ d.linkAddress) →
      (s.freeHead = none →
        exec (.admitAllocationVisit asks) s = .next
          ({ s.granted .request asks with flags := { s.flags with noRoom := true } }.responded q.kind
            .noRoom clamped [0xFF, 0xFF, 0, 0, 0, 0, 0])) ∧
      ∀ h, s.freeHead = some h →
        let c := classify s.classPolicy d
        exec (.admitAllocationVisit asks) s = .next
          { s.granted .request asks with
            stations := s.stations.set h.val
              { s.station h with state := .forming, descriptor := d, nextFree := none }
            freeHead := (s.station h).nextFree
            freeTail := if (s.station h).nextFree = none then none else s.freeTail
            flags := { s.flags with chainRange := s.flags.chainRange || c.2 }
            executing := .admitComplete h c.1 clamped })

/-- The completion visit of ADMIT: an accepted record becomes ACTIVE with the classifier's profile and
trace, its initial credit the smaller of the ceiling and QUANTUM times weight over 16, its accounts 0,
its sets empty, its idle countdown loaded, and enters its bucket's chain at the head; a refused one
becomes FREE and cleared at the head of the free list. The response carries the handle and the trace
(R19, R48, R148), which is coded as the count and four entry bytes, stage and rule, 0 beyond the count
(R170). The payload of a refusal is the model's reading (log 18), and the cleared value of a descriptor's
flags its choice (log 27). -/
def Obligations.AdmitCompletionVisitCompletes : Prop :=
  (∀ entries : List TraceEntry, entries.length ≤ 4 →
    (traceBytes entries).length = 5 ∧ (byteAt (traceBytes entries) 0).toNat = entries.length ∧
    ∀ i, i < 4 →
      (∀ e, entries[i]? = some e →
        (byteAt (traceBytes entries) (1 + i)).toNat = 64 * e.stage.val + e.rule.val) ∧
      (entries.length ≤ i → byteAt (traceBytes entries) (1 + i) = 0)) ∧
  ∀ (s : State) (asks : PortAsks) (h : Handle) (result : ClassResult) (clamped : Bool) (q : Request)
    (rest : List Request),
    s.resetLow = false → s.executing = .admitComplete h result clamped → s.requests = q :: rest →
    s.grants .request asks = true → (s.station h).state = .forming → s.RingsLawful →
    let b := bucketOf (s.station h).descriptor.linkAddress
    let p := result.profile
    (result.outcome = .accept →
      exec (.admitCompletionVisit asks) s = .next
        (({ s.granted .request asks with
            stations := s.stations.set h.val
              { s.station h with
                state := .active, profile := p, trace := result.trace
                credit := min (p.ceiling : Int) ((s.settings.quantum * p.weight / 16 : Nat) : Int)
                usage := 0, average := 0, failStreak := 0
                backlog := ClassSet.none, inFlight := ClassSet.none
                idleCountdown := s.settings.idleLimit, nextInBucket := s.bucketHead b }
            buckets := s.buckets.set b.toFin.val (some h) }).responded q.kind .ok clamped
          (bytesOf 2 h.val ++ traceBytes result.trace))) ∧
    (result.outcome ≠ .accept →
      exec (.admitCompletionVisit asks) s = .next
        (({ s.granted .request asks with
            stations := s.stations.set h.val { StationRecord.cleared with nextFree := s.freeHead }
            freeHead := some h
            freeTail := if s.freeHead = none then some h else s.freeTail }).responded q.kind
          (if result.outcome = ClassOutcome.denied then Status.denied else Status.noClass) clamped
          ([0xFF, 0xFF] ++ traceBytes result.trace)))

/-- The AMEND visit writes every named field of an ACTIVE or DORMANT record and no other, and answers
with the handle, the field set without bits 9 to 15, and the values as written, each at its place and 0
where it is not named; any other record refuses it with NO_STATION and is unchanged (R59, R149, R171). The refusal of a FORMING record is the model's choice (log 13), and the payload of a refusal its
reading (log 18). -/
def Obligations.AmendVisitWritesNamedFields : Prop :=
  (∀ (h : Handle) (f : AmendFields),
    let b := amendResponse h f
    let w := f.writes
    let v := f.values
    let named := [w.weight, w.classes, w.ceiling, w.borrow, w.costShift, w.uplinkEighths, w.softCap,
      f.writesSignal, f.writesCredit]
    b.length = 18 ∧ fieldAt b 0 2 = h.val ∧
    (∀ n, (fieldAt b 2 2).testBit n = named.getD n false) ∧
    byteAt b 4 = (if w.weight then BitVec.ofNat 8 v.weight else 0) ∧
    byteAt b 5 = (if w.classes then 0#4 ++ BitVec.ofBool v.classes.sc3 ++ BitVec.ofBool v.classes.sc2 ++
      BitVec.ofBool v.classes.sc1 ++ BitVec.ofBool v.classes.sc0 else 0) ∧
    fieldAt b 6 2 = (if w.ceiling then v.ceiling % 65536 else 0) ∧
    fieldAt b 8 2 = (if w.borrow then v.borrow % 65536 else 0) ∧
    byteAt b 10 = (if w.costShift then BitVec.ofInt 8 v.costShift else 0) ∧
    byteAt b 11 = (if w.uplinkEighths then BitVec.ofNat 8 v.uplinkEighths else 0) ∧
    fieldAt b 12 2 = (if w.softCap then v.softCap % 65536 else 0) ∧
    byteAt b 14 = (if f.writesSignal then BitVec.ofInt 8 f.signal else 0) ∧
    BitVec.ofNat 24 (fieldAt b 15 3) = if f.writesCredit then BitVec.ofInt 24 f.credit else 0) ∧
  ∀ (s : State) (asks : PortAsks) (h : Handle) (f : AmendFields) (clamped : Bool) (q : Request)
    (rest : List Request),
    s.resetLow = false → s.executing = .amend h f clamped → s.requests = q :: rest →
    s.grants .request asks = true →
    let r := s.station h
    ((r.state = .active ∨ r.state = .dormant) →
      ∃ t, exec (.amendVisit asks) s = .next t ∧
        t.beyondRings = ((({ s.granted .request asks with
          stations := s.stations.set h.val
            { r with
              profile :=
                { weight := if f.writes.weight then f.values.weight else r.profile.weight
                  classes := if f.writes.classes then f.values.classes else r.profile.classes
                  ceiling := if f.writes.ceiling then f.values.ceiling else r.profile.ceiling
                  borrow := if f.writes.borrow then f.values.borrow else r.profile.borrow
                  costShift := if f.writes.costShift then f.values.costShift else r.profile.costShift
                  uplinkEighths :=
                    if f.writes.uplinkEighths then f.values.uplinkEighths else r.profile.uplinkEighths
                  softCap := if f.writes.softCap then f.values.softCap else r.profile.softCap }
              descriptor := { r.descriptor with
                signal := if f.writesSignal then f.signal else r.descriptor.signal }
              credit := if f.writesCredit then f.credit else r.credit } }).responded q.kind .ok clamped
            (amendResponse h f)).beyondRings) ∧
        (f.writes.classes = false → f.writesCredit = false →
          t.rings = s.rings ∧ t.overflows = s.overflows ∧ t.waiting = s.waiting ∧
            t.flags = s.flags)) ∧
    (r.state ≠ .active → r.state ≠ .dormant →
      exec (.amendVisit asks) s = .next ((s.granted .request asks).responded q.kind .noStation clamped
        (bytesOf 2 h.val ++ List.replicate 16 0)))

/-- The read visit of REAPPLY classifies the stored descriptor of an ACTIVE or DORMANT record: an
accepted result waits for the apply visit, a refused one ends the request with its trace and the record
unchanged; any other record refuses it with NO_STATION (R39, R41, R150). The apply visit replaces the
profile and the rule trace and keeps every other field of the record as the visit finds it, the credit
above all (R40). That the classification is part of the read visit's event, and the payload of a
refusal, are the model's reading (log 10, log 18). -/
def Obligations.ReapplyVisitsClassifyAndReplace : Prop :=
  (∀ (s : State) (asks : PortAsks) (h : Handle) (q : Request) (rest : List Request),
    s.resetLow = false → s.executing = .reapplyRead h → s.requests = q :: rest →
    s.grants .request asks = true →
    let c := classify s.classPolicy (s.station h).descriptor
    let flagged := { s.granted .request asks with
      flags := { s.flags with chainRange := s.flags.chainRange || c.2 } }
    ((s.station h).indexed = true →
      (c.1.outcome = .accept →
        exec (.reapplyReadVisit asks) s = .next { flagged with executing := .reapplyApply h c.1 }) ∧
      (c.1.outcome = .denied →
        exec (.reapplyReadVisit asks) s = .next
          (flagged.responded q.kind .denied false (traceBytes c.1.trace))) ∧
      (c.1.outcome = .noClass →
        exec (.reapplyReadVisit asks) s = .next
          (flagged.responded q.kind .noClass false (traceBytes c.1.trace)))) ∧
    ((s.station h).indexed = false →
      exec (.reapplyReadVisit asks) s = .next
        ((s.granted .request asks).responded q.kind .noStation false [0, 0, 0, 0, 0]))) ∧
  ∀ (s : State) (asks : PortAsks) (h : Handle) (result : ClassResult) (q : Request)
    (rest : List Request),
    s.resetLow = false → s.executing = .reapplyApply h result → s.requests = q :: rest →
    s.grants .request asks = true →
    ∃ t, exec (.reapplyApplyVisit asks) s = .next t ∧
      t.beyondRings = ((({ s.granted .request asks with
        stations := s.stations.set h.val
          { s.station h with profile := result.profile, trace := result.trace } }).responded q.kind .ok
        false (traceBytes result.trace)).beyondRings)

/-- RETIRE of an ACTIVE or DORMANT record empties its backlog and takes it out of the index: with nothing
in flight it becomes COOLING with COOL_EPOCHS loaded, status OK; else DRAINING, status DEFERRED. Any other
record refuses it with NO_STATION and is unchanged (R20, R151). The record's predecessor in its bucket's
chain, or the bucket's head, takes its link, the others of the chain keep their order, and the other chains
stay (R13). No other record changes but for its place in a chain, ring or list, and nothing else of the
state. The handle echoed by a refusal is R169's (R169), as the model reads it (log 18). -/
def Obligations.RetireVisitRetires : Prop :=
  ∀ (s : State) (asks : PortAsks) (h : Handle) (q : Request) (rest : List Request),
    s.resetLow = false → s.executing = .retire h → s.requests = q :: rest →
    s.grants .request asks = true →
    let r := s.station h
    (r.indexed = true →
      ∃ t, exec (.retireVisit asks) s = .next t ∧
        (t.station h).unplaced =
          (if r.inFlight = ClassSet.none then
            { r with state := .cooling, backlog := ClassSet.none, nextInBucket := none
                     coolCountdown := s.settings.coolEpochs }
          else { r with state := .draining, backlog := ClassSet.none, nextInBucket := none } :
            StationRecord).unplaced ∧
        (∀ k, k ≠ h → ({ t.station k with nextInBucket := none } : StationRecord).unplaced =
          ({ s.station k with nextInBucket := none } : StationRecord).unplaced) ∧
        (s.IndexLawful →
          (∀ k, k ≠ h → (t.station k).nextInBucket =
            if (s.station k).nextInBucket = some h then r.nextInBucket else (s.station k).nextInBucket) ∧
          (∀ b, t.bucketHead b = if s.bucketHead b = some h then r.nextInBucket else s.bucketHead b) ∧
          ∀ b members, s.BucketOrder b members → t.BucketOrder b (members.erase h)) ∧
        { t with stations := s.stations, buckets := s.buckets, rings := s.rings
                 overflows := s.overflows, waiting := s.waiting } =
          (s.granted .request asks).responded q.kind
            (if r.inFlight = ClassSet.none then .ok else .deferred) false (bytesOf 2 h.val)) ∧
    (r.indexed = false →
      exec (.retireVisit asks) s = .next
        ((s.granted .request asks).responded q.kind .noStation false (bytesOf 2 h.val)))

/-- The visits of FIND, QUERY and LIST change no record, ring, list or index; FIND answers with the
indexed record that carries the address or NOT_FOUND (R14), QUERY with the snapshot or NO_STATION
(R153), and a scan visit adds the handle when its state is in the set and ends the LIST at 28 handles or
after handle 511 (R154). The snapshot is 60 bytes with each field at its place, and at its cleared value
where the record's state gives it no meaning (R1, R170, R172); a LIST answers with the count, 28 handle
fields and the next handle, none as 0xFFFF (R167, R171). That a DRAINING record is not indexed, and the payload of a refusal, are the
model's reading (log 9, log 18). -/
def Obligations.ReadingVisitsAnswer : Prop :=
  (StationState.free.code = 0 ∧ StationState.forming.code = 1 ∧ StationState.active.code = 2 ∧
    StationState.dormant.code = 3 ∧ StationState.draining.code = 4 ∧ StationState.cooling.code = 5) ∧
  (∀ (r : StationRecord) (epoch : BitVec 16), r.state ≠ .free → r.state ≠ .forming →
    let b := snapshotBytes r epoch
    let d := r.descriptor
    let v := r.profile
    let bits := fun k : ClassSet => (BitVec.ofBool k.sc3 ++ BitVec.ofBool k.sc2 ++ BitVec.ofBool k.sc1 ++
      BitVec.ofBool k.sc0 : BitVec 4)
    let number := fun h : Option Handle => h.elim 0xFFFF (·.val)
    let slot := fun c => if r.state = .active then r.ringSlot.get c else none
    let place := fun c => if r.state = .active then r.overflow.get c else none
    b.length = 60 ∧ byteAt b 0 = BitVec.ofNat 8 r.state.code ∧
    fieldAt b 1 6 = d.linkAddress.toNat ∧ byteAt b 7 = BitVec.ofNat 8 d.deviceTag ∧
    (byteAt b 8).extractLsb' 0 2 = BitVec.ofNat 2 d.band ∧
    (byteAt b 8).extractLsb' 2 3 = BitVec.ofNat 3 d.streams ∧
    (byteAt b 8).getLsbD 5 = d.legacy ∧ (byteAt b 8).getLsbD 6 = d.multiUser ∧
    (byteAt b 8).getLsbD 7 = false ∧ byteAt b 9 = BitVec.ofNat 8 d.topRate ∧
    byteAt b 10 = BitVec.ofInt 8 d.signal ∧ byteAt b 11 = 0#4 ++ bits d.requested ∧
    byteAt b 12 = BitVec.ofNat 8 v.weight ∧ byteAt b 13 = 0#4 ++ bits v.classes ∧
    fieldAt b 14 2 = v.ceiling % 65536 ∧ fieldAt b 16 2 = v.borrow % 65536 ∧
    byteAt b 18 = BitVec.ofInt 8 v.costShift ∧ byteAt b 19 = BitVec.ofNat 8 v.uplinkEighths ∧
    fieldAt b 20 2 = v.softCap % 65536 ∧ (b.drop 22).take 5 = traceBytes r.trace ∧
    BitVec.ofNat 24 (fieldAt b 27 3) = BitVec.ofInt 24 r.credit ∧
    fieldAt b 30 2 = r.usage % 65536 ∧ fieldAt b 32 2 = r.average % 65536 ∧
    (byteAt b 34).extractLsb' 0 4 = (if r.state = .active then bits r.backlog else 0) ∧
    (byteAt b 34).extractLsb' 4 4 = (if r.state = .cooling then 0 else bits r.inFlight) ∧
    (∀ k ∈ ([(.sc0, 0), (.sc1, 1), (.sc2, 2), (.sc3, 3)] : List (ServiceClass × Nat)),
      (byteAt b 35).getLsbD k.2 = (slot k.1).isSome ∧
      (byteAt b 35).getLsbD (4 + k.2) = (place k.1).isSome ∧
      byteAt b (36 + k.2) = (slot k.1).getD 0 ∧
      fieldAt b (40 + 4 * k.2) 2 = number ((place k.1).bind (·.prev)) ∧
      fieldAt b (42 + 4 * k.2) 2 = number ((place k.1).bind (·.next))) ∧
    byteAt b 56 = BitVec.ofNat 8 r.idleCountdown ∧
    (byteAt b 57).extractLsb' 4 4 = (if r.state = .cooling then BitVec.ofNat 4 r.coolCountdown else 0) ∧
    (byteAt b 57).extractLsb' 0 4 = BitVec.ofNat 4 r.failStreak ∧
    fieldAt b 58 2 = epoch.toNat) ∧
  (∀ (found : List Handle) (next : Option Handle), found.length ≤ 28 →
    let b := listResponse found next
    let number := fun h : Option Handle => h.elim 0xFFFF (·.val)
    b.length = 59 ∧ (byteAt b 0).toNat = found.length ∧
    (∀ i, i < 28 → fieldAt b (1 + 2 * i) 2 = number found[i]?) ∧ fieldAt b 57 2 = number next) ∧
  ∀ (s : State) (asks : PortAsks) (q : Request) (rest : List Request), s.resetLow = false →
    s.requests = q :: rest → s.grants .request asks = true →
    (∀ a, s.executing = .find a → s.IndexLawful →
      (∀ h, (s.station h).indexed = true → (s.station h).descriptor.linkAddress = a →
        exec (.findProbeVisit asks) s = .next
          ((s.granted .request asks).responded q.kind .ok false (bytesOf 2 h.val))) ∧
      ((∀ h, (s.station h).indexed = true → (s.station h).descriptor.linkAddress ≠ a) →
        exec (.findProbeVisit asks) s = .next
          ((s.granted .request asks).responded q.kind .notFound false [0xFF, 0xFF]))) ∧
    (∀ h, s.executing = .query h →
      ((s.station h).state = .free →
        exec (.queryVisit asks) s = .next ((s.granted .request asks).responded q.kind .noStation false
          (List.replicate 40 0 ++ List.replicate 16 0xFF ++ List.replicate 4 0))) ∧
      ((s.station h).state ≠ .free → (s.station h).state ≠ .forming →
        exec (.queryVisit asks) s = .next ((s.granted .request asks).responded q.kind .ok false
          (snapshotBytes (s.station h) s.walker.epoch)))) ∧
    ∀ states h found, s.executing = .list states h found → found.length < 28 →
      let found' := if states.getLsbD (s.station h).state.code then found ++ [h] else found
      (found'.length < 28 → ∀ lt : h.val + 1 < 512,
        exec (.listScanVisit asks) s = .next
          { s.granted .request asks with executing := .list states ⟨h.val + 1, lt⟩ found' }) ∧
      (found'.length < 28 → h.val = 511 →
        exec (.listScanVisit asks) s = .next ((s.granted .request asks).responded q.kind .ok false
          (listResponse found' none))) ∧
      (found'.length = 28 →
        exec (.listScanVisit asks) s = .next ((s.granted .request asks).responded q.kind .ok false
          (listResponse found' (if lt : h.val + 1 < 512 then some ⟨h.val + 1, lt⟩ else none))))

/-- A record visit of TABLE_CLEAR makes its record FREE with every field cleared but its free-list link,
takes it out of its bucket's chain, and gives it its place in the free list: the handles passed, ascending, and
behind them the FREE records above in the order they held. No other record changes but for links and places,
and nothing else but the rings, lists and waiting counts; the visit goes on to the next handle (R13, R22). The
visit to handle 511 completes the clear: the free list is 0..511 and every bucket empty; the rings return to
head and tail 0, no station is listed or waiting; the clearing flag is cleared, the step timer restarts, and
the response is OK. With the other records cleared, every record is as at power-on (R2, R78, R106, R122). The cleared value of a
descriptor's flags is the model's choice (log 27). -/
def Obligations.TableClearRecordVisitClears : Prop :=
  ∀ (s : State) (asks : PortAsks) (h : Handle) (q : Request) (rest : List Request),
    s.resetLow = false → s.executing = .clearRecords h → s.requests = q :: rest →
    s.grants .request asks = true →
    ∃ t, exec (.tableClearRecordVisit asks) s = .next t ∧
      ({ t.station h with nextFree := none } : StationRecord) = StationRecord.cleared ∧
      (∀ k, k ≠ h →
        ({ t.station k with nextFree := none, nextInBucket := none } : StationRecord).unplaced =
          ({ s.station k with nextFree := none, nextInBucket := none } : StationRecord).unplaced) ∧
      (s.FreeListLawful → ∀ members, s.FreeOrder members →
        t.FreeOrder (allHandles.take h.val ++ h :: members.filter (h < ·))) ∧
      (s.IndexLawful →
        (∀ k, k ≠ h → (t.station k).nextInBucket =
          if (s.station k).nextInBucket = some h then (s.station h).nextInBucket
          else (s.station k).nextInBucket) ∧
        (∀ b, t.bucketHead b =
          if s.bucketHead b = some h then (s.station h).nextInBucket else s.bucketHead b) ∧
        ∀ b members, s.BucketOrder b members → t.BucketOrder b (members.erase h)) ∧
      { t with stations := s.stations, freeHead := s.freeHead, freeTail := s.freeTail
               buckets := s.buckets, rings := s.rings, overflows := s.overflows
               waiting := s.waiting } =
        (if lt : h.val + 1 < 512 then
          { s.granted .request asks with executing := .clearRecords ⟨h.val + 1, lt⟩ }
        else
          { (s.granted .request asks).responded q.kind .ok false [] with
            clearing := false
            walker := { s.walker with
              timerRunning := true
              nextExpiry := s.timebase + BitVec.ofNat 32 s.settings.stepInterval } }) ∧
      (h.val = 511 →
        (∀ c, t.ring c = { slots := Vector.replicate 256 none, head := 0, tail := 0 }) ∧
        (s.FreeListLawful → t.FreeOrder allHandles ∧ t.freeHead = some 0 ∧ t.freeTail = some 511) ∧
        (s.RingsLawful → t.waiting = PerClass.const 0 ∧
          (∀ c, t.overflowList c = { head := none, tail := none, length := 0 }) ∧
          (s.IndexLawful → t.buckets = Vector.replicate 256 none ∧
            (s.FreeListLawful →
              (∀ k, k ≠ h →
                ({ s.station k with nextFree := none } : StationRecord) = StationRecord.cleared) →
              ∀ k, t.station k = { StationRecord.cleared with nextFree := Handle.after k }))))

/-! ### The MAC Link -/

/-- At the fall of LKI_STB a well-formed message joins the inbound queue when fewer than 8 wait; a
message that fails a check, or finds 8 waiting, is dropped and counted as malformed; one begun in reset or
cut off by it is discarded uncounted (R124, R125, R126). Eight nibbles make a word, most significant first;
an incomplete word, or a 25th word, makes the message malformed (R124). Words make a well-formed message by
the type, the length that the count calls for, and handles up to 511, with the fields at their places; any
other type, length or handle fails (R125, R176). That the fall of LKI_STB carries the nibbles, and says
whether RESET_N was low since its rise, is the model's choice (log 7). -/
def Obligations.MessageIsQueuedOrMalformed : Prop :=
  (∀ (s : State) (nibbles : List Nibble), s.resetLow = false →
    (∀ m, receivedMessage nibbles = some m → s.inbound.length < 8 →
      exec (.messageReceived nibbles false) s = .next { s with inbound := s.inbound ++ [m] }) ∧
    (receivedMessage nibbles = none ∨ 8 ≤ s.inbound.length →
      exec (.messageReceived nibbles false) s = .next
        { s with
          flags := { s.flags with malformed := true }
          counters := { s.counters with malformed := min (s.counters.malformed + 1) 65535 } }) ∧
    exec (.messageReceived nibbles true) s = .next s) ∧
  (∀ words : List Word,
    let nibbles := words.flatMap fun w => (List.range 8).map fun i => w.extractLsb' (28 - 4 * i) 4
    (words.length ≤ 24 → receivedMessage nibbles = inMessageOf words) ∧
    (24 < words.length → receivedMessage nibbles = none)) ∧
  (∀ nibbles : List Nibble, nibbles.length % 8 ≠ 0 → receivedMessage nibbles = none) ∧
  inMessageOf [] = none ∧
  (classOfBits 0 = .sc0 ∧ classOfBits 1 = .sc1 ∧ classOfBits 2 = .sc2 ∧ classOfBits 3 = .sc3) ∧
  (∀ w : Word, doneEntryOf w =
    { outcome := if w.extractLsb' 30 2 = 0 then .delivered else if w.extractLsb' 30 2 = 1 then .partly
        else if w.extractLsb' 30 2 = 2 then .failed else .unassigned
      share := (w.extractLsb' 25 5).toNat, backlogged := w.getLsbD 24 }) ∧
  ∀ (w : Word) (rest : List Word),
    (w.extractLsb' 28 4 = 1 →
      (∀ t, rest = [t] → inMessageOf (w :: rest) = some (.ask
        { tag := w.extractLsb' 0 8, cls := classOfBits (w.extractLsb' 26 2)
          maximum := (w.extractLsb' 21 4).toNat, multiUser := w.getLsbD 25
          txop := (t.extractLsb' 0 16).toNat })) ∧
      (rest.length ≠ 1 → inMessageOf (w :: rest) = none)) ∧
    (w.extractLsb' 28 4 = 2 →
      let count := (w.extractLsb' 16 4).toNat
      (count = rest.length → 1 ≤ count → count ≤ 8 → inMessageOf (w :: rest) = some (.done
        (w.extractLsb' 24 4).toFin (w.extractLsb' 20 4) (w.extractLsb' 0 14).toNat
        (rest.map doneEntryOf))) ∧
      (count = 0 ∨ 8 < count ∨ count ≠ rest.length → inMessageOf (w :: rest) = none)) ∧
    (w.extractLsb' 28 4 = 3 →
      let count := (w.extractLsb' 24 4).toNat
      (count = rest.length → 1 ≤ count → count ≤ 8 →
        (∀ x ∈ rest, (x.extractLsb' 16 16).toNat < 512) →
        ∃ entries, inMessageOf (w :: rest) = some (.backlog entries) ∧
          entries.map (fun e => (e.handle.val, e.cls, e.sets)) =
            rest.map fun x => ((x.extractLsb' 16 16).toNat, classOfBits (x.extractLsb' 14 2),
              x.getLsbD 13)) ∧
      (count = 0 ∨ 8 < count ∨ count ≠ rest.length ∨ (∃ x ∈ rest, 512 ≤ (x.extractLsb' 16 16).toNat) →
        inMessageOf (w :: rest) = none)) ∧
    (w.extractLsb' 28 4 = 4 →
      (∀ t, rest = [t] → ∀ lt : (w.extractLsb' 0 16).toNat < 512,
        inMessageOf (w :: rest) = some (.uplink ⟨(w.extractLsb' 0 16).toNat, lt⟩
          (t.extractLsb' 0 14).toNat)) ∧
      (rest.length ≠ 1 ∨ 512 ≤ (w.extractLsb' 0 16).toNat → inMessageOf (w :: rest) = none)) ∧
    (w.extractLsb' 28 4 = 5 →
      (rest = [] → inMessageOf (w :: rest) = some (.sync (w.extractLsb' 0 8))) ∧
      (rest ≠ [] → inMessageOf (w :: rest) = none)) ∧
    (w.extractLsb' 28 4 = 0 ∨ 6 ≤ (w.extractLsb' 28 4).toNat → inMessageOf (w :: rest) = none)

/-- While the link is DOWN, a SYNC at the head of the inbound queue makes it UP and is answered with its
tag; any other message is dropped and counted as malformed (R127). That the answer enters the outbound
queue in the same event is the model's reading (log 12). -/
def Obligations.DownLinkTakesFirstSync : Prop :=
  ∀ (s : State) (m : InMessage) (rest : List InMessage), s.resetLow = false → s.linkUp = false →
    s.inbound = m :: rest →
    (∀ tag, m = .sync tag → s.outbound.length < 4 → exec .firstSync s = .next
      { s with linkUp := true, inbound := rest, outbound := s.outbound ++ [.sync tag] }) ∧
    ((∀ tag, m ≠ .sync tag) → exec .downMessageDrop s = .next
      { s with
        inbound := rest
        flags := { s.flags with malformed := true }
        counters := { s.counters with malformed := min (s.counters.malformed + 1) 65535 } })

/-- An answer enters the outbound queue when it has room, which ends its item (R135); an award whose
issuing step is still to come is issued first, with D and its deadline (R89, R91). The oldest message leaves
the queue when its last nibble has been sent, framed by the strobe (R135), in the words of R176: each word
most significant nibble first, a field's place in its word, every other bit 0. The strobe is high while a
message is being sent. That the issuing step may come after the last pop visit and is part of this event,
and the record of what is seen on LKO, are the model's (log 8, log 10). -/
def Obligations.OutboundQueueSendsInOrder : Prop :=
  (∀ s : State, s.resetLow = false →
    (∀ m, s.engine = .answer m → s.outbound.length < 4 →
      exec .outboundEnqueue s = .next { s with engine := .idle, outbound := s.outbound ++ [m] }) ∧
    (∀ m, s.engine = .answer m → 4 ≤ s.outbound.length → exec .outboundEnqueue s = .next s) ∧
    (∀ a id allowances w, s.engine = .issuing a id allowances → (s.entry id).award = some w →
      let d := awardDuration a.txop allowances
      let deadline := s.timebase + BitVec.ofNat 32 s.settings.awardTimeout
      let m : OutMessage :=
        .award w.askTag id (s.entry id).generation w.cls d (w.members.map (·.handle))
      let issued := { s with
        awards := s.awards.set id.val
          { s.entry id with award := some { w with issue := some ⟨d, deadline⟩ } } }
      (s.outbound.length < 4 → exec .outboundEnqueue s = .next
        { issued with engine := .idle, outbound := s.outbound ++ [m] }) ∧
      (4 ≤ s.outbound.length → exec .outboundEnqueue s = .next
        { issued with engine := .answer m })) ∧
    ∀ m rest, s.outbound = m :: rest →
      let nibbles := m.words.flatMap fun w => (List.range 8).map fun i => w.extractLsb' (28 - 4 * i) 4
      exec .outboundSent s = .next
        { s with outbound := rest
                 lkoSent := LkoEvent.strobeRise :: nibbles.map .nibble ++ [.strobeFall] }) ∧
  (∀ s : State, s.lkoStrobe = true ↔ s.outbound ≠ []) ∧
  (∀ (tag : Byte) (id : AwardId) (generation : BitVec 4) (cls : ServiceClass) (d : Nat)
      (members : List Handle),
    ∃ first second handles,
      (OutMessage.award tag id generation cls d members).words = first :: second :: handles ∧
      first.extractLsb' 28 4 = 9 ∧ (first.extractLsb' 24 4).toNat = id.val ∧
      first.extractLsb' 20 4 = generation ∧ classOfBits (first.extractLsb' 18 2) = cls ∧
      first.extractLsb' 14 4 = BitVec.ofNat 4 members.length ∧ first.extractLsb' 8 6 = 0 ∧
      first.extractLsb' 0 8 = tag ∧
      second.extractLsb' 14 18 = 0 ∧ second.extractLsb' 0 14 = BitVec.ofNat 14 d ∧
      handles.length = (members.length + 1) / 2 ∧
      ∀ i (lt : i < handles.length),
        (handles[i].extractLsb' 16 16).toNat = (members.map (·.val)).getD (2 * i) 0xFFFF ∧
        (handles[i].extractLsb' 0 16).toNat = (members.map (·.val)).getD (2 * i + 1) 0xFFFF) ∧
  (∀ (tag : Byte) (cls : ServiceClass), ∀ k ∈ ([(.clearing, 1), (.classOff, 2), (.awardsFull, 3),
      (.noCredit, 4), (.noStation, 5)] : List (DeclineReason × BitVec 3)),
    ∃ word, (OutMessage.decline tag cls k.1).words = [word] ∧
      word.extractLsb' 28 4 = 10 ∧ classOfBits (word.extractLsb' 26 2) = cls ∧
      word.extractLsb' 19 7 = 0 ∧ word.extractLsb' 16 3 = k.2 ∧ word.extractLsb' 8 8 = 0 ∧
      word.extractLsb' 0 8 = tag) ∧
  ∀ tag : Byte, ∃ word, (OutMessage.sync tag).words = [word] ∧
    word.extractLsb' 28 4 = 5 ∧ word.extractLsb' 8 20 = 0 ∧ word.extractLsb' 0 8 = tag

/-- BACKLOG and UPLINK begin their visits, an UPLINK asking for its one; a SYNC taken in UP begins the
release of every OPEN entry, or with none open the second part of the restart (R128, R129, R132). The
release goes to the held members in ascending award id and, within an entry, in pop order (R129). That an
UPLINK asks for its visit as it is taken is the table's word (log 3), and that a SYNC taken after a
TABLE_CLEAR has begun and before its release finds the OPEN entries is the model's reading (log 26). -/
def Obligations.LinkItemsBegin : Prop :=
  (∀ s : State, (s.openMembers.map (·.id)).Pairwise (· ≤ ·) ∧
    ∀ id : AwardId, (s.openMembers.filter fun m => m.id == id).map (·.handle) =
      match (s.entry id).award with
      | none => []
      | some w => (w.members.filter fun m => m.held).map (·.handle)) ∧
  ∀ (s : State) (m : InMessage) (rest : List InMessage), s.resetLow = false → s.linkUp = true →
    s.engine = .idle → s.inbound = m :: rest →
    (∀ entries, m = .backlog entries →
      exec .backlog s = .next { s with inbound := rest, engine := .backlog entries }) ∧
    (∀ h airtime, m = .uplink h airtime →
      exec .uplink s = .next
        { s with inbound := rest, engine := .uplink h airtime
                 tablePort := { s.tablePort with award := true } }) ∧
    ∀ tag, m = .sync tag →
      (s.openMembers = [] → exec .linkRestart s = .next
        { s with inbound := rest, engine := .restartBacklog tag 0 }) ∧
      (s.openMembers ≠ [] → exec .linkRestart s = .next
        { s with inbound := rest, engine := .restartRelease tag s.openMembers })

/-- A BACKLOG entry's visit, by the state it finds: stale for FREE, FORMING and COOLING; for ACTIVE the
class joins the backlog with the idle countdown loaded, or leaves it; a set wakes a DORMANT record and a
clear leaves it; a DRAINING record ignores both (R15, R131). -/
def Obligations.BacklogEntryVisitReports : Prop :=
  ∀ (s : State) (asks : PortAsks) (e : BacklogEntry) (rest : List BacklogEntry), s.resetLow = false →
    s.engine = .backlog (e :: rest) → s.grants .award asks = true →
    let r := s.station e.handle
    let after := { s.granted .award asks with
      engine := if rest = [] then EngineItem.idle else .backlog rest }
    (r.state = .free ∨ r.state = .forming ∨ r.state = .cooling →
      exec (.backlogEntryVisit asks) s = .next
        { after with
          flags := { s.flags with stale := true }
          counters := { s.counters with stale := min (s.counters.stale + 1) 65535 } }) ∧
    (r.state = .draining ∨ r.state = .dormant ∧ e.sets = false →
      exec (.backlogEntryVisit asks) s = .next after) ∧
    ((r.state = .active ∨ r.state = .dormant) ∧ e.sets = true →
      ∃ t, exec (.backlogEntryVisit asks) s = .next t ∧
        t.beyondRings = State.beyondRings { after with
          stations := s.stations.set e.handle.val
            { r with state := .active, backlog := r.backlog.set e.cls true
                     idleCountdown := s.settings.idleLimit } }) ∧
    (r.state = .active ∧ e.sets = false →
      ∃ t, exec (.backlogEntryVisit asks) s = .next t ∧
        t.beyondRings = State.beyondRings { after with
          stations := s.stations.set e.handle.val
            { r with backlog := r.backlog.set e.cls false } })

/-- The UPLINK visit, by the state it finds: an ACTIVE or DORMANT record is charged the uplink debit,
floored, its usage rises, its fail streak becomes 0, its idle countdown is loaded and it is ACTIVE; a
DRAINING record ignores it; otherwise it is stale (R15, R56, R58, R133). -/
def Obligations.UplinkVisitCharges : Prop :=
  ∀ (s : State) (asks : PortAsks) (h : Handle) (airtime : Nat), s.resetLow = false →
    s.engine = .uplink h airtime → s.grants .award asks = true →
    let r := s.station h
    let debit := airtime * r.profile.uplinkEighths / 8
    let after := { s.granted .award asks with engine := .idle }
    (r.state = .active ∨ r.state = .dormant →
      ∃ t, exec (.uplinkVisit asks) s = .next t ∧
        t.beyondRings = State.beyondRings { after with
          flags := { s.flags with floor := s.flags.floor || decide (r.credit - debit < -524288) }
          stations := s.stations.set h.val
            { r with
              credit := max (r.credit - debit) (-524288), usage := min (r.usage + airtime) 65535
              failStreak := 0, idleCountdown := s.settings.idleLimit, state := .active } }) ∧
    (r.state = .draining → exec (.uplinkVisit asks) s = .next after) ∧
    (r.state = .free ∨ r.state = .forming ∨ r.state = .cooling →
      exec (.uplinkVisit asks) s = .next
        { after with
          flags := { s.flags with stale := true }
          counters := { s.counters with stale := min (s.counters.stale + 1) 65535 } })

/-- A visit of the second part of a link restart empties the backlog of an ACTIVE record; the visit to
handle 511 completes the restart: the rings return to head and tail 0, LINK_RESTART is set, and the SYNC is
answered with its tag (R78, R130). -/
def Obligations.RestartVisitEmptiesBacklog : Prop :=
  ∀ (s : State) (asks : PortAsks) (tag : Byte) (h : Handle), s.resetLow = false →
    s.engine = .restartBacklog tag h → s.grants .award asks = true →
    let r := s.station h
    let worked := { s.granted .award asks with
      stations := s.stations.set h.val
        { r with backlog := if r.state = StationState.active then ClassSet.none else r.backlog } }
    ∃ t, exec (.linkRestartBacklogVisit asks) s = .next t ∧
      (∀ lt : h.val + 1 < 512, t.beyondRings = State.beyondRings
        { worked with engine := .restartBacklog tag ⟨h.val + 1, lt⟩ }) ∧
      (h.val = 511 →
        t.beyondRings = State.beyondRings
          { worked with
            engine := .answer (.sync tag), flags := { s.flags with linkRestart := true } } ∧
        ∀ c, t.ring c = { slots := Vector.replicate 256 none, head := 0, tail := 0 })

/-! ### Awards -/

/-- The three checks of an ASK, in order: CLEARING, CLASS_OFF, AWARDS_FULL; when all pass, the first pop
visit is due (R86). The DECLINE carries the tag and class of the ASK (R90). -/
def Obligations.AskChecksInOrder : Prop :=
  ∀ (s : State) (a : AskFields) (rest : List InMessage), s.resetLow = false → s.linkUp = true →
    s.engine = .idle → s.inbound = .ask a :: rest →
    (s.clearing = true → exec .ask s = .next
      { s with inbound := rest, engine := .answer (.decline a.tag a.cls .clearing) }) ∧
    (s.clearing = false → s.settings.classEnable.get a.cls = false → exec .ask s = .next
      { s with inbound := rest, engine := .answer (.decline a.tag a.cls .classOff) }) ∧
    (s.clearing = false → s.settings.classEnable.get a.cls = true →
      (∀ id, (s.entry id).award ≠ none) → exec .ask s = .next
        { s with inbound := rest, engine := .answer (.decline a.tag a.cls .awardsFull) }) ∧
    (s.clearing = false → s.settings.classEnable.get a.cls = true →
      (∃ id, (s.entry id).award = none) → exec .ask s = .next
        { s with inbound := rest, engine := .askFirst a })

/-- The first pop visit of a class in which no station stands in line: NO_CREDIT when a station waits in
the class, with the report to the walker, else NO_STATION; the holes are discarded, so that the ring's head
reaches its tail, and nothing else of the rings, lists, counts, records and flags changes.
A report pulls a step in when PULL_IN is 1, the lag is 0, the lead below 8, no step is in progress and
the step timer is running (R69, R87, R114, R178). That the pull-in is part of the visit's event is the
model's reading (log 10). -/
def Obligations.PopVisitOfEmptyRingDeclines : Prop :=
  ∀ (s : State) (pop : PopOperands) (a : AskFields), s.resetLow = false → s.engine = .askFirst a →
    s.grants .award pop.asks = true → s.RingsLawful → s.firstInLine a.cls = none →
    let pulls := s.settings.pullIn = 1 ∧ s.walker.lag = 0 ∧ s.walker.lead < 8 ∧
      s.walker.step = none ∧ s.walker.timerRunning = true
    let pulled := { s.walker with
      lead := s.walker.lead + 1
      step := some { kind := .pulledIn, next := ⟨32 * s.walker.groupPointer.val, by omega⟩ } }
    let ring := s.ring a.cls
    let emptied := { s.granted .award pop.asks with
      rings := s.rings.set a.cls { ring with head := ring.tail } }
    (s.waiting.get a.cls = 0 → exec (.popVisit pop) s = .next
      { emptied with engine := .answer (.decline a.tag a.cls .noStation) }) ∧
    (0 < s.waiting.get a.cls → pulls → exec (.popVisit pop) s = .next
      { emptied with engine := .answer (.decline a.tag a.cls .noCredit), walker := pulled }) ∧
    (0 < s.waiting.get a.cls → ¬ pulls → exec (.popVisit pop) s = .next
      { emptied with engine := .answer (.decline a.tag a.cls .noCredit) })

/-- The first pop visit takes the first station in line: its class joins its in-flight set; the
lowest-numbered FREE entry is claimed with its generation advanced and the station its one held member;
and either a further member is sought, its allowance recorded, or member selection ends: the award is issued
with D and its deadline, or its issuing step is still to come (R51, R52, R69, R84, R87 to R89, R91). The
others keep their order in line. The head of the ring goes past the holes ahead and the slot of the station,
the occupancy falls by 1 for each, and each fall promotes the head of the overflow list to the tail, which
rises by 1 (R66, R74); the other classes stay. That the issue is part of the visit's event
unless the command defers it is the model's reading (log 10). -/
def Obligations.PopVisitTakesFirstInLine : Prop :=
  ∀ (s : State) (pop : PopOperands) (a : AskFields) (id : AwardId) (h : Handle), s.resetLow = false →
    s.engine = .askFirst a → s.grants .award pop.asks = true → s.RingsLawful →
    s.firstInLine a.cls = some h → (s.entry id).award = none →
    (∀ lower : AwardId, lower < id → (s.entry lower).award ≠ none) →
    let r := s.station h
    let most := max 1 (min a.maximum 8)
    let allowed : Int := r.credit + r.profile.borrow
    let d := (min (min (max 32 (min a.txop 16383) : Nat) (16383 : Nat) : Int) allowed).toNat
    let generation := (s.entry id).generation + 1
    let deadline := s.timebase + BitVec.ofNat 32 s.settings.awardTimeout
    let claimed := fun (issue : Option Issue) => s.awards.set id.val
      { generation := generation
        award := some { askTag := a.tag, cls := a.cls, issue := issue, members := [⟨h, true⟩] } }
    let popped := { s.granted .award pop.asks with
      stations := s.stations.set h.val { r with inFlight := r.inFlight.set a.cls true } }
    ∃ t, exec (.popVisit pop) s = .next t ∧ (t.station h).ringSlot.get a.cls = none ∧
      (∀ line, s.InLine a.cls line → ∃ rest, line = h :: rest ∧ t.InLine a.cls rest) ∧
      s.HeadAdvances t a.cls ((s.ring a.cls).holesAhead + 1) ∧
      (∀ c, c ≠ a.cls → t.ring c = s.ring c ∧ t.overflowList c = s.overflowList c ∧
        ∀ k, (t.station k).ringSlot.get c = (s.station k).ringSlot.get c ∧
          (t.station k).overflow.get c = (s.station k).overflow.get c) ∧
      t.waiting = s.waiting ∧ t.flags = s.flags ∧
      (1 < most ∧ a.multiUser = true ∧ r.descriptor.multiUser = true →
        t.beyondRings = State.beyondRings
          { popped with awards := claimed none, engine := .askMore a id [allowed] }) ∧
      (¬ (1 < most ∧ a.multiUser = true ∧ r.descriptor.multiUser = true) →
        (pop.defers = false → t.beyondRings = State.beyondRings
          { popped with
            awards := claimed (some ⟨d, deadline⟩)
            engine := .answer (.award a.tag id generation a.cls d [h]) }) ∧
        (pop.defers = true → t.beyondRings = State.beyondRings
          { popped with awards := claimed none, engine := .issuing a id [allowed] }))

/-- A conditional pop visit takes the first station in line when it is multi-user capable and appends it
as a held member; at the maximum, with no station in line, or before a station that is not capable,
which keeps its place, member selection ends: the award is issued, or its issuing step is still to come (R70,
R88, R89, R91). The stations that stay keep their order in line. The head of the ring goes past the holes
ahead, and past the slot of a station it pops, with the promotions of any pop (R66, R69, R74). The award's
duration is the smallest of the txop taken into 32..16383, the recorded allowances and 16383 (R52). That the
issue is part of the visit's event unless the command defers it is the model's reading (log 10). -/
def Obligations.ConditionalPopVisitSeeksMember : Prop :=
  (∀ (s : State) (pop : PopOperands) (a : AskFields) (id : AwardId) (allowances : List Int)
    (w : OpenAward), s.resetLow = false → s.engine = .askMore a id allowances →
    s.grants .award pop.asks = true → s.RingsLawful → (s.entry id).award = some w →
    let most := max 1 (min a.maximum 8)
    let deadline := s.timebase + BitVec.ofNat 32 s.settings.awardTimeout
    let ended := fun (w : OpenAward) (allowances : List Int) =>
      if pop.defers then (w, EngineItem.issuing a id allowances)
      else
        ({ w with issue := some ⟨awardDuration a.txop allowances, deadline⟩ },
          .answer (.award w.askTag id (s.entry id).generation w.cls
            (awardDuration a.txop allowances) (w.members.map (·.handle))))
    let stopped := { s.granted .award pop.asks with
      awards := s.awards.set id.val { s.entry id with award := some (ended w allowances).1 }
      engine := (ended w allowances).2 }
    ∃ t, exec (.conditionalPopVisit pop) s = .next t ∧
      (∀ c, c ≠ a.cls → t.ring c = s.ring c ∧ t.overflowList c = s.overflowList c ∧
        ∀ k, (t.station k).ringSlot.get c = (s.station k).ringSlot.get c ∧
          (t.station k).overflow.get c = (s.station k).overflow.get c) ∧
      t.waiting = s.waiting ∧ t.flags = s.flags ∧
      (s.firstInLine a.cls = none → t.beyondRings = stopped.beyondRings ∧
        s.HeadAdvances t a.cls (s.ring a.cls).holesAhead ∧ (t.ring a.cls).occupancy = 0) ∧
      ∀ h, s.firstInLine a.cls = some h →
        ((s.station h).descriptor.multiUser = false → t.beyondRings = stopped.beyondRings ∧
          s.HeadAdvances t a.cls (s.ring a.cls).holesAhead ∧
          (t.station h).ringSlot.get a.cls = some (t.ring a.cls).head ∧
          ∀ line, s.InLine a.cls line → t.InLine a.cls line) ∧
        ((s.station h).descriptor.multiUser = true →
          let r := s.station h
          let joined : OpenAward := { w with members := w.members ++ [⟨h, true⟩] }
          let more := allowances ++ [r.credit + (r.profile.borrow : Int)]
          let popped := { s.granted .award pop.asks with
            stations := s.stations.set h.val { r with inFlight := r.inFlight.set a.cls true } }
          (t.station h).ringSlot.get a.cls = none ∧
          s.HeadAdvances t a.cls ((s.ring a.cls).holesAhead + 1) ∧
          (∀ line, s.InLine a.cls line → ∃ rest, line = h :: rest ∧ t.InLine a.cls rest) ∧
          (allowances.length + 1 < most → t.beyondRings = State.beyondRings
            { popped with
              awards := s.awards.set id.val { s.entry id with award := some joined }
              engine := .askMore a id more }) ∧
          (most ≤ allowances.length + 1 → t.beyondRings = State.beyondRings
            { popped with
              awards := s.awards.set id.val { s.entry id with award := some (ended joined more).1 }
              engine := (ended joined more).2 }))) ∧
  ∀ (txop : Nat) (allowances : List Int), (∀ x ∈ allowances, 1 ≤ x) →
    let d : Int := awardDuration txop allowances
    1 ≤ d ∧ d ≤ 16383 ∧ d ≤ max 32 (txop : Int) ∧ (∀ x ∈ allowances, d ≤ x) ∧
      (d = 16383 ∨ d = max 32 (txop : Int) ∨ d ∈ allowances)

/-- A DONE is late when its entry is FREE or holds another generation, malformed when its member count
differs from the award's or an outcome code is not assigned, and else accepted with its members matched by
position; a late or malformed one is dropped with its counter and flag raised and nothing else changed (R92,
R93, R94). That this holds too of a DONE taken after a TABLE_CLEAR has begun and before its release, whose
entry is still OPEN, is the model's reading (log 26). -/
def Obligations.DoneIsJudged : Prop :=
  ∀ (s : State) (id : AwardId) (generation : BitVec 4) (airtime : Nat) (entries : List DoneEntry)
    (rest : List InMessage), s.resetLow = false → s.linkUp = true → s.engine = .idle →
    s.inbound = .done id generation airtime entries :: rest →
    ((s.entry id).award = none ∨ (s.entry id).generation ≠ generation →
      exec .done s = .next
        { s with
          inbound := rest, flags := { s.flags with late := true }
          counters := { s.counters with late := min (s.counters.late + 1) 65535 } }) ∧
    ∀ w, (s.entry id).award = some w → (s.entry id).generation = generation →
      (entries.length ≠ w.members.length ∨ (∃ e ∈ entries, e.outcome = .unassigned) →
        exec .done s = .next
          { s with
            inbound := rest, flags := { s.flags with malformed := true }
            counters := { s.counters with malformed := min (s.counters.malformed + 1) 65535 } }) ∧
      (entries.length = w.members.length → (∀ e ∈ entries, e.outcome ≠ .unassigned) →
        exec .done s = .next
          { s with
            inbound := rest
            engine := .done id airtime (List.zipWith (fun m e => ⟨m.handle, e⟩) w.members entries) })

/-- The member visit of a DONE: the debit of portion, overhead and cost shift, saturated at 65535, is
subtracted from credit and floored; usage rises by the portion; the class leaves flight; an ACTIVE member
takes its still-backlogged bit and its idle countdown is loaded; the fail streak is updated, and an ACTIVE
member that reaches FAIL_LIMIT becomes DORMANT with no backlog; a DRAINING member with nothing left in
flight becomes COOLING; and the member is released (R53 to R56, R95, R96, R97, R179). -/
def Obligations.DoneMemberVisitCharges : Prop :=
  ∀ (s : State) (asks : PortAsks) (id : AwardId) (airtime : Nat) (m : DoneWork) (rest : List DoneWork)
    (w : OpenAward), s.resetLow = false → s.engine = .done id airtime (m :: rest) →
    s.grants .award asks = true → (s.entry id).award = some w →
    let r := s.station m.handle
    let k := r.profile.costShift
    let share := if w.members.length = 1 then 16 else max 1 (min m.entry.share 16)
    let portion := (airtime * share + 15) / 16
    let base := portion + s.settings.overhead.get w.cls
    let raw := if 0 ≤ k then base * 2 ^ k.toNat else base / 2 ^ (-k).toNat
    let debit := min raw 65535
    let inFlight := r.inFlight.set w.cls false
    let streak := if m.entry.outcome = TxOutcome.failed then min (r.failStreak + 1) 15 else 0
    let dormant := decide (r.state = StationState.active ∧ m.entry.outcome = TxOutcome.failed ∧
      s.settings.failLimit ≤ streak)
    let cooling := decide (r.state = StationState.draining ∧ inFlight = ClassSet.none)
    ∃ t, exec (.doneMemberVisit asks) s = .next t ∧
      t.beyondRings = State.beyondRings
        { (s.granted .award asks).releaseMember id m.handle with
          engine := if rest = [] then .idle else .done id airtime rest
          flags := { s.flags with
            debitSat := s.flags.debitSat || decide (65535 < raw)
            floor := s.flags.floor || decide (r.credit - debit < -524288)
            unreachable := s.flags.unreachable || dormant }
          stations := s.stations.set m.handle.val
            { r with
              credit := max (r.credit - debit) (-524288), usage := min (r.usage + portion) 65535
              inFlight := inFlight, failStreak := streak
              backlog :=
                if dormant then ClassSet.none
                else if r.state = StationState.active then r.backlog.set w.cls m.entry.backlogged else r.backlog
              idleCountdown := if r.state = StationState.active then s.settings.idleLimit else r.idleCountdown
              state := if dormant then .dormant else if cooling then .cooling else r.state
              coolCountdown := if cooling then s.settings.coolEpochs else r.coolCountdown } }

/-- A member released from an award is marked so in its place, and the entry becomes FREE, its
generation kept, when no member is held (R81, R84, R97). That the fields of a FREE entry are dropped is
the model's choice (log 15). -/
def Obligations.ReleasedMemberLeavesAward : Prop :=
  ∀ (s : State) (id : AwardId) (h : Handle) (before after : List Member) (w : OpenAward),
    (s.entry id).award = some w → w.members = before ++ ⟨h, true⟩ :: after →
    (∀ m ∈ before, m ≠ ⟨h, true⟩) →
    s.releaseMember id h = { s with
      awards := s.awards.set id.val
        { s.entry id with
          award :=
            if (before ++ after).any (·.held) then
              some { w with members := before ++ ⟨h, false⟩ :: after }
            else none } }

/-- A due expiry is taken: an award still OPEN under the generation named expires, its held members to be
visited; otherwise the expiry lapses (R98, R99, R100). An award whose deadline is the next event is expired
at its deadline: the command is the same command at that moment, time having gone on to it and the deadlines
reached having become due. That the command carries time forward is the model's choice (log 1). -/
def Obligations.DueExpiryIsTaken : Prop :=
  ∀ (s : State) (id : AwardId) (generation : BitVec 4), s.resetLow = false → s.engine = .idle →
    (⟨id, generation⟩ ∈ s.dueExpiries →
      (∀ w, (s.entry id).award = some w → (s.entry id).generation = generation →
        exec (.awardExpiry id generation) s = .next
          { s with
            dueExpiries := s.dueExpiries.erase ⟨id, generation⟩
            engine := .expiry id w.heldHandles }) ∧
      ((s.entry id).award = none ∨ (s.entry id).generation ≠ generation →
        exec (.awardExpiry id generation) s = .next
          { s with dueExpiries := s.dueExpiries.erase ⟨id, generation⟩ })) ∧
    ∀ w i, ⟨id, generation⟩ ∉ s.dueExpiries → (s.entry id).award = some w → w.issue = some i →
      (s.entry id).generation = generation → s.timebase ≠ i.deadline →
      (s.walker.timerRunning = true →
        (i.deadline - s.timebase).toNat ≤ (s.walker.nextExpiry - s.timebase).toNat) →
      let reached := s.pass (i.deadline - s.timebase).toNat
      reached.timebase = i.deadline ∧ ⟨id, generation⟩ ∈ reached.dueExpiries ∧
        exec (.awardExpiry id generation) s = exec (.awardExpiry id generation) reached ∧
        exec (.awardExpiry id generation) s = .next
          { reached with
            dueExpiries := reached.dueExpiries.erase ⟨id, generation⟩
            engine := .expiry id w.heldHandles } ∧
        reached.stations = s.stations ∧ reached.awards = s.awards ∧ reached.walker = s.walker ∧
        ∀ d ∈ s.dueExpiries, d ∈ reached.dueExpiries.erase ⟨id, generation⟩

/-- The member visit of an expiry charges D with the overhead and cost shift against credit, takes the
class out of flight and releases the member; usage, backlog, fail streak and idle countdown stay; a DRAINING
member with nothing left in flight becomes COOLING; the last member's visit counts EXPIRED (R57, R99). -/
def Obligations.ExpiryMemberVisitCharges : Prop :=
  ∀ (s : State) (asks : PortAsks) (id : AwardId) (h : Handle) (rest : List Handle) (w : OpenAward)
    (i : Issue), s.resetLow = false → s.engine = .expiry id (h :: rest) →
    s.grants .award asks = true → (s.entry id).award = some w → w.issue = some i →
    let r := s.station h
    let k := r.profile.costShift
    let base := i.duration + s.settings.overhead.get w.cls
    let raw := if 0 ≤ k then base * 2 ^ k.toNat else base / 2 ^ (-k).toNat
    let debit := min raw 65535
    let inFlight := r.inFlight.set w.cls false
    let cooling := decide (r.state = StationState.draining ∧ inFlight = ClassSet.none)
    ∃ t, exec (.expiryMemberVisit asks) s = .next t ∧
      t.beyondRings = State.beyondRings
        { (s.granted .award asks).releaseMember id h with
          engine := if rest = [] then .idle else .expiry id rest
          flags := { s.flags with
            debitSat := s.flags.debitSat || decide (65535 < raw)
            floor := s.flags.floor || decide (r.credit - debit < -524288)
            expired := s.flags.expired || decide (rest = []) }
          counters := { s.counters with
            expired := if rest = [] then min (s.counters.expired + 1) 65535 else s.counters.expired }
          stations := s.stations.set h.val
            { r with
              credit := max (r.credit - debit) (-524288), inFlight := inFlight
              state := if cooling then .cooling else r.state
              coolCountdown := if cooling then s.settings.coolEpochs else r.coolCountdown } }

/-- The clear's release is taken when it is due: with no entry OPEN the record visits begin, else a release
visit is due for every held member (R101). A release visit takes the class out of the member's in-flight set
and releases the member, without a charge; in a link restart it also empties the backlog of an ACTIVE
member; a DRAINING member with nothing left in flight becomes COOLING; after the last member the clear's
record visits or the restart's second part follow (R101, R129). That the clear's release goes to its members
in the order that R129 gives for a link restart is the model's choice (log 25). -/
def Obligations.ReleaseVisitChargesNothing : Prop :=
  (∀ s : State, s.resetLow = false → s.engine = .idle → s.releaseDue = true →
    s.executing = .clearRelease →
    (s.openMembers = [] → exec .tableClearRelease s = .next
      { s with releaseDue := false, executing := .clearRecords 0 }) ∧
    (s.openMembers ≠ [] → exec .tableClearRelease s = .next
      { s with releaseDue := false, engine := .clearRelease s.openMembers })) ∧
  ∀ (s : State) (asks : PortAsks) (m : ReleaseWork) (rest : List ReleaseWork) (w : OpenAward),
    s.resetLow = false → s.grants .award asks = true → (s.entry m.id).award = some w →
    let r := s.station m.handle
    let inFlight := r.inFlight.set w.cls false
    let cooling := decide (r.state = StationState.draining ∧ inFlight = ClassSet.none)
    let released := fun (backlog : ClassSet) =>
      { (s.granted .award asks).releaseMember m.id m.handle with
        stations := s.stations.set m.handle.val
          { r with
            inFlight := inFlight, backlog := backlog
            state := if cooling then .cooling else r.state
            coolCountdown := if cooling then s.settings.coolEpochs else r.coolCountdown } }
    (s.engine = .clearRelease (m :: rest) → s.executing = .clearRelease →
      ∃ t, exec (.releaseVisit asks) s = .next t ∧
        t.beyondRings = State.beyondRings
          { released r.backlog with
            engine := if rest = [] then .idle else .clearRelease rest
            executing := if rest = [] then .clearRecords 0 else .clearRelease }) ∧
    ∀ tag, s.engine = .restartRelease tag (m :: rest) →
      ∃ t, exec (.releaseVisit asks) s = .next t ∧
        t.beyondRings = State.beyondRings
          { released (if r.state = StationState.active then ClassSet.none else r.backlog) with
            engine := if rest = [] then .restartBacklog tag 0 else .restartRelease tag rest }

/-! ### The walker -/

/-- An expiry of the step timer lowers the lead, or raises the lag and begins an owed step where none is in
progress, or forfeits; the next expiry is set STEP_INTERVAL after it (R106, R107). Here no award's deadline
lies before the expiry, so nothing else becomes due as time goes on to it (log 1). -/
def Obligations.StepTimerExpiryCountsStep : Prop :=
  ∀ s : State, s.resetLow = false → s.walker.timerRunning = true → s.walker.Lawful →
    s.timebase = s.walker.nextExpiry →
    let w := { s.walker with
      nextExpiry := s.walker.nextExpiry + BitVec.ofNat 32 s.settings.stepInterval }
    (0 < s.walker.lead → exec .stepTimerExpiry s = .next
      { s with walker := { w with lead := s.walker.lead - 1 } }) ∧
    (s.walker.lead = 0 → s.walker.lag < 8 → s.walker.step ≠ none → exec .stepTimerExpiry s = .next
      { s with walker := { w with lag := s.walker.lag + 1 } }) ∧
    (s.walker.lead = 0 → s.walker.lag < 8 → s.walker.step = none → exec .stepTimerExpiry s = .next
      { s with walker := { w with
          lag := s.walker.lag + 1
          step := some { kind := .owed, next := ⟨32 * s.walker.groupPointer.val, by omega⟩ } } }) ∧
    (s.walker.lead = 0 → s.walker.lag = 8 → exec .stepTimerExpiry s = .next
      { s with
        walker := w
        flags := { s.flags with forfeit := true }
        counters := { s.counters with forfeit := min (s.counters.forfeit + 1) 65535 } })

/-- The four parts of a walker visit, by the state found: the average and usage of an ACTIVE, DORMANT or
DRAINING record; the replenishment of an ACTIVE record of a group not held, cut by the soft-cap penalty and
held under the ceiling; the idle countdown of an ACTIVE record, which makes it DORMANT at 0; and the cooling
countdown. A FREE or FORMING record is passed over (R45 to R47, R49, R116 to R119). The cleared value of a
descriptor's flags is the model's choice (log 27). -/
def Obligations.WalkerVisitWorksRecord : Prop :=
  ∀ (s : State) (asks : PortAsks) (p : WalkerStep), s.resetLow = false → s.walker.step = some p →
    s.grants .walker asks = true →
    let r := s.station p.next
    let t := s.settings
    let average := ((r.average : Int) + ((r.usage : Int) - (r.average : Int)) / 2 ^ t.avgShift).toNat
    let full := t.quantum * r.profile.weight / 16
    let amount := if 0 < r.profile.softCap ∧ r.profile.softCap < average then
      full / 2 ^ t.penaltyShift else full
    let held := t.holdMask.getLsbD (p.next.val / 32)
    let credit := if held = false ∧ r.credit < r.profile.ceiling then
      min (r.credit + amount) r.profile.ceiling else r.credit
    let idle := decide (r.backlog = ClassSet.none ∧ r.inFlight = ClassSet.none)
    let walked : StationRecord := { r with
      average := average, usage := 0, credit := credit
      idleCountdown := if idle then r.idleCountdown - 1 else t.idleLimit
      state := if idle && decide (r.idleCountdown ≤ 1) then .dormant else .active }
    let before := { s.granted .walker asks with walker := s.walker.advance p }
    (r.state = .free ∨ r.state = .forming → exec (.walkerVisit asks) s = .next before) ∧
    (r.state = .active →
      ∃ u, exec (.walkerVisit asks) s = .next u ∧ u.beyondRings = State.beyondRings
        { before with stations := s.stations.set p.next.val walked }) ∧
    (r.state = .dormant ∨ r.state = .draining →
      exec (.walkerVisit asks) s = .next
        { before with stations := s.stations.set p.next.val { r with average := average, usage := 0 } }) ∧
    (r.state = .cooling → 1 < r.coolCountdown →
      exec (.walkerVisit asks) s = .next
        { before with
          stations := s.stations.set p.next.val { r with coolCountdown := r.coolCountdown - 1 } }) ∧
    (r.state = .cooling → r.coolCountdown ≤ 1 → s.freeTail = none →
      exec (.walkerVisit asks) s = .next
        { before with
          stations := s.stations.set p.next.val StationRecord.cleared
          freeHead := some p.next, freeTail := some p.next }) ∧
    (∀ tail, r.state = .cooling → r.coolCountdown ≤ 1 → s.freeTail = some tail → tail ≠ p.next →
      exec (.walkerVisit asks) s = .next
        { before with
          stations := (s.stations.set p.next.val StationRecord.cleared).set tail.val
            { s.station tail with nextFree := some p.next }
          freeTail := some p.next })

/-- A step visits the 32 handles of its group in ascending order and ends with the last: an owed step
lowers the lag, the group pointer advances and the epoch rises as it wraps, and the next owed step begins
when the lag is still above 0 (R109, R110, R111). -/
def Obligations.StepVisitsItsGroupAndEnds : Prop :=
  ∀ (s u : State) (asks : PortAsks) (p : WalkerStep), s.resetLow = false → s.walker.step = some p →
    s.grants .walker asks = true → s.walker.Lawful → exec (.walkerVisit asks) s = .next u →
    (p.next.val % 32 < 31 → ∃ next : Handle, next.val = p.next.val + 1 ∧
      u.walker = { s.walker with step := some { p with next := next } }) ∧
    (p.next.val % 32 = 31 →
      let lag := if p.kind = .owed then s.walker.lag - 1 else s.walker.lag
      let pointer := s.walker.groupPointer + 1
      u.walker = { s.walker with
        lag := lag, groupPointer := pointer
        epoch := if s.walker.groupPointer = 15 then s.walker.epoch + 1 else s.walker.epoch
        step := if 0 < lag then
          some { kind := .owed, next := ⟨32 * pointer.val, by omega⟩ } else none })

/-! ### The table port -/

/-- The arbiter grants an urgent walker first, then the Award Engine, then the Request Processor, then
the walker; a visit that is due and not granted, of whichever of the nineteen kinds, keeps waiting and
nothing else changes (R16, R17). A visit of the Award Engine or the Request Processor waits when it is due
and has been asked for, by the command or before it; the walker's waits whenever a step is in progress
(R109, R110). That the command says which visits have come is the model's choice (log 3). -/
def Obligations.ArbiterGrantsByPriority : Prop :=
  ∀ (s : State) (asks : PortAsks) (defers : Bool),
    let waits := fun r : Requester =>
      ({ award := s.engine.visit.isSome && (s.tablePort.award || asks.award || decide (r = .award))
         request := s.executing.visit.isSome &&
           (s.tablePort.request || asks.request || decide (r = .request)) } : PortAsks)
    (∀ r, s.visitDue r = true →
      (s.grants r asks = true ↔
        match r with
        | .walker => s.walker.lag = 8 ∨ (waits r).award = false ∧ (waits r).request = false
        | .award => ¬ (s.walker.step ≠ none ∧ s.walker.lag = 8)
        | .request => ¬ (s.walker.step ≠ none ∧ s.walker.lag = 8) ∧ (waits r).award = false)) ∧
    (s.resetLow = false →
      (∀ k ∈ ([(.pop, .popVisit ⟨asks, defers⟩), (.conditionalPop, .conditionalPopVisit ⟨asks, defers⟩),
          (.doneMember, .doneMemberVisit asks), (.expiryMember, .expiryMemberVisit asks),
          (.release, .releaseVisit asks), (.backlogEntry, .backlogEntryVisit asks),
          (.uplink, .uplinkVisit asks), (.restartBacklog, .linkRestartBacklogVisit asks)] :
            List (EngineVisit × Instr)),
        s.engine.visit = some k.1 → s.grants .award asks = false →
        exec k.2 s = .next { s with tablePort := waits .award }) ∧
      (∀ k ∈ ([(.allocation, .admitAllocationVisit asks), (.completion, .admitCompletionVisit asks),
          (.amend, .amendVisit asks), (.reapplyRead, .reapplyReadVisit asks),
          (.reapplyApply, .reapplyApplyVisit asks), (.retire, .retireVisit asks),
          (.probe, .findProbeVisit asks), (.query, .queryVisit asks), (.scan, .listScanVisit asks),
          (.clearRecord, .tableClearRecordVisit asks)] : List (RequestVisit × Instr)),
        s.executing.visit = some k.1 → s.grants .request asks = false →
        exec k.2 s = .next { s with tablePort := waits .request }) ∧
      (s.walker.step ≠ none → s.grants .walker asks = false →
        exec (.walkerVisit asks) s = .next { s with tablePort := waits .walker }))

/-! ### Rings and overflow lists -/

/-- A station is eligible in a class when it is ACTIVE, has the class in its profile and its backlog, is not
in flight in it and has credit above 0, and waiting with credit of 0 or less (R63). Whichever visit makes a
station eligible (a BACKLOG entry's, an UPLINK's, a DONE's, an expiry's, a release's, an AMEND's, a
REAPPLY's, the walker's, …) inserts it at the end of the line: in a ring with room its handle is written at
the tail, which advances; behind a full ring it is appended to the overflow list and OVERFLOW is set (R65,
R67, R72). One that was eligible keeps its place. Each waiting count follows the station's change (R64). -/
def Obligations.EligibleStationIsInserted : Prop :=
  (∀ (r : StationRecord) (c : ServiceClass),
    let ready := r.state = .active ∧ r.profile.classes.get c = true ∧ r.backlog.get c = true ∧
      r.inFlight.get c = false
    (r.eligible c = true ↔ ready ∧ 0 < r.credit) ∧ (r.isWaiting c = true ↔ ready ∧ r.credit ≤ 0)) ∧
  ∀ (s : State) (v : Instr) (h : Handle), s.resetLow = false → s.RingsLawful → s.Reevaluates v h →
    ∃ t, exec v s = .next t ∧
      (∀ c, (s.station h).eligible c = true → (t.station h).eligible c = true →
        t.ring c = s.ring c ∧ t.overflowList c = s.overflowList c ∧
        (t.station h).ringSlot.get c = (s.station h).ringSlot.get c ∧
        (t.station h).overflow.get c = (s.station h).overflow.get c) ∧
      (∀ c, (s.station h).eligible c = false → (t.station h).eligible c = true →
        let ring := s.ring c
        let list := s.overflowList c
        (∀ line, s.InLine c line → t.InLine c (line ++ [h])) ∧
        ((ring.tail - ring.head).toNat < 255 →
          t.ring c = { ring with slots := ring.slots.set ring.tail.toFin.val (some h)
                                 tail := ring.tail + 1 } ∧
          (t.station h).ringSlot.get c = some ring.tail ∧ t.overflowList c = list) ∧
        ((ring.tail - ring.head).toNat = 255 →
          t.ring c = ring ∧
          t.overflowList c =
            { head := list.head.or (some h), tail := some h, length := list.length + 1 } ∧
          (t.station h).overflow.get c = some { prev := list.tail, next := none })) ∧
      (t.flags.overflow = true ↔ s.flags.overflow = true ∨
        ∃ c, (s.station h).eligible c = false ∧ (t.station h).eligible c = true ∧
          ((s.ring c).tail - (s.ring c).head).toNat = 255) ∧
      ∀ c, t.waiting.get c + (if (s.station h).isWaiting c then 1 else 0) =
        s.waiting.get c + (if (t.station h).isWaiting c then 1 else 0)

/-- Whichever visit makes a station ineligible in a class takes its place (R65): a ring slot becomes a hole,
the occupancy unchanged, and an overflow place is unlinked, the others keeping their order in line (R68,
R73). A station that held no place leaves the ring and the list as they are. -/
def Obligations.IneligibleStationGivesUpPlace : Prop :=
  ∀ (s : State) (v : Instr) (h : Handle), s.resetLow = false → s.RingsLawful → s.Reevaluates v h →
    ∃ t, exec v s = .next t ∧ ∀ c, (t.station h).eligible c = false →
      (t.station h).ringSlot.get c = none ∧ (t.station h).overflow.get c = none ∧
      (∀ line, s.InLine c line → t.InLine c (line.erase h)) ∧
      (∀ i, (s.station h).ringSlot.get c = some i →
        t.ring c = { s.ring c with slots := (s.ring c).slots.set i.toFin.val none } ∧
        t.overflowList c = s.overflowList c) ∧
      (∀ p, (s.station h).overflow.get c = some p →
        t.ring c = s.ring c ∧
        t.overflowList c =
          { head := if p.prev = none then p.next else (s.overflowList c).head
            tail := if p.next = none then p.prev else (s.overflowList c).tail
            length := (s.overflowList c).length - 1 }) ∧
      ((s.station h).ringSlot.get c = none → (s.station h).overflow.get c = none →
        t.ring c = s.ring c ∧ t.overflowList c = s.overflowList c)

/-! ### Arithmetic and policy -/

/-- Two debits on one record give the same credit in either order, the larger of credit less both and the
floor, and one of them floors exactly when credit less both is below the floor (R56, R61). -/
def Obligations.DebitsComposeInEitherOrder : Prop :=
  ∀ (credit : Int) (d1 d2 : Nat), -524288 ≤ credit →
    flooredCredit (flooredCredit credit d1) d2 = max (credit - d1 - d2) (-524288) ∧
    flooredCredit (flooredCredit credit d2) d1 = max (credit - d1 - d2) (-524288) ∧
    ((creditFloors credit d1 || creditFloors (flooredCredit credit d1) d2) = true ↔
      credit - d1 - d2 < -524288) ∧
    ((creditFloors credit d2 || creditFloors (flooredCredit credit d2) d1) = true ↔
      credit - d1 - d2 < -524288)

/-- The range field: bit i is 1 exactly when checker i is not OFF, its low bound does not exceed its high
bound as the select reads them, and the selected descriptor field lies within them (R29). The key of each of
the four kinds carries its fields at their places, every other bit 0 (R30, R175). -/
def Obligations.RangeFieldAndKeysAreBuilt : Prop :=
  (∀ (checkers : Vector Checker 4) (d : Descriptor) (i : Fin 4),
    let k := checkers[i.val]
    (rangeField checkers d).getLsbD i.val =
      match k.select with
      | .off => false
      | .signal => decide (k.low.toInt ≤ k.high.toInt ∧ k.low.toInt ≤ d.signal ∧ d.signal ≤ k.high.toInt)
      | .rate => decide (k.low.toNat ≤ k.high.toNat ∧ k.low.toNat ≤ d.topRate ∧ d.topRate ≤ k.high.toNat)
      | .tag =>
        decide (k.low.toNat ≤ k.high.toNat ∧ k.low.toNat ≤ d.deviceTag ∧ d.deviceTag ≤ k.high.toNat)
      | .streams =>
        decide (k.low.toNat ≤ k.high.toNat ∧ k.low.toNat ≤ d.streams ∧ d.streams ≤ k.high.toNat)) ∧
  ∀ (d : Descriptor) (range : BitVec 4) (chain : Nat) (stage : Fin 4),
    let address := buildKey .address d range chain stage
    let capability := buildKey .capability d range chain stage
    let tag := buildKey .tag d range chain stage
    let chained := buildKey .chain d range chain stage
    (address.extractLsb' 24 24 = d.linkAddress.extractLsb' 24 24 ∧
      address.extractLsb' 16 8 = BitVec.ofNat 8 d.deviceTag ∧ address.extractLsb' 4 12 = 0 ∧
      address.extractLsb' 0 4 = range) ∧
    (capability.extractLsb' 46 2 = BitVec.ofNat 2 d.band ∧
      capability.extractLsb' 43 3 = BitVec.ofNat 3 d.streams ∧
      capability.extractLsb' 38 5 = BitVec.ofNat 5 d.topRate ∧
      capability.getLsbD 37 = d.legacy ∧ capability.getLsbD 36 = d.multiUser ∧
      capability.getLsbD 35 = d.requested.sc3 ∧ capability.getLsbD 34 = d.requested.sc2 ∧
      capability.getLsbD 33 = d.requested.sc1 ∧ capability.getLsbD 32 = d.requested.sc0 ∧
      capability.extractLsb' 28 4 = range ∧ capability.extractLsb' 20 8 = BitVec.ofNat 8 d.deviceTag ∧
      capability.extractLsb' 0 20 = 0) ∧
    (tag.extractLsb' 40 8 = BitVec.ofNat 8 d.deviceTag ∧ tag.extractLsb' 32 8 = BitVec.ofNat 8 chain ∧
      tag.extractLsb' 28 4 = range ∧ tag.extractLsb' 26 2 = BitVec.ofNat 2 d.band ∧
      tag.extractLsb' 0 26 = 0) ∧
    chained.extractLsb' 40 8 = BitVec.ofNat 8 chain ∧
      chained.extractLsb' 38 2 = BitVec.ofNat 2 stage.val ∧ chained.extractLsb' 36 2 = 0 ∧
      chained.extractLsb' 32 4 = range ∧ chained.extractLsb' 0 32 = 0

/-- The selected rule of a stage is the lowest-numbered of 0..59 that is valid, has the kind, has the stage
in its set and agrees with the key under its mask; with none, it is rule 60 + n (R25, R32). Its action is
merged into the working profile (R33); the chain index is kept, set or added to, an addition past 255 leaving
it and raising CHAIN_RANGE (R34); the trace grows by the stage and the rule (R35); and DENY and ACCEPT end
the classification, as CONTINUE does in stage 3, while in a lower stage the next one runs with the next
kind (R36). A classification begins with the default profile, chain index 0, an empty trace and FIRST_KIND
(R31), and ends with the class check (R37). -/
def Obligations.StageAppliesSelectedRule : Prop :=
  (∀ (rules : Vector PolicyRule 64) (kind : KeyKind) (stage : Fin 4) (key : BitVec 48),
    let agrees := fun i : Fin 64 => i.val < 60 ∧ (rules[i.val]).valid = true ∧
      (rules[i.val]).kind = kind ∧ (rules[i.val]).stages.getLsbD stage.val = true ∧
      (key ^^^ (rules[i.val]).value) &&& (rules[i.val]).mask = 0
    (∀ i, agrees i → (∀ j, j < i → ¬ agrees j) → selectRule rules kind stage key = i) ∧
    ((∀ i, ¬ agrees i) → (selectRule rules kind stage key).val = 60 + stage.val)) ∧
  (∀ (p : ClassPolicy) (d : Descriptor) (left : Nat) (stage : Fin 4) (kind : KeyKind) (w : ClassWork),
    stage.val + left = 3 →
    let i := selectRule p.rules kind stage
      (buildKey kind d (rangeField p.checkers d) w.chain stage)
    let a := (p.rules[i.val]).action
    let after : ClassWork :=
      { profile :=
          { weight := if a.writes.weight then a.values.weight else w.profile.weight
            classes := if a.writes.classes then a.values.classes else w.profile.classes
            ceiling := if a.writes.ceiling then a.values.ceiling else w.profile.ceiling
            borrow := if a.writes.borrow then a.values.borrow else w.profile.borrow
            costShift := if a.writes.costShift then a.values.costShift else w.profile.costShift
            uplinkEighths :=
              if a.writes.uplinkEighths then a.values.uplinkEighths else w.profile.uplinkEighths
            softCap := if a.writes.softCap then a.values.softCap else w.profile.softCap }
        chain :=
          match a.chainControl with
          | .keep => w.chain
          | .set => a.chainValue
          | .add => if w.chain + a.chainValue ≤ 255 then w.chain + a.chainValue else w.chain
        trace := w.trace ++ [⟨stage, i⟩]
        chainRange := w.chainRange ||
          decide (a.chainControl = .add ∧ 255 < w.chain + a.chainValue) }
    (a.verdict = .deny → runStages p d left stage kind w = (after, false)) ∧
    (a.verdict = .accept → runStages p d left stage kind w = (after, true)) ∧
    (a.verdict = .goOn → stage = 3 → runStages p d left stage kind w = (after, true)) ∧
    ∀ n, a.verdict = .goOn → left = n + 1 →
      runStages p d left stage kind w = runStages p d n (stage + 1) a.nextKind after) ∧
  (∀ (p : ClassPolicy) (d : Descriptor),
    let ran := runStages p d 3 0 p.firstKind
      { profile := p.defaultProfile, chain := 0, trace := [], chainRange := false }
    let work := ran.1
    let both : ClassSet :=
      { sc0 := work.profile.classes.sc0 && d.requested.sc0
        sc1 := work.profile.classes.sc1 && d.requested.sc1
        sc2 := work.profile.classes.sc2 && d.requested.sc2
        sc3 := work.profile.classes.sc3 && d.requested.sc3 }
    (classify p d).2 = work.chainRange ∧ (classify p d).1.trace = work.trace ∧
    (ran.2 = false → (classify p d).1.outcome = .denied) ∧
    (ran.2 = true → both = ClassSet.none → (classify p d).1.outcome = .noClass) ∧
    (ran.2 = true → both ≠ ClassSet.none → (classify p d).1 =
      { outcome := .accept, profile := { work.profile with classes := both }, trace := work.trace })) ∧
  ∀ s : State, s.classPolicy =
    { rules := s.rules, checkers := s.settings.checkers
      defaultProfile := s.settings.defaultProfile, firstKind := s.settings.firstKind }

/-- What a classification hands on: a trace of 1 to 4 entries with the stages 0, 1, … in order; after an
accepted one, classes that the descriptor requests, one at least; and a descriptor that requests no class is
never accepted (R35, R37). -/
def Obligations.ClassificationIsOrdered : Prop :=
  ∀ (p : ClassPolicy) (d : Descriptor),
    let c := (classify p d).1
    1 ≤ c.trace.length ∧ c.trace.length ≤ 4 ∧
    c.trace.map (·.stage.val) = List.range c.trace.length ∧
    (c.outcome = .accept → c.profile.classes ≠ ClassSet.none ∧
      ∀ x, c.profile.classes.get x = true → d.requested.get x = true) ∧
    (d.requested = ClassSet.none → c.outcome ≠ .accept)

/-! ### What every step keeps -/

/-- Every step keeps the laws of the walker: lag and lead within 0..8, at most one above 0, the step within
its group, an owed step only with the lag above 0 (R108, R109, R112). -/
def Obligations.WalkerLawsAreKept : Prop :=
  ∀ s t : State, s.walker.Lawful → step s = .next t → t.walker.Lawful

/-- Every step keeps the queues within their depths, and a request executes only with room for its response
(R126, R135, R139, R141, R142). -/
def Obligations.QueueLawsAreKept : Prop :=
  ∀ s t : State, s.QueuesLawful → step s = .next t → t.QueuesLawful

/-- Every step keeps every record's credit, usage, average and profile within their ranges, the weight
within 1..64 in every record that carries a profile (R1, R4, R44). -/
def Obligations.AccountLawsAreKept : Prop :=
  ∀ s t : State, s.AccountsLawful → step s = .next t → t.AccountsLawful

/-- Every step keeps the laws of rings and overflow lists, given those of the free list: a station is
eligible exactly when it holds one place, slots and lists agree with the records, a list stands behind a
full ring only, and the waiting counts are right (R64, R65, R66, R71, R74). -/
def Obligations.RingLawsAreKept : Prop :=
  ∀ s t : State, s.FreeListLawful → s.RingsLawful → step s = .next t → t.RingsLawful

/-- Every step keeps the free list: each FREE record once and no other, from its head to its tail (R11,
R22). That a record which is not FREE has no next-free link is the model's choice (log 28). -/
def Obligations.FreeListLawsAreKept : Prop :=
  ∀ s t : State, s.FreeListLawful → step s = .next t → t.FreeListLawful

/-- Every step keeps the address index, given the laws of the free list: each bucket's chain holds the
ACTIVE and DORMANT records of its addresses, each once, and no two of them carry one address (R12, R13,
R14). -/
def Obligations.IndexLawsAreKept : Prop :=
  ∀ s t : State, s.FreeListLawful → s.IndexLawful → step s = .next t → t.IndexLawful

/-- Every step keeps the Award Table's law, given those of the rings and of the free list: a station is in
flight in a class exactly when it is a held member of one OPEN award of the class (R81, R83, R101). -/
def Obligations.AwardLawsAreKept : Prop :=
  ∀ s t : State, s.FreeListLawful → s.RingsLawful → s.AwardsLawful → step s = .next t →
    t.AwardsLawful

/-- The machine after reset has every one of these laws. That a record which is not FREE has no next-free link,
a clause of the free list's law, is the model's choice (log 28). -/
def Obligations.ResetHasEveryLaw : Prop :=
  State.reset.walker.Lawful ∧ State.reset.QueuesLawful ∧ State.reset.AccountsLawful ∧
    State.reset.RingsLawful ∧ State.reset.FreeListLawful ∧ State.reset.IndexLawful ∧
    State.reset.AwardsLawful
end

