-- ==== Sys2Proof/Laws/Arithmetic.lean ====
section
/-!
SUPPORT. The arithmetic of the accounts (chapter 3), each function said once, and the ranges of R4 and R44
kept by what writes a profile or an account.
-/

namespace Sys2Proof.Machine

/-! ### Clamping -/

theorem le_clampNat (lo hi n : Nat) : lo ≤ clampNat n lo hi := by
  unfold clampNat; omega

theorem clampNat_le {lo hi : Nat} (n : Nat) (fit : lo ≤ hi) : clampNat n lo hi ≤ hi := by
  unfold clampNat; omega

theorem le_clampInt (lo hi n : Int) : lo ≤ clampInt n lo hi := by
  unfold clampInt; omega

theorem clampInt_le {lo hi : Int} (n : Int) (fit : lo ≤ hi) : clampInt n lo hi ≤ hi := by
  unfold clampInt; omega

/-! ### Accounts (R44 to R58) -/

/-- A debit lowers credit, to the floor at the lowest (R56). -/
theorem flooredCredit_eq (credit : Int) (debit : Nat) :
    flooredCredit credit debit = max (credit - debit) (-524288) := rfl

theorem flooredCredit_bounds {credit : Int} (top : credit ≤ 524287) (debit : Nat) :
    -524288 ≤ flooredCredit credit debit ∧ flooredCredit credit debit ≤ 524287 := by
  rw [flooredCredit_eq]; omega

theorem creditFloors_iff (credit : Int) (debit : Nat) :
    creditFloors credit debit = true ↔ credit - debit < -524288 := by
  unfold creditFloors
  exact decide_eq_true_iff

theorem debitSaturates_iff (debit : Nat) : debitSaturates debit = true ↔ 65535 < debit := by
  unfold debitSaturates
  exact decide_eq_true_iff

/-- Two debits give the same credit in either order (R61). -/
theorem flooredCredit_twice (credit : Int) (d1 d2 : Nat) :
    flooredCredit (flooredCredit credit d1) d2 = max (credit - d1 - d2) (-524288) := by
  simp only [flooredCredit_eq]; omega

/-- A payment raises credit below the ceiling, to the ceiling at the highest (R47). -/
theorem paid_bounds {credit : Int} {ceiling : Nat} (amount : Nat) (least : -524288 ≤ credit)
    (top : credit ≤ 524287) (cap : ceiling ≤ 65535) :
    -524288 ≤ paid credit ceiling amount ∧ paid credit ceiling amount ≤ 524287 := by
  unfold paid
  split <;> omega

theorem initialCredit_bounds {p : Profile} (law : p.Bounded) (quantum : Nat) :
    0 ≤ initialCredit quantum p ∧ initialCredit quantum p ≤ 65535 := by
  have := law.ceiling
  unfold initialCredit
  omega

theorem raisedUsage_le (usage airtime : Nat) : raisedUsage usage airtime ≤ 65535 := by
  unfold raisedUsage Config.countLimit
  omega

/-- The average moves towards the usage and does not pass it (R49). -/
theorem newAverage_le {average usage : Nat} (a : average ≤ 65535) (u : usage ≤ 65535) (k : Nat) :
    newAverage average usage k ≤ 65535 := by
  unfold newAverage
  have pos : (0 : Int) < 2 ^ k := by positivity
  by_cases up : average ≤ usage
  · have : ((usage : Int) - average) / 2 ^ k ≤ (usage : Int) - average :=
      Int.ediv_le_self _ (by omega)
    omega
  · have : ((usage : Int) - average) / 2 ^ k ≤ 0 := by
      have := Int.ediv_le_ediv pos (show (usage : Int) - average ≤ 0 by omega)
      simpa using this
    omega

theorem debit_le (raw : Nat) : saturatedDebit raw ≤ 65535 := by
  unfold saturatedDebit Config.debitLimit
  omega

/-! ### Profiles (R4) -/

theorem Profile.Bounded.merge {old new : Profile} (o : old.Bounded) (n : new.Bounded) (w : WriteSet) :
    (old.merge w new).Bounded := by
  constructor <;> unfold Profile.merge <;> dsimp only <;> split
  all_goals first
    | exact n.weight | exact o.weight | exact n.ceiling | exact o.ceiling | exact n.borrow
    | exact o.borrow | exact n.costShift | exact o.costShift | exact n.uplinkEighths
    | exact o.uplinkEighths | exact n.softCap | exact o.softCap

/-- A merge that writes a weight of 1 at least keeps the weight so (R4, R33, R149). -/
theorem Profile.merge_weight {old new : Profile} {w : WriteSet} (o : 1 ≤ old.weight)
    (n : w.weight = true → 1 ≤ new.weight) : 1 ≤ (old.merge w new).weight := by
  unfold Profile.merge
  dsimp only
  split
  · next on => exact n on
  · exact o

theorem Profile.clamp_bounded (v : Profile) : v.clamp.Bounded ∧ 1 ≤ v.clamp.weight := by
  refine ⟨⟨clampNat_le _ (by decide), ?_, ?_, ⟨le_clampInt _ _ _, clampInt_le _ (by decide)⟩, ?_, ?_⟩,
    le_clampNat _ _ _⟩ <;> simp [Profile.clamp]

/-- The policy's rules and default profile are within the ranges. -/
structure ClassPolicy.Bounded (p : ClassPolicy) : Prop where
  rules : ∀ i : Fin 64, (p.rules[i.val]).action.values.Bounded ∧
    ((p.rules[i.val]).action.writes.weight = true → 1 ≤ (p.rules[i.val]).action.values.weight)
  defaults : p.defaultProfile.Bounded ∧ 1 ≤ p.defaultProfile.weight

theorem runStages_bounded {p : ClassPolicy} (law : p.Bounded) (d : Descriptor) (left : Nat)
    (stage : Fin 4) (kind : KeyKind) {w : ClassWork}
    (within : w.profile.Bounded ∧ 1 ≤ w.profile.weight) :
    (runStages p d left stage kind w).1.profile.Bounded ∧
      1 ≤ (runStages p d left stage kind w).1.profile.weight := by
  have applied : ∀ (w : ClassWork) (stage : Fin 4) (i : Fin 64),
      w.profile.Bounded ∧ 1 ≤ w.profile.weight →
      (w.apply stage i (p.rules[i.val]).action).profile.Bounded ∧
        1 ≤ (w.apply stage i (p.rules[i.val]).action).profile.weight :=
    fun w stage i within => ⟨within.1.merge (law.rules i).1 _,
      Profile.merge_weight within.2 (law.rules i).2⟩
  induction left generalizing stage kind w with
  | zero =>
    unfold runStages
    dsimp only
    split
    · exact applied _ _ _ within
    · exact applied _ _ _ within
    · exact applied _ _ _ within
    · next impossible => cases impossible
  | succ n ih =>
    unfold runStages
    dsimp only
    split
    · exact applied _ _ _ within
    · exact applied _ _ _ within
    · next impossible => cases impossible
    · next same =>
      cases same
      exact ih _ _ (applied _ _ _ within) applied

/-- What a classification hands on is within the ranges, the weight 1 at least (R4, R31). -/
theorem classify_bounded {p : ClassPolicy} (law : p.Bounded) (d : Descriptor) :
    (classify p d).1.profile.Bounded ∧ 1 ≤ (classify p d).1.profile.weight := by
  obtain ⟨this, least⟩ := runStages_bounded law d 3 0 p.firstKind
    (w := { profile := p.defaultProfile, chain := 0, trace := [], chainRange := false }) law.defaults
  exact ⟨⟨this.weight, this.ceiling, this.borrow, this.costShift, this.uplinkEighths, this.softCap⟩,
    least⟩

end Sys2Proof.Machine
end

