-- ==== Sys2Proof/Laws/State.lean ====
section
/-!
SUPPORT. Each field after each update: one lemma per field and update, true by unfolding, so that no
later proof unfolds a record update. The updates of parts of a record are brought to `setStation`.
-/

namespace Sys2Proof.Machine

/-! ### Values of a class -/

@[simp] theorem PerClass.get_const {α : Type} (x : α) (c : ServiceClass) :
    (PerClass.const x).get c = x := by cases c <;> rfl

@[simp] theorem PerClass.get_set_same {α : Type} (p : PerClass α) (c : ServiceClass) (x : α) :
    (p.set c x).get c = x := by cases c <;> rfl

theorem PerClass.get_set_ne {α : Type} (p : PerClass α) {c d : ServiceClass} (ne : d ≠ c) (x : α) :
    (p.set c x).get d = p.get d := by cases c <;> cases d <;> first | rfl | exact absurd rfl ne

theorem PerClass.get_set {α : Type} (p : PerClass α) (c d : ServiceClass) (x : α) :
    (p.set c x).get d = if d = c then x else p.get d := by
  by_cases e : d = c
  · rw [if_pos e, e, PerClass.get_set_same]
  · rw [if_neg e, PerClass.get_set_ne p e]

theorem PerClass.ext_get {α : Type} {p q : PerClass α} (same : ∀ c, p.get c = q.get c) : p = q := by
  obtain ⟨a, b, c, d⟩ := p
  obtain ⟨a', b', c', d'⟩ := q
  have h0 := same .sc0
  have h1 := same .sc1
  have h2 := same .sc2
  have h3 := same .sc3
  simp only [PerClass.get] at h0 h1 h2 h3
  rw [h0, h1, h2, h3]

@[simp] theorem PerClass.set_get {α : Type} (p : PerClass α) (c : ServiceClass) :
    p.set c (p.get c) = p := by cases c <;> rfl

/-! ### The value written is the value read -/

@[simp] theorem State.station_setStation_same (s : State) (h : Handle) (r : StationRecord) :
    (s.setStation h r).station h = r := by
  simp [State.station, State.setStation]

theorem State.station_setStation_ne (s : State) {h k : Handle} (ne : k ≠ h) (r : StationRecord) :
    (s.setStation h r).station k = s.station k := by
  have : h.val ≠ k.val := fun e => ne (Fin.ext e.symm)
  simp [State.station, State.setStation, Vector.getElem_set_ne _ _ this]

theorem State.station_setStation (s : State) (h k : Handle) (r : StationRecord) :
    (s.setStation h r).station k = if k = h then r else s.station k := by
  by_cases e : k = h
  · rw [if_pos e, e, State.station_setStation_same]
  · rw [if_neg e, State.station_setStation_ne s e]

@[simp] theorem State.setStation_station (s : State) (h : Handle) :
    s.setStation h (s.station h) = s := by
  simp [State.station, State.setStation]

@[simp] theorem State.entry_setEntry_same (s : State) (id : AwardId) (e : AwardEntry) :
    (s.setEntry id e).entry id = e := by
  simp [State.entry, State.setEntry]

theorem State.entry_setEntry_ne (s : State) {id k : AwardId} (ne : k ≠ id) (e : AwardEntry) :
    (s.setEntry id e).entry k = s.entry k := by
  have : id.val ≠ k.val := fun e => ne (Fin.ext e.symm)
  simp [State.entry, State.setEntry, Vector.getElem_set_ne _ _ this]

theorem State.entry_setEntry (s : State) (id k : AwardId) (e : AwardEntry) :
    (s.setEntry id e).entry k = if k = id then e else s.entry k := by
  by_cases q : k = id
  · rw [if_pos q, q, State.entry_setEntry_same]
  · rw [if_neg q, State.entry_setEntry_ne s q]

@[simp] theorem State.ring_setRing_same (s : State) (c : ServiceClass) (r : Ring) :
    (s.setRing c r).ring c = r := by simp [State.ring, State.setRing]

theorem State.ring_setRing (s : State) (c d : ServiceClass) (r : Ring) :
    (s.setRing c r).ring d = if d = c then r else s.ring d := by
  simp [State.ring, State.setRing, PerClass.get_set]

@[simp] theorem State.overflowList_setOverflowList_same (s : State) (c : ServiceClass)
    (l : OverflowList) : (s.setOverflowList c l).overflowList c = l := by
  simp [State.overflowList, State.setOverflowList]

theorem State.overflowList_setOverflowList (s : State) (c d : ServiceClass) (l : OverflowList) :
    (s.setOverflowList c l).overflowList d = if d = c then l else s.overflowList d := by
  simp [State.overflowList, State.setOverflowList, PerClass.get_set]

theorem State.bucketHead_setBucketHead (s : State) (b d : BitVec 8) (h : Option Handle) :
    (s.setBucketHead b h).bucketHead d = if d = b then h else s.bucketHead d := by
  by_cases e : d = b
  · subst e
    simp [State.bucketHead, State.setBucketHead]
  · have ne : b.toFin.val ≠ d.toFin.val := fun q => e (BitVec.eq_of_toNat_eq q.symm)
    rw [if_neg e]
    simp only [State.bucketHead, State.setBucketHead]
    exact Vector.getElem_set_ne _ _ ne

theorem Ring.at_write (r : Ring) (i j : BitVec 8) (x : Option Handle) :
    (r.write i x).at j = if j = i then x else r.at j := by
  by_cases e : j = i
  · subst e
    simp [Ring.at, Ring.write]
  · have ne : i.toFin.val ≠ j.toFin.val := fun q => e (BitVec.eq_of_toNat_eq q.symm)
    rw [if_neg e]
    simp only [Ring.at, Ring.write]
    exact Vector.getElem_set_ne _ _ ne

/-! ### Reads that do not see an update -/

@[simp] theorem State.station_setEntry (s : State) (id : AwardId) (e : AwardEntry) (h : Handle) :
    (s.setEntry id e).station h = s.station h := rfl
@[simp] theorem State.station_setRing (s : State) (c : ServiceClass) (r : Ring) (h : Handle) :
    (s.setRing c r).station h = s.station h := rfl
@[simp] theorem State.station_setOverflowList (s : State) (c : ServiceClass) (l : OverflowList)
    (h : Handle) : (s.setOverflowList c l).station h = s.station h := rfl
@[simp] theorem State.station_setBucketHead (s : State) (b : BitVec 8) (x : Option Handle)
    (h : Handle) : (s.setBucketHead b x).station h = s.station h := rfl
@[simp] theorem State.station_raise (s : State) (f : Flag) (h : Handle) :
    (s.raise f).station h = s.station h := rfl
@[simp] theorem State.station_adjustWaiting (s : State) (c : ServiceClass) (a b : Bool)
    (h : Handle) : (s.adjustWaiting c a b).station h = s.station h := rfl
@[simp] theorem State.ring_setStation (s : State) (k : Handle) (r : StationRecord)
    (c : ServiceClass) : (s.setStation k r).ring c = s.ring c := rfl
@[simp] theorem State.ring_setOverflowList (s : State) (d : ServiceClass) (l : OverflowList)
    (c : ServiceClass) : (s.setOverflowList d l).ring c = s.ring c := rfl
@[simp] theorem State.ring_raise (s : State) (f : Flag) (c : ServiceClass) :
    (s.raise f).ring c = s.ring c := rfl
@[simp] theorem State.ring_adjustWaiting (s : State) (d : ServiceClass) (a b : Bool)
    (c : ServiceClass) : (s.adjustWaiting d a b).ring c = s.ring c := rfl
@[simp] theorem State.overflowList_setStation (s : State) (k : Handle) (r : StationRecord)
    (c : ServiceClass) : (s.setStation k r).overflowList c = s.overflowList c := rfl
@[simp] theorem State.overflowList_setRing (s : State) (d : ServiceClass) (r : Ring)
    (c : ServiceClass) : (s.setRing d r).overflowList c = s.overflowList c := rfl
@[simp] theorem State.overflowList_raise (s : State) (f : Flag) (c : ServiceClass) :
    (s.raise f).overflowList c = s.overflowList c := rfl
@[simp] theorem State.overflowList_adjustWaiting (s : State) (d : ServiceClass) (a b : Bool)
    (c : ServiceClass) : (s.adjustWaiting d a b).overflowList c = s.overflowList c := rfl
@[simp] theorem State.entry_setStation (s : State) (h : Handle) (r : StationRecord) (id : AwardId) :
    (s.setStation h r).entry id = s.entry id := rfl
@[simp] theorem State.bucketHead_setStation (s : State) (h : Handle) (r : StationRecord)
    (b : BitVec 8) : (s.setStation h r).bucketHead b = s.bucketHead b := rfl

/-! ### Updates of parts of a record -/

@[simp] theorem State.changeStation_eq (s : State) (h : Handle) (f : StationRecord → StationRecord) :
    s.changeStation h f = s.setStation h (f (s.station h)) := rfl
@[simp] theorem State.setRingSlot_eq (s : State) (h : Handle) (c : ServiceClass)
    (x : Option (BitVec 8)) : s.setRingSlot h c x =
      s.setStation h { s.station h with ringSlot := (s.station h).ringSlot.set c x } := rfl
@[simp] theorem State.setPlace_eq (s : State) (h : Handle) (c : ServiceClass)
    (x : Option OverflowPlace) : s.setPlace h c x =
      s.setStation h { s.station h with overflow := (s.station h).overflow.set c x } := rfl
@[simp] theorem State.setNextFree_eq (s : State) (h : Handle) (x : Option Handle) :
    s.setNextFree h x = s.setStation h { s.station h with nextFree := x } := rfl
@[simp] theorem State.setNextInBucket_eq (s : State) (h : Handle) (x : Option Handle) :
    s.setNextInBucket h x = s.setStation h { s.station h with nextInBucket := x } := rfl

/-! ### setStation -/

@[simp] theorem State.setStation_pending (s : State) (h : Handle) (r : StationRecord) :
    (s.setStation h r).pending = s.pending := rfl
@[simp] theorem State.setStation_resetLow (s : State) (h : Handle) (r : StationRecord) :
    (s.setStation h r).resetLow = s.resetLow := rfl
@[simp] theorem State.setStation_csLow (s : State) (h : Handle) (r : StationRecord) :
    (s.setStation h r).csLow = s.csLow := rfl
@[simp] theorem State.setStation_port (s : State) (h : Handle) (r : StationRecord) :
    (s.setStation h r).port = s.port := rfl
@[simp] theorem State.setStation_spiOut (s : State) (h : Handle) (r : StationRecord) :
    (s.setStation h r).spiOut = s.spiOut := rfl
@[simp] theorem State.setStation_requests (s : State) (h : Handle) (r : StationRecord) :
    (s.setStation h r).requests = s.requests := rfl
@[simp] theorem State.setStation_executing (s : State) (h : Handle) (r : StationRecord) :
    (s.setStation h r).executing = s.executing := rfl
@[simp] theorem State.setStation_responses (s : State) (h : Handle) (r : StationRecord) :
    (s.setStation h r).responses = s.responses := rfl
@[simp] theorem State.setStation_freeHead (s : State) (h : Handle) (r : StationRecord) :
    (s.setStation h r).freeHead = s.freeHead := rfl
@[simp] theorem State.setStation_freeTail (s : State) (h : Handle) (r : StationRecord) :
    (s.setStation h r).freeTail = s.freeTail := rfl
@[simp] theorem State.setStation_buckets (s : State) (h : Handle) (r : StationRecord) :
    (s.setStation h r).buckets = s.buckets := rfl
@[simp] theorem State.setStation_tablePort (s : State) (h : Handle) (r : StationRecord) :
    (s.setStation h r).tablePort = s.tablePort := rfl
@[simp] theorem State.setStation_rules (s : State) (h : Handle) (r : StationRecord) :
    (s.setStation h r).rules = s.rules := rfl
@[simp] theorem State.setStation_settings (s : State) (h : Handle) (r : StationRecord) :
    (s.setStation h r).settings = s.settings := rfl
@[simp] theorem State.setStation_rings (s : State) (h : Handle) (r : StationRecord) :
    (s.setStation h r).rings = s.rings := rfl
@[simp] theorem State.setStation_overflows (s : State) (h : Handle) (r : StationRecord) :
    (s.setStation h r).overflows = s.overflows := rfl
@[simp] theorem State.setStation_waiting (s : State) (h : Handle) (r : StationRecord) :
    (s.setStation h r).waiting = s.waiting := rfl
@[simp] theorem State.setStation_awards (s : State) (h : Handle) (r : StationRecord) :
    (s.setStation h r).awards = s.awards := rfl
@[simp] theorem State.setStation_engine (s : State) (h : Handle) (r : StationRecord) :
    (s.setStation h r).engine = s.engine := rfl
@[simp] theorem State.setStation_dueExpiries (s : State) (h : Handle) (r : StationRecord) :
    (s.setStation h r).dueExpiries = s.dueExpiries := rfl
@[simp] theorem State.setStation_releaseDue (s : State) (h : Handle) (r : StationRecord) :
    (s.setStation h r).releaseDue = s.releaseDue := rfl
@[simp] theorem State.setStation_clearing (s : State) (h : Handle) (r : StationRecord) :
    (s.setStation h r).clearing = s.clearing := rfl
@[simp] theorem State.setStation_timebase (s : State) (h : Handle) (r : StationRecord) :
    (s.setStation h r).timebase = s.timebase := rfl
@[simp] theorem State.setStation_walker (s : State) (h : Handle) (r : StationRecord) :
    (s.setStation h r).walker = s.walker := rfl
@[simp] theorem State.setStation_linkUp (s : State) (h : Handle) (r : StationRecord) :
    (s.setStation h r).linkUp = s.linkUp := rfl
@[simp] theorem State.setStation_inbound (s : State) (h : Handle) (r : StationRecord) :
    (s.setStation h r).inbound = s.inbound := rfl
@[simp] theorem State.setStation_outbound (s : State) (h : Handle) (r : StationRecord) :
    (s.setStation h r).outbound = s.outbound := rfl
@[simp] theorem State.setStation_lkoSent (s : State) (h : Handle) (r : StationRecord) :
    (s.setStation h r).lkoSent = s.lkoSent := rfl
@[simp] theorem State.setStation_counters (s : State) (h : Handle) (r : StationRecord) :
    (s.setStation h r).counters = s.counters := rfl
@[simp] theorem State.setStation_flags (s : State) (h : Handle) (r : StationRecord) :
    (s.setStation h r).flags = s.flags := rfl

/-! ### setEntry -/

@[simp] theorem State.setEntry_pending (s : State) (id : AwardId) (e : AwardEntry) :
    (s.setEntry id e).pending = s.pending := rfl
@[simp] theorem State.setEntry_resetLow (s : State) (id : AwardId) (e : AwardEntry) :
    (s.setEntry id e).resetLow = s.resetLow := rfl
@[simp] theorem State.setEntry_csLow (s : State) (id : AwardId) (e : AwardEntry) :
    (s.setEntry id e).csLow = s.csLow := rfl
@[simp] theorem State.setEntry_port (s : State) (id : AwardId) (e : AwardEntry) :
    (s.setEntry id e).port = s.port := rfl
@[simp] theorem State.setEntry_spiOut (s : State) (id : AwardId) (e : AwardEntry) :
    (s.setEntry id e).spiOut = s.spiOut := rfl
@[simp] theorem State.setEntry_requests (s : State) (id : AwardId) (e : AwardEntry) :
    (s.setEntry id e).requests = s.requests := rfl
@[simp] theorem State.setEntry_executing (s : State) (id : AwardId) (e : AwardEntry) :
    (s.setEntry id e).executing = s.executing := rfl
@[simp] theorem State.setEntry_responses (s : State) (id : AwardId) (e : AwardEntry) :
    (s.setEntry id e).responses = s.responses := rfl
@[simp] theorem State.setEntry_stations (s : State) (id : AwardId) (e : AwardEntry) :
    (s.setEntry id e).stations = s.stations := rfl
@[simp] theorem State.setEntry_freeHead (s : State) (id : AwardId) (e : AwardEntry) :
    (s.setEntry id e).freeHead = s.freeHead := rfl
@[simp] theorem State.setEntry_freeTail (s : State) (id : AwardId) (e : AwardEntry) :
    (s.setEntry id e).freeTail = s.freeTail := rfl
@[simp] theorem State.setEntry_buckets (s : State) (id : AwardId) (e : AwardEntry) :
    (s.setEntry id e).buckets = s.buckets := rfl
@[simp] theorem State.setEntry_tablePort (s : State) (id : AwardId) (e : AwardEntry) :
    (s.setEntry id e).tablePort = s.tablePort := rfl
@[simp] theorem State.setEntry_rules (s : State) (id : AwardId) (e : AwardEntry) :
    (s.setEntry id e).rules = s.rules := rfl
@[simp] theorem State.setEntry_settings (s : State) (id : AwardId) (e : AwardEntry) :
    (s.setEntry id e).settings = s.settings := rfl
@[simp] theorem State.setEntry_rings (s : State) (id : AwardId) (e : AwardEntry) :
    (s.setEntry id e).rings = s.rings := rfl
@[simp] theorem State.setEntry_overflows (s : State) (id : AwardId) (e : AwardEntry) :
    (s.setEntry id e).overflows = s.overflows := rfl
@[simp] theorem State.setEntry_waiting (s : State) (id : AwardId) (e : AwardEntry) :
    (s.setEntry id e).waiting = s.waiting := rfl
@[simp] theorem State.setEntry_engine (s : State) (id : AwardId) (e : AwardEntry) :
    (s.setEntry id e).engine = s.engine := rfl
@[simp] theorem State.setEntry_dueExpiries (s : State) (id : AwardId) (e : AwardEntry) :
    (s.setEntry id e).dueExpiries = s.dueExpiries := rfl
@[simp] theorem State.setEntry_releaseDue (s : State) (id : AwardId) (e : AwardEntry) :
    (s.setEntry id e).releaseDue = s.releaseDue := rfl
@[simp] theorem State.setEntry_clearing (s : State) (id : AwardId) (e : AwardEntry) :
    (s.setEntry id e).clearing = s.clearing := rfl
@[simp] theorem State.setEntry_timebase (s : State) (id : AwardId) (e : AwardEntry) :
    (s.setEntry id e).timebase = s.timebase := rfl
@[simp] theorem State.setEntry_walker (s : State) (id : AwardId) (e : AwardEntry) :
    (s.setEntry id e).walker = s.walker := rfl
@[simp] theorem State.setEntry_linkUp (s : State) (id : AwardId) (e : AwardEntry) :
    (s.setEntry id e).linkUp = s.linkUp := rfl
@[simp] theorem State.setEntry_inbound (s : State) (id : AwardId) (e : AwardEntry) :
    (s.setEntry id e).inbound = s.inbound := rfl
@[simp] theorem State.setEntry_outbound (s : State) (id : AwardId) (e : AwardEntry) :
    (s.setEntry id e).outbound = s.outbound := rfl
@[simp] theorem State.setEntry_lkoSent (s : State) (id : AwardId) (e : AwardEntry) :
    (s.setEntry id e).lkoSent = s.lkoSent := rfl
@[simp] theorem State.setEntry_counters (s : State) (id : AwardId) (e : AwardEntry) :
    (s.setEntry id e).counters = s.counters := rfl
@[simp] theorem State.setEntry_flags (s : State) (id : AwardId) (e : AwardEntry) :
    (s.setEntry id e).flags = s.flags := rfl

/-! ### setRing -/

@[simp] theorem State.setRing_pending (s : State) (c : ServiceClass) (r : Ring) :
    (s.setRing c r).pending = s.pending := rfl
@[simp] theorem State.setRing_resetLow (s : State) (c : ServiceClass) (r : Ring) :
    (s.setRing c r).resetLow = s.resetLow := rfl
@[simp] theorem State.setRing_csLow (s : State) (c : ServiceClass) (r : Ring) :
    (s.setRing c r).csLow = s.csLow := rfl
@[simp] theorem State.setRing_port (s : State) (c : ServiceClass) (r : Ring) :
    (s.setRing c r).port = s.port := rfl
@[simp] theorem State.setRing_spiOut (s : State) (c : ServiceClass) (r : Ring) :
    (s.setRing c r).spiOut = s.spiOut := rfl
@[simp] theorem State.setRing_requests (s : State) (c : ServiceClass) (r : Ring) :
    (s.setRing c r).requests = s.requests := rfl
@[simp] theorem State.setRing_executing (s : State) (c : ServiceClass) (r : Ring) :
    (s.setRing c r).executing = s.executing := rfl
@[simp] theorem State.setRing_responses (s : State) (c : ServiceClass) (r : Ring) :
    (s.setRing c r).responses = s.responses := rfl
@[simp] theorem State.setRing_stations (s : State) (c : ServiceClass) (r : Ring) :
    (s.setRing c r).stations = s.stations := rfl
@[simp] theorem State.setRing_freeHead (s : State) (c : ServiceClass) (r : Ring) :
    (s.setRing c r).freeHead = s.freeHead := rfl
@[simp] theorem State.setRing_freeTail (s : State) (c : ServiceClass) (r : Ring) :
    (s.setRing c r).freeTail = s.freeTail := rfl
@[simp] theorem State.setRing_buckets (s : State) (c : ServiceClass) (r : Ring) :
    (s.setRing c r).buckets = s.buckets := rfl
@[simp] theorem State.setRing_tablePort (s : State) (c : ServiceClass) (r : Ring) :
    (s.setRing c r).tablePort = s.tablePort := rfl
@[simp] theorem State.setRing_rules (s : State) (c : ServiceClass) (r : Ring) :
    (s.setRing c r).rules = s.rules := rfl
@[simp] theorem State.setRing_settings (s : State) (c : ServiceClass) (r : Ring) :
    (s.setRing c r).settings = s.settings := rfl
@[simp] theorem State.setRing_overflows (s : State) (c : ServiceClass) (r : Ring) :
    (s.setRing c r).overflows = s.overflows := rfl
@[simp] theorem State.setRing_waiting (s : State) (c : ServiceClass) (r : Ring) :
    (s.setRing c r).waiting = s.waiting := rfl
@[simp] theorem State.setRing_awards (s : State) (c : ServiceClass) (r : Ring) :
    (s.setRing c r).awards = s.awards := rfl
@[simp] theorem State.setRing_engine (s : State) (c : ServiceClass) (r : Ring) :
    (s.setRing c r).engine = s.engine := rfl
@[simp] theorem State.setRing_dueExpiries (s : State) (c : ServiceClass) (r : Ring) :
    (s.setRing c r).dueExpiries = s.dueExpiries := rfl
@[simp] theorem State.setRing_releaseDue (s : State) (c : ServiceClass) (r : Ring) :
    (s.setRing c r).releaseDue = s.releaseDue := rfl
@[simp] theorem State.setRing_clearing (s : State) (c : ServiceClass) (r : Ring) :
    (s.setRing c r).clearing = s.clearing := rfl
@[simp] theorem State.setRing_timebase (s : State) (c : ServiceClass) (r : Ring) :
    (s.setRing c r).timebase = s.timebase := rfl
@[simp] theorem State.setRing_walker (s : State) (c : ServiceClass) (r : Ring) :
    (s.setRing c r).walker = s.walker := rfl
@[simp] theorem State.setRing_linkUp (s : State) (c : ServiceClass) (r : Ring) :
    (s.setRing c r).linkUp = s.linkUp := rfl
@[simp] theorem State.setRing_inbound (s : State) (c : ServiceClass) (r : Ring) :
    (s.setRing c r).inbound = s.inbound := rfl
@[simp] theorem State.setRing_outbound (s : State) (c : ServiceClass) (r : Ring) :
    (s.setRing c r).outbound = s.outbound := rfl
@[simp] theorem State.setRing_lkoSent (s : State) (c : ServiceClass) (r : Ring) :
    (s.setRing c r).lkoSent = s.lkoSent := rfl
@[simp] theorem State.setRing_counters (s : State) (c : ServiceClass) (r : Ring) :
    (s.setRing c r).counters = s.counters := rfl
@[simp] theorem State.setRing_flags (s : State) (c : ServiceClass) (r : Ring) :
    (s.setRing c r).flags = s.flags := rfl

/-! ### setOverflowList -/

@[simp] theorem State.setOverflowList_pending (s : State) (c : ServiceClass) (l : OverflowList) :
    (s.setOverflowList c l).pending = s.pending := rfl
@[simp] theorem State.setOverflowList_resetLow (s : State) (c : ServiceClass) (l : OverflowList) :
    (s.setOverflowList c l).resetLow = s.resetLow := rfl
@[simp] theorem State.setOverflowList_csLow (s : State) (c : ServiceClass) (l : OverflowList) :
    (s.setOverflowList c l).csLow = s.csLow := rfl
@[simp] theorem State.setOverflowList_port (s : State) (c : ServiceClass) (l : OverflowList) :
    (s.setOverflowList c l).port = s.port := rfl
@[simp] theorem State.setOverflowList_spiOut (s : State) (c : ServiceClass) (l : OverflowList) :
    (s.setOverflowList c l).spiOut = s.spiOut := rfl
@[simp] theorem State.setOverflowList_requests (s : State) (c : ServiceClass) (l : OverflowList) :
    (s.setOverflowList c l).requests = s.requests := rfl
@[simp] theorem State.setOverflowList_executing (s : State) (c : ServiceClass) (l : OverflowList) :
    (s.setOverflowList c l).executing = s.executing := rfl
@[simp] theorem State.setOverflowList_responses (s : State) (c : ServiceClass) (l : OverflowList) :
    (s.setOverflowList c l).responses = s.responses := rfl
@[simp] theorem State.setOverflowList_stations (s : State) (c : ServiceClass) (l : OverflowList) :
    (s.setOverflowList c l).stations = s.stations := rfl
@[simp] theorem State.setOverflowList_freeHead (s : State) (c : ServiceClass) (l : OverflowList) :
    (s.setOverflowList c l).freeHead = s.freeHead := rfl
@[simp] theorem State.setOverflowList_freeTail (s : State) (c : ServiceClass) (l : OverflowList) :
    (s.setOverflowList c l).freeTail = s.freeTail := rfl
@[simp] theorem State.setOverflowList_buckets (s : State) (c : ServiceClass) (l : OverflowList) :
    (s.setOverflowList c l).buckets = s.buckets := rfl
@[simp] theorem State.setOverflowList_tablePort (s : State) (c : ServiceClass) (l : OverflowList) :
    (s.setOverflowList c l).tablePort = s.tablePort := rfl
@[simp] theorem State.setOverflowList_rules (s : State) (c : ServiceClass) (l : OverflowList) :
    (s.setOverflowList c l).rules = s.rules := rfl
@[simp] theorem State.setOverflowList_settings (s : State) (c : ServiceClass) (l : OverflowList) :
    (s.setOverflowList c l).settings = s.settings := rfl
@[simp] theorem State.setOverflowList_rings (s : State) (c : ServiceClass) (l : OverflowList) :
    (s.setOverflowList c l).rings = s.rings := rfl
@[simp] theorem State.setOverflowList_waiting (s : State) (c : ServiceClass) (l : OverflowList) :
    (s.setOverflowList c l).waiting = s.waiting := rfl
@[simp] theorem State.setOverflowList_awards (s : State) (c : ServiceClass) (l : OverflowList) :
    (s.setOverflowList c l).awards = s.awards := rfl
@[simp] theorem State.setOverflowList_engine (s : State) (c : ServiceClass) (l : OverflowList) :
    (s.setOverflowList c l).engine = s.engine := rfl
@[simp] theorem State.setOverflowList_dueExpiries (s : State) (c : ServiceClass) (l : OverflowList) :
    (s.setOverflowList c l).dueExpiries = s.dueExpiries := rfl
@[simp] theorem State.setOverflowList_releaseDue (s : State) (c : ServiceClass) (l : OverflowList) :
    (s.setOverflowList c l).releaseDue = s.releaseDue := rfl
@[simp] theorem State.setOverflowList_clearing (s : State) (c : ServiceClass) (l : OverflowList) :
    (s.setOverflowList c l).clearing = s.clearing := rfl
@[simp] theorem State.setOverflowList_timebase (s : State) (c : ServiceClass) (l : OverflowList) :
    (s.setOverflowList c l).timebase = s.timebase := rfl
@[simp] theorem State.setOverflowList_walker (s : State) (c : ServiceClass) (l : OverflowList) :
    (s.setOverflowList c l).walker = s.walker := rfl
@[simp] theorem State.setOverflowList_linkUp (s : State) (c : ServiceClass) (l : OverflowList) :
    (s.setOverflowList c l).linkUp = s.linkUp := rfl
@[simp] theorem State.setOverflowList_inbound (s : State) (c : ServiceClass) (l : OverflowList) :
    (s.setOverflowList c l).inbound = s.inbound := rfl
@[simp] theorem State.setOverflowList_outbound (s : State) (c : ServiceClass) (l : OverflowList) :
    (s.setOverflowList c l).outbound = s.outbound := rfl
@[simp] theorem State.setOverflowList_lkoSent (s : State) (c : ServiceClass) (l : OverflowList) :
    (s.setOverflowList c l).lkoSent = s.lkoSent := rfl
@[simp] theorem State.setOverflowList_counters (s : State) (c : ServiceClass) (l : OverflowList) :
    (s.setOverflowList c l).counters = s.counters := rfl
@[simp] theorem State.setOverflowList_flags (s : State) (c : ServiceClass) (l : OverflowList) :
    (s.setOverflowList c l).flags = s.flags := rfl

/-! ### setBucketHead -/

@[simp] theorem State.setBucketHead_pending (s : State) (b : BitVec 8) (h : Option Handle) :
    (s.setBucketHead b h).pending = s.pending := rfl
@[simp] theorem State.setBucketHead_resetLow (s : State) (b : BitVec 8) (h : Option Handle) :
    (s.setBucketHead b h).resetLow = s.resetLow := rfl
@[simp] theorem State.setBucketHead_csLow (s : State) (b : BitVec 8) (h : Option Handle) :
    (s.setBucketHead b h).csLow = s.csLow := rfl
@[simp] theorem State.setBucketHead_port (s : State) (b : BitVec 8) (h : Option Handle) :
    (s.setBucketHead b h).port = s.port := rfl
@[simp] theorem State.setBucketHead_spiOut (s : State) (b : BitVec 8) (h : Option Handle) :
    (s.setBucketHead b h).spiOut = s.spiOut := rfl
@[simp] theorem State.setBucketHead_requests (s : State) (b : BitVec 8) (h : Option Handle) :
    (s.setBucketHead b h).requests = s.requests := rfl
@[simp] theorem State.setBucketHead_executing (s : State) (b : BitVec 8) (h : Option Handle) :
    (s.setBucketHead b h).executing = s.executing := rfl
@[simp] theorem State.setBucketHead_responses (s : State) (b : BitVec 8) (h : Option Handle) :
    (s.setBucketHead b h).responses = s.responses := rfl
@[simp] theorem State.setBucketHead_stations (s : State) (b : BitVec 8) (h : Option Handle) :
    (s.setBucketHead b h).stations = s.stations := rfl
@[simp] theorem State.setBucketHead_freeHead (s : State) (b : BitVec 8) (h : Option Handle) :
    (s.setBucketHead b h).freeHead = s.freeHead := rfl
@[simp] theorem State.setBucketHead_freeTail (s : State) (b : BitVec 8) (h : Option Handle) :
    (s.setBucketHead b h).freeTail = s.freeTail := rfl
@[simp] theorem State.setBucketHead_tablePort (s : State) (b : BitVec 8) (h : Option Handle) :
    (s.setBucketHead b h).tablePort = s.tablePort := rfl
@[simp] theorem State.setBucketHead_rules (s : State) (b : BitVec 8) (h : Option Handle) :
    (s.setBucketHead b h).rules = s.rules := rfl
@[simp] theorem State.setBucketHead_settings (s : State) (b : BitVec 8) (h : Option Handle) :
    (s.setBucketHead b h).settings = s.settings := rfl
@[simp] theorem State.setBucketHead_rings (s : State) (b : BitVec 8) (h : Option Handle) :
    (s.setBucketHead b h).rings = s.rings := rfl
@[simp] theorem State.setBucketHead_overflows (s : State) (b : BitVec 8) (h : Option Handle) :
    (s.setBucketHead b h).overflows = s.overflows := rfl
@[simp] theorem State.setBucketHead_waiting (s : State) (b : BitVec 8) (h : Option Handle) :
    (s.setBucketHead b h).waiting = s.waiting := rfl
@[simp] theorem State.setBucketHead_awards (s : State) (b : BitVec 8) (h : Option Handle) :
    (s.setBucketHead b h).awards = s.awards := rfl
@[simp] theorem State.setBucketHead_engine (s : State) (b : BitVec 8) (h : Option Handle) :
    (s.setBucketHead b h).engine = s.engine := rfl
@[simp] theorem State.setBucketHead_dueExpiries (s : State) (b : BitVec 8) (h : Option Handle) :
    (s.setBucketHead b h).dueExpiries = s.dueExpiries := rfl
@[simp] theorem State.setBucketHead_releaseDue (s : State) (b : BitVec 8) (h : Option Handle) :
    (s.setBucketHead b h).releaseDue = s.releaseDue := rfl
@[simp] theorem State.setBucketHead_clearing (s : State) (b : BitVec 8) (h : Option Handle) :
    (s.setBucketHead b h).clearing = s.clearing := rfl
@[simp] theorem State.setBucketHead_timebase (s : State) (b : BitVec 8) (h : Option Handle) :
    (s.setBucketHead b h).timebase = s.timebase := rfl
@[simp] theorem State.setBucketHead_walker (s : State) (b : BitVec 8) (h : Option Handle) :
    (s.setBucketHead b h).walker = s.walker := rfl
@[simp] theorem State.setBucketHead_linkUp (s : State) (b : BitVec 8) (h : Option Handle) :
    (s.setBucketHead b h).linkUp = s.linkUp := rfl
@[simp] theorem State.setBucketHead_inbound (s : State) (b : BitVec 8) (h : Option Handle) :
    (s.setBucketHead b h).inbound = s.inbound := rfl
@[simp] theorem State.setBucketHead_outbound (s : State) (b : BitVec 8) (h : Option Handle) :
    (s.setBucketHead b h).outbound = s.outbound := rfl
@[simp] theorem State.setBucketHead_lkoSent (s : State) (b : BitVec 8) (h : Option Handle) :
    (s.setBucketHead b h).lkoSent = s.lkoSent := rfl
@[simp] theorem State.setBucketHead_counters (s : State) (b : BitVec 8) (h : Option Handle) :
    (s.setBucketHead b h).counters = s.counters := rfl
@[simp] theorem State.setBucketHead_flags (s : State) (b : BitVec 8) (h : Option Handle) :
    (s.setBucketHead b h).flags = s.flags := rfl

/-! ### raise -/

@[simp] theorem State.raise_pending (s : State) (f : Flag) :
    (s.raise f).pending = s.pending := rfl
@[simp] theorem State.raise_resetLow (s : State) (f : Flag) :
    (s.raise f).resetLow = s.resetLow := rfl
@[simp] theorem State.raise_csLow (s : State) (f : Flag) :
    (s.raise f).csLow = s.csLow := rfl
@[simp] theorem State.raise_port (s : State) (f : Flag) :
    (s.raise f).port = s.port := rfl
@[simp] theorem State.raise_spiOut (s : State) (f : Flag) :
    (s.raise f).spiOut = s.spiOut := rfl
@[simp] theorem State.raise_requests (s : State) (f : Flag) :
    (s.raise f).requests = s.requests := rfl
@[simp] theorem State.raise_executing (s : State) (f : Flag) :
    (s.raise f).executing = s.executing := rfl
@[simp] theorem State.raise_responses (s : State) (f : Flag) :
    (s.raise f).responses = s.responses := rfl
@[simp] theorem State.raise_stations (s : State) (f : Flag) :
    (s.raise f).stations = s.stations := rfl
@[simp] theorem State.raise_freeHead (s : State) (f : Flag) :
    (s.raise f).freeHead = s.freeHead := rfl
@[simp] theorem State.raise_freeTail (s : State) (f : Flag) :
    (s.raise f).freeTail = s.freeTail := rfl
@[simp] theorem State.raise_buckets (s : State) (f : Flag) :
    (s.raise f).buckets = s.buckets := rfl
@[simp] theorem State.raise_tablePort (s : State) (f : Flag) :
    (s.raise f).tablePort = s.tablePort := rfl
@[simp] theorem State.raise_rules (s : State) (f : Flag) :
    (s.raise f).rules = s.rules := rfl
@[simp] theorem State.raise_settings (s : State) (f : Flag) :
    (s.raise f).settings = s.settings := rfl
@[simp] theorem State.raise_rings (s : State) (f : Flag) :
    (s.raise f).rings = s.rings := rfl
@[simp] theorem State.raise_overflows (s : State) (f : Flag) :
    (s.raise f).overflows = s.overflows := rfl
@[simp] theorem State.raise_waiting (s : State) (f : Flag) :
    (s.raise f).waiting = s.waiting := rfl
@[simp] theorem State.raise_awards (s : State) (f : Flag) :
    (s.raise f).awards = s.awards := rfl
@[simp] theorem State.raise_engine (s : State) (f : Flag) :
    (s.raise f).engine = s.engine := rfl
@[simp] theorem State.raise_dueExpiries (s : State) (f : Flag) :
    (s.raise f).dueExpiries = s.dueExpiries := rfl
@[simp] theorem State.raise_releaseDue (s : State) (f : Flag) :
    (s.raise f).releaseDue = s.releaseDue := rfl
@[simp] theorem State.raise_clearing (s : State) (f : Flag) :
    (s.raise f).clearing = s.clearing := rfl
@[simp] theorem State.raise_timebase (s : State) (f : Flag) :
    (s.raise f).timebase = s.timebase := rfl
@[simp] theorem State.raise_walker (s : State) (f : Flag) :
    (s.raise f).walker = s.walker := rfl
@[simp] theorem State.raise_linkUp (s : State) (f : Flag) :
    (s.raise f).linkUp = s.linkUp := rfl
@[simp] theorem State.raise_inbound (s : State) (f : Flag) :
    (s.raise f).inbound = s.inbound := rfl
@[simp] theorem State.raise_outbound (s : State) (f : Flag) :
    (s.raise f).outbound = s.outbound := rfl
@[simp] theorem State.raise_lkoSent (s : State) (f : Flag) :
    (s.raise f).lkoSent = s.lkoSent := rfl

/-! ### answer -/

@[simp] theorem State.answer_pending (s : State) (m : OutMessage) :
    (s.answer m).pending = s.pending := rfl
@[simp] theorem State.answer_resetLow (s : State) (m : OutMessage) :
    (s.answer m).resetLow = s.resetLow := rfl
@[simp] theorem State.answer_csLow (s : State) (m : OutMessage) :
    (s.answer m).csLow = s.csLow := rfl
@[simp] theorem State.answer_port (s : State) (m : OutMessage) :
    (s.answer m).port = s.port := rfl
@[simp] theorem State.answer_spiOut (s : State) (m : OutMessage) :
    (s.answer m).spiOut = s.spiOut := rfl
@[simp] theorem State.answer_requests (s : State) (m : OutMessage) :
    (s.answer m).requests = s.requests := rfl
@[simp] theorem State.answer_executing (s : State) (m : OutMessage) :
    (s.answer m).executing = s.executing := rfl
@[simp] theorem State.answer_responses (s : State) (m : OutMessage) :
    (s.answer m).responses = s.responses := rfl
@[simp] theorem State.answer_stations (s : State) (m : OutMessage) :
    (s.answer m).stations = s.stations := rfl
@[simp] theorem State.answer_freeHead (s : State) (m : OutMessage) :
    (s.answer m).freeHead = s.freeHead := rfl
@[simp] theorem State.answer_freeTail (s : State) (m : OutMessage) :
    (s.answer m).freeTail = s.freeTail := rfl
@[simp] theorem State.answer_buckets (s : State) (m : OutMessage) :
    (s.answer m).buckets = s.buckets := rfl
@[simp] theorem State.answer_tablePort (s : State) (m : OutMessage) :
    (s.answer m).tablePort = s.tablePort := rfl
@[simp] theorem State.answer_rules (s : State) (m : OutMessage) :
    (s.answer m).rules = s.rules := rfl
@[simp] theorem State.answer_settings (s : State) (m : OutMessage) :
    (s.answer m).settings = s.settings := rfl
@[simp] theorem State.answer_rings (s : State) (m : OutMessage) :
    (s.answer m).rings = s.rings := rfl
@[simp] theorem State.answer_overflows (s : State) (m : OutMessage) :
    (s.answer m).overflows = s.overflows := rfl
@[simp] theorem State.answer_waiting (s : State) (m : OutMessage) :
    (s.answer m).waiting = s.waiting := rfl
@[simp] theorem State.answer_awards (s : State) (m : OutMessage) :
    (s.answer m).awards = s.awards := rfl
@[simp] theorem State.answer_dueExpiries (s : State) (m : OutMessage) :
    (s.answer m).dueExpiries = s.dueExpiries := rfl
@[simp] theorem State.answer_releaseDue (s : State) (m : OutMessage) :
    (s.answer m).releaseDue = s.releaseDue := rfl
@[simp] theorem State.answer_clearing (s : State) (m : OutMessage) :
    (s.answer m).clearing = s.clearing := rfl
@[simp] theorem State.answer_timebase (s : State) (m : OutMessage) :
    (s.answer m).timebase = s.timebase := rfl
@[simp] theorem State.answer_walker (s : State) (m : OutMessage) :
    (s.answer m).walker = s.walker := rfl
@[simp] theorem State.answer_linkUp (s : State) (m : OutMessage) :
    (s.answer m).linkUp = s.linkUp := rfl
@[simp] theorem State.answer_inbound (s : State) (m : OutMessage) :
    (s.answer m).inbound = s.inbound := rfl
@[simp] theorem State.answer_outbound (s : State) (m : OutMessage) :
    (s.answer m).outbound = s.outbound := rfl
@[simp] theorem State.answer_lkoSent (s : State) (m : OutMessage) :
    (s.answer m).lkoSent = s.lkoSent := rfl
@[simp] theorem State.answer_counters (s : State) (m : OutMessage) :
    (s.answer m).counters = s.counters := rfl
@[simp] theorem State.answer_flags (s : State) (m : OutMessage) :
    (s.answer m).flags = s.flags := rfl

/-! ### resetRings -/

@[simp] theorem State.resetRings_pending (s : State) :
    (s.resetRings).pending = s.pending := rfl
@[simp] theorem State.resetRings_resetLow (s : State) :
    (s.resetRings).resetLow = s.resetLow := rfl
@[simp] theorem State.resetRings_csLow (s : State) :
    (s.resetRings).csLow = s.csLow := rfl
@[simp] theorem State.resetRings_port (s : State) :
    (s.resetRings).port = s.port := rfl
@[simp] theorem State.resetRings_spiOut (s : State) :
    (s.resetRings).spiOut = s.spiOut := rfl
@[simp] theorem State.resetRings_requests (s : State) :
    (s.resetRings).requests = s.requests := rfl
@[simp] theorem State.resetRings_executing (s : State) :
    (s.resetRings).executing = s.executing := rfl
@[simp] theorem State.resetRings_responses (s : State) :
    (s.resetRings).responses = s.responses := rfl
@[simp] theorem State.resetRings_stations (s : State) :
    (s.resetRings).stations = s.stations := rfl
@[simp] theorem State.resetRings_freeHead (s : State) :
    (s.resetRings).freeHead = s.freeHead := rfl
@[simp] theorem State.resetRings_freeTail (s : State) :
    (s.resetRings).freeTail = s.freeTail := rfl
@[simp] theorem State.resetRings_buckets (s : State) :
    (s.resetRings).buckets = s.buckets := rfl
@[simp] theorem State.resetRings_tablePort (s : State) :
    (s.resetRings).tablePort = s.tablePort := rfl
@[simp] theorem State.resetRings_rules (s : State) :
    (s.resetRings).rules = s.rules := rfl
@[simp] theorem State.resetRings_settings (s : State) :
    (s.resetRings).settings = s.settings := rfl
@[simp] theorem State.resetRings_overflows (s : State) :
    (s.resetRings).overflows = s.overflows := rfl
@[simp] theorem State.resetRings_waiting (s : State) :
    (s.resetRings).waiting = s.waiting := rfl
@[simp] theorem State.resetRings_awards (s : State) :
    (s.resetRings).awards = s.awards := rfl
@[simp] theorem State.resetRings_engine (s : State) :
    (s.resetRings).engine = s.engine := rfl
@[simp] theorem State.resetRings_dueExpiries (s : State) :
    (s.resetRings).dueExpiries = s.dueExpiries := rfl
@[simp] theorem State.resetRings_releaseDue (s : State) :
    (s.resetRings).releaseDue = s.releaseDue := rfl
@[simp] theorem State.resetRings_clearing (s : State) :
    (s.resetRings).clearing = s.clearing := rfl
@[simp] theorem State.resetRings_timebase (s : State) :
    (s.resetRings).timebase = s.timebase := rfl
@[simp] theorem State.resetRings_walker (s : State) :
    (s.resetRings).walker = s.walker := rfl
@[simp] theorem State.resetRings_linkUp (s : State) :
    (s.resetRings).linkUp = s.linkUp := rfl
@[simp] theorem State.resetRings_inbound (s : State) :
    (s.resetRings).inbound = s.inbound := rfl
@[simp] theorem State.resetRings_outbound (s : State) :
    (s.resetRings).outbound = s.outbound := rfl
@[simp] theorem State.resetRings_lkoSent (s : State) :
    (s.resetRings).lkoSent = s.lkoSent := rfl
@[simp] theorem State.resetRings_counters (s : State) :
    (s.resetRings).counters = s.counters := rfl
@[simp] theorem State.resetRings_flags (s : State) :
    (s.resetRings).flags = s.flags := rfl

/-! ### adjustWaiting -/

@[simp] theorem State.adjustWaiting_pending (s : State) (c : ServiceClass) (a b : Bool) :
    (s.adjustWaiting c a b).pending = s.pending := rfl
@[simp] theorem State.adjustWaiting_resetLow (s : State) (c : ServiceClass) (a b : Bool) :
    (s.adjustWaiting c a b).resetLow = s.resetLow := rfl
@[simp] theorem State.adjustWaiting_csLow (s : State) (c : ServiceClass) (a b : Bool) :
    (s.adjustWaiting c a b).csLow = s.csLow := rfl
@[simp] theorem State.adjustWaiting_port (s : State) (c : ServiceClass) (a b : Bool) :
    (s.adjustWaiting c a b).port = s.port := rfl
@[simp] theorem State.adjustWaiting_spiOut (s : State) (c : ServiceClass) (a b : Bool) :
    (s.adjustWaiting c a b).spiOut = s.spiOut := rfl
@[simp] theorem State.adjustWaiting_requests (s : State) (c : ServiceClass) (a b : Bool) :
    (s.adjustWaiting c a b).requests = s.requests := rfl
@[simp] theorem State.adjustWaiting_executing (s : State) (c : ServiceClass) (a b : Bool) :
    (s.adjustWaiting c a b).executing = s.executing := rfl
@[simp] theorem State.adjustWaiting_responses (s : State) (c : ServiceClass) (a b : Bool) :
    (s.adjustWaiting c a b).responses = s.responses := rfl
@[simp] theorem State.adjustWaiting_stations (s : State) (c : ServiceClass) (a b : Bool) :
    (s.adjustWaiting c a b).stations = s.stations := rfl
@[simp] theorem State.adjustWaiting_freeHead (s : State) (c : ServiceClass) (a b : Bool) :
    (s.adjustWaiting c a b).freeHead = s.freeHead := rfl
@[simp] theorem State.adjustWaiting_freeTail (s : State) (c : ServiceClass) (a b : Bool) :
    (s.adjustWaiting c a b).freeTail = s.freeTail := rfl
@[simp] theorem State.adjustWaiting_buckets (s : State) (c : ServiceClass) (a b : Bool) :
    (s.adjustWaiting c a b).buckets = s.buckets := rfl
@[simp] theorem State.adjustWaiting_tablePort (s : State) (c : ServiceClass) (a b : Bool) :
    (s.adjustWaiting c a b).tablePort = s.tablePort := rfl
@[simp] theorem State.adjustWaiting_rules (s : State) (c : ServiceClass) (a b : Bool) :
    (s.adjustWaiting c a b).rules = s.rules := rfl
@[simp] theorem State.adjustWaiting_settings (s : State) (c : ServiceClass) (a b : Bool) :
    (s.adjustWaiting c a b).settings = s.settings := rfl
@[simp] theorem State.adjustWaiting_rings (s : State) (c : ServiceClass) (a b : Bool) :
    (s.adjustWaiting c a b).rings = s.rings := rfl
@[simp] theorem State.adjustWaiting_overflows (s : State) (c : ServiceClass) (a b : Bool) :
    (s.adjustWaiting c a b).overflows = s.overflows := rfl
@[simp] theorem State.adjustWaiting_awards (s : State) (c : ServiceClass) (a b : Bool) :
    (s.adjustWaiting c a b).awards = s.awards := rfl
@[simp] theorem State.adjustWaiting_engine (s : State) (c : ServiceClass) (a b : Bool) :
    (s.adjustWaiting c a b).engine = s.engine := rfl
@[simp] theorem State.adjustWaiting_dueExpiries (s : State) (c : ServiceClass) (a b : Bool) :
    (s.adjustWaiting c a b).dueExpiries = s.dueExpiries := rfl
@[simp] theorem State.adjustWaiting_releaseDue (s : State) (c : ServiceClass) (a b : Bool) :
    (s.adjustWaiting c a b).releaseDue = s.releaseDue := rfl
@[simp] theorem State.adjustWaiting_clearing (s : State) (c : ServiceClass) (a b : Bool) :
    (s.adjustWaiting c a b).clearing = s.clearing := rfl
@[simp] theorem State.adjustWaiting_timebase (s : State) (c : ServiceClass) (a b : Bool) :
    (s.adjustWaiting c a b).timebase = s.timebase := rfl
@[simp] theorem State.adjustWaiting_walker (s : State) (c : ServiceClass) (a b : Bool) :
    (s.adjustWaiting c a b).walker = s.walker := rfl
@[simp] theorem State.adjustWaiting_linkUp (s : State) (c : ServiceClass) (a b : Bool) :
    (s.adjustWaiting c a b).linkUp = s.linkUp := rfl
@[simp] theorem State.adjustWaiting_inbound (s : State) (c : ServiceClass) (a b : Bool) :
    (s.adjustWaiting c a b).inbound = s.inbound := rfl
@[simp] theorem State.adjustWaiting_outbound (s : State) (c : ServiceClass) (a b : Bool) :
    (s.adjustWaiting c a b).outbound = s.outbound := rfl
@[simp] theorem State.adjustWaiting_lkoSent (s : State) (c : ServiceClass) (a b : Bool) :
    (s.adjustWaiting c a b).lkoSent = s.lkoSent := rfl
@[simp] theorem State.adjustWaiting_counters (s : State) (c : ServiceClass) (a b : Bool) :
    (s.adjustWaiting c a b).counters = s.counters := rfl
@[simp] theorem State.adjustWaiting_flags (s : State) (c : ServiceClass) (a b : Bool) :
    (s.adjustWaiting c a b).flags = s.flags := rfl

/-! ### pass -/

@[simp] theorem State.pass_pending (s : State) (n : Nat) :
    (s.pass n).pending = s.pending := rfl
@[simp] theorem State.pass_resetLow (s : State) (n : Nat) :
    (s.pass n).resetLow = s.resetLow := rfl
@[simp] theorem State.pass_csLow (s : State) (n : Nat) :
    (s.pass n).csLow = s.csLow := rfl
@[simp] theorem State.pass_port (s : State) (n : Nat) :
    (s.pass n).port = s.port := rfl
@[simp] theorem State.pass_spiOut (s : State) (n : Nat) :
    (s.pass n).spiOut = s.spiOut := rfl
@[simp] theorem State.pass_requests (s : State) (n : Nat) :
    (s.pass n).requests = s.requests := rfl
@[simp] theorem State.pass_executing (s : State) (n : Nat) :
    (s.pass n).executing = s.executing := rfl
@[simp] theorem State.pass_responses (s : State) (n : Nat) :
    (s.pass n).responses = s.responses := rfl
@[simp] theorem State.pass_stations (s : State) (n : Nat) :
    (s.pass n).stations = s.stations := rfl
@[simp] theorem State.pass_freeHead (s : State) (n : Nat) :
    (s.pass n).freeHead = s.freeHead := rfl
@[simp] theorem State.pass_freeTail (s : State) (n : Nat) :
    (s.pass n).freeTail = s.freeTail := rfl
@[simp] theorem State.pass_buckets (s : State) (n : Nat) :
    (s.pass n).buckets = s.buckets := rfl
@[simp] theorem State.pass_tablePort (s : State) (n : Nat) :
    (s.pass n).tablePort = s.tablePort := rfl
@[simp] theorem State.pass_rules (s : State) (n : Nat) :
    (s.pass n).rules = s.rules := rfl
@[simp] theorem State.pass_settings (s : State) (n : Nat) :
    (s.pass n).settings = s.settings := rfl
@[simp] theorem State.pass_rings (s : State) (n : Nat) :
    (s.pass n).rings = s.rings := rfl
@[simp] theorem State.pass_overflows (s : State) (n : Nat) :
    (s.pass n).overflows = s.overflows := rfl
@[simp] theorem State.pass_waiting (s : State) (n : Nat) :
    (s.pass n).waiting = s.waiting := rfl
@[simp] theorem State.pass_awards (s : State) (n : Nat) :
    (s.pass n).awards = s.awards := rfl
@[simp] theorem State.pass_engine (s : State) (n : Nat) :
    (s.pass n).engine = s.engine := rfl
@[simp] theorem State.pass_releaseDue (s : State) (n : Nat) :
    (s.pass n).releaseDue = s.releaseDue := rfl
@[simp] theorem State.pass_clearing (s : State) (n : Nat) :
    (s.pass n).clearing = s.clearing := rfl
@[simp] theorem State.pass_walker (s : State) (n : Nat) :
    (s.pass n).walker = s.walker := rfl
@[simp] theorem State.pass_linkUp (s : State) (n : Nat) :
    (s.pass n).linkUp = s.linkUp := rfl
@[simp] theorem State.pass_inbound (s : State) (n : Nat) :
    (s.pass n).inbound = s.inbound := rfl
@[simp] theorem State.pass_outbound (s : State) (n : Nat) :
    (s.pass n).outbound = s.outbound := rfl
@[simp] theorem State.pass_lkoSent (s : State) (n : Nat) :
    (s.pass n).lkoSent = s.lkoSent := rfl
@[simp] theorem State.pass_counters (s : State) (n : Nat) :
    (s.pass n).counters = s.counters := rfl
@[simp] theorem State.pass_flags (s : State) (n : Nat) :
    (s.pass n).flags = s.flags := rfl

/-! ### enter -/

@[simp] theorem State.enter_pending (s : State) (p : PortState) :
    (s.enter p).pending = s.pending := rfl
@[simp] theorem State.enter_resetLow (s : State) (p : PortState) :
    (s.enter p).resetLow = s.resetLow := rfl
@[simp] theorem State.enter_csLow (s : State) (p : PortState) :
    (s.enter p).csLow = s.csLow := rfl
@[simp] theorem State.enter_requests (s : State) (p : PortState) :
    (s.enter p).requests = s.requests := rfl
@[simp] theorem State.enter_executing (s : State) (p : PortState) :
    (s.enter p).executing = s.executing := rfl
@[simp] theorem State.enter_responses (s : State) (p : PortState) :
    (s.enter p).responses = s.responses := rfl
@[simp] theorem State.enter_stations (s : State) (p : PortState) :
    (s.enter p).stations = s.stations := rfl
@[simp] theorem State.enter_freeHead (s : State) (p : PortState) :
    (s.enter p).freeHead = s.freeHead := rfl
@[simp] theorem State.enter_freeTail (s : State) (p : PortState) :
    (s.enter p).freeTail = s.freeTail := rfl
@[simp] theorem State.enter_buckets (s : State) (p : PortState) :
    (s.enter p).buckets = s.buckets := rfl
@[simp] theorem State.enter_tablePort (s : State) (p : PortState) :
    (s.enter p).tablePort = s.tablePort := rfl
@[simp] theorem State.enter_rules (s : State) (p : PortState) :
    (s.enter p).rules = s.rules := rfl
@[simp] theorem State.enter_settings (s : State) (p : PortState) :
    (s.enter p).settings = s.settings := rfl
@[simp] theorem State.enter_rings (s : State) (p : PortState) :
    (s.enter p).rings = s.rings := rfl
@[simp] theorem State.enter_overflows (s : State) (p : PortState) :
    (s.enter p).overflows = s.overflows := rfl
@[simp] theorem State.enter_waiting (s : State) (p : PortState) :
    (s.enter p).waiting = s.waiting := rfl
@[simp] theorem State.enter_awards (s : State) (p : PortState) :
    (s.enter p).awards = s.awards := rfl
@[simp] theorem State.enter_engine (s : State) (p : PortState) :
    (s.enter p).engine = s.engine := rfl
@[simp] theorem State.enter_dueExpiries (s : State) (p : PortState) :
    (s.enter p).dueExpiries = s.dueExpiries := rfl
@[simp] theorem State.enter_releaseDue (s : State) (p : PortState) :
    (s.enter p).releaseDue = s.releaseDue := rfl
@[simp] theorem State.enter_clearing (s : State) (p : PortState) :
    (s.enter p).clearing = s.clearing := rfl
@[simp] theorem State.enter_timebase (s : State) (p : PortState) :
    (s.enter p).timebase = s.timebase := rfl
@[simp] theorem State.enter_walker (s : State) (p : PortState) :
    (s.enter p).walker = s.walker := rfl
@[simp] theorem State.enter_linkUp (s : State) (p : PortState) :
    (s.enter p).linkUp = s.linkUp := rfl
@[simp] theorem State.enter_inbound (s : State) (p : PortState) :
    (s.enter p).inbound = s.inbound := rfl
@[simp] theorem State.enter_outbound (s : State) (p : PortState) :
    (s.enter p).outbound = s.outbound := rfl
@[simp] theorem State.enter_lkoSent (s : State) (p : PortState) :
    (s.enter p).lkoSent = s.lkoSent := rfl
@[simp] theorem State.enter_counters (s : State) (p : PortState) :
    (s.enter p).counters = s.counters := rfl
@[simp] theorem State.enter_flags (s : State) (p : PortState) :
    (s.enter p).flags = s.flags := rfl

/-! ### raiseIf -/

@[simp] theorem State.raiseIf_pending (s : State) (b : Bool) (f : Flag) :
    (s.raiseIf b f).pending = s.pending := by cases b <;> rfl
@[simp] theorem State.raiseIf_resetLow (s : State) (b : Bool) (f : Flag) :
    (s.raiseIf b f).resetLow = s.resetLow := by cases b <;> rfl
@[simp] theorem State.raiseIf_csLow (s : State) (b : Bool) (f : Flag) :
    (s.raiseIf b f).csLow = s.csLow := by cases b <;> rfl
@[simp] theorem State.raiseIf_port (s : State) (b : Bool) (f : Flag) :
    (s.raiseIf b f).port = s.port := by cases b <;> rfl
@[simp] theorem State.raiseIf_spiOut (s : State) (b : Bool) (f : Flag) :
    (s.raiseIf b f).spiOut = s.spiOut := by cases b <;> rfl
@[simp] theorem State.raiseIf_requests (s : State) (b : Bool) (f : Flag) :
    (s.raiseIf b f).requests = s.requests := by cases b <;> rfl
@[simp] theorem State.raiseIf_executing (s : State) (b : Bool) (f : Flag) :
    (s.raiseIf b f).executing = s.executing := by cases b <;> rfl
@[simp] theorem State.raiseIf_responses (s : State) (b : Bool) (f : Flag) :
    (s.raiseIf b f).responses = s.responses := by cases b <;> rfl
@[simp] theorem State.raiseIf_stations (s : State) (b : Bool) (f : Flag) :
    (s.raiseIf b f).stations = s.stations := by cases b <;> rfl
@[simp] theorem State.raiseIf_freeHead (s : State) (b : Bool) (f : Flag) :
    (s.raiseIf b f).freeHead = s.freeHead := by cases b <;> rfl
@[simp] theorem State.raiseIf_freeTail (s : State) (b : Bool) (f : Flag) :
    (s.raiseIf b f).freeTail = s.freeTail := by cases b <;> rfl
@[simp] theorem State.raiseIf_buckets (s : State) (b : Bool) (f : Flag) :
    (s.raiseIf b f).buckets = s.buckets := by cases b <;> rfl
@[simp] theorem State.raiseIf_tablePort (s : State) (b : Bool) (f : Flag) :
    (s.raiseIf b f).tablePort = s.tablePort := by cases b <;> rfl
@[simp] theorem State.raiseIf_rules (s : State) (b : Bool) (f : Flag) :
    (s.raiseIf b f).rules = s.rules := by cases b <;> rfl
@[simp] theorem State.raiseIf_settings (s : State) (b : Bool) (f : Flag) :
    (s.raiseIf b f).settings = s.settings := by cases b <;> rfl
@[simp] theorem State.raiseIf_rings (s : State) (b : Bool) (f : Flag) :
    (s.raiseIf b f).rings = s.rings := by cases b <;> rfl
@[simp] theorem State.raiseIf_overflows (s : State) (b : Bool) (f : Flag) :
    (s.raiseIf b f).overflows = s.overflows := by cases b <;> rfl
@[simp] theorem State.raiseIf_waiting (s : State) (b : Bool) (f : Flag) :
    (s.raiseIf b f).waiting = s.waiting := by cases b <;> rfl
@[simp] theorem State.raiseIf_awards (s : State) (b : Bool) (f : Flag) :
    (s.raiseIf b f).awards = s.awards := by cases b <;> rfl
@[simp] theorem State.raiseIf_engine (s : State) (b : Bool) (f : Flag) :
    (s.raiseIf b f).engine = s.engine := by cases b <;> rfl
@[simp] theorem State.raiseIf_dueExpiries (s : State) (b : Bool) (f : Flag) :
    (s.raiseIf b f).dueExpiries = s.dueExpiries := by cases b <;> rfl
@[simp] theorem State.raiseIf_releaseDue (s : State) (b : Bool) (f : Flag) :
    (s.raiseIf b f).releaseDue = s.releaseDue := by cases b <;> rfl
@[simp] theorem State.raiseIf_clearing (s : State) (b : Bool) (f : Flag) :
    (s.raiseIf b f).clearing = s.clearing := by cases b <;> rfl
@[simp] theorem State.raiseIf_timebase (s : State) (b : Bool) (f : Flag) :
    (s.raiseIf b f).timebase = s.timebase := by cases b <;> rfl
@[simp] theorem State.raiseIf_walker (s : State) (b : Bool) (f : Flag) :
    (s.raiseIf b f).walker = s.walker := by cases b <;> rfl
@[simp] theorem State.raiseIf_linkUp (s : State) (b : Bool) (f : Flag) :
    (s.raiseIf b f).linkUp = s.linkUp := by cases b <;> rfl
@[simp] theorem State.raiseIf_inbound (s : State) (b : Bool) (f : Flag) :
    (s.raiseIf b f).inbound = s.inbound := by cases b <;> rfl
@[simp] theorem State.raiseIf_outbound (s : State) (b : Bool) (f : Flag) :
    (s.raiseIf b f).outbound = s.outbound := by cases b <;> rfl
@[simp] theorem State.raiseIf_lkoSent (s : State) (b : Bool) (f : Flag) :
    (s.raiseIf b f).lkoSent = s.lkoSent := by cases b <;> rfl
@[simp] theorem State.station_raiseIf (s : State) (b : Bool) (f : Flag) (h : Handle) :
    (s.raiseIf b f).station h = s.station h := by cases b <;> rfl

end Sys2Proof.Machine
end

