-- ==== Sys2Proof/Laws/Frame.lean ====
section
/-!
SUPPORT. What the ring operations leave unchanged: each of them keeps `beyondRings`, the state but for
rings, overflow lists, places, waiting counts and the OVERFLOW flag. A visit that writes a record back
changes, beyond that, the record alone.
-/

namespace Sys2Proof.Machine

/-! ### Reading a state beyond its rings -/

theorem Vector.map_set_eq {α β : Type} {n : Nat} (v : Vector α n) (i : Nat) (lt : i < n) (x : α)
    (f : α → β) : (v.set i x).map f = (v.map f).set i (f x) := by
  ext j hj
  by_cases e : i = j
  · subst e; simp
  · simp [Vector.getElem_set_ne _ _ e]

theorem State.beyondRings_setStation (s : State) (h : Handle) (r : StationRecord) :
    (s.setStation h r).beyondRings = s.beyondRings.setStation h r.unplaced := by
  simp only [State.beyondRings, State.setStation, Vector.map_set_eq]

theorem State.station_beyondRings (s : State) (h : Handle) :
    s.beyondRings.station h = (s.station h).unplaced := by
  simp [State.beyondRings, State.station]

/-- Writing a record that differs in its places only changes nothing beyond the rings. -/
theorem State.beyondRings_place (s : State) (h : Handle) (r : StationRecord)
    (same : r.unplaced = (s.station h).unplaced) : (s.setStation h r).beyondRings = s.beyondRings := by
  rw [State.beyondRings_setStation, same, ← State.station_beyondRings, State.setStation_station]

@[simp] theorem State.beyondRings_setRing (s : State) (c : ServiceClass) (r : Ring) :
    (s.setRing c r).beyondRings = s.beyondRings := rfl
@[simp] theorem State.beyondRings_setOverflowList (s : State) (c : ServiceClass) (l : OverflowList) :
    (s.setOverflowList c l).beyondRings = s.beyondRings := rfl
@[simp] theorem State.beyondRings_adjustWaiting (s : State) (c : ServiceClass) (a b : Bool) :
    (s.adjustWaiting c a b).beyondRings = s.beyondRings := rfl
@[simp] theorem State.beyondRings_resetRings (s : State) :
    s.resetRings.beyondRings = s.beyondRings := rfl
@[simp] theorem State.beyondRings_raise_overflow (s : State) :
    (s.raise .overflow).beyondRings = s.beyondRings := rfl

@[simp] theorem State.beyondRings_setRingSlot (s : State) (h : Handle) (c : ServiceClass)
    (x : Option (BitVec 8)) : (s.setRingSlot h c x).beyondRings = s.beyondRings :=
  State.beyondRings_place s h _ rfl
@[simp] theorem State.beyondRings_setPlace (s : State) (h : Handle) (c : ServiceClass)
    (x : Option OverflowPlace) : (s.setPlace h c x).beyondRings = s.beyondRings :=
  State.beyondRings_place s h _ rfl
@[simp] theorem State.beyondRings_setPlaceNext (s : State) (h : Handle) (c : ServiceClass)
    (x : Option Handle) : (s.setPlaceNext h c x).beyondRings = s.beyondRings :=
  State.beyondRings_setPlace s h c _
@[simp] theorem State.beyondRings_setPlacePrev (s : State) (h : Handle) (c : ServiceClass)
    (x : Option Handle) : (s.setPlacePrev h c x).beyondRings = s.beyondRings :=
  State.beyondRings_setPlace s h c _

/-! ### The ring operations -/

@[simp] theorem State.writeTail_frame (s : State) (c : ServiceClass) (h : Handle) :
    (s.writeTail c h).beyondRings = s.beyondRings := by
  rw [State.writeTail, State.beyondRings_setRingSlot, State.beyondRings_setRing]

@[simp] theorem State.makeHole_frame (s : State) (c : ServiceClass) (h : Handle) (i : BitVec 8) :
    (s.makeHole c h i).beyondRings = s.beyondRings := by
  rw [State.makeHole, State.beyondRings_setRingSlot, State.beyondRings_setRing]

@[simp] theorem State.appendOverflow_frame (s : State) (c : ServiceClass) (h : Handle) :
    (s.appendOverflow c h).beyondRings = s.beyondRings := by
  simp only [State.appendOverflow, State.beyondRings_raise_overflow,
    State.beyondRings_setOverflowList, State.beyondRings_setPlace]
  split <;> simp only [State.beyondRings_setPlaceNext]

@[simp] theorem State.unlinkOverflow_frame (s : State) (c : ServiceClass) (h : Handle)
    (p : OverflowPlace) : (s.unlinkOverflow c h p).beyondRings = s.beyondRings := by
  simp only [State.unlinkOverflow, State.beyondRings_setOverflowList, State.beyondRings_setPlace]
  split <;> split <;> simp only [State.beyondRings_setPlaceNext, State.beyondRings_setPlacePrev]

@[simp] theorem State.insertStation_frame (s : State) (c : ServiceClass) (h : Handle) :
    (s.insertStation c h).beyondRings = s.beyondRings := by
  unfold State.insertStation
  split <;> simp only [State.writeTail_frame, State.appendOverflow_frame]

@[simp] theorem State.promote_frame (s : State) (c : ServiceClass) :
    (s.promote c).beyondRings = s.beyondRings := by
  unfold State.promote
  split
  · split
    · rfl
    · split <;> simp only [State.writeTail_frame, State.unlinkOverflow_frame]
  · rfl

@[simp] theorem State.placeStation_frame (s : State) (h : Handle) (c : ServiceClass) :
    (s.placeStation h c).beyondRings = s.beyondRings := by
  unfold State.placeStation
  dsimp only
  repeat' split
  all_goals simp only [State.insertStation_frame, State.makeHole_frame, State.unlinkOverflow_frame]

@[simp] theorem State.reevaluateIn_frame (s : State) (h : Handle) (before : StationRecord)
    (c : ServiceClass) : (s.reevaluateIn h before c).beyondRings = s.beyondRings := by
  rw [State.reevaluateIn, State.placeStation_frame, State.beyondRings_adjustWaiting]

@[simp] theorem State.reevaluate_frame (s : State) (h : Handle) (before : StationRecord) :
    (s.reevaluate h before).beyondRings = s.beyondRings := by
  simp only [State.reevaluate, State.reevaluateIn_frame]

/-- Beyond the rings, a visit that writes its record back changes that record only (R16, R65). -/
@[simp] theorem State.writeBack_frame (s : State) (h : Handle) (r : StationRecord) :
    (s.writeBack h r).beyondRings = (s.setStation h r).beyondRings := by
  unfold State.writeBack
  split <;> simp only [State.reevaluate_frame]

@[simp] theorem State.advanceHead_frame (s : State) (c : ServiceClass) :
    (s.advanceHead c).beyondRings = s.beyondRings := by
  simp only [State.advanceHead, State.promote_frame, State.beyondRings_setRing]

@[simp] theorem State.discardHoles_frame (fuel : Nat) (s : State) (c : ServiceClass) :
    (State.discardHoles fuel s c).beyondRings = s.beyondRings := by
  induction fuel generalizing s with
  | zero => rfl
  | succ n ih =>
    unfold State.discardHoles
    split
    · rfl
    · split
      · rfl
      · rw [ih, State.advanceHead_frame]

/-- Discarding holes changes nothing beyond the rings (R69). -/
@[simp] theorem State.clearHead_frame (s : State) (c : ServiceClass) :
    (s.clearHead c).beyondRings = s.beyondRings := State.discardHoles_frame 256 s c

/-! ### What equality beyond the rings gives -/

theorem State.requests_of_frame {s t : State} (same : t.beyondRings = s.beyondRings) :
    t.requests = s.requests := (congrArg State.requests same : t.beyondRings.requests = s.beyondRings.requests)

theorem State.executing_of_frame {s t : State} (same : t.beyondRings = s.beyondRings) :
    t.executing = s.executing := (congrArg State.executing same : t.beyondRings.executing = s.beyondRings.executing)

theorem State.responses_of_frame {s t : State} (same : t.beyondRings = s.beyondRings) :
    t.responses = s.responses := (congrArg State.responses same : t.beyondRings.responses = s.beyondRings.responses)

theorem State.freeHead_of_frame {s t : State} (same : t.beyondRings = s.beyondRings) :
    t.freeHead = s.freeHead := (congrArg State.freeHead same : t.beyondRings.freeHead = s.beyondRings.freeHead)

theorem State.freeTail_of_frame {s t : State} (same : t.beyondRings = s.beyondRings) :
    t.freeTail = s.freeTail := (congrArg State.freeTail same : t.beyondRings.freeTail = s.beyondRings.freeTail)

theorem State.buckets_of_frame {s t : State} (same : t.beyondRings = s.beyondRings) :
    t.buckets = s.buckets := (congrArg State.buckets same : t.beyondRings.buckets = s.beyondRings.buckets)

theorem State.rules_of_frame {s t : State} (same : t.beyondRings = s.beyondRings) :
    t.rules = s.rules := (congrArg State.rules same : t.beyondRings.rules = s.beyondRings.rules)

theorem State.settings_of_frame {s t : State} (same : t.beyondRings = s.beyondRings) :
    t.settings = s.settings := (congrArg State.settings same : t.beyondRings.settings = s.beyondRings.settings)

theorem State.awards_of_frame {s t : State} (same : t.beyondRings = s.beyondRings) :
    t.awards = s.awards := (congrArg State.awards same : t.beyondRings.awards = s.beyondRings.awards)

theorem State.engine_of_frame {s t : State} (same : t.beyondRings = s.beyondRings) :
    t.engine = s.engine := (congrArg State.engine same : t.beyondRings.engine = s.beyondRings.engine)

theorem State.clearing_of_frame {s t : State} (same : t.beyondRings = s.beyondRings) :
    t.clearing = s.clearing := (congrArg State.clearing same : t.beyondRings.clearing = s.beyondRings.clearing)

theorem State.timebase_of_frame {s t : State} (same : t.beyondRings = s.beyondRings) :
    t.timebase = s.timebase := (congrArg State.timebase same : t.beyondRings.timebase = s.beyondRings.timebase)

theorem State.walker_of_frame {s t : State} (same : t.beyondRings = s.beyondRings) :
    t.walker = s.walker := (congrArg State.walker same : t.beyondRings.walker = s.beyondRings.walker)

theorem State.inbound_of_frame {s t : State} (same : t.beyondRings = s.beyondRings) :
    t.inbound = s.inbound := (congrArg State.inbound same : t.beyondRings.inbound = s.beyondRings.inbound)

theorem State.outbound_of_frame {s t : State} (same : t.beyondRings = s.beyondRings) :
    t.outbound = s.outbound := (congrArg State.outbound same : t.beyondRings.outbound = s.beyondRings.outbound)

theorem State.counters_of_frame {s t : State} (same : t.beyondRings = s.beyondRings) :
    t.counters = s.counters := (congrArg State.counters same : t.beyondRings.counters = s.beyondRings.counters)

theorem State.entry_of_frame {s t : State} (same : t.beyondRings = s.beyondRings) (id : AwardId) :
    t.entry id = s.entry id := by
  simp only [State.entry, State.awards_of_frame same]

/-- Updates beyond the rings keep equality beyond the rings. -/
theorem State.engine_frame {s t : State} (same : t.beyondRings = s.beyondRings) (e : EngineItem) :
    ({ t with engine := e } : State).beyondRings = ({ s with engine := e } : State).beyondRings := by
  show { t.beyondRings with engine := e } = { s.beyondRings with engine := e }
  rw [same]

theorem State.setEntry_frame {s t : State} (same : t.beyondRings = s.beyondRings) (id : AwardId)
    (e : AwardEntry) : (t.setEntry id e).beyondRings = (s.setEntry id e).beyondRings := by
  show t.beyondRings.setEntry id e = s.beyondRings.setEntry id e
  rw [same]

theorem State.respond_frame {s t : State} (same : t.beyondRings = s.beyondRings) (status : Status)
    (clamped : Bool) (payload : List Byte) :
    (t.respond status clamped payload).beyondRings = (s.respond status clamped payload).beyondRings := by
  have on : ∀ u : State, (u.respond status clamped payload).beyondRings =
      u.beyondRings.respond status clamped payload := by
    intro u
    unfold State.respond
    rw [show u.beyondRings.requests = u.requests from rfl]
    cases u.requests <;> rfl
  rw [on, on, same]

theorem State.releaseMember_frame {s t : State} (same : t.beyondRings = s.beyondRings)
    (id : AwardId) (h : Handle) :
    (t.releaseMember id h).beyondRings = (s.releaseMember id h).beyondRings := by
  have on : ∀ u : State, (u.releaseMember id h).beyondRings = u.beyondRings.releaseMember id h := by
    intro u
    unfold State.releaseMember
    rw [show u.beyondRings.entry id = u.entry id from rfl]
    cases (u.entry id).award <;> rfl
  rw [on, on, same]

/-- Two states equal beyond the rings have the same records but for places. -/
theorem State.unplaced_of_frame {s t : State} (same : t.beyondRings = s.beyondRings) (h : Handle) :
    (t.station h).unplaced = (s.station h).unplaced := by
  rw [← State.station_beyondRings, ← State.station_beyondRings, same]

/-- Writing records with the same contents but for places keeps equality beyond the rings. -/
theorem State.setStation_frame {s t : State} (same : t.beyondRings = s.beyondRings) (h : Handle)
    {r q : StationRecord} (eq : r.unplaced = q.unplaced) :
    (t.setStation h r).beyondRings = (s.setStation h q).beyondRings := by
  rw [State.beyondRings_setStation, State.beyondRings_setStation, same, eq]

/-- Beyond the rings, a pop adds the class to the station's in-flight set (R69). -/
theorem State.popHead_frame (s : State) (c : ServiceClass) (h : Handle) :
    (s.popHead c h).beyondRings =
      (s.setStation h
        { s.station h with inFlight := (s.station h).inFlight.set c true }).beyondRings := by
  have same := State.unplaced_of_frame (State.advanceHead_frame s c) h
  simp only [State.popHead, State.changeStation_eq]
  refine State.setStation_frame (State.advanceHead_frame s c) h ?_
  generalize (s.advanceHead c).station h = r at same
  generalize s.station h = q at same
  cases r; cases q
  simp only [StationRecord.unplaced, StationRecord.mk.injEq] at same ⊢
  simp_all

/-! ### The end of a closing visit -/

/-- What R9 makes of a record written back: a DRAINING one with nothing in flight becomes COOLING. -/
def StationRecord.cooled (r : StationRecord) (coolEpochs : Nat) : StationRecord :=
  if r.state = .draining ∧ r.inFlight = ClassSet.none then
    { r with state := .cooling, coolCountdown := coolEpochs }
  else r

theorem State.drained_frame (s : State) (h : Handle) (r : StationRecord) :
    ((s.writeBack h r).drained h).beyondRings =
      (s.setStation h (r.cooled s.settings.coolEpochs)).beyondRings := by
  have frame := State.writeBack_frame s h r
  have same := State.unplaced_of_frame frame h
  rw [State.station_setStation_same] at same
  have settings : (s.writeBack h r).settings = (s.setStation h r).settings :=
    State.settings_of_frame frame
  have state : ((s.writeBack h r).station h).state = r.state :=
    (congrArg StationRecord.state same : StationRecord.state (StationRecord.unplaced _) = _)
  have inFlight : ((s.writeBack h r).station h).inFlight = r.inFlight :=
    (congrArg StationRecord.inFlight same : StationRecord.inFlight (StationRecord.unplaced _) = _)
  unfold State.drained StationRecord.cooled
  dsimp only
  by_cases cools : r.state = .draining ∧ r.inFlight = ClassSet.none
  · rw [if_pos (by rw [state, inFlight]; exact cools), if_pos cools, settings, State.setStation_settings]
    refine (State.setStation_frame frame h
      (q := { r with state := .cooling, coolCountdown := s.settings.coolEpochs }) ?_).trans ?_
    · generalize (s.writeBack h r).station h = q at same
      cases q; cases r
      simp_all [StationRecord.unplaced]
    · simp [State.setStation]
  · rw [if_neg (by rw [state, inFlight]; exact cools), if_neg cools]
    exact frame

/-- Beyond the rings, the end of a closing visit writes the record, COOLING where R9 says so, and releases
the member (R95, R97). -/
theorem State.closeMember_frame (s : State) (id : AwardId) (h : Handle) (r : StationRecord) :
    (s.closeMember id h r).beyondRings =
      ((s.releaseMember id h).setStation h (r.cooled s.settings.coolEpochs)).beyondRings := by
  rw [State.closeMember, State.releaseMember_frame (State.drained_frame s h r)]
  unfold State.releaseMember
  rw [show ∀ q, (s.setStation h q).entry id = s.entry id from fun _ => rfl]
  cases (s.entry id).award <;> rfl

end Sys2Proof.Machine
end

