-- ==== Sys2Proof/Laws/Visits.lean ====
section
/-!
SUPPORT. What the operations shared by many commands can do: a visit through the table port, the start
and end of a request, the taking of a message, and the passing of time.
-/

namespace Sys2Proof.Machine

/-! ### Visits (R16, R17) -/

/-- A visit that is due and granted is made whole, and no longer waits. -/
theorem State.visit_granted {s : State} {r : Requester} {asks : PortAsks} {due : Bool}
    {work : State → State} (run : s.resetLow = false) (isDue : due = true)
    (grant : s.grants r asks = true) : s.visit r asks due work = work (s.granted r asks) := by
  simp [State.visit, State.granted, run, isDue, grant]

/-- A visit that is due and not granted keeps waiting, and nothing else changes. -/
theorem State.visit_waits {s : State} {r : Requester} {asks : PortAsks} {due : Bool}
    {work : State → State} (run : s.resetLow = false) (isDue : due = true)
    (grant : s.grants r asks = false) :
    s.visit r asks due work = { s with tablePort := s.arrivals r asks } := by
  simp [State.visit, run, isDue, grant]

/-- A visit that is not due changes nothing. -/
theorem State.visit_notDue (s : State) (r : Requester) (asks : PortAsks) (work : State → State) :
    s.visit r asks false work = s := by
  simp [State.visit]

/-- Nothing is visited while RESET_N is low. -/
theorem State.visit_reset {s : State} (low : s.resetLow = true) (r : Requester) (asks : PortAsks)
    (due : Bool) (work : State → State) : s.visit r asks due work = s := by
  simp [State.visit, low]

theorem State.engineVisit_granted {s : State} {kind : EngineVisit} {asks : PortAsks}
    {work : State → State} (run : s.resetLow = false) (isDue : s.engine.visit = some kind)
    (grant : s.grants .award asks = true) :
    s.engineVisit kind asks work = work (s.granted .award asks) :=
  State.visit_granted run (by simp [isDue]) grant

theorem State.requestVisit_granted {s : State} {kind : RequestVisit} {asks : PortAsks}
    {work : State → State} (run : s.resetLow = false) (isDue : s.executing.visit = some kind)
    (grant : s.grants .request asks = true) :
    s.requestVisit kind asks work = work (s.granted .request asks) :=
  State.visit_granted run (by simp [isDue]) grant

/-- Whatever a visit comes to, the state after is the state before, a state that waits, or the work on a
granted visit. -/
theorem State.visit_cases (s : State) (r : Requester) (asks : PortAsks) (due : Bool)
    (work : State → State) :
    s.visit r asks due work = s ∨ s.visit r asks due work = { s with tablePort := s.arrivals r asks } ∨
      (s.resetLow = false ∧ due = true ∧ s.grants r asks = true ∧
        s.visit r asks due work = work (s.granted r asks)) := by
  by_cases low : s.resetLow = true
  · exact Or.inl (State.visit_reset low r asks due work)
  · have run : s.resetLow = false := by simpa using low
    cases due with
    | false => exact Or.inl (State.visit_notDue s r asks work)
    | true =>
      by_cases grant : s.grants r asks = true
      · exact Or.inr (Or.inr ⟨run, rfl, grant, State.visit_granted run rfl grant⟩)
      · exact Or.inr (Or.inl (State.visit_waits run rfl (by simpa using grant)))

/-! ### Requests (R141, R142, R147) -/

/-- The end of an executing request frees its slot and enters its response. -/
theorem State.respond_eq {s : State} {q : Request} {rest : List Request}
    (head : s.requests = q :: rest) (status : Status) (clamped : Bool) (payload : List Byte) :
    s.respond status clamped payload = s.responded q.kind status clamped payload := by
  simp [State.respond, State.responded, head]

/-- A request whose form the command names starts when it may. -/
theorem State.startForm_eq {s : State} {q : Request} {rest : List Request}
    {form : Option RequestKind} (run : s.resetLow = false) (idle : s.executing = .idle)
    (room : s.responses.length < 4) (head : s.requests = q :: rest) (isForm : q.form = form) :
    s.startForm form = s.start q := by
  have may : s.canStart = true := by simp [State.canStart, run, idle, Config.queueSlots, room]
  simp [State.startForm, head, isForm, State.startHead, may]

/-! ### Taking a message (R80, R126, R128) -/

/-- A free engine on a link that is UP takes the message at the head. -/
theorem State.takeItem_eq {s : State} {m : InMessage} {rest : List InMessage}
    (run : s.resetLow = false) (up : s.linkUp = true) (free : s.engine = .idle)
    (head : s.inbound = m :: rest) (work : InMessage → Option (State → State)) :
    s.takeItem work =
      match work m with
      | none => s
      | some f => f { s with inbound := rest } := by
  have may : (s.engineFree && s.linkUp) = true := by simp [State.engineFree, run, up, free]
  have took : s.takeMessage = { s with inbound := rest } := by simp [State.takeMessage, head]
  cases given : work m <;> simp [State.takeItem, may, head, took, given]

/-! ### The passing of time (R98, R105) -/

theorem add_distance (now later : Word) : now + BitVec.ofNat 32 (distance now later) = later := by
  rw [distance, BitVec.ofNat_toNat, BitVec.setWidth_eq, add_sub_cancel]

/-- The expiries that become due are those of the issued entries whose deadline is reached. -/
theorem State.mem_newlyDue (s : State) (n : Nat) (d : DueExpiry) :
    d ∈ s.newlyDue n ↔
      ∃ w i, (s.entry d.id).award = some w ∧ w.issue = some i ∧
        (s.entry d.id).generation = d.generation ∧
        0 < distance s.timebase i.deadline ∧ distance s.timebase i.deadline ≤ n := by
  unfold State.newlyDue
  rw [List.mem_filterMap]
  constructor
  · rintro ⟨id, _, found⟩
    cases hw : (s.entry id).award with
    | none => simp [hw] at found
    | some w =>
      cases hi : w.issue with
      | none => simp [hw, hi] at found
      | some i =>
        simp [hw, hi] at found
        obtain ⟨reached, rfl⟩ := found
        exact ⟨w, i, hw, hi, rfl, reached⟩
  · rintro ⟨w, i, hw, hi, same, reached⟩
    refine ⟨d.id, (by decide +revert : ∀ id : AwardId, id ∈ allAwardIds) d.id, ?_⟩
    simp [hw, hi, reached]
    rw [same]

/-- No time passes in 0 µs. -/
@[simp] theorem State.pass_zero (s : State) : s.pass 0 = s := by
  have none : s.newlyDue 0 = [] := by
    rw [List.eq_nil_iff_forall_not_mem]
    intro d mem
    obtain ⟨w, i, _, _, _, p, q⟩ := (State.mem_newlyDue s 0 d).mp mem
    omega
  simp [State.pass, none]

/-- Time alone moves the timebase and makes expiries due. -/
theorem State.pass_frame (s : State) (n : Nat) :
    s.pass n = { s with timebase := (s.pass n).timebase, dueExpiries := (s.pass n).dueExpiries } := rfl

end Sys2Proof.Machine
end

