-- ==== Sys2Proof/Laws/Index.lean ====
section
/-!
SUPPORT. The free list and the address index: a walk along lawful links visits exactly the members of the
chain, so a probe finds the indexed record that carries an address, where there is one (R11 to R14).
-/

namespace Sys2Proof.Machine

/-- A walk along a chain visits its members in order. -/
theorem State.walk_chained (s : State) (link : StationRecord → Option Handle) (fuel : Nat)
    {members : List Handle} (law : Chained (fun h => link (s.station h)) members) :
    s.walk fuel link members.head? = members.take fuel := by
  induction fuel generalizing members with
  | zero => simp [State.walk]
  | succ n ih =>
    cases members with
    | nil => simp [State.walk]
    | cons h t =>
      obtain ⟨hd, tl⟩ := law
      simp only [List.head?_cons, State.walk, List.take_succ_cons, List.cons.injEq, true_and]
      dsimp only at hd
      rw [hd]
      exact ih tl

/-- A walk reads the records only. -/
theorem State.walk_congr {s t : State} (same : ∀ h, t.station h = s.station h) (fuel : Nat)
    (link : StationRecord → Option Handle) (h : Option Handle) :
    t.walk fuel link h = s.walk fuel link h := by
  induction fuel generalizing h with
  | zero => rfl
  | succ n ih =>
    cases h with
    | none => rfl
    | some k => simp only [State.walk, same, ih]

/-- A probe reads the records and the bucket heads only. -/
theorem State.probe_congr {s t : State} (stations : t.stations = s.stations)
    (buckets : t.buckets = s.buckets) (a : BitVec 48) : t.probe a = s.probe a := by
  have same : ∀ h, t.station h = s.station h := fun h => by
    simp only [State.station, stations]
  simp only [State.probe, State.chain, State.bucketHead, buckets, State.walk_congr same, same]

/-- A list of handles, each once, has at most 512 members. -/
theorem length_le_of_nodup {members : List Handle} (nodup : members.Nodup) : members.length ≤ 512 := by
  have := nodup.length_le_card
  simpa using this

theorem State.walk_members (s : State) (link : StationRecord → Option Handle) {members : List Handle}
    (nodup : members.Nodup) (law : Chained (fun h => link (s.station h)) members) :
    s.walk 512 link members.head? = members := by
  rw [State.walk_chained s link 512 law, List.take_of_length_le (length_le_of_nodup nodup)]

/-- A probe of a lawful index answers with the indexed record that carries the address (R14). -/
theorem State.probe_eq_some {s : State} (law : s.IndexLawful) {a : BitVec 48} {h : Handle}
    (isIndexed : (s.station h).indexed = true)
    (carries : (s.station h).descriptor.linkAddress = a) : s.probe a = some h := by
  obtain ⟨members, nodup, head, mem, chained⟩ := law.chains (bucketOf a)
  have chain : s.chain (bucketOf a) = members := by
    rw [State.chain, head]
    exact s.walk_members (·.nextInBucket) nodup chained
  have isMember : h ∈ members := (mem h).mpr ⟨isIndexed, by rw [carries]⟩
  unfold State.probe
  rw [chain]
  cases found : members.find? fun k => (s.station k).descriptor.linkAddress == a with
  | none =>
    have := List.find?_eq_none.mp found h isMember
    simp [carries] at this
  | some k =>
    have km := List.mem_of_find?_eq_some found
    have kc := List.find?_some found
    simp only [beq_iff_eq] at kc
    rw [law.distinct k h ((mem k).mp km).1 isIndexed (kc.trans carries.symm)]

/-- A probe of a lawful index answers with none when no indexed record carries the address (R14). -/
theorem State.probe_eq_none {s : State} (law : s.IndexLawful) {a : BitVec 48}
    (free : ∀ h, (s.station h).indexed = true → (s.station h).descriptor.linkAddress ≠ a) :
    s.probe a = none := by
  obtain ⟨members, nodup, head, mem, chained⟩ := law.chains (bucketOf a)
  have chain : s.chain (bucketOf a) = members := by
    rw [State.chain, head]
    exact s.walk_members (·.nextInBucket) nodup chained
  unfold State.probe
  rw [chain, List.find?_eq_none]
  intro h isMember
  simpa using free h ((mem h).mp isMember).1

/-- The free list of a lawful state is its FREE records (R11). -/
theorem State.freeList_members {s : State} (law : s.FreeListLawful) :
    s.freeList.Nodup ∧ ∀ h, h ∈ s.freeList ↔ (s.station h).state = .free := by
  obtain ⟨members, nodup, head, tail, mem, chained, _⟩ := law.list
  have list : s.freeList = members := by
    rw [State.freeList, head]
    exact s.walk_members (·.nextFree) nodup chained
  rw [list]
  exact ⟨nodup, mem⟩

end Sys2Proof.Machine
end

