-- ==== Sys2Proof/Laws/Chains.lean ====
section
/-!
SUPPORT. Chains of records: the operations on the free list and on the address index keep a chain linked in
order (R11 to R13).
-/

namespace Sys2Proof.Machine

/-! ### Chains -/

/-- The members are linked in order, the last to `next`. -/
def ChainedTo (link : Handle → Option Handle) : List Handle → Option Handle → Prop
  | [], _ => True
  | h :: rest, next => link h = rest.head?.or next ∧ ChainedTo link rest next

theorem chained_iff {link : Handle → Option Handle} {l : List Handle} :
    Chained link l ↔ ChainedTo link l none := by
  induction l with
  | nil => rfl
  | cons h t ih => simp [Chained, ChainedTo, ih]

theorem ChainedTo.append {link : Handle → Option Handle} {a b : List Handle} {next : Option Handle} :
    ChainedTo link (a ++ b) next ↔ ChainedTo link a (b.head?.or next) ∧ ChainedTo link b next := by
  induction a with
  | nil => simp [ChainedTo]
  | cons h t ih =>
    simp only [List.cons_append, ChainedTo, ih, and_assoc]
    cases t <;> simp

theorem ChainedTo.congr {link link' : Handle → Option Handle} {l : List Handle} {next : Option Handle}
    (law : ChainedTo link l next) (same : ∀ h ∈ l, link' h = link h) : ChainedTo link' l next := by
  induction l with
  | nil => trivial
  | cons h t ih =>
    exact ⟨(same h (by simp)).trans law.1, ih law.2 fun k hk => same k (by simp [hk])⟩

/-- A chain, member by member: each is linked to the next. -/
theorem chained_of_getElem {link : Handle → Option Handle} {l : List Handle}
    (each : ∀ (i : Nat) (lt : i < l.length), link l[i] = l[i + 1]?) : Chained link l := by
  induction l with
  | nil => trivial
  | cons h t ih =>
    refine ⟨?_, ih fun i lt => ?_⟩
    · have := each 0 (by simp)
      simpa [List.head?_eq_getElem?] using this
    · have := each (i + 1) (by simpa using lt)
      simpa using this

/-- In a chain, each member is linked to the next. -/
theorem Chained.getElem? {link : Handle → Option Handle} {l : List Handle} (law : Chained link l) (i : Nat)
    (lt : i < l.length) : link l[i] = l[i + 1]? := by
  induction l generalizing i with
  | nil => exact absurd lt (by simp)
  | cons h t ih =>
    cases i with
    | zero => simpa [List.head?_eq_getElem?] using law.1
    | succ i => simpa using ih law.2 i (by simpa using lt)

theorem Chained.congr {link link' : Handle → Option Handle} {l : List Handle} (law : Chained link l)
    (same : ∀ h ∈ l, link' h = link h) : Chained link' l :=
  chained_iff.mpr ((chained_iff.mp law).congr same)

/-- A member leaves a chain: the member before it takes its link. -/
theorem Chained.unlink {link link' : Handle → Option Handle} {a b : List Handle} {h : Handle}
    (law : Chained link (a ++ h :: b)) (nodup : (a ++ h :: b).Nodup)
    (last : ∀ x, a.getLast? = some x → link' x = link h)
    (same : ∀ k, k ∈ a ++ b → a.getLast? ≠ some k → link' k = link k) : Chained link' (a ++ b) := by
  rw [chained_iff] at law ⊢
  rw [ChainedTo.append] at law ⊢
  obtain ⟨la, lh, lb⟩ := law
  have out : ∀ k ∈ b, k ∉ a := fun k kb ka =>
    (List.nodup_append.mp nodup).2.2 k ka k (by simp [kb]) rfl
  refine ⟨?_, lb.congr fun k hk => same k (by simp [hk]) fun e =>
    out k hk (List.mem_of_getLast? e)⟩
  rcases List.eq_nil_or_concat a with rfl | ⟨c, x, rfl⟩
  · trivial
  · rw [List.concat_eq_append] at *
    have lx := last x (by simp)
    rw [ChainedTo.append] at la ⊢
    have nx : x ∉ c := fun hx => by
      have := (List.nodup_append.mp (List.nodup_append.mp nodup).1).2.2 x hx x (by simp)
      exact this rfl
    refine ⟨la.1.congr fun k hk => same k (by simp [hk]) ?_, ?_, trivial⟩
    · simp only [List.getLast?_append, List.getLast?_singleton, Option.some_or, ne_eq,
        Option.some.injEq]
      rintro rfl
      exact nx hk
    · rw [lx]
      simpa using lh

/-- A member joins a chain after another. -/
theorem Chained.insert {link link' : Handle → Option Handle} {a b : List Handle} {x h : Handle}
    (law : Chained link (a ++ x :: b)) (new : link' h = link x) (at_ : link' x = some h)
    (same : ∀ k, k ∈ a ++ b → link' k = link k) : Chained link' (a ++ x :: h :: b) := by
  rw [chained_iff] at law ⊢
  rw [ChainedTo.append] at law ⊢
  obtain ⟨la, lx, lb⟩ := law
  refine ⟨by simpa using la.congr fun k hk => same k (by simp [hk]), ?_, ?_, ?_⟩
  · simpa using at_
  · rw [new]; exact lx
  · exact lb.congr fun k hk => same k (by simp [hk])

theorem predecessorIn_append {a b : List Handle} {h : Handle} (nodup : (a ++ h :: b).Nodup) :
    predecessorIn h (a ++ h :: b) = a.getLast? := by
  induction a with
  | nil =>
    cases b with
    | nil => rfl
    | cons y t =>
      have ne : ∀ l : List Handle, h ∉ l → predecessorIn h l = none := by
        intro l
        induction l with
        | nil => intro _; rfl
        | cons p l ih =>
          intro out
          cases l with
          | nil => rfl
          | cons q l =>
            have hq : q ≠ h := fun e => out (by simp [e])
            rw [predecessorIn, if_neg hq]
            exact ih fun m => out (by simp [m])
      obtain ⟨out, _⟩ := List.nodup_cons.mp nodup
      have hy : y ≠ h := fun e => out (by simp [e])
      show predecessorIn h (h :: y :: t) = none
      rw [predecessorIn, if_neg hy]
      exact ne _ out
  | cons p l ih =>
    obtain ⟨out, nd⟩ := List.nodup_cons.mp nodup
    have rest := ih nd
    cases l with
    | nil =>
      show predecessorIn h (p :: h :: b) = some p
      rw [predecessorIn, if_pos rfl]
    | cons q l =>
      have hq : q ≠ h := by
        rintro rfl
        exact (List.nodup_cons.mp nd).1 (by simp)
      show predecessorIn h (p :: q :: (l ++ h :: b)) = (p :: q :: l).getLast?
      rw [predecessorIn, if_neg hq, List.getLast?_cons_cons]
      exact rest

/-! ### The free list (R11) -/

/-- A change of records that leaves the members' links leaves the free list. -/
theorem State.FreeOrder.congr {s t : State} {members : List Handle} (law : s.FreeOrder members)
    (head : t.freeHead = s.freeHead) (tail : t.freeTail = s.freeTail)
    (same : ∀ h ∈ members, (t.station h).nextFree = (s.station h).nextFree) : t.FreeOrder members :=
  ⟨law.nodup, head.trans law.head, tail.trans law.tail, law.linked.congr same⟩

theorem State.FreeOrder.freeList {s : State} {members : List Handle} (law : s.FreeOrder members) :
    s.freeList = members := by
  rw [State.freeList, law.head]
  exact s.walk_members (·.nextFree) law.nodup law.linked

/-- The taking of the head (R11 (a)). -/
theorem State.FreeOrder.takeFree {s : State} {h : Handle} {rest : List Handle}
    (law : s.FreeOrder (h :: rest)) : (s.takeFree h).FreeOrder rest := by
  obtain ⟨out, nodup⟩ := List.nodup_cons.mp law.nodup
  have next : (s.station h).nextFree = rest.head? := law.linked.1
  refine ⟨nodup, next, ?_, law.linked.2.congr fun k hk => ?_⟩
  · show (if ((s.station h).nextFree).isNone then none else s.freeTail) = rest.getLast?
    rw [next, law.tail]
    cases rest with
    | nil => rfl
    | cons y t => simp [List.getLast?_cons_cons]
  · have ne : k ≠ h := fun e => out (e ▸ hk)
    show ((s.setNextFree h none).station k).nextFree = _
    rw [State.setNextFree_eq, State.station_setStation_ne s ne]

/-- A record comes to the head (R11 (b)). -/
theorem State.FreeOrder.freeAtHead {s : State} {members : List Handle} (law : s.FreeOrder members)
    {h : Handle} (out : h ∉ members) : (s.freeAtHead h).FreeOrder (h :: members) := by
  have station : ∀ k, (s.freeAtHead h).station k =
      (s.setStation h { StationRecord.cleared with nextFree := s.freeHead }).station k := fun _ => rfl
  refine ⟨List.nodup_cons.mpr ⟨out, law.nodup⟩, rfl, ?_, ?_, law.linked.congr fun k hk => ?_⟩
  · show (if (s.freeHead).isNone then some h else s.freeTail) = (h :: members).getLast?
    rw [law.head, law.tail]
    cases members with
    | nil => rfl
    | cons y t => simp [List.getLast?_cons_cons]
  · dsimp only
    rw [station, State.station_setStation_same]
    exact law.head
  · have ne : k ≠ h := fun e => out (e ▸ hk)
    rw [station, State.station_setStation_ne s ne]

/-- A record comes to the tail (R11 (c)). -/
theorem State.FreeOrder.freeAtTail {s : State} {members : List Handle} (law : s.FreeOrder members)
    {h : Handle} (out : h ∉ members) : (s.freeAtTail h).FreeOrder (members ++ [h]) := by
  have nodup : (members ++ [h]).Nodup :=
    List.nodup_append.mpr ⟨law.nodup, List.nodup_singleton h, by
      intro a ha b hb e
      rw [List.mem_singleton] at hb
      exact out (hb ▸ e ▸ ha)⟩
  rcases List.eq_nil_or_concat members with rfl | ⟨c, x, rfl⟩
  · have tail : s.freeTail = none := law.tail
    refine ⟨nodup, ?_, ?_, ?_, trivial⟩
    · simp [State.freeAtTail, tail]
    · simp [State.freeAtTail, tail]
    · have : (s.freeAtTail h).station h = (s.setStation h StationRecord.cleared).station h := by
        simp only [State.freeAtTail, State.setStation_freeTail, tail]
        rfl
      show ((s.freeAtTail h).station h).nextFree = none
      rw [this, State.station_setStation_same]
      rfl
  · rw [List.concat_eq_append] at *
    have tail : s.freeTail = some x := law.tail.trans (by simp)
    have ne : x ≠ h := fun e => out (by simp [e])
    have eq : s.freeAtTail h =
        { (s.setStation h StationRecord.cleared).setNextFree x (some h) with freeTail := some h } := by
      simp only [State.freeAtTail, State.setStation_freeTail, tail]
    have station : ∀ k, (s.freeAtTail h).station k =
        ((s.setStation h StationRecord.cleared).setNextFree x (some h)).station k := fun k => by
      rw [eq]; rfl
    have linkH : ((s.freeAtTail h).station h).nextFree = none := by
      rw [station, State.setNextFree_eq, State.station_setStation_ne _ ne.symm,
        State.station_setStation_same]
      rfl
    have linkX : ((s.freeAtTail h).station x).nextFree = some h := by
      rw [station, State.setNextFree_eq, State.station_setStation_same]
    have same : ∀ k, k ≠ h → k ≠ x →
        ((s.freeAtTail h).station k).nextFree = (s.station k).nextFree := fun k kh kx => by
      rw [station, State.setNextFree_eq, State.station_setStation_ne _ kx,
        State.station_setStation_ne _ kh]
    have lx : (s.station x).nextFree = none := by
      have := chained_iff.mp law.linked
      rw [ChainedTo.append] at this
      simpa using this.2.1
    refine ⟨nodup, ?_, ?_, ?_⟩
    · rw [eq]
      show s.freeHead = _
      rw [law.head]
      cases c <;> rfl
    · rw [eq]; simp
    · have := Chained.insert (b := []) law.linked (link' := fun k =>
        ((s.freeAtTail h).station k).nextFree) (h := h) (by rw [linkH, lx]) linkX fun k hk => by
          have kc : k ∈ c := by simpa using hk
          refine same k (fun e => out (by simp [← e, kc])) fun e => ?_
          have := (List.nodup_append.mp law.nodup).2.2 x (e ▸ kc) x (by simp)
          exact this rfl
      simpa using this

/-- A record leaves the free list, wherever it stands. -/
theorem State.FreeOrder.unlinkFree {s : State} {a b : List Handle} {h : Handle}
    (law : s.FreeOrder (a ++ h :: b)) : (s.unlinkFree h).FreeOrder (a ++ b) := by
  have pred : predecessorIn h s.freeList = a.getLast? := by
    rw [law.freeList]; exact predecessorIn_append law.nodup
  have nodup : (a ++ b).Nodup := (List.nodup_middle.mp law.nodup).of_cons
  have out : h ∉ a ++ b := (List.nodup_cons.mp (List.nodup_middle.mp law.nodup)).1
  have linkH : (s.station h).nextFree = b.head? := by
    have := chained_iff.mp law.linked
    rw [ChainedTo.append] at this
    simpa using this.2.1
  rcases List.eq_nil_or_concat a with rfl | ⟨c, x, rfl⟩
  · have head : s.freeHead = some h := law.head
    have eq : s.unlinkFree h = { s with
        freeHead := (s.station h).nextFree
        freeTail := if s.freeTail = some h then none else s.freeTail } := by
      simp only [State.unlinkFree, pred, List.getLast?_nil, if_pos head]
    rw [eq]
    refine ⟨nodup, linkH, ?_, law.linked.2⟩
    show (if s.freeTail = some h then none else s.freeTail) = b.getLast?
    rw [law.tail]
    cases b with
    | nil => simp
    | cons y t =>
      have ne : (y :: t).getLast? ≠ some h := fun e => out (List.mem_of_getLast? e)
      simp only [List.nil_append, List.getLast?_cons_cons]
      rw [if_neg ne]
  · rw [List.concat_eq_append] at *
    have predX : predecessorIn h s.freeList = some x := by rw [pred]; simp
    have eq : s.unlinkFree h = { s.setNextFree x (s.station h).nextFree with
        freeTail := if s.freeTail = some h then some x else s.freeTail } := by
      simp only [State.unlinkFree, predX]
    have station : ∀ k, (s.unlinkFree h).station k =
        (s.setNextFree x (s.station h).nextFree).station k := fun k => by rw [eq]; rfl
    refine ⟨nodup, ?_, ?_, ?_⟩
    · rw [eq]
      show s.freeHead = _
      rw [law.head]
      cases c <;> rfl
    · rw [eq]
      show (if s.freeTail = some h then some x else s.freeTail) = _
      rw [law.tail]
      cases b with
      | nil => simp
      | cons y t =>
        have ne : (y :: t).getLast? ≠ some h := fun e =>
          out (by simp only [List.mem_append]; exact Or.inr (List.mem_of_getLast? e))
        have split : (c ++ [x] ++ h :: y :: t).getLast? = (y :: t).getLast? := by
          rw [List.getLast?_append, List.getLast?_cons_cons]
          cases hz : (y :: t).getLast? with
          | none => simp at hz
          | some z => rfl
        have split' : (c ++ [x] ++ y :: t).getLast? = (y :: t).getLast? := by
          rw [List.getLast?_append]
          cases hz : (y :: t).getLast? with
          | none => simp at hz
          | some z => rfl
        rw [split, split', if_neg ne]
    · refine law.linked.unlink law.nodup (fun y hy => ?_) fun k hk ne => ?_
      · have : x = y := by simpa using hy
        subst this
        rw [station, State.setNextFree_eq, State.station_setStation_same]
      · have kx : k ≠ x := fun e => ne (by simp [e])
        rw [station, State.setNextFree_eq, State.station_setStation_ne s kx]

/-- A record takes the place after the record below it (R11 (d), R22). -/
theorem State.FreeOrder.freeInOrder {s : State} {a b : List Handle} {x h : Handle}
    (law : s.FreeOrder (a ++ x :: b)) (below : Handle.before h = some x) (out : h ∉ a ++ x :: b) :
    (s.freeInOrder h).FreeOrder (a ++ x :: h :: b) := by
  have ne : x ≠ h := fun e => out (by simp [e])
  have linkX : (s.station x).nextFree = b.head? := by
    have := chained_iff.mp law.linked
    rw [ChainedTo.append] at this
    simpa using this.2.1
  have eq : s.freeInOrder h =
      { (s.setStation h { StationRecord.cleared with nextFree := (s.station x).nextFree }).setNextFree x
          (some h) with
        freeTail := if (s.station x).nextFree.isNone then some h else s.freeTail } := by
    simp only [State.freeInOrder, below]
    rfl
  have station : ∀ k, (s.freeInOrder h).station k =
      ((s.setStation h { StationRecord.cleared with nextFree := (s.station x).nextFree }).setNextFree x
        (some h)).station k := fun k => by rw [eq]; rfl
  have nodup : (a ++ x :: h :: b).Nodup := by
    have : (h :: (a ++ x :: b)).Nodup := List.nodup_cons.mpr ⟨out, law.nodup⟩
    have perm : (h :: (a ++ x :: b)).Perm (a ++ x :: h :: b) := by
      have middle := (List.perm_middle (a := h) (l₁ := a ++ [x]) (l₂ := b)).symm
      rwa [List.append_assoc, List.append_assoc] at middle
    exact perm.nodup_iff.mp this
  refine ⟨nodup, ?_, ?_, ?_⟩
  · rw [eq]
    show s.freeHead = _
    rw [law.head]
    cases a <;> rfl
  · rw [eq]
    show (if (s.station x).nextFree.isNone then some h else s.freeTail) = _
    rw [linkX, law.tail]
    cases b with
    | nil => simp
    | cons y t => simp [List.getLast?_append, List.getLast?_cons_cons]
  · refine Chained.insert law.linked ?_ ?_ fun k hk => ?_
    · rw [station, State.setNextFree_eq, State.station_setStation_ne _ ne.symm,
        State.station_setStation_same]
    · rw [station, State.setNextFree_eq, State.station_setStation_same]
    · have kx : k ≠ x := by
        rintro rfl
        have := List.nodup_cons.mp (List.nodup_middle.mp law.nodup)
        exact this.1 hk
      have kh : k ≠ h := by
        rintro rfl
        simp only [List.mem_append] at hk
        exact out (by simp only [List.mem_append, List.mem_cons]; tauto)
      rw [station, State.setNextFree_eq, State.station_setStation_ne _ kx,
        State.station_setStation_ne _ kh]

end Sys2Proof.Machine
end

