-- ==== Sys2Proof/Laws/Fields.lean ====
section
/-!
SUPPORT. What the shared operations leave alone: one lemma for each field an operation does not write.
-/

namespace Sys2Proof.Machine

/-! ### A record written back -/

@[simp] theorem State.writeBack_pending (s : State) (h : Handle) (r : StationRecord) :
    (s.writeBack h r).pending = s.pending :=
  (congrArg State.pending (State.writeBack_frame s h r) :)

@[simp] theorem State.writeBack_resetLow (s : State) (h : Handle) (r : StationRecord) :
    (s.writeBack h r).resetLow = s.resetLow :=
  (congrArg State.resetLow (State.writeBack_frame s h r) :)

@[simp] theorem State.writeBack_csLow (s : State) (h : Handle) (r : StationRecord) :
    (s.writeBack h r).csLow = s.csLow :=
  (congrArg State.csLow (State.writeBack_frame s h r) :)

@[simp] theorem State.writeBack_port (s : State) (h : Handle) (r : StationRecord) :
    (s.writeBack h r).port = s.port :=
  (congrArg State.port (State.writeBack_frame s h r) :)

@[simp] theorem State.writeBack_spiOut (s : State) (h : Handle) (r : StationRecord) :
    (s.writeBack h r).spiOut = s.spiOut :=
  (congrArg State.spiOut (State.writeBack_frame s h r) :)

@[simp] theorem State.writeBack_requests (s : State) (h : Handle) (r : StationRecord) :
    (s.writeBack h r).requests = s.requests :=
  (congrArg State.requests (State.writeBack_frame s h r) :)

@[simp] theorem State.writeBack_executing (s : State) (h : Handle) (r : StationRecord) :
    (s.writeBack h r).executing = s.executing :=
  (congrArg State.executing (State.writeBack_frame s h r) :)

@[simp] theorem State.writeBack_responses (s : State) (h : Handle) (r : StationRecord) :
    (s.writeBack h r).responses = s.responses :=
  (congrArg State.responses (State.writeBack_frame s h r) :)

@[simp] theorem State.writeBack_freeHead (s : State) (h : Handle) (r : StationRecord) :
    (s.writeBack h r).freeHead = s.freeHead :=
  (congrArg State.freeHead (State.writeBack_frame s h r) :)

@[simp] theorem State.writeBack_freeTail (s : State) (h : Handle) (r : StationRecord) :
    (s.writeBack h r).freeTail = s.freeTail :=
  (congrArg State.freeTail (State.writeBack_frame s h r) :)

@[simp] theorem State.writeBack_buckets (s : State) (h : Handle) (r : StationRecord) :
    (s.writeBack h r).buckets = s.buckets :=
  (congrArg State.buckets (State.writeBack_frame s h r) :)

@[simp] theorem State.writeBack_tablePort (s : State) (h : Handle) (r : StationRecord) :
    (s.writeBack h r).tablePort = s.tablePort :=
  (congrArg State.tablePort (State.writeBack_frame s h r) :)

@[simp] theorem State.writeBack_rules (s : State) (h : Handle) (r : StationRecord) :
    (s.writeBack h r).rules = s.rules :=
  (congrArg State.rules (State.writeBack_frame s h r) :)

@[simp] theorem State.writeBack_settings (s : State) (h : Handle) (r : StationRecord) :
    (s.writeBack h r).settings = s.settings :=
  (congrArg State.settings (State.writeBack_frame s h r) :)

@[simp] theorem State.writeBack_awards (s : State) (h : Handle) (r : StationRecord) :
    (s.writeBack h r).awards = s.awards :=
  (congrArg State.awards (State.writeBack_frame s h r) :)

@[simp] theorem State.writeBack_engine (s : State) (h : Handle) (r : StationRecord) :
    (s.writeBack h r).engine = s.engine :=
  (congrArg State.engine (State.writeBack_frame s h r) :)

@[simp] theorem State.writeBack_dueExpiries (s : State) (h : Handle) (r : StationRecord) :
    (s.writeBack h r).dueExpiries = s.dueExpiries :=
  (congrArg State.dueExpiries (State.writeBack_frame s h r) :)

@[simp] theorem State.writeBack_releaseDue (s : State) (h : Handle) (r : StationRecord) :
    (s.writeBack h r).releaseDue = s.releaseDue :=
  (congrArg State.releaseDue (State.writeBack_frame s h r) :)

@[simp] theorem State.writeBack_clearing (s : State) (h : Handle) (r : StationRecord) :
    (s.writeBack h r).clearing = s.clearing :=
  (congrArg State.clearing (State.writeBack_frame s h r) :)

@[simp] theorem State.writeBack_timebase (s : State) (h : Handle) (r : StationRecord) :
    (s.writeBack h r).timebase = s.timebase :=
  (congrArg State.timebase (State.writeBack_frame s h r) :)

@[simp] theorem State.writeBack_walker (s : State) (h : Handle) (r : StationRecord) :
    (s.writeBack h r).walker = s.walker :=
  (congrArg State.walker (State.writeBack_frame s h r) :)

@[simp] theorem State.writeBack_linkUp (s : State) (h : Handle) (r : StationRecord) :
    (s.writeBack h r).linkUp = s.linkUp :=
  (congrArg State.linkUp (State.writeBack_frame s h r) :)

@[simp] theorem State.writeBack_inbound (s : State) (h : Handle) (r : StationRecord) :
    (s.writeBack h r).inbound = s.inbound :=
  (congrArg State.inbound (State.writeBack_frame s h r) :)

@[simp] theorem State.writeBack_outbound (s : State) (h : Handle) (r : StationRecord) :
    (s.writeBack h r).outbound = s.outbound :=
  (congrArg State.outbound (State.writeBack_frame s h r) :)

@[simp] theorem State.writeBack_lkoSent (s : State) (h : Handle) (r : StationRecord) :
    (s.writeBack h r).lkoSent = s.lkoSent :=
  (congrArg State.lkoSent (State.writeBack_frame s h r) :)

@[simp] theorem State.writeBack_counters (s : State) (h : Handle) (r : StationRecord) :
    (s.writeBack h r).counters = s.counters :=
  (congrArg State.counters (State.writeBack_frame s h r) :)

/-! ### Holes discarded -/

@[simp] theorem State.clearHead_pending (s : State) (c : ServiceClass) :
    (s.clearHead c).pending = s.pending :=
  (congrArg State.pending (State.clearHead_frame s c) :)

@[simp] theorem State.clearHead_resetLow (s : State) (c : ServiceClass) :
    (s.clearHead c).resetLow = s.resetLow :=
  (congrArg State.resetLow (State.clearHead_frame s c) :)

@[simp] theorem State.clearHead_csLow (s : State) (c : ServiceClass) :
    (s.clearHead c).csLow = s.csLow :=
  (congrArg State.csLow (State.clearHead_frame s c) :)

@[simp] theorem State.clearHead_port (s : State) (c : ServiceClass) :
    (s.clearHead c).port = s.port :=
  (congrArg State.port (State.clearHead_frame s c) :)

@[simp] theorem State.clearHead_spiOut (s : State) (c : ServiceClass) :
    (s.clearHead c).spiOut = s.spiOut :=
  (congrArg State.spiOut (State.clearHead_frame s c) :)

@[simp] theorem State.clearHead_requests (s : State) (c : ServiceClass) :
    (s.clearHead c).requests = s.requests :=
  (congrArg State.requests (State.clearHead_frame s c) :)

@[simp] theorem State.clearHead_executing (s : State) (c : ServiceClass) :
    (s.clearHead c).executing = s.executing :=
  (congrArg State.executing (State.clearHead_frame s c) :)

@[simp] theorem State.clearHead_responses (s : State) (c : ServiceClass) :
    (s.clearHead c).responses = s.responses :=
  (congrArg State.responses (State.clearHead_frame s c) :)

@[simp] theorem State.clearHead_freeHead (s : State) (c : ServiceClass) :
    (s.clearHead c).freeHead = s.freeHead :=
  (congrArg State.freeHead (State.clearHead_frame s c) :)

@[simp] theorem State.clearHead_freeTail (s : State) (c : ServiceClass) :
    (s.clearHead c).freeTail = s.freeTail :=
  (congrArg State.freeTail (State.clearHead_frame s c) :)

@[simp] theorem State.clearHead_buckets (s : State) (c : ServiceClass) :
    (s.clearHead c).buckets = s.buckets :=
  (congrArg State.buckets (State.clearHead_frame s c) :)

@[simp] theorem State.clearHead_tablePort (s : State) (c : ServiceClass) :
    (s.clearHead c).tablePort = s.tablePort :=
  (congrArg State.tablePort (State.clearHead_frame s c) :)

@[simp] theorem State.clearHead_rules (s : State) (c : ServiceClass) :
    (s.clearHead c).rules = s.rules :=
  (congrArg State.rules (State.clearHead_frame s c) :)

@[simp] theorem State.clearHead_settings (s : State) (c : ServiceClass) :
    (s.clearHead c).settings = s.settings :=
  (congrArg State.settings (State.clearHead_frame s c) :)

@[simp] theorem State.clearHead_awards (s : State) (c : ServiceClass) :
    (s.clearHead c).awards = s.awards :=
  (congrArg State.awards (State.clearHead_frame s c) :)

@[simp] theorem State.clearHead_engine (s : State) (c : ServiceClass) :
    (s.clearHead c).engine = s.engine :=
  (congrArg State.engine (State.clearHead_frame s c) :)

@[simp] theorem State.clearHead_dueExpiries (s : State) (c : ServiceClass) :
    (s.clearHead c).dueExpiries = s.dueExpiries :=
  (congrArg State.dueExpiries (State.clearHead_frame s c) :)

@[simp] theorem State.clearHead_releaseDue (s : State) (c : ServiceClass) :
    (s.clearHead c).releaseDue = s.releaseDue :=
  (congrArg State.releaseDue (State.clearHead_frame s c) :)

@[simp] theorem State.clearHead_clearing (s : State) (c : ServiceClass) :
    (s.clearHead c).clearing = s.clearing :=
  (congrArg State.clearing (State.clearHead_frame s c) :)

@[simp] theorem State.clearHead_timebase (s : State) (c : ServiceClass) :
    (s.clearHead c).timebase = s.timebase :=
  (congrArg State.timebase (State.clearHead_frame s c) :)

@[simp] theorem State.clearHead_walker (s : State) (c : ServiceClass) :
    (s.clearHead c).walker = s.walker :=
  (congrArg State.walker (State.clearHead_frame s c) :)

@[simp] theorem State.clearHead_linkUp (s : State) (c : ServiceClass) :
    (s.clearHead c).linkUp = s.linkUp :=
  (congrArg State.linkUp (State.clearHead_frame s c) :)

@[simp] theorem State.clearHead_inbound (s : State) (c : ServiceClass) :
    (s.clearHead c).inbound = s.inbound :=
  (congrArg State.inbound (State.clearHead_frame s c) :)

@[simp] theorem State.clearHead_outbound (s : State) (c : ServiceClass) :
    (s.clearHead c).outbound = s.outbound :=
  (congrArg State.outbound (State.clearHead_frame s c) :)

@[simp] theorem State.clearHead_lkoSent (s : State) (c : ServiceClass) :
    (s.clearHead c).lkoSent = s.lkoSent :=
  (congrArg State.lkoSent (State.clearHead_frame s c) :)

@[simp] theorem State.clearHead_counters (s : State) (c : ServiceClass) :
    (s.clearHead c).counters = s.counters :=
  (congrArg State.counters (State.clearHead_frame s c) :)

/-! ### A pop -/

@[simp] theorem State.popHead_pending (s : State) (c : ServiceClass) (h : Handle) :
    (s.popHead c h).pending = s.pending :=
  (congrArg State.pending (State.popHead_frame s c h) :)

@[simp] theorem State.popHead_resetLow (s : State) (c : ServiceClass) (h : Handle) :
    (s.popHead c h).resetLow = s.resetLow :=
  (congrArg State.resetLow (State.popHead_frame s c h) :)

@[simp] theorem State.popHead_csLow (s : State) (c : ServiceClass) (h : Handle) :
    (s.popHead c h).csLow = s.csLow :=
  (congrArg State.csLow (State.popHead_frame s c h) :)

@[simp] theorem State.popHead_port (s : State) (c : ServiceClass) (h : Handle) :
    (s.popHead c h).port = s.port :=
  (congrArg State.port (State.popHead_frame s c h) :)

@[simp] theorem State.popHead_spiOut (s : State) (c : ServiceClass) (h : Handle) :
    (s.popHead c h).spiOut = s.spiOut :=
  (congrArg State.spiOut (State.popHead_frame s c h) :)

@[simp] theorem State.popHead_requests (s : State) (c : ServiceClass) (h : Handle) :
    (s.popHead c h).requests = s.requests :=
  (congrArg State.requests (State.popHead_frame s c h) :)

@[simp] theorem State.popHead_executing (s : State) (c : ServiceClass) (h : Handle) :
    (s.popHead c h).executing = s.executing :=
  (congrArg State.executing (State.popHead_frame s c h) :)

@[simp] theorem State.popHead_responses (s : State) (c : ServiceClass) (h : Handle) :
    (s.popHead c h).responses = s.responses :=
  (congrArg State.responses (State.popHead_frame s c h) :)

@[simp] theorem State.popHead_freeHead (s : State) (c : ServiceClass) (h : Handle) :
    (s.popHead c h).freeHead = s.freeHead :=
  (congrArg State.freeHead (State.popHead_frame s c h) :)

@[simp] theorem State.popHead_freeTail (s : State) (c : ServiceClass) (h : Handle) :
    (s.popHead c h).freeTail = s.freeTail :=
  (congrArg State.freeTail (State.popHead_frame s c h) :)

@[simp] theorem State.popHead_buckets (s : State) (c : ServiceClass) (h : Handle) :
    (s.popHead c h).buckets = s.buckets :=
  (congrArg State.buckets (State.popHead_frame s c h) :)

@[simp] theorem State.popHead_tablePort (s : State) (c : ServiceClass) (h : Handle) :
    (s.popHead c h).tablePort = s.tablePort :=
  (congrArg State.tablePort (State.popHead_frame s c h) :)

@[simp] theorem State.popHead_rules (s : State) (c : ServiceClass) (h : Handle) :
    (s.popHead c h).rules = s.rules :=
  (congrArg State.rules (State.popHead_frame s c h) :)

@[simp] theorem State.popHead_settings (s : State) (c : ServiceClass) (h : Handle) :
    (s.popHead c h).settings = s.settings :=
  (congrArg State.settings (State.popHead_frame s c h) :)

@[simp] theorem State.popHead_awards (s : State) (c : ServiceClass) (h : Handle) :
    (s.popHead c h).awards = s.awards :=
  (congrArg State.awards (State.popHead_frame s c h) :)

@[simp] theorem State.popHead_engine (s : State) (c : ServiceClass) (h : Handle) :
    (s.popHead c h).engine = s.engine :=
  (congrArg State.engine (State.popHead_frame s c h) :)

@[simp] theorem State.popHead_dueExpiries (s : State) (c : ServiceClass) (h : Handle) :
    (s.popHead c h).dueExpiries = s.dueExpiries :=
  (congrArg State.dueExpiries (State.popHead_frame s c h) :)

@[simp] theorem State.popHead_releaseDue (s : State) (c : ServiceClass) (h : Handle) :
    (s.popHead c h).releaseDue = s.releaseDue :=
  (congrArg State.releaseDue (State.popHead_frame s c h) :)

@[simp] theorem State.popHead_clearing (s : State) (c : ServiceClass) (h : Handle) :
    (s.popHead c h).clearing = s.clearing :=
  (congrArg State.clearing (State.popHead_frame s c h) :)

@[simp] theorem State.popHead_timebase (s : State) (c : ServiceClass) (h : Handle) :
    (s.popHead c h).timebase = s.timebase :=
  (congrArg State.timebase (State.popHead_frame s c h) :)

@[simp] theorem State.popHead_walker (s : State) (c : ServiceClass) (h : Handle) :
    (s.popHead c h).walker = s.walker :=
  (congrArg State.walker (State.popHead_frame s c h) :)

@[simp] theorem State.popHead_linkUp (s : State) (c : ServiceClass) (h : Handle) :
    (s.popHead c h).linkUp = s.linkUp :=
  (congrArg State.linkUp (State.popHead_frame s c h) :)

@[simp] theorem State.popHead_inbound (s : State) (c : ServiceClass) (h : Handle) :
    (s.popHead c h).inbound = s.inbound :=
  (congrArg State.inbound (State.popHead_frame s c h) :)

@[simp] theorem State.popHead_outbound (s : State) (c : ServiceClass) (h : Handle) :
    (s.popHead c h).outbound = s.outbound :=
  (congrArg State.outbound (State.popHead_frame s c h) :)

@[simp] theorem State.popHead_lkoSent (s : State) (c : ServiceClass) (h : Handle) :
    (s.popHead c h).lkoSent = s.lkoSent :=
  (congrArg State.lkoSent (State.popHead_frame s c h) :)

@[simp] theorem State.popHead_counters (s : State) (c : ServiceClass) (h : Handle) :
    (s.popHead c h).counters = s.counters :=
  (congrArg State.counters (State.popHead_frame s c h) :)

/-! ### A member released -/

@[simp] theorem State.releaseMember_pending (s : State) (id : AwardId) (h : Handle) :
    (s.releaseMember id h).pending = s.pending := by
  unfold State.releaseMember; split <;> rfl

@[simp] theorem State.releaseMember_resetLow (s : State) (id : AwardId) (h : Handle) :
    (s.releaseMember id h).resetLow = s.resetLow := by
  unfold State.releaseMember; split <;> rfl

@[simp] theorem State.releaseMember_csLow (s : State) (id : AwardId) (h : Handle) :
    (s.releaseMember id h).csLow = s.csLow := by
  unfold State.releaseMember; split <;> rfl

@[simp] theorem State.releaseMember_port (s : State) (id : AwardId) (h : Handle) :
    (s.releaseMember id h).port = s.port := by
  unfold State.releaseMember; split <;> rfl

@[simp] theorem State.releaseMember_spiOut (s : State) (id : AwardId) (h : Handle) :
    (s.releaseMember id h).spiOut = s.spiOut := by
  unfold State.releaseMember; split <;> rfl

@[simp] theorem State.releaseMember_requests (s : State) (id : AwardId) (h : Handle) :
    (s.releaseMember id h).requests = s.requests := by
  unfold State.releaseMember; split <;> rfl

@[simp] theorem State.releaseMember_executing (s : State) (id : AwardId) (h : Handle) :
    (s.releaseMember id h).executing = s.executing := by
  unfold State.releaseMember; split <;> rfl

@[simp] theorem State.releaseMember_responses (s : State) (id : AwardId) (h : Handle) :
    (s.releaseMember id h).responses = s.responses := by
  unfold State.releaseMember; split <;> rfl

@[simp] theorem State.releaseMember_stations (s : State) (id : AwardId) (h : Handle) :
    (s.releaseMember id h).stations = s.stations := by
  unfold State.releaseMember; split <;> rfl

@[simp] theorem State.releaseMember_freeHead (s : State) (id : AwardId) (h : Handle) :
    (s.releaseMember id h).freeHead = s.freeHead := by
  unfold State.releaseMember; split <;> rfl

@[simp] theorem State.releaseMember_freeTail (s : State) (id : AwardId) (h : Handle) :
    (s.releaseMember id h).freeTail = s.freeTail := by
  unfold State.releaseMember; split <;> rfl

@[simp] theorem State.releaseMember_buckets (s : State) (id : AwardId) (h : Handle) :
    (s.releaseMember id h).buckets = s.buckets := by
  unfold State.releaseMember; split <;> rfl

@[simp] theorem State.releaseMember_tablePort (s : State) (id : AwardId) (h : Handle) :
    (s.releaseMember id h).tablePort = s.tablePort := by
  unfold State.releaseMember; split <;> rfl

@[simp] theorem State.releaseMember_rules (s : State) (id : AwardId) (h : Handle) :
    (s.releaseMember id h).rules = s.rules := by
  unfold State.releaseMember; split <;> rfl

@[simp] theorem State.releaseMember_settings (s : State) (id : AwardId) (h : Handle) :
    (s.releaseMember id h).settings = s.settings := by
  unfold State.releaseMember; split <;> rfl

@[simp] theorem State.releaseMember_rings (s : State) (id : AwardId) (h : Handle) :
    (s.releaseMember id h).rings = s.rings := by
  unfold State.releaseMember; split <;> rfl

@[simp] theorem State.releaseMember_overflows (s : State) (id : AwardId) (h : Handle) :
    (s.releaseMember id h).overflows = s.overflows := by
  unfold State.releaseMember; split <;> rfl

@[simp] theorem State.releaseMember_waiting (s : State) (id : AwardId) (h : Handle) :
    (s.releaseMember id h).waiting = s.waiting := by
  unfold State.releaseMember; split <;> rfl

@[simp] theorem State.releaseMember_engine (s : State) (id : AwardId) (h : Handle) :
    (s.releaseMember id h).engine = s.engine := by
  unfold State.releaseMember; split <;> rfl

@[simp] theorem State.releaseMember_dueExpiries (s : State) (id : AwardId) (h : Handle) :
    (s.releaseMember id h).dueExpiries = s.dueExpiries := by
  unfold State.releaseMember; split <;> rfl

@[simp] theorem State.releaseMember_releaseDue (s : State) (id : AwardId) (h : Handle) :
    (s.releaseMember id h).releaseDue = s.releaseDue := by
  unfold State.releaseMember; split <;> rfl

@[simp] theorem State.releaseMember_clearing (s : State) (id : AwardId) (h : Handle) :
    (s.releaseMember id h).clearing = s.clearing := by
  unfold State.releaseMember; split <;> rfl

@[simp] theorem State.releaseMember_timebase (s : State) (id : AwardId) (h : Handle) :
    (s.releaseMember id h).timebase = s.timebase := by
  unfold State.releaseMember; split <;> rfl

@[simp] theorem State.releaseMember_walker (s : State) (id : AwardId) (h : Handle) :
    (s.releaseMember id h).walker = s.walker := by
  unfold State.releaseMember; split <;> rfl

@[simp] theorem State.releaseMember_linkUp (s : State) (id : AwardId) (h : Handle) :
    (s.releaseMember id h).linkUp = s.linkUp := by
  unfold State.releaseMember; split <;> rfl

@[simp] theorem State.releaseMember_inbound (s : State) (id : AwardId) (h : Handle) :
    (s.releaseMember id h).inbound = s.inbound := by
  unfold State.releaseMember; split <;> rfl

@[simp] theorem State.releaseMember_outbound (s : State) (id : AwardId) (h : Handle) :
    (s.releaseMember id h).outbound = s.outbound := by
  unfold State.releaseMember; split <;> rfl

@[simp] theorem State.releaseMember_lkoSent (s : State) (id : AwardId) (h : Handle) :
    (s.releaseMember id h).lkoSent = s.lkoSent := by
  unfold State.releaseMember; split <;> rfl

@[simp] theorem State.releaseMember_counters (s : State) (id : AwardId) (h : Handle) :
    (s.releaseMember id h).counters = s.counters := by
  unfold State.releaseMember; split <;> rfl

@[simp] theorem State.releaseMember_flags (s : State) (id : AwardId) (h : Handle) :
    (s.releaseMember id h).flags = s.flags := by
  unfold State.releaseMember; split <;> rfl

/-! ### A DRAINING member that has landed -/

@[simp] theorem State.drained_pending (s : State) (h : Handle) :
    (s.drained h).pending = s.pending := by
  unfold State.drained; dsimp only; split <;> rfl

@[simp] theorem State.drained_resetLow (s : State) (h : Handle) :
    (s.drained h).resetLow = s.resetLow := by
  unfold State.drained; dsimp only; split <;> rfl

@[simp] theorem State.drained_csLow (s : State) (h : Handle) :
    (s.drained h).csLow = s.csLow := by
  unfold State.drained; dsimp only; split <;> rfl

@[simp] theorem State.drained_port (s : State) (h : Handle) :
    (s.drained h).port = s.port := by
  unfold State.drained; dsimp only; split <;> rfl

@[simp] theorem State.drained_spiOut (s : State) (h : Handle) :
    (s.drained h).spiOut = s.spiOut := by
  unfold State.drained; dsimp only; split <;> rfl

@[simp] theorem State.drained_requests (s : State) (h : Handle) :
    (s.drained h).requests = s.requests := by
  unfold State.drained; dsimp only; split <;> rfl

@[simp] theorem State.drained_executing (s : State) (h : Handle) :
    (s.drained h).executing = s.executing := by
  unfold State.drained; dsimp only; split <;> rfl

@[simp] theorem State.drained_responses (s : State) (h : Handle) :
    (s.drained h).responses = s.responses := by
  unfold State.drained; dsimp only; split <;> rfl

@[simp] theorem State.drained_freeHead (s : State) (h : Handle) :
    (s.drained h).freeHead = s.freeHead := by
  unfold State.drained; dsimp only; split <;> rfl

@[simp] theorem State.drained_freeTail (s : State) (h : Handle) :
    (s.drained h).freeTail = s.freeTail := by
  unfold State.drained; dsimp only; split <;> rfl

@[simp] theorem State.drained_buckets (s : State) (h : Handle) :
    (s.drained h).buckets = s.buckets := by
  unfold State.drained; dsimp only; split <;> rfl

@[simp] theorem State.drained_tablePort (s : State) (h : Handle) :
    (s.drained h).tablePort = s.tablePort := by
  unfold State.drained; dsimp only; split <;> rfl

@[simp] theorem State.drained_rules (s : State) (h : Handle) :
    (s.drained h).rules = s.rules := by
  unfold State.drained; dsimp only; split <;> rfl

@[simp] theorem State.drained_settings (s : State) (h : Handle) :
    (s.drained h).settings = s.settings := by
  unfold State.drained; dsimp only; split <;> rfl

@[simp] theorem State.drained_rings (s : State) (h : Handle) :
    (s.drained h).rings = s.rings := by
  unfold State.drained; dsimp only; split <;> rfl

@[simp] theorem State.drained_overflows (s : State) (h : Handle) :
    (s.drained h).overflows = s.overflows := by
  unfold State.drained; dsimp only; split <;> rfl

@[simp] theorem State.drained_waiting (s : State) (h : Handle) :
    (s.drained h).waiting = s.waiting := by
  unfold State.drained; dsimp only; split <;> rfl

@[simp] theorem State.drained_awards (s : State) (h : Handle) :
    (s.drained h).awards = s.awards := by
  unfold State.drained; dsimp only; split <;> rfl

@[simp] theorem State.drained_engine (s : State) (h : Handle) :
    (s.drained h).engine = s.engine := by
  unfold State.drained; dsimp only; split <;> rfl

@[simp] theorem State.drained_dueExpiries (s : State) (h : Handle) :
    (s.drained h).dueExpiries = s.dueExpiries := by
  unfold State.drained; dsimp only; split <;> rfl

@[simp] theorem State.drained_releaseDue (s : State) (h : Handle) :
    (s.drained h).releaseDue = s.releaseDue := by
  unfold State.drained; dsimp only; split <;> rfl

@[simp] theorem State.drained_clearing (s : State) (h : Handle) :
    (s.drained h).clearing = s.clearing := by
  unfold State.drained; dsimp only; split <;> rfl

@[simp] theorem State.drained_timebase (s : State) (h : Handle) :
    (s.drained h).timebase = s.timebase := by
  unfold State.drained; dsimp only; split <;> rfl

@[simp] theorem State.drained_walker (s : State) (h : Handle) :
    (s.drained h).walker = s.walker := by
  unfold State.drained; dsimp only; split <;> rfl

@[simp] theorem State.drained_linkUp (s : State) (h : Handle) :
    (s.drained h).linkUp = s.linkUp := by
  unfold State.drained; dsimp only; split <;> rfl

@[simp] theorem State.drained_inbound (s : State) (h : Handle) :
    (s.drained h).inbound = s.inbound := by
  unfold State.drained; dsimp only; split <;> rfl

@[simp] theorem State.drained_outbound (s : State) (h : Handle) :
    (s.drained h).outbound = s.outbound := by
  unfold State.drained; dsimp only; split <;> rfl

@[simp] theorem State.drained_lkoSent (s : State) (h : Handle) :
    (s.drained h).lkoSent = s.lkoSent := by
  unfold State.drained; dsimp only; split <;> rfl

@[simp] theorem State.drained_counters (s : State) (h : Handle) :
    (s.drained h).counters = s.counters := by
  unfold State.drained; dsimp only; split <;> rfl

@[simp] theorem State.drained_flags (s : State) (h : Handle) :
    (s.drained h).flags = s.flags := by
  unfold State.drained; dsimp only; split <;> rfl

/-! ### A member closed -/

@[simp] theorem State.closeMember_pending (s : State) (id : AwardId) (h : Handle) (r : StationRecord) :
    (s.closeMember id h r).pending = s.pending := by
  simp only [State.closeMember, State.releaseMember_pending, State.drained_pending, State.writeBack_pending]

@[simp] theorem State.closeMember_resetLow (s : State) (id : AwardId) (h : Handle) (r : StationRecord) :
    (s.closeMember id h r).resetLow = s.resetLow := by
  simp only [State.closeMember, State.releaseMember_resetLow, State.drained_resetLow, State.writeBack_resetLow]

@[simp] theorem State.closeMember_csLow (s : State) (id : AwardId) (h : Handle) (r : StationRecord) :
    (s.closeMember id h r).csLow = s.csLow := by
  simp only [State.closeMember, State.releaseMember_csLow, State.drained_csLow, State.writeBack_csLow]

@[simp] theorem State.closeMember_port (s : State) (id : AwardId) (h : Handle) (r : StationRecord) :
    (s.closeMember id h r).port = s.port := by
  simp only [State.closeMember, State.releaseMember_port, State.drained_port, State.writeBack_port]

@[simp] theorem State.closeMember_spiOut (s : State) (id : AwardId) (h : Handle) (r : StationRecord) :
    (s.closeMember id h r).spiOut = s.spiOut := by
  simp only [State.closeMember, State.releaseMember_spiOut, State.drained_spiOut, State.writeBack_spiOut]

@[simp] theorem State.closeMember_requests (s : State) (id : AwardId) (h : Handle) (r : StationRecord) :
    (s.closeMember id h r).requests = s.requests := by
  simp only [State.closeMember, State.releaseMember_requests, State.drained_requests, State.writeBack_requests]

@[simp] theorem State.closeMember_executing (s : State) (id : AwardId) (h : Handle) (r : StationRecord) :
    (s.closeMember id h r).executing = s.executing := by
  simp only [State.closeMember, State.releaseMember_executing, State.drained_executing, State.writeBack_executing]

@[simp] theorem State.closeMember_responses (s : State) (id : AwardId) (h : Handle) (r : StationRecord) :
    (s.closeMember id h r).responses = s.responses := by
  simp only [State.closeMember, State.releaseMember_responses, State.drained_responses, State.writeBack_responses]

@[simp] theorem State.closeMember_freeHead (s : State) (id : AwardId) (h : Handle) (r : StationRecord) :
    (s.closeMember id h r).freeHead = s.freeHead := by
  simp only [State.closeMember, State.releaseMember_freeHead, State.drained_freeHead, State.writeBack_freeHead]

@[simp] theorem State.closeMember_freeTail (s : State) (id : AwardId) (h : Handle) (r : StationRecord) :
    (s.closeMember id h r).freeTail = s.freeTail := by
  simp only [State.closeMember, State.releaseMember_freeTail, State.drained_freeTail, State.writeBack_freeTail]

@[simp] theorem State.closeMember_buckets (s : State) (id : AwardId) (h : Handle) (r : StationRecord) :
    (s.closeMember id h r).buckets = s.buckets := by
  simp only [State.closeMember, State.releaseMember_buckets, State.drained_buckets, State.writeBack_buckets]

@[simp] theorem State.closeMember_tablePort (s : State) (id : AwardId) (h : Handle) (r : StationRecord) :
    (s.closeMember id h r).tablePort = s.tablePort := by
  simp only [State.closeMember, State.releaseMember_tablePort, State.drained_tablePort, State.writeBack_tablePort]

@[simp] theorem State.closeMember_rules (s : State) (id : AwardId) (h : Handle) (r : StationRecord) :
    (s.closeMember id h r).rules = s.rules := by
  simp only [State.closeMember, State.releaseMember_rules, State.drained_rules, State.writeBack_rules]

@[simp] theorem State.closeMember_settings (s : State) (id : AwardId) (h : Handle) (r : StationRecord) :
    (s.closeMember id h r).settings = s.settings := by
  simp only [State.closeMember, State.releaseMember_settings, State.drained_settings, State.writeBack_settings]

@[simp] theorem State.closeMember_engine (s : State) (id : AwardId) (h : Handle) (r : StationRecord) :
    (s.closeMember id h r).engine = s.engine := by
  simp only [State.closeMember, State.releaseMember_engine, State.drained_engine, State.writeBack_engine]

@[simp] theorem State.closeMember_dueExpiries (s : State) (id : AwardId) (h : Handle) (r : StationRecord) :
    (s.closeMember id h r).dueExpiries = s.dueExpiries := by
  simp only [State.closeMember, State.releaseMember_dueExpiries, State.drained_dueExpiries, State.writeBack_dueExpiries]

@[simp] theorem State.closeMember_releaseDue (s : State) (id : AwardId) (h : Handle) (r : StationRecord) :
    (s.closeMember id h r).releaseDue = s.releaseDue := by
  simp only [State.closeMember, State.releaseMember_releaseDue, State.drained_releaseDue, State.writeBack_releaseDue]

@[simp] theorem State.closeMember_clearing (s : State) (id : AwardId) (h : Handle) (r : StationRecord) :
    (s.closeMember id h r).clearing = s.clearing := by
  simp only [State.closeMember, State.releaseMember_clearing, State.drained_clearing, State.writeBack_clearing]

@[simp] theorem State.closeMember_timebase (s : State) (id : AwardId) (h : Handle) (r : StationRecord) :
    (s.closeMember id h r).timebase = s.timebase := by
  simp only [State.closeMember, State.releaseMember_timebase, State.drained_timebase, State.writeBack_timebase]

@[simp] theorem State.closeMember_walker (s : State) (id : AwardId) (h : Handle) (r : StationRecord) :
    (s.closeMember id h r).walker = s.walker := by
  simp only [State.closeMember, State.releaseMember_walker, State.drained_walker, State.writeBack_walker]

@[simp] theorem State.closeMember_linkUp (s : State) (id : AwardId) (h : Handle) (r : StationRecord) :
    (s.closeMember id h r).linkUp = s.linkUp := by
  simp only [State.closeMember, State.releaseMember_linkUp, State.drained_linkUp, State.writeBack_linkUp]

@[simp] theorem State.closeMember_inbound (s : State) (id : AwardId) (h : Handle) (r : StationRecord) :
    (s.closeMember id h r).inbound = s.inbound := by
  simp only [State.closeMember, State.releaseMember_inbound, State.drained_inbound, State.writeBack_inbound]

@[simp] theorem State.closeMember_outbound (s : State) (id : AwardId) (h : Handle) (r : StationRecord) :
    (s.closeMember id h r).outbound = s.outbound := by
  simp only [State.closeMember, State.releaseMember_outbound, State.drained_outbound, State.writeBack_outbound]

@[simp] theorem State.closeMember_lkoSent (s : State) (id : AwardId) (h : Handle) (r : StationRecord) :
    (s.closeMember id h r).lkoSent = s.lkoSent := by
  simp only [State.closeMember, State.releaseMember_lkoSent, State.drained_lkoSent, State.writeBack_lkoSent]

@[simp] theorem State.closeMember_counters (s : State) (id : AwardId) (h : Handle) (r : StationRecord) :
    (s.closeMember id h r).counters = s.counters := by
  simp only [State.closeMember, State.releaseMember_counters, State.drained_counters, State.writeBack_counters]

/-! ### A request ended -/

@[simp] theorem State.respond_pending (s : State) (status : Status) (clamped : Bool) (payload : List Byte) :
    (s.respond status clamped payload).pending = s.pending := by
  unfold State.respond; split <;> rfl

@[simp] theorem State.respond_resetLow (s : State) (status : Status) (clamped : Bool) (payload : List Byte) :
    (s.respond status clamped payload).resetLow = s.resetLow := by
  unfold State.respond; split <;> rfl

@[simp] theorem State.respond_csLow (s : State) (status : Status) (clamped : Bool) (payload : List Byte) :
    (s.respond status clamped payload).csLow = s.csLow := by
  unfold State.respond; split <;> rfl

@[simp] theorem State.respond_port (s : State) (status : Status) (clamped : Bool) (payload : List Byte) :
    (s.respond status clamped payload).port = s.port := by
  unfold State.respond; split <;> rfl

@[simp] theorem State.respond_spiOut (s : State) (status : Status) (clamped : Bool) (payload : List Byte) :
    (s.respond status clamped payload).spiOut = s.spiOut := by
  unfold State.respond; split <;> rfl

@[simp] theorem State.respond_stations (s : State) (status : Status) (clamped : Bool) (payload : List Byte) :
    (s.respond status clamped payload).stations = s.stations := by
  unfold State.respond; split <;> rfl

@[simp] theorem State.respond_freeHead (s : State) (status : Status) (clamped : Bool) (payload : List Byte) :
    (s.respond status clamped payload).freeHead = s.freeHead := by
  unfold State.respond; split <;> rfl

@[simp] theorem State.respond_freeTail (s : State) (status : Status) (clamped : Bool) (payload : List Byte) :
    (s.respond status clamped payload).freeTail = s.freeTail := by
  unfold State.respond; split <;> rfl

@[simp] theorem State.respond_buckets (s : State) (status : Status) (clamped : Bool) (payload : List Byte) :
    (s.respond status clamped payload).buckets = s.buckets := by
  unfold State.respond; split <;> rfl

@[simp] theorem State.respond_tablePort (s : State) (status : Status) (clamped : Bool) (payload : List Byte) :
    (s.respond status clamped payload).tablePort = s.tablePort := by
  unfold State.respond; split <;> rfl

@[simp] theorem State.respond_rules (s : State) (status : Status) (clamped : Bool) (payload : List Byte) :
    (s.respond status clamped payload).rules = s.rules := by
  unfold State.respond; split <;> rfl

@[simp] theorem State.respond_settings (s : State) (status : Status) (clamped : Bool) (payload : List Byte) :
    (s.respond status clamped payload).settings = s.settings := by
  unfold State.respond; split <;> rfl

@[simp] theorem State.respond_rings (s : State) (status : Status) (clamped : Bool) (payload : List Byte) :
    (s.respond status clamped payload).rings = s.rings := by
  unfold State.respond; split <;> rfl

@[simp] theorem State.respond_overflows (s : State) (status : Status) (clamped : Bool) (payload : List Byte) :
    (s.respond status clamped payload).overflows = s.overflows := by
  unfold State.respond; split <;> rfl

@[simp] theorem State.respond_waiting (s : State) (status : Status) (clamped : Bool) (payload : List Byte) :
    (s.respond status clamped payload).waiting = s.waiting := by
  unfold State.respond; split <;> rfl

@[simp] theorem State.respond_awards (s : State) (status : Status) (clamped : Bool) (payload : List Byte) :
    (s.respond status clamped payload).awards = s.awards := by
  unfold State.respond; split <;> rfl

@[simp] theorem State.respond_engine (s : State) (status : Status) (clamped : Bool) (payload : List Byte) :
    (s.respond status clamped payload).engine = s.engine := by
  unfold State.respond; split <;> rfl

@[simp] theorem State.respond_dueExpiries (s : State) (status : Status) (clamped : Bool) (payload : List Byte) :
    (s.respond status clamped payload).dueExpiries = s.dueExpiries := by
  unfold State.respond; split <;> rfl

@[simp] theorem State.respond_releaseDue (s : State) (status : Status) (clamped : Bool) (payload : List Byte) :
    (s.respond status clamped payload).releaseDue = s.releaseDue := by
  unfold State.respond; split <;> rfl

@[simp] theorem State.respond_clearing (s : State) (status : Status) (clamped : Bool) (payload : List Byte) :
    (s.respond status clamped payload).clearing = s.clearing := by
  unfold State.respond; split <;> rfl

@[simp] theorem State.respond_timebase (s : State) (status : Status) (clamped : Bool) (payload : List Byte) :
    (s.respond status clamped payload).timebase = s.timebase := by
  unfold State.respond; split <;> rfl

@[simp] theorem State.respond_walker (s : State) (status : Status) (clamped : Bool) (payload : List Byte) :
    (s.respond status clamped payload).walker = s.walker := by
  unfold State.respond; split <;> rfl

@[simp] theorem State.respond_linkUp (s : State) (status : Status) (clamped : Bool) (payload : List Byte) :
    (s.respond status clamped payload).linkUp = s.linkUp := by
  unfold State.respond; split <;> rfl

@[simp] theorem State.respond_inbound (s : State) (status : Status) (clamped : Bool) (payload : List Byte) :
    (s.respond status clamped payload).inbound = s.inbound := by
  unfold State.respond; split <;> rfl

@[simp] theorem State.respond_outbound (s : State) (status : Status) (clamped : Bool) (payload : List Byte) :
    (s.respond status clamped payload).outbound = s.outbound := by
  unfold State.respond; split <;> rfl

@[simp] theorem State.respond_lkoSent (s : State) (status : Status) (clamped : Bool) (payload : List Byte) :
    (s.respond status clamped payload).lkoSent = s.lkoSent := by
  unfold State.respond; split <;> rfl

@[simp] theorem State.respond_counters (s : State) (status : Status) (clamped : Bool) (payload : List Byte) :
    (s.respond status clamped payload).counters = s.counters := by
  unfold State.respond; split <;> rfl

@[simp] theorem State.respond_flags (s : State) (status : Status) (clamped : Bool) (payload : List Byte) :
    (s.respond status clamped payload).flags = s.flags := by
  unfold State.respond; split <;> rfl

/-! ### An award issued -/

@[simp] theorem State.issueAward_pending (s : State) (a : AskFields) (id : AwardId) (allowances : List Int) :
    (s.issueAward a id allowances).pending = s.pending := by
  unfold State.issueAward; split <;> rfl

@[simp] theorem State.issueAward_resetLow (s : State) (a : AskFields) (id : AwardId) (allowances : List Int) :
    (s.issueAward a id allowances).resetLow = s.resetLow := by
  unfold State.issueAward; split <;> rfl

@[simp] theorem State.issueAward_csLow (s : State) (a : AskFields) (id : AwardId) (allowances : List Int) :
    (s.issueAward a id allowances).csLow = s.csLow := by
  unfold State.issueAward; split <;> rfl

@[simp] theorem State.issueAward_port (s : State) (a : AskFields) (id : AwardId) (allowances : List Int) :
    (s.issueAward a id allowances).port = s.port := by
  unfold State.issueAward; split <;> rfl

@[simp] theorem State.issueAward_spiOut (s : State) (a : AskFields) (id : AwardId) (allowances : List Int) :
    (s.issueAward a id allowances).spiOut = s.spiOut := by
  unfold State.issueAward; split <;> rfl

@[simp] theorem State.issueAward_requests (s : State) (a : AskFields) (id : AwardId) (allowances : List Int) :
    (s.issueAward a id allowances).requests = s.requests := by
  unfold State.issueAward; split <;> rfl

@[simp] theorem State.issueAward_executing (s : State) (a : AskFields) (id : AwardId) (allowances : List Int) :
    (s.issueAward a id allowances).executing = s.executing := by
  unfold State.issueAward; split <;> rfl

@[simp] theorem State.issueAward_responses (s : State) (a : AskFields) (id : AwardId) (allowances : List Int) :
    (s.issueAward a id allowances).responses = s.responses := by
  unfold State.issueAward; split <;> rfl

@[simp] theorem State.issueAward_stations (s : State) (a : AskFields) (id : AwardId) (allowances : List Int) :
    (s.issueAward a id allowances).stations = s.stations := by
  unfold State.issueAward; split <;> rfl

@[simp] theorem State.issueAward_freeHead (s : State) (a : AskFields) (id : AwardId) (allowances : List Int) :
    (s.issueAward a id allowances).freeHead = s.freeHead := by
  unfold State.issueAward; split <;> rfl

@[simp] theorem State.issueAward_freeTail (s : State) (a : AskFields) (id : AwardId) (allowances : List Int) :
    (s.issueAward a id allowances).freeTail = s.freeTail := by
  unfold State.issueAward; split <;> rfl

@[simp] theorem State.issueAward_buckets (s : State) (a : AskFields) (id : AwardId) (allowances : List Int) :
    (s.issueAward a id allowances).buckets = s.buckets := by
  unfold State.issueAward; split <;> rfl

@[simp] theorem State.issueAward_tablePort (s : State) (a : AskFields) (id : AwardId) (allowances : List Int) :
    (s.issueAward a id allowances).tablePort = s.tablePort := by
  unfold State.issueAward; split <;> rfl

@[simp] theorem State.issueAward_rules (s : State) (a : AskFields) (id : AwardId) (allowances : List Int) :
    (s.issueAward a id allowances).rules = s.rules := by
  unfold State.issueAward; split <;> rfl

@[simp] theorem State.issueAward_settings (s : State) (a : AskFields) (id : AwardId) (allowances : List Int) :
    (s.issueAward a id allowances).settings = s.settings := by
  unfold State.issueAward; split <;> rfl

@[simp] theorem State.issueAward_rings (s : State) (a : AskFields) (id : AwardId) (allowances : List Int) :
    (s.issueAward a id allowances).rings = s.rings := by
  unfold State.issueAward; split <;> rfl

@[simp] theorem State.issueAward_overflows (s : State) (a : AskFields) (id : AwardId) (allowances : List Int) :
    (s.issueAward a id allowances).overflows = s.overflows := by
  unfold State.issueAward; split <;> rfl

@[simp] theorem State.issueAward_waiting (s : State) (a : AskFields) (id : AwardId) (allowances : List Int) :
    (s.issueAward a id allowances).waiting = s.waiting := by
  unfold State.issueAward; split <;> rfl

@[simp] theorem State.issueAward_dueExpiries (s : State) (a : AskFields) (id : AwardId) (allowances : List Int) :
    (s.issueAward a id allowances).dueExpiries = s.dueExpiries := by
  unfold State.issueAward; split <;> rfl

@[simp] theorem State.issueAward_releaseDue (s : State) (a : AskFields) (id : AwardId) (allowances : List Int) :
    (s.issueAward a id allowances).releaseDue = s.releaseDue := by
  unfold State.issueAward; split <;> rfl

@[simp] theorem State.issueAward_clearing (s : State) (a : AskFields) (id : AwardId) (allowances : List Int) :
    (s.issueAward a id allowances).clearing = s.clearing := by
  unfold State.issueAward; split <;> rfl

@[simp] theorem State.issueAward_timebase (s : State) (a : AskFields) (id : AwardId) (allowances : List Int) :
    (s.issueAward a id allowances).timebase = s.timebase := by
  unfold State.issueAward; split <;> rfl

@[simp] theorem State.issueAward_walker (s : State) (a : AskFields) (id : AwardId) (allowances : List Int) :
    (s.issueAward a id allowances).walker = s.walker := by
  unfold State.issueAward; split <;> rfl

@[simp] theorem State.issueAward_linkUp (s : State) (a : AskFields) (id : AwardId) (allowances : List Int) :
    (s.issueAward a id allowances).linkUp = s.linkUp := by
  unfold State.issueAward; split <;> rfl

@[simp] theorem State.issueAward_inbound (s : State) (a : AskFields) (id : AwardId) (allowances : List Int) :
    (s.issueAward a id allowances).inbound = s.inbound := by
  unfold State.issueAward; split <;> rfl

@[simp] theorem State.issueAward_outbound (s : State) (a : AskFields) (id : AwardId) (allowances : List Int) :
    (s.issueAward a id allowances).outbound = s.outbound := by
  unfold State.issueAward; split <;> rfl

@[simp] theorem State.issueAward_lkoSent (s : State) (a : AskFields) (id : AwardId) (allowances : List Int) :
    (s.issueAward a id allowances).lkoSent = s.lkoSent := by
  unfold State.issueAward; split <;> rfl

@[simp] theorem State.issueAward_counters (s : State) (a : AskFields) (id : AwardId) (allowances : List Int) :
    (s.issueAward a id allowances).counters = s.counters := by
  unfold State.issueAward; split <;> rfl

@[simp] theorem State.issueAward_flags (s : State) (a : AskFields) (id : AwardId) (allowances : List Int) :
    (s.issueAward a id allowances).flags = s.flags := by
  unfold State.issueAward; split <;> rfl

/-! ### A member appended -/

@[simp] theorem State.appendMember_pending (s : State) (id : AwardId) (h : Handle) :
    (s.appendMember id h).pending = s.pending := by
  unfold State.appendMember; split <;> rfl

@[simp] theorem State.appendMember_resetLow (s : State) (id : AwardId) (h : Handle) :
    (s.appendMember id h).resetLow = s.resetLow := by
  unfold State.appendMember; split <;> rfl

@[simp] theorem State.appendMember_csLow (s : State) (id : AwardId) (h : Handle) :
    (s.appendMember id h).csLow = s.csLow := by
  unfold State.appendMember; split <;> rfl

@[simp] theorem State.appendMember_port (s : State) (id : AwardId) (h : Handle) :
    (s.appendMember id h).port = s.port := by
  unfold State.appendMember; split <;> rfl

@[simp] theorem State.appendMember_spiOut (s : State) (id : AwardId) (h : Handle) :
    (s.appendMember id h).spiOut = s.spiOut := by
  unfold State.appendMember; split <;> rfl

@[simp] theorem State.appendMember_requests (s : State) (id : AwardId) (h : Handle) :
    (s.appendMember id h).requests = s.requests := by
  unfold State.appendMember; split <;> rfl

@[simp] theorem State.appendMember_executing (s : State) (id : AwardId) (h : Handle) :
    (s.appendMember id h).executing = s.executing := by
  unfold State.appendMember; split <;> rfl

@[simp] theorem State.appendMember_responses (s : State) (id : AwardId) (h : Handle) :
    (s.appendMember id h).responses = s.responses := by
  unfold State.appendMember; split <;> rfl

@[simp] theorem State.appendMember_stations (s : State) (id : AwardId) (h : Handle) :
    (s.appendMember id h).stations = s.stations := by
  unfold State.appendMember; split <;> rfl

@[simp] theorem State.appendMember_freeHead (s : State) (id : AwardId) (h : Handle) :
    (s.appendMember id h).freeHead = s.freeHead := by
  unfold State.appendMember; split <;> rfl

@[simp] theorem State.appendMember_freeTail (s : State) (id : AwardId) (h : Handle) :
    (s.appendMember id h).freeTail = s.freeTail := by
  unfold State.appendMember; split <;> rfl

@[simp] theorem State.appendMember_buckets (s : State) (id : AwardId) (h : Handle) :
    (s.appendMember id h).buckets = s.buckets := by
  unfold State.appendMember; split <;> rfl

@[simp] theorem State.appendMember_tablePort (s : State) (id : AwardId) (h : Handle) :
    (s.appendMember id h).tablePort = s.tablePort := by
  unfold State.appendMember; split <;> rfl

@[simp] theorem State.appendMember_rules (s : State) (id : AwardId) (h : Handle) :
    (s.appendMember id h).rules = s.rules := by
  unfold State.appendMember; split <;> rfl

@[simp] theorem State.appendMember_settings (s : State) (id : AwardId) (h : Handle) :
    (s.appendMember id h).settings = s.settings := by
  unfold State.appendMember; split <;> rfl

@[simp] theorem State.appendMember_rings (s : State) (id : AwardId) (h : Handle) :
    (s.appendMember id h).rings = s.rings := by
  unfold State.appendMember; split <;> rfl

@[simp] theorem State.appendMember_overflows (s : State) (id : AwardId) (h : Handle) :
    (s.appendMember id h).overflows = s.overflows := by
  unfold State.appendMember; split <;> rfl

@[simp] theorem State.appendMember_waiting (s : State) (id : AwardId) (h : Handle) :
    (s.appendMember id h).waiting = s.waiting := by
  unfold State.appendMember; split <;> rfl

@[simp] theorem State.appendMember_engine (s : State) (id : AwardId) (h : Handle) :
    (s.appendMember id h).engine = s.engine := by
  unfold State.appendMember; split <;> rfl

@[simp] theorem State.appendMember_dueExpiries (s : State) (id : AwardId) (h : Handle) :
    (s.appendMember id h).dueExpiries = s.dueExpiries := by
  unfold State.appendMember; split <;> rfl

@[simp] theorem State.appendMember_releaseDue (s : State) (id : AwardId) (h : Handle) :
    (s.appendMember id h).releaseDue = s.releaseDue := by
  unfold State.appendMember; split <;> rfl

@[simp] theorem State.appendMember_clearing (s : State) (id : AwardId) (h : Handle) :
    (s.appendMember id h).clearing = s.clearing := by
  unfold State.appendMember; split <;> rfl

@[simp] theorem State.appendMember_timebase (s : State) (id : AwardId) (h : Handle) :
    (s.appendMember id h).timebase = s.timebase := by
  unfold State.appendMember; split <;> rfl

@[simp] theorem State.appendMember_walker (s : State) (id : AwardId) (h : Handle) :
    (s.appendMember id h).walker = s.walker := by
  unfold State.appendMember; split <;> rfl

@[simp] theorem State.appendMember_linkUp (s : State) (id : AwardId) (h : Handle) :
    (s.appendMember id h).linkUp = s.linkUp := by
  unfold State.appendMember; split <;> rfl

@[simp] theorem State.appendMember_inbound (s : State) (id : AwardId) (h : Handle) :
    (s.appendMember id h).inbound = s.inbound := by
  unfold State.appendMember; split <;> rfl

@[simp] theorem State.appendMember_outbound (s : State) (id : AwardId) (h : Handle) :
    (s.appendMember id h).outbound = s.outbound := by
  unfold State.appendMember; split <;> rfl

@[simp] theorem State.appendMember_lkoSent (s : State) (id : AwardId) (h : Handle) :
    (s.appendMember id h).lkoSent = s.lkoSent := by
  unfold State.appendMember; split <;> rfl

@[simp] theorem State.appendMember_counters (s : State) (id : AwardId) (h : Handle) :
    (s.appendMember id h).counters = s.counters := by
  unfold State.appendMember; split <;> rfl

@[simp] theorem State.appendMember_flags (s : State) (id : AwardId) (h : Handle) :
    (s.appendMember id h).flags = s.flags := by
  unfold State.appendMember; split <;> rfl

/-! ### A record leaves the index -/

@[simp] theorem State.leaveIndex_pending (s : State) (h : Handle) :
    (s.leaveIndex h).pending = s.pending := by
  unfold State.leaveIndex; dsimp only; repeat' split
  all_goals rfl

@[simp] theorem State.leaveIndex_resetLow (s : State) (h : Handle) :
    (s.leaveIndex h).resetLow = s.resetLow := by
  unfold State.leaveIndex; dsimp only; repeat' split
  all_goals rfl

@[simp] theorem State.leaveIndex_csLow (s : State) (h : Handle) :
    (s.leaveIndex h).csLow = s.csLow := by
  unfold State.leaveIndex; dsimp only; repeat' split
  all_goals rfl

@[simp] theorem State.leaveIndex_port (s : State) (h : Handle) :
    (s.leaveIndex h).port = s.port := by
  unfold State.leaveIndex; dsimp only; repeat' split
  all_goals rfl

@[simp] theorem State.leaveIndex_spiOut (s : State) (h : Handle) :
    (s.leaveIndex h).spiOut = s.spiOut := by
  unfold State.leaveIndex; dsimp only; repeat' split
  all_goals rfl

@[simp] theorem State.leaveIndex_requests (s : State) (h : Handle) :
    (s.leaveIndex h).requests = s.requests := by
  unfold State.leaveIndex; dsimp only; repeat' split
  all_goals rfl

@[simp] theorem State.leaveIndex_executing (s : State) (h : Handle) :
    (s.leaveIndex h).executing = s.executing := by
  unfold State.leaveIndex; dsimp only; repeat' split
  all_goals rfl

@[simp] theorem State.leaveIndex_responses (s : State) (h : Handle) :
    (s.leaveIndex h).responses = s.responses := by
  unfold State.leaveIndex; dsimp only; repeat' split
  all_goals rfl

@[simp] theorem State.leaveIndex_freeHead (s : State) (h : Handle) :
    (s.leaveIndex h).freeHead = s.freeHead := by
  unfold State.leaveIndex; dsimp only; repeat' split
  all_goals rfl

@[simp] theorem State.leaveIndex_freeTail (s : State) (h : Handle) :
    (s.leaveIndex h).freeTail = s.freeTail := by
  unfold State.leaveIndex; dsimp only; repeat' split
  all_goals rfl

@[simp] theorem State.leaveIndex_tablePort (s : State) (h : Handle) :
    (s.leaveIndex h).tablePort = s.tablePort := by
  unfold State.leaveIndex; dsimp only; repeat' split
  all_goals rfl

@[simp] theorem State.leaveIndex_rules (s : State) (h : Handle) :
    (s.leaveIndex h).rules = s.rules := by
  unfold State.leaveIndex; dsimp only; repeat' split
  all_goals rfl

@[simp] theorem State.leaveIndex_settings (s : State) (h : Handle) :
    (s.leaveIndex h).settings = s.settings := by
  unfold State.leaveIndex; dsimp only; repeat' split
  all_goals rfl

@[simp] theorem State.leaveIndex_rings (s : State) (h : Handle) :
    (s.leaveIndex h).rings = s.rings := by
  unfold State.leaveIndex; dsimp only; repeat' split
  all_goals rfl

@[simp] theorem State.leaveIndex_overflows (s : State) (h : Handle) :
    (s.leaveIndex h).overflows = s.overflows := by
  unfold State.leaveIndex; dsimp only; repeat' split
  all_goals rfl

@[simp] theorem State.leaveIndex_waiting (s : State) (h : Handle) :
    (s.leaveIndex h).waiting = s.waiting := by
  unfold State.leaveIndex; dsimp only; repeat' split
  all_goals rfl

@[simp] theorem State.leaveIndex_awards (s : State) (h : Handle) :
    (s.leaveIndex h).awards = s.awards := by
  unfold State.leaveIndex; dsimp only; repeat' split
  all_goals rfl

@[simp] theorem State.leaveIndex_engine (s : State) (h : Handle) :
    (s.leaveIndex h).engine = s.engine := by
  unfold State.leaveIndex; dsimp only; repeat' split
  all_goals rfl

@[simp] theorem State.leaveIndex_dueExpiries (s : State) (h : Handle) :
    (s.leaveIndex h).dueExpiries = s.dueExpiries := by
  unfold State.leaveIndex; dsimp only; repeat' split
  all_goals rfl

@[simp] theorem State.leaveIndex_releaseDue (s : State) (h : Handle) :
    (s.leaveIndex h).releaseDue = s.releaseDue := by
  unfold State.leaveIndex; dsimp only; repeat' split
  all_goals rfl

@[simp] theorem State.leaveIndex_clearing (s : State) (h : Handle) :
    (s.leaveIndex h).clearing = s.clearing := by
  unfold State.leaveIndex; dsimp only; repeat' split
  all_goals rfl

@[simp] theorem State.leaveIndex_timebase (s : State) (h : Handle) :
    (s.leaveIndex h).timebase = s.timebase := by
  unfold State.leaveIndex; dsimp only; repeat' split
  all_goals rfl

@[simp] theorem State.leaveIndex_walker (s : State) (h : Handle) :
    (s.leaveIndex h).walker = s.walker := by
  unfold State.leaveIndex; dsimp only; repeat' split
  all_goals rfl

@[simp] theorem State.leaveIndex_linkUp (s : State) (h : Handle) :
    (s.leaveIndex h).linkUp = s.linkUp := by
  unfold State.leaveIndex; dsimp only; repeat' split
  all_goals rfl

@[simp] theorem State.leaveIndex_inbound (s : State) (h : Handle) :
    (s.leaveIndex h).inbound = s.inbound := by
  unfold State.leaveIndex; dsimp only; repeat' split
  all_goals rfl

@[simp] theorem State.leaveIndex_outbound (s : State) (h : Handle) :
    (s.leaveIndex h).outbound = s.outbound := by
  unfold State.leaveIndex; dsimp only; repeat' split
  all_goals rfl

@[simp] theorem State.leaveIndex_lkoSent (s : State) (h : Handle) :
    (s.leaveIndex h).lkoSent = s.lkoSent := by
  unfold State.leaveIndex; dsimp only; repeat' split
  all_goals rfl

@[simp] theorem State.leaveIndex_counters (s : State) (h : Handle) :
    (s.leaveIndex h).counters = s.counters := by
  unfold State.leaveIndex; dsimp only; repeat' split
  all_goals rfl

@[simp] theorem State.leaveIndex_flags (s : State) (h : Handle) :
    (s.leaveIndex h).flags = s.flags := by
  unfold State.leaveIndex; dsimp only; repeat' split
  all_goals rfl

/-! ### A record takes the tail of the free list -/

@[simp] theorem State.freeAtTail_pending (s : State) (h : Handle) :
    (s.freeAtTail h).pending = s.pending := by
  unfold State.freeAtTail; dsimp only; split <;> rfl

@[simp] theorem State.freeAtTail_resetLow (s : State) (h : Handle) :
    (s.freeAtTail h).resetLow = s.resetLow := by
  unfold State.freeAtTail; dsimp only; split <;> rfl

@[simp] theorem State.freeAtTail_csLow (s : State) (h : Handle) :
    (s.freeAtTail h).csLow = s.csLow := by
  unfold State.freeAtTail; dsimp only; split <;> rfl

@[simp] theorem State.freeAtTail_port (s : State) (h : Handle) :
    (s.freeAtTail h).port = s.port := by
  unfold State.freeAtTail; dsimp only; split <;> rfl

@[simp] theorem State.freeAtTail_spiOut (s : State) (h : Handle) :
    (s.freeAtTail h).spiOut = s.spiOut := by
  unfold State.freeAtTail; dsimp only; split <;> rfl

@[simp] theorem State.freeAtTail_requests (s : State) (h : Handle) :
    (s.freeAtTail h).requests = s.requests := by
  unfold State.freeAtTail; dsimp only; split <;> rfl

@[simp] theorem State.freeAtTail_executing (s : State) (h : Handle) :
    (s.freeAtTail h).executing = s.executing := by
  unfold State.freeAtTail; dsimp only; split <;> rfl

@[simp] theorem State.freeAtTail_responses (s : State) (h : Handle) :
    (s.freeAtTail h).responses = s.responses := by
  unfold State.freeAtTail; dsimp only; split <;> rfl

@[simp] theorem State.freeAtTail_buckets (s : State) (h : Handle) :
    (s.freeAtTail h).buckets = s.buckets := by
  unfold State.freeAtTail; dsimp only; split <;> rfl

@[simp] theorem State.freeAtTail_tablePort (s : State) (h : Handle) :
    (s.freeAtTail h).tablePort = s.tablePort := by
  unfold State.freeAtTail; dsimp only; split <;> rfl

@[simp] theorem State.freeAtTail_rules (s : State) (h : Handle) :
    (s.freeAtTail h).rules = s.rules := by
  unfold State.freeAtTail; dsimp only; split <;> rfl

@[simp] theorem State.freeAtTail_settings (s : State) (h : Handle) :
    (s.freeAtTail h).settings = s.settings := by
  unfold State.freeAtTail; dsimp only; split <;> rfl

@[simp] theorem State.freeAtTail_rings (s : State) (h : Handle) :
    (s.freeAtTail h).rings = s.rings := by
  unfold State.freeAtTail; dsimp only; split <;> rfl

@[simp] theorem State.freeAtTail_overflows (s : State) (h : Handle) :
    (s.freeAtTail h).overflows = s.overflows := by
  unfold State.freeAtTail; dsimp only; split <;> rfl

@[simp] theorem State.freeAtTail_waiting (s : State) (h : Handle) :
    (s.freeAtTail h).waiting = s.waiting := by
  unfold State.freeAtTail; dsimp only; split <;> rfl

@[simp] theorem State.freeAtTail_awards (s : State) (h : Handle) :
    (s.freeAtTail h).awards = s.awards := by
  unfold State.freeAtTail; dsimp only; split <;> rfl

@[simp] theorem State.freeAtTail_engine (s : State) (h : Handle) :
    (s.freeAtTail h).engine = s.engine := by
  unfold State.freeAtTail; dsimp only; split <;> rfl

@[simp] theorem State.freeAtTail_dueExpiries (s : State) (h : Handle) :
    (s.freeAtTail h).dueExpiries = s.dueExpiries := by
  unfold State.freeAtTail; dsimp only; split <;> rfl

@[simp] theorem State.freeAtTail_releaseDue (s : State) (h : Handle) :
    (s.freeAtTail h).releaseDue = s.releaseDue := by
  unfold State.freeAtTail; dsimp only; split <;> rfl

@[simp] theorem State.freeAtTail_clearing (s : State) (h : Handle) :
    (s.freeAtTail h).clearing = s.clearing := by
  unfold State.freeAtTail; dsimp only; split <;> rfl

@[simp] theorem State.freeAtTail_timebase (s : State) (h : Handle) :
    (s.freeAtTail h).timebase = s.timebase := by
  unfold State.freeAtTail; dsimp only; split <;> rfl

@[simp] theorem State.freeAtTail_walker (s : State) (h : Handle) :
    (s.freeAtTail h).walker = s.walker := by
  unfold State.freeAtTail; dsimp only; split <;> rfl

@[simp] theorem State.freeAtTail_linkUp (s : State) (h : Handle) :
    (s.freeAtTail h).linkUp = s.linkUp := by
  unfold State.freeAtTail; dsimp only; split <;> rfl

@[simp] theorem State.freeAtTail_inbound (s : State) (h : Handle) :
    (s.freeAtTail h).inbound = s.inbound := by
  unfold State.freeAtTail; dsimp only; split <;> rfl

@[simp] theorem State.freeAtTail_outbound (s : State) (h : Handle) :
    (s.freeAtTail h).outbound = s.outbound := by
  unfold State.freeAtTail; dsimp only; split <;> rfl

@[simp] theorem State.freeAtTail_lkoSent (s : State) (h : Handle) :
    (s.freeAtTail h).lkoSent = s.lkoSent := by
  unfold State.freeAtTail; dsimp only; split <;> rfl

@[simp] theorem State.freeAtTail_counters (s : State) (h : Handle) :
    (s.freeAtTail h).counters = s.counters := by
  unfold State.freeAtTail; dsimp only; split <;> rfl

@[simp] theorem State.freeAtTail_flags (s : State) (h : Handle) :
    (s.freeAtTail h).flags = s.flags := by
  unfold State.freeAtTail; dsimp only; split <;> rfl

/-! ### A record leaves the free list -/

@[simp] theorem State.unlinkFree_pending (s : State) (h : Handle) :
    (s.unlinkFree h).pending = s.pending := by
  unfold State.unlinkFree; dsimp only; repeat' split
  all_goals rfl

@[simp] theorem State.unlinkFree_resetLow (s : State) (h : Handle) :
    (s.unlinkFree h).resetLow = s.resetLow := by
  unfold State.unlinkFree; dsimp only; repeat' split
  all_goals rfl

@[simp] theorem State.unlinkFree_csLow (s : State) (h : Handle) :
    (s.unlinkFree h).csLow = s.csLow := by
  unfold State.unlinkFree; dsimp only; repeat' split
  all_goals rfl

@[simp] theorem State.unlinkFree_port (s : State) (h : Handle) :
    (s.unlinkFree h).port = s.port := by
  unfold State.unlinkFree; dsimp only; repeat' split
  all_goals rfl

@[simp] theorem State.unlinkFree_spiOut (s : State) (h : Handle) :
    (s.unlinkFree h).spiOut = s.spiOut := by
  unfold State.unlinkFree; dsimp only; repeat' split
  all_goals rfl

@[simp] theorem State.unlinkFree_requests (s : State) (h : Handle) :
    (s.unlinkFree h).requests = s.requests := by
  unfold State.unlinkFree; dsimp only; repeat' split
  all_goals rfl

@[simp] theorem State.unlinkFree_executing (s : State) (h : Handle) :
    (s.unlinkFree h).executing = s.executing := by
  unfold State.unlinkFree; dsimp only; repeat' split
  all_goals rfl

@[simp] theorem State.unlinkFree_responses (s : State) (h : Handle) :
    (s.unlinkFree h).responses = s.responses := by
  unfold State.unlinkFree; dsimp only; repeat' split
  all_goals rfl

@[simp] theorem State.unlinkFree_buckets (s : State) (h : Handle) :
    (s.unlinkFree h).buckets = s.buckets := by
  unfold State.unlinkFree; dsimp only; repeat' split
  all_goals rfl

@[simp] theorem State.unlinkFree_tablePort (s : State) (h : Handle) :
    (s.unlinkFree h).tablePort = s.tablePort := by
  unfold State.unlinkFree; dsimp only; repeat' split
  all_goals rfl

@[simp] theorem State.unlinkFree_rules (s : State) (h : Handle) :
    (s.unlinkFree h).rules = s.rules := by
  unfold State.unlinkFree; dsimp only; repeat' split
  all_goals rfl

@[simp] theorem State.unlinkFree_settings (s : State) (h : Handle) :
    (s.unlinkFree h).settings = s.settings := by
  unfold State.unlinkFree; dsimp only; repeat' split
  all_goals rfl

@[simp] theorem State.unlinkFree_rings (s : State) (h : Handle) :
    (s.unlinkFree h).rings = s.rings := by
  unfold State.unlinkFree; dsimp only; repeat' split
  all_goals rfl

@[simp] theorem State.unlinkFree_overflows (s : State) (h : Handle) :
    (s.unlinkFree h).overflows = s.overflows := by
  unfold State.unlinkFree; dsimp only; repeat' split
  all_goals rfl

@[simp] theorem State.unlinkFree_waiting (s : State) (h : Handle) :
    (s.unlinkFree h).waiting = s.waiting := by
  unfold State.unlinkFree; dsimp only; repeat' split
  all_goals rfl

@[simp] theorem State.unlinkFree_awards (s : State) (h : Handle) :
    (s.unlinkFree h).awards = s.awards := by
  unfold State.unlinkFree; dsimp only; repeat' split
  all_goals rfl

@[simp] theorem State.unlinkFree_engine (s : State) (h : Handle) :
    (s.unlinkFree h).engine = s.engine := by
  unfold State.unlinkFree; dsimp only; repeat' split
  all_goals rfl

@[simp] theorem State.unlinkFree_dueExpiries (s : State) (h : Handle) :
    (s.unlinkFree h).dueExpiries = s.dueExpiries := by
  unfold State.unlinkFree; dsimp only; repeat' split
  all_goals rfl

@[simp] theorem State.unlinkFree_releaseDue (s : State) (h : Handle) :
    (s.unlinkFree h).releaseDue = s.releaseDue := by
  unfold State.unlinkFree; dsimp only; repeat' split
  all_goals rfl

@[simp] theorem State.unlinkFree_clearing (s : State) (h : Handle) :
    (s.unlinkFree h).clearing = s.clearing := by
  unfold State.unlinkFree; dsimp only; repeat' split
  all_goals rfl

@[simp] theorem State.unlinkFree_timebase (s : State) (h : Handle) :
    (s.unlinkFree h).timebase = s.timebase := by
  unfold State.unlinkFree; dsimp only; repeat' split
  all_goals rfl

@[simp] theorem State.unlinkFree_walker (s : State) (h : Handle) :
    (s.unlinkFree h).walker = s.walker := by
  unfold State.unlinkFree; dsimp only; repeat' split
  all_goals rfl

@[simp] theorem State.unlinkFree_linkUp (s : State) (h : Handle) :
    (s.unlinkFree h).linkUp = s.linkUp := by
  unfold State.unlinkFree; dsimp only; repeat' split
  all_goals rfl

@[simp] theorem State.unlinkFree_inbound (s : State) (h : Handle) :
    (s.unlinkFree h).inbound = s.inbound := by
  unfold State.unlinkFree; dsimp only; repeat' split
  all_goals rfl

@[simp] theorem State.unlinkFree_outbound (s : State) (h : Handle) :
    (s.unlinkFree h).outbound = s.outbound := by
  unfold State.unlinkFree; dsimp only; repeat' split
  all_goals rfl

@[simp] theorem State.unlinkFree_lkoSent (s : State) (h : Handle) :
    (s.unlinkFree h).lkoSent = s.lkoSent := by
  unfold State.unlinkFree; dsimp only; repeat' split
  all_goals rfl

@[simp] theorem State.unlinkFree_counters (s : State) (h : Handle) :
    (s.unlinkFree h).counters = s.counters := by
  unfold State.unlinkFree; dsimp only; repeat' split
  all_goals rfl

@[simp] theorem State.unlinkFree_flags (s : State) (h : Handle) :
    (s.unlinkFree h).flags = s.flags := by
  unfold State.unlinkFree; dsimp only; repeat' split
  all_goals rfl

/-! ### A record takes its place in the free list -/

@[simp] theorem State.freeInOrder_pending (s : State) (h : Handle) :
    (s.freeInOrder h).pending = s.pending := by
  unfold State.freeInOrder State.freeAtHead; dsimp only; split <;> rfl

@[simp] theorem State.freeInOrder_resetLow (s : State) (h : Handle) :
    (s.freeInOrder h).resetLow = s.resetLow := by
  unfold State.freeInOrder State.freeAtHead; dsimp only; split <;> rfl

@[simp] theorem State.freeInOrder_csLow (s : State) (h : Handle) :
    (s.freeInOrder h).csLow = s.csLow := by
  unfold State.freeInOrder State.freeAtHead; dsimp only; split <;> rfl

@[simp] theorem State.freeInOrder_port (s : State) (h : Handle) :
    (s.freeInOrder h).port = s.port := by
  unfold State.freeInOrder State.freeAtHead; dsimp only; split <;> rfl

@[simp] theorem State.freeInOrder_spiOut (s : State) (h : Handle) :
    (s.freeInOrder h).spiOut = s.spiOut := by
  unfold State.freeInOrder State.freeAtHead; dsimp only; split <;> rfl

@[simp] theorem State.freeInOrder_requests (s : State) (h : Handle) :
    (s.freeInOrder h).requests = s.requests := by
  unfold State.freeInOrder State.freeAtHead; dsimp only; split <;> rfl

@[simp] theorem State.freeInOrder_executing (s : State) (h : Handle) :
    (s.freeInOrder h).executing = s.executing := by
  unfold State.freeInOrder State.freeAtHead; dsimp only; split <;> rfl

@[simp] theorem State.freeInOrder_responses (s : State) (h : Handle) :
    (s.freeInOrder h).responses = s.responses := by
  unfold State.freeInOrder State.freeAtHead; dsimp only; split <;> rfl

@[simp] theorem State.freeInOrder_buckets (s : State) (h : Handle) :
    (s.freeInOrder h).buckets = s.buckets := by
  unfold State.freeInOrder State.freeAtHead; dsimp only; split <;> rfl

@[simp] theorem State.freeInOrder_tablePort (s : State) (h : Handle) :
    (s.freeInOrder h).tablePort = s.tablePort := by
  unfold State.freeInOrder State.freeAtHead; dsimp only; split <;> rfl

@[simp] theorem State.freeInOrder_rules (s : State) (h : Handle) :
    (s.freeInOrder h).rules = s.rules := by
  unfold State.freeInOrder State.freeAtHead; dsimp only; split <;> rfl

@[simp] theorem State.freeInOrder_settings (s : State) (h : Handle) :
    (s.freeInOrder h).settings = s.settings := by
  unfold State.freeInOrder State.freeAtHead; dsimp only; split <;> rfl

@[simp] theorem State.freeInOrder_rings (s : State) (h : Handle) :
    (s.freeInOrder h).rings = s.rings := by
  unfold State.freeInOrder State.freeAtHead; dsimp only; split <;> rfl

@[simp] theorem State.freeInOrder_overflows (s : State) (h : Handle) :
    (s.freeInOrder h).overflows = s.overflows := by
  unfold State.freeInOrder State.freeAtHead; dsimp only; split <;> rfl

@[simp] theorem State.freeInOrder_waiting (s : State) (h : Handle) :
    (s.freeInOrder h).waiting = s.waiting := by
  unfold State.freeInOrder State.freeAtHead; dsimp only; split <;> rfl

@[simp] theorem State.freeInOrder_awards (s : State) (h : Handle) :
    (s.freeInOrder h).awards = s.awards := by
  unfold State.freeInOrder State.freeAtHead; dsimp only; split <;> rfl

@[simp] theorem State.freeInOrder_engine (s : State) (h : Handle) :
    (s.freeInOrder h).engine = s.engine := by
  unfold State.freeInOrder State.freeAtHead; dsimp only; split <;> rfl

@[simp] theorem State.freeInOrder_dueExpiries (s : State) (h : Handle) :
    (s.freeInOrder h).dueExpiries = s.dueExpiries := by
  unfold State.freeInOrder State.freeAtHead; dsimp only; split <;> rfl

@[simp] theorem State.freeInOrder_releaseDue (s : State) (h : Handle) :
    (s.freeInOrder h).releaseDue = s.releaseDue := by
  unfold State.freeInOrder State.freeAtHead; dsimp only; split <;> rfl

@[simp] theorem State.freeInOrder_clearing (s : State) (h : Handle) :
    (s.freeInOrder h).clearing = s.clearing := by
  unfold State.freeInOrder State.freeAtHead; dsimp only; split <;> rfl

@[simp] theorem State.freeInOrder_timebase (s : State) (h : Handle) :
    (s.freeInOrder h).timebase = s.timebase := by
  unfold State.freeInOrder State.freeAtHead; dsimp only; split <;> rfl

@[simp] theorem State.freeInOrder_walker (s : State) (h : Handle) :
    (s.freeInOrder h).walker = s.walker := by
  unfold State.freeInOrder State.freeAtHead; dsimp only; split <;> rfl

@[simp] theorem State.freeInOrder_linkUp (s : State) (h : Handle) :
    (s.freeInOrder h).linkUp = s.linkUp := by
  unfold State.freeInOrder State.freeAtHead; dsimp only; split <;> rfl

@[simp] theorem State.freeInOrder_inbound (s : State) (h : Handle) :
    (s.freeInOrder h).inbound = s.inbound := by
  unfold State.freeInOrder State.freeAtHead; dsimp only; split <;> rfl

@[simp] theorem State.freeInOrder_outbound (s : State) (h : Handle) :
    (s.freeInOrder h).outbound = s.outbound := by
  unfold State.freeInOrder State.freeAtHead; dsimp only; split <;> rfl

@[simp] theorem State.freeInOrder_lkoSent (s : State) (h : Handle) :
    (s.freeInOrder h).lkoSent = s.lkoSent := by
  unfold State.freeInOrder State.freeAtHead; dsimp only; split <;> rfl

@[simp] theorem State.freeInOrder_counters (s : State) (h : Handle) :
    (s.freeInOrder h).counters = s.counters := by
  unfold State.freeInOrder State.freeAtHead; dsimp only; split <;> rfl

@[simp] theorem State.freeInOrder_flags (s : State) (h : Handle) :
    (s.freeInOrder h).flags = s.flags := by
  unfold State.freeInOrder State.freeAtHead; dsimp only; split <;> rfl

/-! ### Flags of a charge -/

@[simp] theorem State.chargeFlags_pending (s : State) (r : StationRecord) (raw : Nat) :
    (s.chargeFlags r raw).pending = s.pending := by
  simp only [State.chargeFlags, State.raiseIf_pending]

@[simp] theorem State.chargeFlags_resetLow (s : State) (r : StationRecord) (raw : Nat) :
    (s.chargeFlags r raw).resetLow = s.resetLow := by
  simp only [State.chargeFlags, State.raiseIf_resetLow]

@[simp] theorem State.chargeFlags_csLow (s : State) (r : StationRecord) (raw : Nat) :
    (s.chargeFlags r raw).csLow = s.csLow := by
  simp only [State.chargeFlags, State.raiseIf_csLow]

@[simp] theorem State.chargeFlags_port (s : State) (r : StationRecord) (raw : Nat) :
    (s.chargeFlags r raw).port = s.port := by
  simp only [State.chargeFlags, State.raiseIf_port]

@[simp] theorem State.chargeFlags_spiOut (s : State) (r : StationRecord) (raw : Nat) :
    (s.chargeFlags r raw).spiOut = s.spiOut := by
  simp only [State.chargeFlags, State.raiseIf_spiOut]

@[simp] theorem State.chargeFlags_requests (s : State) (r : StationRecord) (raw : Nat) :
    (s.chargeFlags r raw).requests = s.requests := by
  simp only [State.chargeFlags, State.raiseIf_requests]

@[simp] theorem State.chargeFlags_executing (s : State) (r : StationRecord) (raw : Nat) :
    (s.chargeFlags r raw).executing = s.executing := by
  simp only [State.chargeFlags, State.raiseIf_executing]

@[simp] theorem State.chargeFlags_responses (s : State) (r : StationRecord) (raw : Nat) :
    (s.chargeFlags r raw).responses = s.responses := by
  simp only [State.chargeFlags, State.raiseIf_responses]

@[simp] theorem State.chargeFlags_stations (s : State) (r : StationRecord) (raw : Nat) :
    (s.chargeFlags r raw).stations = s.stations := by
  simp only [State.chargeFlags, State.raiseIf_stations]

@[simp] theorem State.chargeFlags_freeHead (s : State) (r : StationRecord) (raw : Nat) :
    (s.chargeFlags r raw).freeHead = s.freeHead := by
  simp only [State.chargeFlags, State.raiseIf_freeHead]

@[simp] theorem State.chargeFlags_freeTail (s : State) (r : StationRecord) (raw : Nat) :
    (s.chargeFlags r raw).freeTail = s.freeTail := by
  simp only [State.chargeFlags, State.raiseIf_freeTail]

@[simp] theorem State.chargeFlags_buckets (s : State) (r : StationRecord) (raw : Nat) :
    (s.chargeFlags r raw).buckets = s.buckets := by
  simp only [State.chargeFlags, State.raiseIf_buckets]

@[simp] theorem State.chargeFlags_tablePort (s : State) (r : StationRecord) (raw : Nat) :
    (s.chargeFlags r raw).tablePort = s.tablePort := by
  simp only [State.chargeFlags, State.raiseIf_tablePort]

@[simp] theorem State.chargeFlags_rules (s : State) (r : StationRecord) (raw : Nat) :
    (s.chargeFlags r raw).rules = s.rules := by
  simp only [State.chargeFlags, State.raiseIf_rules]

@[simp] theorem State.chargeFlags_settings (s : State) (r : StationRecord) (raw : Nat) :
    (s.chargeFlags r raw).settings = s.settings := by
  simp only [State.chargeFlags, State.raiseIf_settings]

@[simp] theorem State.chargeFlags_rings (s : State) (r : StationRecord) (raw : Nat) :
    (s.chargeFlags r raw).rings = s.rings := by
  simp only [State.chargeFlags, State.raiseIf_rings]

@[simp] theorem State.chargeFlags_overflows (s : State) (r : StationRecord) (raw : Nat) :
    (s.chargeFlags r raw).overflows = s.overflows := by
  simp only [State.chargeFlags, State.raiseIf_overflows]

@[simp] theorem State.chargeFlags_waiting (s : State) (r : StationRecord) (raw : Nat) :
    (s.chargeFlags r raw).waiting = s.waiting := by
  simp only [State.chargeFlags, State.raiseIf_waiting]

@[simp] theorem State.chargeFlags_awards (s : State) (r : StationRecord) (raw : Nat) :
    (s.chargeFlags r raw).awards = s.awards := by
  simp only [State.chargeFlags, State.raiseIf_awards]

@[simp] theorem State.chargeFlags_engine (s : State) (r : StationRecord) (raw : Nat) :
    (s.chargeFlags r raw).engine = s.engine := by
  simp only [State.chargeFlags, State.raiseIf_engine]

@[simp] theorem State.chargeFlags_dueExpiries (s : State) (r : StationRecord) (raw : Nat) :
    (s.chargeFlags r raw).dueExpiries = s.dueExpiries := by
  simp only [State.chargeFlags, State.raiseIf_dueExpiries]

@[simp] theorem State.chargeFlags_releaseDue (s : State) (r : StationRecord) (raw : Nat) :
    (s.chargeFlags r raw).releaseDue = s.releaseDue := by
  simp only [State.chargeFlags, State.raiseIf_releaseDue]

@[simp] theorem State.chargeFlags_clearing (s : State) (r : StationRecord) (raw : Nat) :
    (s.chargeFlags r raw).clearing = s.clearing := by
  simp only [State.chargeFlags, State.raiseIf_clearing]

@[simp] theorem State.chargeFlags_timebase (s : State) (r : StationRecord) (raw : Nat) :
    (s.chargeFlags r raw).timebase = s.timebase := by
  simp only [State.chargeFlags, State.raiseIf_timebase]

@[simp] theorem State.chargeFlags_walker (s : State) (r : StationRecord) (raw : Nat) :
    (s.chargeFlags r raw).walker = s.walker := by
  simp only [State.chargeFlags, State.raiseIf_walker]

@[simp] theorem State.chargeFlags_linkUp (s : State) (r : StationRecord) (raw : Nat) :
    (s.chargeFlags r raw).linkUp = s.linkUp := by
  simp only [State.chargeFlags, State.raiseIf_linkUp]

@[simp] theorem State.chargeFlags_inbound (s : State) (r : StationRecord) (raw : Nat) :
    (s.chargeFlags r raw).inbound = s.inbound := by
  simp only [State.chargeFlags, State.raiseIf_inbound]

@[simp] theorem State.chargeFlags_outbound (s : State) (r : StationRecord) (raw : Nat) :
    (s.chargeFlags r raw).outbound = s.outbound := by
  simp only [State.chargeFlags, State.raiseIf_outbound]

@[simp] theorem State.chargeFlags_lkoSent (s : State) (r : StationRecord) (raw : Nat) :
    (s.chargeFlags r raw).lkoSent = s.lkoSent := by
  simp only [State.chargeFlags, State.raiseIf_lkoSent]

end Sys2Proof.Machine
end

