-- ==== Sys2Proof/Laws/Members.lean ====
section
/-!
SUPPORT. Chains of the address index as a record enters and leaves it (R13), and the members of an award as
one is released (R81, R97).
-/

namespace Sys2Proof.Machine

/-! ### The address index (R13) -/

theorem State.BucketOrder.chain {s : State} {b : BitVec 8} {members : List Handle}
    (law : s.BucketOrder b members) : s.chain b = members := by
  rw [State.chain, law.head]
  exact s.walk_members (·.nextInBucket) law.nodup law.linked

/-- A change of records that leaves the members' links and the bucket's head leaves the chain. -/
theorem State.BucketOrder.congr {s t : State} {b : BitVec 8} {members : List Handle}
    (law : s.BucketOrder b members) (head : t.bucketHead b = s.bucketHead b)
    (same : ∀ h ∈ members, (t.station h).nextInBucket = (s.station h).nextInBucket) :
    t.BucketOrder b members :=
  ⟨law.nodup, head.trans law.head, law.linked.congr same⟩

theorem State.enterIndex_station (s : State) (h k : Handle) :
    (s.enterIndex h).station k = if k = h then
      { s.station h with
        nextInBucket := s.bucketHead (bucketOf (s.station h).descriptor.linkAddress) }
    else s.station k := by
  show ((s.setNextInBucket h _).setBucketHead _ _).station k = _
  rw [State.station_setBucketHead, State.setNextInBucket_eq, State.station_setStation]

theorem State.enterIndex_bucketHead (s : State) (h : Handle) (b : BitVec 8) :
    (s.enterIndex h).bucketHead b =
      if b = bucketOf (s.station h).descriptor.linkAddress then some h else s.bucketHead b := by
  show ((s.setNextInBucket h _).setBucketHead _ _).bucketHead b = _
  rw [State.bucketHead_setBucketHead, State.setNextInBucket_eq, State.bucketHead_setStation]

/-- A record enters at the head of its chain, and the other chains stay. -/
theorem State.BucketOrder.enterIndex {s : State} {b : BitVec 8} {members : List Handle}
    (law : s.BucketOrder b members) {h : Handle} (out : h ∉ members) :
    (s.enterIndex h).BucketOrder b
      (if b = bucketOf (s.station h).descriptor.linkAddress then h :: members else members) := by
  have same : ∀ k ∈ members,
      ((s.enterIndex h).station k).nextInBucket = (s.station k).nextInBucket := fun k hk => by
    rw [State.enterIndex_station, if_neg fun e : k = h => out (e ▸ hk)]
  by_cases own : b = bucketOf (s.station h).descriptor.linkAddress
  · rw [if_pos own]
    refine ⟨List.nodup_cons.mpr ⟨out, law.nodup⟩, ?_, ?_, law.linked.congr same⟩
    · rw [State.enterIndex_bucketHead, if_pos own]; rfl
    · dsimp only
      rw [State.enterIndex_station, if_pos rfl]
      dsimp only
      rw [← own]
      exact law.head
  · rw [if_neg own]
    exact law.congr (by rw [State.enterIndex_bucketHead, if_neg own]) same

theorem State.leaveIndex_station {s : State} {h : Handle} (x : Option Handle)
    (pred : predecessorIn h (s.chain (bucketOf (s.station h).descriptor.linkAddress)) = x)
    (self : x ≠ some h) (j : Handle) :
    (s.leaveIndex h).station j =
      if j = h then { s.station h with nextInBucket := none }
      else if x = some j then { s.station j with nextInBucket := (s.station h).nextInBucket }
      else s.station j := by
  unfold State.leaveIndex
  dsimp only
  rw [pred]
  cases x with
  | none =>
    dsimp only
    rw [State.setNextInBucket_eq, State.station_setStation]
    by_cases e : j = h
    · subst e
      rw [if_pos rfl, if_pos rfl]
      split <;> rfl
    · rw [if_neg e, if_neg e]
      split <;> simp
  | some a =>
    have ne : h ≠ a := fun e => self (by rw [e])
    dsimp only
    rw [State.setNextInBucket_eq, State.station_setStation]
    by_cases e : j = h
    · subst e
      rw [if_pos rfl, if_pos rfl, State.setNextInBucket_eq, State.station_setStation_ne _ ne]
    · rw [if_neg e, if_neg e, State.setNextInBucket_eq, State.station_setStation]
      by_cases q : j = a
      · subst q; simp
      · rw [if_neg q, if_neg (by simpa using fun z : a = j => q z.symm)]

/-- A record leaves its chain, wherever it stands. -/
theorem State.BucketOrder.leaveIndex {s : State} {a c : List Handle} {h : Handle}
    (law : s.BucketOrder (bucketOf (s.station h).descriptor.linkAddress) (a ++ h :: c)) :
    (s.leaveIndex h).BucketOrder (bucketOf (s.station h).descriptor.linkAddress) (a ++ c) := by
  have nodup : (a ++ c).Nodup := (List.nodup_middle.mp law.nodup).of_cons
  have out : h ∉ a ++ c := (List.nodup_cons.mp (List.nodup_middle.mp law.nodup)).1
  have pred : predecessorIn h (s.chain (bucketOf (s.station h).descriptor.linkAddress)) =
      a.getLast? := by
    rw [law.chain]; exact predecessorIn_append law.nodup
  have self : a.getLast? ≠ some h := fun e =>
    out (List.mem_append_left _ (List.mem_of_getLast? e))
  have linkH : (s.station h).nextInBucket = c.head? := by
    have := chained_iff.mp law.linked
    rw [ChainedTo.append] at this
    simpa using this.2.1
  have station := State.leaveIndex_station _ pred self
  refine ⟨nodup, ?_, law.linked.unlink law.nodup (fun x hx => ?_) fun k hk ne => ?_⟩
  · unfold State.leaveIndex
    dsimp only
    rw [pred]
    rcases List.eq_nil_or_concat a with rfl | ⟨d, x, rfl⟩
    · have head : s.bucketHead (bucketOf (s.station h).descriptor.linkAddress) = some h := law.head
      simp only [List.getLast?_nil, if_pos head]
      rw [State.setNextInBucket_eq, State.bucketHead_setStation, State.bucketHead_setBucketHead,
        if_pos rfl, linkH]
      rfl
    · have last : (d.concat x).getLast? = some x := by simp
      rw [last]
      dsimp only
      rw [State.setNextInBucket_eq, State.bucketHead_setStation, State.setNextInBucket_eq,
        State.bucketHead_setStation, law.head]
      cases d <;> simp
  · have ne : x ≠ h := fun e => self (by rw [hx, e])
    rw [station, if_neg ne, if_pos hx]
  · have kh : k ≠ h := fun e => out (e ▸ hk)
    rw [station, if_neg kh, if_neg ne]

/-- In a lawful index, a record has another as its link exactly when it stands before it in its chain. -/
theorem State.IndexLawful.predecessor {s : State} (law : s.IndexLawful) {h : Handle}
    (isIndexed : (s.station h).indexed = true) :
    (∀ k, predecessorIn h (s.chain (bucketOf (s.station h).descriptor.linkAddress)) = some k ↔
      (s.station k).nextInBucket = some h) ∧
    (∀ b, s.bucketHead b = some h ↔
      b = bucketOf (s.station h).descriptor.linkAddress ∧
        predecessorIn h (s.chain (bucketOf (s.station h).descriptor.linkAddress)) = none) := by
  have inChain : ∀ (b : BitVec 8) (members : List Handle), (∀ k, k ∈ members ↔ (s.station k).indexed = true ∧
      bucketOf (s.station k).descriptor.linkAddress = b) → h ∈ members →
      b = bucketOf (s.station h).descriptor.linkAddress := fun b members mem hm => ((mem h).mp hm).2.symm
  obtain ⟨members, nodup, head, mem, chained⟩ := law.chains (bucketOf (s.station h).descriptor.linkAddress)
  have chain : s.chain (bucketOf (s.station h).descriptor.linkAddress) = members :=
    State.BucketOrder.chain ⟨nodup, head, chained⟩
  obtain ⟨a, c, rfl⟩ := List.append_of_mem ((mem h).mpr ⟨isIndexed, rfl⟩)
  rw [chain, predecessorIn_append nodup]
  constructor
  · intro k
    constructor
    · intro last
      obtain ⟨d, rfl⟩ := List.getLast?_eq_some_iff.mp last
      have := chained_iff.mp chained
      rw [List.append_assoc, ChainedTo.append] at this
      simpa using this.2.1
    · intro link
      have isIn : (s.station k).indexed = true := by
        by_contra out
        rw [law.outside k (by simpa using out)] at link
        exact absurd link (by simp)
      obtain ⟨own, nodup', head', mem', chained'⟩ :=
        law.chains (bucketOf (s.station k).descriptor.linkAddress)
      obtain ⟨d, e, rfl⟩ := List.append_of_mem ((mem' k).mpr ⟨isIn, rfl⟩)
      have next := chained_iff.mp chained'
      rw [ChainedTo.append] at next
      have first : e.head? = some h := by
        have := next.2.1
        simp only [Option.or_none] at this
        rw [← this, link]
      obtain ⟨e', rfl⟩ := List.head?_eq_some_iff.mp first
      have bucket := inChain _ _ mem' (by simp)
      have same : a ++ h :: c = (d ++ [k]) ++ h :: e' := by
        rw [← chain, ← bucket, State.BucketOrder.chain ⟨nodup', head', chained'⟩]
        simp
      have pred := predecessorIn_append nodup
      rw [same, predecessorIn_append (same ▸ nodup)] at pred
      rw [← pred]
      simp
  · intro b
    constructor
    · intro first
      obtain ⟨own, nodup', head', mem', chained'⟩ := law.chains b
      have isIn : h ∈ own := by
        rw [head'] at first
        exact List.mem_of_head? first
      have bucket := inChain _ _ mem' isIn
      refine ⟨bucket, ?_⟩
      rw [bucket, head] at first
      cases a with
      | nil => rfl
      | cons x t =>
        have e : x = h := by simpa using first
        subst e
        exact absurd nodup (by simp)
    · rintro ⟨rfl, last⟩
      rw [head, List.getLast?_eq_none_iff.mp last]
      rfl

/-- A record leaves a lawful index: the record before it in its chain, or the bucket's head, takes its link
(R13). -/
theorem State.IndexLawful.leaveIndex {s : State} (law : s.IndexLawful) {h : Handle}
    (isIndexed : (s.station h).indexed = true) :
    (∀ k, (s.leaveIndex h).station k =
      if k = h then { s.station h with nextInBucket := none }
      else { s.station k with
        nextInBucket :=
          if (s.station k).nextInBucket = some h then (s.station h).nextInBucket
          else (s.station k).nextInBucket }) ∧
    (∀ b, (s.leaveIndex h).bucketHead b =
      if s.bucketHead b = some h then (s.station h).nextInBucket else s.bucketHead b) := by
  obtain ⟨pred, first⟩ := law.predecessor isIndexed
  have self : predecessorIn h (s.chain (bucketOf (s.station h).descriptor.linkAddress)) ≠ some h := by
    intro e
    obtain ⟨members, nodup, head, mem, chained⟩ :=
      law.chains (bucketOf (s.station h).descriptor.linkAddress)
    obtain ⟨a, c, rfl⟩ := List.append_of_mem ((mem h).mpr ⟨isIndexed, rfl⟩)
    rw [State.BucketOrder.chain ⟨nodup, head, chained⟩, predecessorIn_append nodup] at e
    exact (List.nodup_append.mp nodup).2.2 h (List.mem_of_getLast? e) h (by simp) rfl
  constructor
  · intro k
    rw [State.leaveIndex_station _ rfl self]
    by_cases e : k = h
    · rw [if_pos e, if_pos e]
    · rw [if_neg e, if_neg e]
      simp only [pred k]
      split <;> rfl
  · intro b
    simp only [first b]
    unfold State.leaveIndex
    dsimp only
    cases hp : predecessorIn h (s.chain (bucketOf (s.station h).descriptor.linkAddress)) with
    | none =>
      have head := (first _).mpr ⟨rfl, hp⟩
      simp only [if_pos head, and_true]
      rw [State.setNextInBucket_eq, State.bucketHead_setStation, State.bucketHead_setBucketHead]
    | some a =>
      simp only [reduceCtorEq, and_false, if_false]
      rw [State.setNextInBucket_eq, State.bucketHead_setStation, State.setNextInBucket_eq,
        State.bucketHead_setStation]

/-- A state in which a record's place in the index has been given to the one after it has that record taken
from its chain, the others in order, and the other chains as they were (R13). -/
theorem State.BucketOrder.erase {s t : State} {h : Handle}
    (links : ∀ k, k ≠ h → (t.station k).nextInBucket =
      if (s.station k).nextInBucket = some h then (s.station h).nextInBucket
      else (s.station k).nextInBucket)
    (heads : ∀ b, t.bucketHead b =
      if s.bucketHead b = some h then (s.station h).nextInBucket else s.bucketHead b)
    {b : BitVec 8} {members : List Handle} (law : s.BucketOrder b members) :
    t.BucketOrder b (members.erase h) := by
  by_cases isIn : h ∈ members
  · obtain ⟨a, c, rfl⟩ := List.append_of_mem isIn
    have nodup := law.nodup
    have out : h ∉ a ++ c := (List.nodup_cons.mp (List.nodup_middle.mp nodup)).1
    have linked := chained_iff.mp law.linked
    rw [ChainedTo.append] at linked
    have linkH : (s.station h).nextInBucket = c.head? := by simpa using linked.2.1
    have erased : (a ++ h :: c).erase h = a ++ c := by
      rw [List.erase_append_right _ fun x => out (List.mem_append_left _ x), List.erase_cons_head]
    rw [erased]
    refine ⟨(List.nodup_middle.mp nodup).of_cons, ?_, law.linked.unlink nodup (fun x hx => ?_)
      fun k hk notLast => ?_⟩
    · rw [heads, law.head]
      cases a with
      | nil => simp [linkH]
      | cons x t =>
        have ne : x ≠ h := fun e => out (by simp [e])
        simp [ne]
    · have ne : x ≠ h := fun e => out (List.mem_append_left _ (e ▸ List.mem_of_getLast? hx))
      obtain ⟨d, rfl⟩ := List.getLast?_eq_some_iff.mp hx
      have before := linked.1
      rw [ChainedTo.append] at before
      have link : (s.station x).nextInBucket = some h := by simpa [ChainedTo] using before.2
      rw [links x ne, if_pos link]
    · have ne : k ≠ h := fun e => out (e ▸ hk)
      rw [links k ne, if_neg]
      intro link
      apply notLast
      rcases List.mem_append.mp hk with ka | kc
      · obtain ⟨d, e, rfl⟩ := List.append_of_mem ka
        have before := linked.1
        rw [ChainedTo.append] at before
        have next := before.2.1
        dsimp only at next
        rw [link] at next
        cases e with
        | nil => simp
        | cons y e =>
          have : y = h := by simpa using next.symm
          subst this
          exact absurd (by simp) out
      · obtain ⟨d, e, rfl⟩ := List.append_of_mem kc
        have after := linked.2.2
        rw [ChainedTo.append] at after
        have next := after.2.1
        dsimp only at next
        rw [link] at next
        cases e with
        | nil => simp at next
        | cons y e =>
          have : y = h := by simpa using next.symm
          subst this
          exact absurd (by simp) out
  · rw [List.erase_of_not_mem isIn]
    refine ⟨law.nodup, ?_, law.linked.congr fun k hk => ?_⟩
    · rw [heads, if_neg, law.head]
      intro first
      rw [law.head] at first
      exact isIn (List.mem_of_head? first)
    · have ne : k ≠ h := fun e => isIn (e ▸ hk)
      rw [links k ne, if_neg]
      intro link
      obtain ⟨d, e, rfl⟩ := List.append_of_mem hk
      have linked := chained_iff.mp law.linked
      rw [ChainedTo.append] at linked
      have next := linked.2.1
      dsimp only at next
      rw [link] at next
      cases e with
      | nil => simp at next
      | cons y e =>
        have : y = h := by simpa using next.symm
        subst this
        exact isIn (by simp)

/-! ### The members of an award (R81, R97) -/

/-- The first held member with the handle is marked. -/
theorem markReleased_append {before after : List Member} {h : Handle}
    (first : ∀ m ∈ before, m ≠ ⟨h, true⟩) :
    markReleased h (before ++ ⟨h, true⟩ :: after) = before ++ ⟨h, false⟩ :: after := by
  induction before with
  | nil => simp [markReleased]
  | cons m t ih =>
    have ne : ¬ (m.handle = h ∧ m.held = true) := by
      rintro ⟨rfl, held⟩
      exact first m (by simp) (by rw [← held])
    simp only [List.cons_append, markReleased, if_neg ne, List.cons.injEq, true_and]
    exact ih fun m hm => first m (by simp [hm])

/-- The held handles lose the first that equals the released one. -/
theorem heldHandles_markReleased (w : OpenAward) (h : Handle) :
    ({ w with members := markReleased h w.members } : OpenAward).heldHandles = w.heldHandles.erase h := by
  unfold OpenAward.heldHandles
  dsimp only
  generalize w.members = members
  induction members with
  | nil => rfl
  | cons m t ih =>
    unfold markReleased
    split
    · next is =>
      obtain ⟨rfl, held⟩ := is
      simp [held]
    · next isnt =>
      cases held : m.held with
      | false =>
        rw [List.filter_cons_of_neg (by simp [held]), List.filter_cons_of_neg (by simp [held])]
        exact ih
      | true =>
        have ne : m.handle ≠ h := fun e => isnt ⟨e, held⟩
        rw [List.filter_cons_of_pos (by simp [held]), List.filter_cons_of_pos (by simp [held]),
          List.map_cons, List.map_cons, List.erase_cons_tail (by simpa using ne), ih]

/-- An award with a member still held stays OPEN; without one its entry is FREE. -/
theorem any_held_markReleased (w : OpenAward) (h : Handle) :
    (markReleased h w.members).any (·.held) = true ↔ w.heldHandles.erase h ≠ [] := by
  rw [← heldHandles_markReleased, List.any_eq_true]
  unfold OpenAward.heldHandles
  simp [List.filter_eq_nil_iff]

end Sys2Proof.Machine
end

