-- ==== Sys2Proof/Laws/Rings.lean ====
section
/-!
SUPPORT. The laws of one service class, kept by each ring operation. A class is viewed as its ring, its
overflow list and the places its stations hold; each operation is one on the view of its own class and
leaves the views of the others.
-/

namespace Sys2Proof.Machine

/-! ### Linked lists of places -/

theorem Linked.append {place : Handle → Option OverflowPlace} {p n : Option Handle}
    {a b : List Handle} :
    Linked place p (a ++ b) n ↔
      Linked place p a (b.head?.or n) ∧ Linked place (a.getLast?.or p) b n := by
  induction a generalizing p with
  | nil => simp [Linked]
  | cons h t ih =>
    simp only [List.cons_append, Linked, ih]
    rcases t with _ | ⟨y, t⟩
    · simp [Linked]
    · have : (h :: y :: t).getLast? = (y :: t).getLast? := by simp
      rw [this]
      rcases hq : (y :: t).getLast? with _ | q
      · simp at hq
      · simp [and_assoc]

theorem Linked.congr {place place' : Handle → Option OverflowPlace} {p n : Option Handle}
    {l : List Handle} (same : ∀ h ∈ l, place' h = place h) :
    Linked place' p l n ↔ Linked place p l n := by
  induction l generalizing p with
  | nil => simp [Linked]
  | cons h t ih =>
    simp only [Linked]
    rw [same h (by simp), ih fun k hk => same k (by simp [hk])]

theorem Linked.holds {place : Handle → Option OverflowPlace} {p n : Option Handle}
    {l : List Handle} (law : Linked place p l n) {h : Handle} (mem : h ∈ l) :
    (place h).isSome = true := by
  induction l generalizing p with
  | nil => simp at mem
  | cons k t ih =>
    obtain ⟨hd, tl⟩ := law
    rcases List.mem_cons.mp mem with rfl | mt
    · simp [hd]
    · exact ih tl mt

/-! ### The view of a class -/

/-- The ring, the overflow list, and the slot and overflow place of each station, in one class. -/
structure ClassView where
  ring  : Ring
  list  : OverflowList
  slot  : Handle → Option (BitVec 8)
  place : Handle → Option OverflowPlace

/-- The view of a class. -/
def State.view (s : State) (c : ServiceClass) : ClassView :=
  { ring := s.ring c
    list := s.overflowList c
    slot := fun h => (s.station h).ringSlot.get c
    place := fun h => (s.station h).overflow.get c }

theorem ClassView.ext_fun {v w : ClassView} (r : v.ring = w.ring) (l : v.list = w.list)
    (sl : ∀ h, v.slot h = w.slot h) (pl : ∀ h, v.place h = w.place h) : v = w := by
  cases v; cases w
  simp only at r l sl pl
  rw [r, l, funext sl, funext pl]

/-- A view with a station's slot replaced. -/
def ClassView.setSlot (v : ClassView) (h : Handle) (x : Option (BitVec 8)) : ClassView :=
  { v with slot := fun k => if k = h then x else v.slot k }

/-- A view with a station's place replaced. -/
def ClassView.setPlace (v : ClassView) (h : Handle) (x : Option OverflowPlace) : ClassView :=
  { v with place := fun k => if k = h then x else v.place k }

/-- A view with a ring replaced. -/
def ClassView.setRing (v : ClassView) (r : Ring) : ClassView := { v with ring := r }

/-- A view with an overflow list replaced. -/
def ClassView.setList (v : ClassView) (l : OverflowList) : ClassView := { v with list := l }

theorem State.view_setRing (s : State) (c d : ServiceClass) (r : Ring) :
    (s.setRing c r).view d = if d = c then (s.view c).setRing r else s.view d := by
  by_cases e : d = c
  · subst e
    simp [State.view, ClassView.setRing]
  · simp [State.view, e, State.ring_setRing]

theorem State.view_setOverflowList (s : State) (c d : ServiceClass) (l : OverflowList) :
    (s.setOverflowList c l).view d = if d = c then (s.view c).setList l else s.view d := by
  by_cases e : d = c
  · subst e
    simp [State.view, ClassView.setList]
  · simp [State.view, e, State.overflowList_setOverflowList]

/-- A record written with the places it had leaves every view. -/
theorem State.view_setStation (s : State) (h : Handle) (r : StationRecord) (d : ServiceClass)
    (slot : r.ringSlot.get d = (s.station h).ringSlot.get d)
    (place : r.overflow.get d = (s.station h).overflow.get d) :
    (s.setStation h r).view d = s.view d := by
  refine ClassView.ext_fun rfl rfl (fun k => ?_) (fun k => ?_)
  all_goals
    simp only [State.view, State.station_setStation]
    by_cases e : k = h
    · subst e; simp [slot, place]
    · simp [e]

theorem State.view_setRingSlot (s : State) (h : Handle) (c d : ServiceClass)
    (x : Option (BitVec 8)) :
    (s.setRingSlot h c x).view d = if d = c then (s.view c).setSlot h x else s.view d := by
  by_cases e : d = c
  · subst e
    rw [if_pos rfl]
    refine ClassView.ext_fun rfl rfl (fun k => ?_) (fun k => ?_)
    all_goals
      simp only [State.view, ClassView.setSlot, State.setRingSlot_eq, State.station_setStation]
      by_cases q : k = h
      · subst q; simp
      · simp [q]
  · rw [if_neg e]
    exact State.view_setStation s h _ d (by simp [PerClass.get_set, e]) rfl

theorem State.view_setPlace (s : State) (h : Handle) (c d : ServiceClass)
    (x : Option OverflowPlace) :
    (s.setPlace h c x).view d = if d = c then (s.view c).setPlace h x else s.view d := by
  by_cases e : d = c
  · subst e
    rw [if_pos rfl]
    refine ClassView.ext_fun rfl rfl (fun k => ?_) (fun k => ?_)
    all_goals
      simp only [State.view, ClassView.setPlace, State.setPlace_eq, State.station_setStation]
      by_cases q : k = h
      · subst q; simp
      · simp [q]
  · rw [if_neg e]
    exact State.view_setStation s h _ d rfl (by simp [PerClass.get_set, e])

theorem State.view_raise (s : State) (f : Flag) (d : ServiceClass) : (s.raise f).view d = s.view d :=
  rfl

theorem State.view_adjustWaiting (s : State) (c d : ServiceClass) (a b : Bool) :
    (s.adjustWaiting c a b).view d = s.view d := rfl

/-! ### The operations on a view -/

/-- `writeTail` on a view. -/
def ClassView.writeTail (v : ClassView) (h : Handle) : ClassView :=
  (v.setRing { v.ring.write v.ring.tail (some h) with tail := v.ring.tail + 1 }).setSlot h
    (some v.ring.tail)

/-- `makeHole` on a view. -/
def ClassView.makeHole (v : ClassView) (h : Handle) (i : BitVec 8) : ClassView :=
  (v.setRing (v.ring.write i none)).setSlot h none

/-- `setPlaceNext` on a view. -/
def ClassView.setNext (v : ClassView) (h : Handle) (x : Option Handle) : ClassView :=
  v.setPlace h ((v.place h).map fun p => { p with next := x })

/-- `setPlacePrev` on a view. -/
def ClassView.setPrev (v : ClassView) (h : Handle) (x : Option Handle) : ClassView :=
  v.setPlace h ((v.place h).map fun p => { p with prev := x })

/-- `appendOverflow` on a view. -/
def ClassView.append (v : ClassView) (h : Handle) : ClassView :=
  let linked := match v.list.tail with
    | none => v
    | some t => v.setNext t (some h)
  (linked.setPlace h (some { prev := v.list.tail, next := none })).setList
    { head := if v.list.tail.isNone then some h else v.list.head, tail := some h,
      length := v.list.length + 1 }

/-- `unlinkOverflow` on a view. -/
def ClassView.unlink (v : ClassView) (h : Handle) (p : OverflowPlace) : ClassView :=
  let a := match p.prev with
    | none => v
    | some a => v.setNext a p.next
  let b := match p.next with
    | none => a
    | some b => a.setPrev b p.prev
  (b.setPlace h none).setList
    { head := if p.prev.isNone then p.next else v.list.head
      tail := if p.next.isNone then p.prev else v.list.tail
      length := v.list.length - 1 }

/-- `insertStation` on a view. -/
def ClassView.insert (v : ClassView) (h : Handle) : ClassView :=
  if v.ring.occupancy < Config.ringFull then v.writeTail h else v.append h

/-- `promote` on a view. -/
def ClassView.promote (v : ClassView) : ClassView :=
  if v.ring.occupancy < Config.ringFull then
    match v.list.head with
    | none => v
    | some h =>
      match v.place h with
      | none => v
      | some p => (v.unlink h p).writeTail h
  else v

/-- `advanceHead` on a view. -/
def ClassView.advance (v : ClassView) : ClassView :=
  (v.setRing { v.ring.write v.ring.head none with head := v.ring.head + 1 }).promote

theorem State.view_writeTail (s : State) (c d : ServiceClass) (h : Handle) :
    (s.writeTail c h).view d = if d = c then (s.view c).writeTail h else s.view d := by
  simp only [State.writeTail, State.view_setRingSlot, State.view_setRing]
  by_cases e : d = c <;> (simp [e, ClassView.writeTail]; try rfl)

theorem State.view_makeHole (s : State) (c d : ServiceClass) (h : Handle) (i : BitVec 8) :
    (s.makeHole c h i).view d = if d = c then (s.view c).makeHole h i else s.view d := by
  simp only [State.makeHole, State.view_setRingSlot, State.view_setRing]
  by_cases e : d = c <;> (simp [e, ClassView.makeHole]; try rfl)

theorem State.view_setPlaceNext (s : State) (h : Handle) (c d : ServiceClass) (x : Option Handle) :
    (s.setPlaceNext h c x).view d = if d = c then (s.view c).setNext h x else s.view d := by
  rw [State.setPlaceNext, State.view_setPlace]
  rfl

theorem State.view_setPlacePrev (s : State) (h : Handle) (c d : ServiceClass) (x : Option Handle) :
    (s.setPlacePrev h c x).view d = if d = c then (s.view c).setPrev h x else s.view d := by
  rw [State.setPlacePrev, State.view_setPlace]
  rfl

theorem State.view_appendOverflow (s : State) (c d : ServiceClass) (h : Handle) :
    (s.appendOverflow c h).view d = if d = c then (s.view c).append h else s.view d := by
  simp only [State.appendOverflow, State.view_raise, State.view_setOverflowList, State.view_setPlace]
  have tail : (s.view c).list.tail = (s.overflowList c).tail := rfl
  by_cases e : d = c
  · subst e
    simp only [if_true, ClassView.append, tail]
    cases (s.overflowList d).tail with
    | none => rfl
    | some t => simp only [State.view_setPlaceNext, if_true]; rfl
  · simp only [e, if_false]
    cases (s.overflowList c).tail with
    | none => rfl
    | some t => simp only [State.view_setPlaceNext, e, if_false]

theorem State.view_unlinkOverflow (s : State) (c d : ServiceClass) (h : Handle) (p : OverflowPlace) :
    (s.unlinkOverflow c h p).view d = if d = c then (s.view c).unlink h p else s.view d := by
  simp only [State.unlinkOverflow, State.view_setOverflowList, State.view_setPlace]
  by_cases e : d = c
  · subst e
    simp only [if_true, ClassView.unlink]
    cases p.prev <;> cases p.next <;>
      simp only [State.view_setPlaceNext, State.view_setPlacePrev, if_true] <;> rfl
  · simp only [e, if_false]
    cases p.prev <;> cases p.next <;>
      simp only [State.view_setPlaceNext, State.view_setPlacePrev, e, if_false]

theorem State.view_insertStation (s : State) (c d : ServiceClass) (h : Handle) :
    (s.insertStation c h).view d = if d = c then (s.view c).insert h else s.view d := by
  have same : (s.view c).ring = s.ring c := rfl
  simp only [State.insertStation, ClassView.insert, same]
  split
  · rw [State.view_writeTail]
  · rw [State.view_appendOverflow]

theorem State.view_promote (s : State) (c d : ServiceClass) :
    (s.promote c).view d = if d = c then (s.view c).promote else s.view d := by
  have same : (s.view c).ring = s.ring c := rfl
  have list : (s.view c).list = s.overflowList c := rfl
  have place : ∀ h, (s.view c).place h = (s.station h).overflow.get c := fun _ => rfl
  simp only [State.promote, ClassView.promote, same, list]
  split
  · cases hd : (s.overflowList c).head with
    | none => by_cases e : d = c <;> simp [e]
    | some h =>
      simp only [place]
      cases hp : (s.station h).overflow.get c with
      | none => by_cases e : d = c <;> simp [e]
      | some p =>
        simp only [State.view_writeTail, State.view_unlinkOverflow]
        by_cases e : d = c <;> simp [e]
  · by_cases e : d = c <;> simp [e]

theorem State.view_advanceHead (s : State) (c d : ServiceClass) :
    (s.advanceHead c).view d = if d = c then (s.view c).advance else s.view d := by
  simp only [State.advanceHead, State.view_promote, State.view_setRing]
  by_cases e : d = c <;> (simp [e, ClassView.advance]; try rfl)

/-! ### The laws of a view -/

/-- A station holds a place in the class. -/
def ClassView.holds (v : ClassView) (h : Handle) : Prop :=
  (v.slot h).isSome = true ∨ (v.place h).isSome = true

/-- The laws of a class that do not speak of eligibility: slots and list agree with the stations'
places. -/
structure ClassView.Sound (v : ClassView) (members : List Handle) : Prop where
  slots : ∀ i h, v.ring.at i = some h ↔ v.slot h = some i
  run : ∀ i h, v.ring.at i = some h → (i - v.ring.head).toNat < v.ring.occupancy
  single : ∀ h, ¬ ((v.slot h).isSome = true ∧ (v.place h).isSome = true)
  nodup : members.Nodup
  head : v.list.head = members.head?
  tail : v.list.tail = members.getLast?
  length : v.list.length = members.length
  member : ∀ h, h ∈ members ↔ (v.place h).isSome = true
  linked : Linked v.place none members none

theorem ClassView.Sound.place_none {v : ClassView} {m : List Handle} (law : v.Sound m) {h : Handle}
    (out : h ∉ m) : v.place h = none := by
  have := (law.member h).not.mp out
  simpa using this

theorem Ring.tail_free {v : ClassView} {m : List Handle} (law : v.Sound m) :
    v.ring.at v.ring.tail = none := by
  cases hx : v.ring.at v.ring.tail with
  | none => rfl
  | some h =>
    have := law.run _ _ hx
    simp [Ring.occupancy] at this

/-- Insertion at the ring tail (R67). -/
theorem ClassView.Sound.writeTail {v : ClassView} {m : List Handle} (law : v.Sound m) {h : Handle}
    (out : ¬ v.holds h) (room : v.ring.occupancy < 255) :
    (v.writeTail h).Sound m ∧ (∀ k, (v.writeTail h).holds k ↔ k = h ∨ v.holds k) ∧
      (v.writeTail h).ring.occupancy = v.ring.occupancy + 1 := by
  have free := Ring.tail_free law
  have noslot : v.slot h = none := by
    cases hs : v.slot h with
    | none => rfl
    | some i => exact absurd (Or.inl (by simp [hs])) out
  have noplace : v.place h = none := by
    cases hs : v.place h with
    | none => rfl
    | some i => exact absurd (Or.inr (by simp [hs])) out
  have occ : (v.writeTail h).ring.occupancy = v.ring.occupancy + 1 := by
    simp only [ClassView.writeTail, ClassView.setSlot, ClassView.setRing, Ring.occupancy, Ring.write]
      at room ⊢
    bv_omega
  have slotOf : ∀ k, (v.writeTail h).slot k = if k = h then some v.ring.tail else v.slot k :=
    fun _ => rfl
  have atOf : ∀ i, (v.writeTail h).ring.at i = if i = v.ring.tail then some h else v.ring.at i :=
    fun i => Ring.at_write v.ring v.ring.tail i (some h)
  refine ⟨⟨?_, ?_, ?_, law.nodup, law.head, law.tail, law.length, law.member, law.linked⟩, ?_, occ⟩
  · intro i k
    rw [slotOf, atOf]
    by_cases e : i = v.ring.tail
    · subst e
      by_cases q : k = h
      · simp [q]
      · rw [if_pos rfl, if_neg q]
        constructor
        · intro x; exact absurd (Option.some.inj x).symm q
        · intro x
          rw [(law.slots _ _).mpr x] at free
          exact absurd free (by simp)
    · rw [if_neg e]
      by_cases q : k = h
      · subst q
        rw [if_pos rfl, law.slots, noslot]
        constructor
        · intro x; exact absurd x (by simp)
        · intro x; exact absurd (Option.some.inj x).symm e
      · rw [if_neg q, law.slots]
  · intro i k hk
    rw [occ]
    rw [atOf] at hk
    by_cases e : i = v.ring.tail
    · subst e
      show (v.ring.tail - v.ring.head).toNat < _
      simp [Ring.occupancy]
    · rw [if_neg e] at hk
      have := law.run i k hk
      show (i - v.ring.head).toNat < _
      omega
  · intro k
    rw [slotOf]
    by_cases q : k = h
    · subst q
      show ¬ (_ ∧ (v.place k).isSome = true)
      simp [noplace]
    · rw [if_neg q]; exact law.single k
  · intro k
    unfold ClassView.holds
    rw [slotOf]
    by_cases q : k = h
    · simp [q]
    · simp only [q, if_false, false_or]
      exact Iff.rfl

/-- A station's slot becomes a hole (R68). -/
theorem ClassView.Sound.makeHole {v : ClassView} {m : List Handle} (law : v.Sound m) {h : Handle}
    {i : BitVec 8} (at_i : v.slot h = some i) :
    (v.makeHole h i).Sound m ∧ (∀ k, (v.makeHole h i).holds k ↔ k ≠ h ∧ v.holds k) ∧
      (v.makeHole h i).ring.occupancy = v.ring.occupancy := by
  have slotOf : ∀ k, (v.makeHole h i).slot k = if k = h then none else v.slot k := fun _ => rfl
  have atOf : ∀ j, (v.makeHole h i).ring.at j = if j = i then none else v.ring.at j :=
    fun j => Ring.at_write v.ring i j none
  have noplace : v.place h = none := by
    cases hs : v.place h with
    | none => rfl
    | some p => exact absurd ⟨by simp [at_i], by simp [hs]⟩ (law.single h)
  refine ⟨⟨?_, ?_, ?_, law.nodup, law.head, law.tail, law.length, law.member, law.linked⟩, ?_, rfl⟩
  · intro j k
    rw [slotOf, atOf]
    have held := (law.slots i h).mpr at_i
    by_cases e : j = i
    · subst e
      by_cases q : k = h
      · simp [q]
      · rw [if_pos rfl, if_neg q, ← law.slots, held]
        constructor
        · intro x; exact absurd x (by simp)
        · intro x; exact absurd (Option.some.inj x).symm q
    · rw [if_neg e]
      by_cases q : k = h
      · subst q
        rw [if_pos rfl, law.slots, at_i]
        constructor
        · intro x; exact absurd (Option.some.inj x).symm e
        · intro x; exact absurd x (by simp)
      · rw [if_neg q, law.slots]
  · intro j k hk
    rw [atOf] at hk
    by_cases e : j = i
    · rw [if_pos e] at hk; exact absurd hk (by simp)
    · rw [if_neg e] at hk; exact law.run j k hk
  · intro k
    rw [slotOf]
    by_cases q : k = h
    · simp [q]
    · rw [if_neg q]; exact law.single k
  · intro k
    unfold ClassView.holds
    rw [slotOf]
    by_cases q : k = h
    · subst q
      show ((if k = k then none else v.slot k).isSome = true ∨ (v.place k).isSome = true) ↔ _
      simp [noplace]
    · simp only [q, if_false, ne_eq, not_false_eq_true, true_and]
      exact Iff.rfl

/-- Append to the overflow list (R72). -/
theorem ClassView.Sound.append {v : ClassView} {m : List Handle} (law : v.Sound m) {h : Handle}
    (out : ¬ v.holds h) :
    (v.append h).Sound (m ++ [h]) ∧ (∀ k, (v.append h).holds k ↔ k = h ∨ v.holds k) ∧
      (v.append h).ring = v.ring := by
  have noslot : v.slot h = none := by
    cases hs : v.slot h with
    | none => rfl
    | some i => exact absurd (Or.inl (by simp [hs])) out
  have noplace : v.place h = none := by
    cases hs : v.place h with
    | none => rfl
    | some i => exact absurd (Or.inr (by simp [hs])) out
  have notin : h ∉ m := fun hm => by
    have := (law.member h).mp hm
    simp [noplace] at this
  have ringOf : (v.append h).ring = v.ring := by
    unfold ClassView.append
    cases v.list.tail <;> rfl
  have slotOf : (v.append h).slot = v.slot := by
    unfold ClassView.append
    cases v.list.tail <;> rfl
  have placeOf : ∀ k, (v.append h).place k =
      if k = h then some { prev := m.getLast?, next := none }
      else if m.getLast? = some k then (v.place k).map fun p => { p with next := some h }
      else v.place k := by
    intro k
    unfold ClassView.append
    rw [law.tail]
    cases m.getLast? with
    | none => rfl
    | some t =>
      simp only [ClassView.setPlace, ClassView.setNext, ClassView.setList]
      by_cases q : k = h
      · simp [q]
      · simp only [q, if_false]
        by_cases e : k = t
        · subst e; simp
        · have : ¬ (some t = some k) := fun x => e (Option.some.inj x).symm
          simp [e, this]
  have listOf : (v.append h).list =
      { head := if m.getLast?.isNone then some h else m.head?, tail := some h,
        length := m.length + 1 } := by
    unfold ClassView.append
    rw [law.tail, law.head, law.length]
    cases m.getLast? <;> rfl
  have some_same : ∀ k, ((v.append h).place k).isSome = true ↔ k = h ∨ (v.place k).isSome = true := by
    intro k
    rw [placeOf]
    by_cases q : k = h
    · simp [q]
    · simp only [q, if_false, false_or]
      split
      · simp
      · rfl
  refine ⟨⟨?_, ?_, ?_, ?_, ?_, ?_, ?_, ?_, ?_⟩, ?_, ringOf⟩
  · intro i k; rw [ringOf, slotOf]; exact law.slots i k
  · intro i k; rw [ringOf]; exact law.run i k
  · intro k
    rw [slotOf, some_same]
    rintro ⟨a, b | b⟩
    · subst b; simp [noslot] at a
    · exact law.single k ⟨a, b⟩
  · exact List.nodup_append.mpr ⟨law.nodup, by simp, by
      intro a ha b hb e
      rw [List.mem_singleton] at hb
      exact notin (hb ▸ e ▸ ha)⟩
  · rw [listOf]
    cases m with
    | nil => rfl
    | cons a t => simp [List.getLast?_cons]
  · rw [listOf]; simp
  · rw [listOf]; simp
  · intro k
    rw [some_same, List.mem_append, law.member, List.mem_singleton]
    exact or_comm
  · rw [Linked.append]
    constructor
    · rcases List.eq_nil_or_concat m with rfl | ⟨a, y, rfl⟩
      · simp [Linked]
      · rw [List.concat_eq_append] at *
        have lk := law.linked
        rw [Linked.append] at lk ⊢
        have lastIs : (a ++ [y]).getLast? = some y := by simp
        have nd := List.nodup_append.mp law.nodup
        refine ⟨?_, ?_⟩
        · refine (Linked.congr fun k hk => ?_).mpr (by simpa using lk.1)
          have kh : k ≠ h := fun e => notin (by simp [← e, hk])
          have ky : y ≠ k := fun e => nd.2.2 k hk k (by simp [e]) rfl
          rw [placeOf, if_neg kh, lastIs, if_neg fun x => ky (Option.some.inj x)]
        · have yh : y ≠ h := fun e => notin (by simp [e])
          have at_y := lk.2
          simp only [Linked] at at_y ⊢
          rw [placeOf, if_neg yh, lastIs, if_pos rfl, at_y.1]
          simp
    · simp only [Linked, List.head?_nil, and_true]
      rw [placeOf, if_pos rfl]
      simp
  · intro k
    unfold ClassView.holds
    rw [slotOf, some_same]
    tauto

/-- A member of an overflow list stands between the members its place names. -/
theorem ClassView.Sound.place_eq {v : ClassView} {a b : List Handle} {h : Handle}
    (law : v.Sound (a ++ h :: b)) :
    v.place h = some { prev := a.getLast?, next := b.head? } := by
  have lk := law.linked
  rw [Linked.append] at lk
  have := lk.2.1
  simpa using this

/-- Unlink from the overflow list (R73). -/
theorem ClassView.Sound.unlink {v : ClassView} {a b : List Handle} {h : Handle}
    (law : v.Sound (a ++ h :: b)) {p : OverflowPlace} (isAt : v.place h = some p) :
    (v.unlink h p).Sound (a ++ b) ∧ (∀ k, (v.unlink h p).holds k ↔ k ≠ h ∧ v.holds k) ∧
      (v.unlink h p).ring = v.ring := by
  have peq : p = { prev := a.getLast?, next := b.head? } := by
    have := law.place_eq
    rw [isAt] at this
    exact Option.some.inj this
  have nd := law.nodup
  rw [List.nodup_append] at nd
  obtain ⟨nda, ndhb, disj⟩ := nd
  have hnb : h ∉ b := (List.nodup_cons.mp ndhb).1
  have ndb : b.Nodup := (List.nodup_cons.mp ndhb).2
  have hna : h ∉ a := fun x => disj h x h (by simp) rfl
  have noslot : v.slot h = none := by
    cases hs : v.slot h with
    | none => rfl
    | some i => exact absurd ⟨by simp [hs], by simp [isAt]⟩ (law.single h)
  have ringOf : (v.unlink h p).ring = v.ring := by
    unfold ClassView.unlink
    cases p.prev <;> cases p.next <;> rfl
  have slotOf : (v.unlink h p).slot = v.slot := by
    unfold ClassView.unlink
    cases p.prev <;> cases p.next <;> rfl
  have placeOf : ∀ k, (v.unlink h p).place k =
      if k = h then none
      else if b.head? = some k then (v.place k).map fun q => { q with prev := a.getLast? }
      else if a.getLast? = some k then (v.place k).map fun q => { q with next := b.head? }
      else v.place k := by
    intro k
    have lastNe : ∀ x y, a.getLast? = some x → b.head? = some y → y ≠ x := by
      intro x y hx hy e
      subst e
      exact disj y (List.mem_of_getLast? hx) y
        (List.mem_cons_of_mem _ (List.mem_of_head? hy)) rfl
    unfold ClassView.unlink
    subst peq
    cases ha : a.getLast? with
    | none =>
      cases hb : b.head? with
      | none => by_cases q : k = h <;> simp [q, ClassView.setPlace, ClassView.setList]
      | some y =>
        by_cases q : k = h
        · simp [q, ClassView.setPlace, ClassView.setList]
        · by_cases e : k = y
          · subst e; simp [q, ClassView.setPlace, ClassView.setPrev, ClassView.setList]
          · have e' : ¬ y = k := fun x => e x.symm
            simp [q, e, e', ClassView.setPlace, ClassView.setPrev, ClassView.setList]
    | some x =>
      cases hb : b.head? with
      | none =>
        by_cases q : k = h
        · simp [q, ClassView.setPlace, ClassView.setList]
        · by_cases e : k = x
          · subst e; simp [q, ClassView.setPlace, ClassView.setNext, ClassView.setList]
          · have e' : ¬ x = k := fun z => e z.symm
            simp [q, e, e', ClassView.setPlace, ClassView.setNext, ClassView.setList]
      | some y =>
        have yx := lastNe x y ha hb
        by_cases q : k = h
        · simp [q, ClassView.setPlace, ClassView.setList]
        · by_cases e : k = y
          · subst e
            simp [q, yx, ClassView.setPlace, ClassView.setPrev, ClassView.setNext,
              ClassView.setList]
          · have e' : ¬ y = k := fun x => e x.symm
            by_cases f : k = x
            · subst f
              simp [q, e, e', ClassView.setPlace, ClassView.setPrev, ClassView.setNext,
                ClassView.setList]
            · have f' : ¬ x = k := fun z => f z.symm
              simp [q, e, e', f, f', ClassView.setPlace, ClassView.setPrev, ClassView.setNext,
                ClassView.setList]
  have listOf : (v.unlink h p).list =
      { head := if a.getLast?.isNone then b.head? else v.list.head
        tail := if b.head?.isNone then a.getLast? else v.list.tail
        length := v.list.length - 1 } := by
    unfold ClassView.unlink
    subst peq
    rfl
  have some_same : ∀ k, ((v.unlink h p).place k).isSome = true ↔
      k ≠ h ∧ (v.place k).isSome = true := by
    intro k
    rw [placeOf]
    by_cases q : k = h
    · simp [q]
    · simp only [q, if_false, ne_eq, not_false_eq_true, true_and]
      split
      · simp
      · split
        · simp
        · rfl
  have lk := law.linked
  rw [Linked.append] at lk
  obtain ⟨lka, lkh, lkb⟩ := lk
  refine ⟨⟨?_, ?_, ?_, ?_, ?_, ?_, ?_, ?_, ?_⟩, ?_, ringOf⟩
  · intro i k; rw [ringOf, slotOf]; exact law.slots i k
  · intro i k; rw [ringOf]; exact law.run i k
  · intro k
    rw [slotOf, some_same]
    rintro ⟨x, -, y⟩
    exact law.single k ⟨x, y⟩
  · exact List.nodup_append.mpr ⟨nda, ndb, fun x hx y hy e =>
      disj x hx y (List.mem_cons_of_mem _ hy) e⟩
  · rw [listOf]
    rw [show v.list.head = _ from law.head]
    rcases a with _ | ⟨x, t⟩
    · simp
    · simp [List.getLast?_cons]
  · rw [listOf]
    rw [show v.list.tail = _ from law.tail]
    rcases b with _ | ⟨y, t⟩
    · simp
    · simp [List.getLast?_append, List.getLast?_cons]
  · rw [listOf]
    rw [show v.list.length = _ from law.length]
    simp
  · intro k
    rw [some_same, ← law.member]
    simp only [List.mem_append, List.mem_cons]
    constructor
    · rintro (x | x)
      · exact ⟨fun e => hna (e ▸ x), Or.inl x⟩
      · exact ⟨fun e => hnb (e ▸ x), Or.inr (Or.inr x)⟩
    · rintro ⟨ne, x | x | x⟩
      · exact Or.inl x
      · exact absurd x ne
      · exact Or.inr x
  · rw [Linked.append]
    constructor
    · rcases List.eq_nil_or_concat a with rfl | ⟨a', y, rfl⟩
      · simp [Linked]
      · rw [List.concat_eq_append] at *
        rw [Linked.append] at lka ⊢
        have lastIs : (a' ++ [y]).getLast? = some y := by simp
        have nd' := List.nodup_append.mp nda
        have notHead : ∀ k, k ∈ a' ++ [y] → ¬ b.head? = some k := fun k hk e =>
          disj k hk k (List.mem_cons_of_mem _ (List.mem_of_head? e)) rfl
        refine ⟨?_, ?_⟩
        · refine (Linked.congr fun k hk => ?_).mpr (by simpa using lka.1)
          have mem : k ∈ a' ++ [y] := List.mem_append_left _ hk
          have kh : k ≠ h := fun e => hna (e ▸ mem)
          have ky : y ≠ k := fun e => nd'.2.2 k hk k (by simp [e]) rfl
          rw [placeOf, if_neg kh, if_neg (notHead k mem), lastIs,
            if_neg fun x => ky (Option.some.inj x)]
        · have mem : y ∈ a' ++ [y] := by simp
          have yh : y ≠ h := fun e => hna (e ▸ mem)
          have at_y := lka.2
          simp only [Linked] at at_y ⊢
          rw [placeOf, if_neg yh, if_neg (notHead y mem), lastIs, if_pos rfl, at_y.1]
          simp
    · rcases b with _ | ⟨y, t⟩
      · simp [Linked]
      · have nd' := List.nodup_cons.mp ndb
        have notLast : ∀ k, k ∈ y :: t → ¬ a.getLast? = some k := fun k hk e =>
          disj k (List.mem_of_getLast? e) k (List.mem_cons_of_mem _ hk) rfl
        simp only [Linked] at lkb ⊢
        refine ⟨?_, ?_⟩
        · have yh : y ≠ h := fun e => hnb (e ▸ by simp)
          rw [placeOf, if_neg yh, List.head?_cons, if_pos rfl, lkb.1]
          simp
        · refine (Linked.congr fun k hk => ?_).mpr lkb.2
          have mem : k ∈ y :: t := List.mem_cons_of_mem _ hk
          have kh : k ≠ h := fun e => hnb (e ▸ mem)
          have ky : y ≠ k := fun e => nd'.1 (e ▸ hk)
          rw [placeOf, if_neg kh, List.head?_cons, if_neg fun x => ky (Option.some.inj x),
            if_neg (notLast k mem)]
  · intro k
    unfold ClassView.holds
    rw [slotOf, some_same]
    constructor
    · rintro (x | ⟨ne, x⟩)
      · refine ⟨fun e => ?_, Or.inl x⟩
        subst e
        simp [noslot] at x
      · exact ⟨ne, Or.inr x⟩
    · rintro ⟨ne, x | x⟩
      · exact Or.inl x
      · exact Or.inr ⟨ne, x⟩

/-- A list that stands behind a full ring only. -/
def ClassView.Tight (v : ClassView) : Prop := 0 < v.list.length → v.ring.occupancy = 255

theorem Ring.occupancy_lt (r : Ring) : r.occupancy < 256 := by
  unfold Ring.occupancy
  exact (r.tail - r.head).isLt

/-- Promotion, made once where a slot has been freed (R74). -/
theorem ClassView.Sound.promote {v : ClassView} {m : List Handle} (law : v.Sound m)
    (one : 0 < v.list.length → 254 ≤ v.ring.occupancy) :
    ∃ m', v.promote.Sound m' ∧ v.promote.Tight ∧ (∀ k, v.promote.holds k ↔ v.holds k) ∧
      v.promote.ring.head = v.ring.head ∧ (v.ring.occupancy < 255 → m' = m.tail) := by
  unfold ClassView.promote
  have small := Ring.occupancy_lt v.ring
  by_cases room : v.ring.occupancy < Config.ringFull
  · rw [if_pos room]
    unfold Config.ringFull at room
    rw [law.head]
    rcases m with _ | ⟨h, t⟩
    · refine ⟨[], law, ?_, fun k => Iff.rfl, rfl, fun _ => rfl⟩
      intro (pos : 0 < v.list.length)
      rw [law.length] at pos
      simp at pos
    · have isAt : v.place h = some { prev := none, next := t.head? } :=
        ClassView.Sound.place_eq (a := []) (b := t) law
      simp only [List.head?_cons, isAt]
      obtain ⟨s1, h1, r1⟩ := ClassView.Sound.unlink (a := []) (b := t) law isAt
      have out : ¬ (v.unlink h { prev := none, next := t.head? }).holds h := by
        intro x
        exact ((h1 h).mp x).1 rfl
      obtain ⟨s2, h2, r2⟩ := s1.writeTail out (by rw [r1]; exact room)
      refine ⟨t, s2, ?_, ?_, ?_, fun _ => rfl⟩
      · intro _
        have l1 : 0 < v.list.length := by rw [law.length]; simp
        have := one l1
        rw [r2, r1]
        omega
      · intro k
        rw [h2, h1]
        constructor
        · rintro (rfl | x)
          · exact Or.inr (by simp [isAt])
          · exact x.2
        · intro x
          by_cases e : k = h
          · exact Or.inl e
          · exact Or.inr ⟨e, x⟩
      · show (v.unlink h _).ring.head = _
        rw [r1]
  · rw [if_neg room]
    unfold Config.ringFull at room
    exact ⟨m, law, fun _ => by omega, fun k => Iff.rfl, rfl, fun r => absurd r room⟩

/-- The ring after its head advances. -/
theorem Ring.advanced_occupancy (r : Ring) (some_occ : 0 < r.occupancy) :
    ({ r.write r.head none with head := r.head + 1 } : Ring).occupancy = r.occupancy - 1 := by
  simp only [Ring.occupancy, Ring.write] at some_occ ⊢
  bv_omega

/-- The head passes a hole, and the list's head, if there is one, takes the freed slot (R69, R74). -/
theorem ClassView.Sound.advance {v : ClassView} {m : List Handle} (law : v.Sound m)
    (tight : v.Tight) (some_occ : 0 < v.ring.occupancy) (hole : v.ring.at v.ring.head = none) :
    v.advance.Sound m.tail ∧ v.advance.Tight ∧ ∀ k, v.advance.holds k ↔ v.holds k := by
  have occ := Ring.advanced_occupancy v.ring some_occ
  have atOf : ∀ j, ({ v.ring.write v.ring.head none with head := v.ring.head + 1 } : Ring).at j =
      v.ring.at j := by
    intro j
    show (v.ring.write v.ring.head none).at j = _
    rw [Ring.at_write]
    split
    · next e => rw [e, hole]
    · rfl
  have law1 : (v.setRing { v.ring.write v.ring.head none with head := v.ring.head + 1 }).Sound m := by
    refine ⟨?_, ?_, law.single, law.nodup, law.head, law.tail, law.length, law.member, law.linked⟩
    · intro i h
      show ({ v.ring.write v.ring.head none with head := v.ring.head + 1 } : Ring).at i = _ ↔ _
      rw [atOf]
      exact law.slots i h
    · intro i h hi
      have hi' : v.ring.at i = some h := by rw [← atOf]; exact hi
      have := law.run i h hi'
      have ne : i ≠ v.ring.head := fun e => by rw [e, hole] at hi'; exact absurd hi' (by simp)
      show (i - (v.ring.head + 1)).toNat <
        ({ v.ring.write v.ring.head none with head := v.ring.head + 1 } : Ring).occupancy
      rw [occ]
      have : (i - (v.ring.head + 1)).toNat = (i - v.ring.head).toNat - 1 ∧
          0 < (i - v.ring.head).toNat := by
        bv_omega
      omega
  obtain ⟨m', a, b, c, _, tail⟩ := law1.promote (by
    intro pos
    have := tight pos
    show 254 ≤ ({ v.ring.write v.ring.head none with head := v.ring.head + 1 } : Ring).occupancy
    rw [occ]
    omega)
  have small := Ring.occupancy_lt v.ring
  obtain rfl := tail (by
    show ({ v.ring.write v.ring.head none with head := v.ring.head + 1 } : Ring).occupancy < 255
    rw [occ]
    omega)
  exact ⟨a, b, c⟩

/-- Promotion does not see the slot of a station that is not promoted. -/
theorem ClassView.promote_setSlot (v : ClassView) (h : Handle) (x : Option (BitVec 8))
    (other : v.list.head ≠ some h) :
    v.promote.setSlot h x = (v.setSlot h x).promote := by
  have un : ∀ k p, (v.setSlot h x).unlink k p = (v.unlink k p).setSlot h x := by
    intro k p
    unfold ClassView.unlink
    cases p.prev <;> cases p.next <;> rfl
  have ringOf : (v.setSlot h x).ring = v.ring := rfl
  have listOf : (v.setSlot h x).list = v.list := rfl
  have placeOf : (v.setSlot h x).place = v.place := rfl
  simp only [ClassView.promote, ringOf, listOf, placeOf, un]
  by_cases room : v.ring.occupancy < Config.ringFull
  · rw [if_pos room, if_pos room]
    cases hd : v.list.head with
    | none => rfl
    | some k =>
      have ne : k ≠ h := fun e => other (by rw [hd, e])
      dsimp only
      cases hp : v.place k with
      | none => rfl
      | some p =>
        refine ClassView.ext_fun rfl rfl (fun j => ?_) (fun j => rfl)
        simp only [ClassView.setSlot, ClassView.writeTail, ClassView.setRing]
        by_cases e : j = h
        · have : j ≠ k := fun q => ne (q ▸ e)
          subst e
          simp [Ne.symm ne]
        · simp [e]
  · rw [if_neg room, if_neg room]

/-- A pop: the head passes the station it holds, whose slot becomes absent (R69). -/
theorem ClassView.Sound.pop {v : ClassView} {m : List Handle} (law : v.Sound m)
    (tight : v.Tight) (some_occ : 0 < v.ring.occupancy) {h : Handle}
    (atHead : v.ring.at v.ring.head = some h) :
    (v.advance.setSlot h none).Sound m.tail ∧ (v.advance.setSlot h none).Tight ∧
      ∀ k, (v.advance.setSlot h none).holds k ↔ k ≠ h ∧ v.holds k := by
  have slotHead : v.slot h = some v.ring.head := (law.slots _ _).mp atHead
  obtain ⟨lawH, holdsH, occH⟩ := law.makeHole slotHead
  have notHead : v.list.head ≠ some h := by
    intro e
    have mem : h ∈ m := by
      rw [law.head] at e
      exact List.mem_of_head? e
    exact law.single h ⟨by simp [slotHead], (law.member h).mp mem⟩
  have same : v.advance.setSlot h none =
      (v.makeHole h v.ring.head).advance := by
    unfold ClassView.advance
    rw [ClassView.promote_setSlot _ h none (by exact notHead)]
    congr 1
    refine ClassView.ext_fun ?_ rfl (fun _ => rfl) (fun _ => rfl)
    show ({ v.ring.write v.ring.head none with head := v.ring.head + 1 } : Ring) =
      { (v.ring.write v.ring.head none).write v.ring.head none with head := v.ring.head + 1 }
    simp [Ring.write]
  rw [same]
  have holeAt : (v.makeHole h v.ring.head).ring.at (v.makeHole h v.ring.head).ring.head = none := by
    show (v.ring.write v.ring.head none).at v.ring.head = none
    rw [Ring.at_write]; simp
  obtain ⟨a, b, c⟩ := lawH.advance (by
    intro pos
    rw [occH]
    exact tight pos) (by rw [occH]; exact some_occ) holeAt
  exact ⟨a, b, fun k => by rw [c, holdsH]⟩

end Sys2Proof.Machine
end

