-- ==== Sys2Proof/Laws/RingLaws.lean ====
section
/-!
SUPPORT. The ring laws of a state (R64 to R74), kept by the visits that change them: a record written
back with its re-evaluation, the discarding of holes, and a pop.
-/

namespace Sys2Proof.Machine

/-! ### Eligibility does not see places -/

theorem StationRecord.eligible_of_unplaced {a b : StationRecord} (same : a.unplaced = b.unplaced)
    (c : ServiceClass) : a.eligible c = b.eligible c := by
  show a.unplaced.eligible c = b.unplaced.eligible c
  rw [same]

theorem StationRecord.isWaiting_of_unplaced {a b : StationRecord} (same : a.unplaced = b.unplaced)
    (c : ServiceClass) : a.isWaiting c = b.isWaiting c := by
  show a.unplaced.isWaiting c = b.unplaced.isWaiting c
  rw [same]

theorem State.eligible_of_frame {s t : State} (same : t.beyondRings = s.beyondRings) (h : Handle)
    (c : ServiceClass) : (t.station h).eligible c = (s.station h).eligible c :=
  StationRecord.eligible_of_unplaced (State.unplaced_of_frame same h) c

theorem State.isWaiting_of_frame {s t : State} (same : t.beyondRings = s.beyondRings) (h : Handle)
    (c : ServiceClass) : (t.station h).isWaiting c = (s.station h).isWaiting c :=
  StationRecord.isWaiting_of_unplaced (State.unplaced_of_frame same h) c

theorem State.countWaiting_of_frame {s t : State} (same : t.beyondRings = s.beyondRings)
    (c : ServiceClass) : t.countWaiting c = s.countWaiting c := by
  unfold State.countWaiting
  congr 2
  funext h
  exact State.isWaiting_of_frame same h c

/-! ### Counting -/

/-- A truth value as a number. -/
def one (b : Bool) : Nat := if b then 1 else 0

theorem count_change {l : List Handle} (nd : l.Nodup) {h : Handle} (mem : h ∈ l)
    {p q : Handle → Bool} (same : ∀ k, k ≠ h → q k = p k) :
    (l.filter q).length + one (p h) = (l.filter p).length + one (q h) := by
  induction l with
  | nil => simp at mem
  | cons a t ih =>
    obtain ⟨nin, ndt⟩ := List.nodup_cons.mp nd
    by_cases e : a = h
    · subst e
      have : t.filter q = t.filter p :=
        List.filter_congr fun k hk => same k fun e => nin (e ▸ hk)
      cases hp : p a <;> cases hq : q a <;> simp [hp, hq, this, one]
    · have mt : h ∈ t := by
        rcases List.mem_cons.mp mem with x | x
        · exact absurd x.symm e
        · exact x
      have := ih ndt mt
      have sa := same a e
      cases hp : p a <;> simp [sa, hp] <;> omega

theorem State.countWaiting_setStation (s : State) (h : Handle) (r : StationRecord)
    (c : ServiceClass) :
    (s.setStation h r).countWaiting c + one ((s.station h).isWaiting c) =
      s.countWaiting c + one (r.isWaiting c) := by
  have := count_change (List.nodup_finRange 512) (List.mem_finRange h)
    (p := fun k => (s.station k).isWaiting c) (q := fun k => ((s.setStation h r).station k).isWaiting c)
    (fun k ne => by rw [State.station_setStation_ne s ne])
  simp only [State.station_setStation_same] at this
  exact this

/-! ### The laws of a class, through its view -/

theorem State.classLawful_iff (s : State) (c : ServiceClass) :
    s.ClassLawful c ↔ (∃ m, (s.view c).Sound m) ∧ (s.view c).Tight ∧
      (∀ h, (s.station h).eligible c = true ↔ (s.view c).holds h) ∧
      s.waiting.get c = s.countWaiting c := by
  constructor
  · intro law
    obtain ⟨m, l⟩ := law.list
    exact ⟨⟨m, law.slots, law.run, law.single, l.nodup, l.head, l.tail, l.length, l.member,
      l.linked⟩, law.full, law.places, law.waiting⟩
  · rintro ⟨⟨m, l⟩, tight, places, waiting⟩
    exact ⟨l.slots, l.run, places, l.single,
      ⟨m, l.nodup, l.head, l.tail, l.length, l.member, l.linked⟩, tight, waiting⟩

/-- A state with the same views, eligibilities and waiting counts keeps a law. -/
theorem State.ClassLawful.transfer {s t : State} {c : ServiceClass} (law : s.ClassLawful c)
    (view : t.view c = s.view c)
    (elig : ∀ h, (t.station h).eligible c = (s.station h).eligible c)
    (count : t.waiting.get c = s.waiting.get c)
    (wait : t.countWaiting c = s.countWaiting c) : t.ClassLawful c := by
  rw [State.classLawful_iff] at law ⊢
  obtain ⟨a, b, d, e⟩ := law
  rw [view]
  exact ⟨a, b, fun h => by rw [elig]; exact d h, by rw [count, wait, e]⟩

/-- A record written with its places, and with the eligibility and waiting it had, keeps the laws. -/
theorem State.ClassLawful.setStation {s : State} {c : ServiceClass} (law : s.ClassLawful c)
    {h : Handle} {r : StationRecord}
    (slot : r.ringSlot.get c = (s.station h).ringSlot.get c)
    (place : r.overflow.get c = (s.station h).overflow.get c)
    (elig : r.eligible c = (s.station h).eligible c)
    (wait : r.isWaiting c = (s.station h).isWaiting c) : (s.setStation h r).ClassLawful c := by
  refine law.transfer (State.view_setStation s h r c slot place) (fun k => ?_) rfl ?_
  · rw [State.station_setStation]
    split
    · next e => rw [e, elig]
    · rfl
  · have := State.countWaiting_setStation s h r c
    rw [wait] at this
    omega

/-! ### Re-evaluation (R65) -/

/-- A class whose laws hold but for the station just written: its place is still the one of the record
before, and the count still counts that record. -/
structure State.Pending (s : State) (h : Handle) (before : StationRecord) (c : ServiceClass) : Prop where
  sound : ∃ m, (s.view c).Sound m
  tight : (s.view c).Tight
  places : ∀ k, k ≠ h → ((s.station k).eligible c = true ↔ (s.view c).holds k)
  waiting : s.waiting.get c + one ((s.station h).isWaiting c) =
    s.countWaiting c + one (before.isWaiting c)

/-- Waiting counts follow a change (R64). -/
theorem adjusted_count {n m : Nat} {was isNow : Bool} (eq : n + one isNow = m + one was) :
    (if !was && isNow then n + 1 else if was && !isNow then n - 1 else n) = m := by
  cases was <;> cases isNow <;> simp [one] at eq ⊢ <;> omega

theorem State.view_placeStation_ne (s : State) (h : Handle) {c d : ServiceClass} (ne : d ≠ c) :
    (s.placeStation h c).view d = s.view d := by
  unfold State.placeStation
  dsimp only
  repeat' split
  all_goals simp only [State.view_insertStation, State.view_makeHole, State.view_unlinkOverflow, ne,
    if_false]

theorem State.insertStation_waiting (s : State) (c : ServiceClass) (h : Handle) :
    (s.insertStation c h).waiting = s.waiting := by
  unfold State.insertStation State.writeTail State.appendOverflow
  split
  · rfl
  · dsimp only
    split <;> rfl

theorem State.unlinkOverflow_waiting (s : State) (c : ServiceClass) (h : Handle) (p : OverflowPlace) :
    (s.unlinkOverflow c h p).waiting = s.waiting := by
  unfold State.unlinkOverflow
  dsimp only
  split <;> split <;> rfl

theorem State.placeStation_waiting (s : State) (h : Handle) (c : ServiceClass) :
    (s.placeStation h c).waiting = s.waiting := by
  unfold State.placeStation
  dsimp only
  split
  · split
    · exact State.insertStation_waiting s c h
    · rfl
  · split
    · rfl
    · split
      · exact State.unlinkOverflow_waiting s c h _
      · rfl

/-- The re-evaluation in a class brings its laws about. -/
theorem State.Pending.reevaluateIn {s : State} {h : Handle} {before : StationRecord}
    {c : ServiceClass} (law : s.Pending h before c) : (s.reevaluateIn h before c).ClassLawful c := by
  rw [State.classLawful_iff]
  have frame : (s.reevaluateIn h before c).beyondRings = s.beyondRings :=
    State.reevaluateIn_frame s h before c
  have countEq : (s.reevaluateIn h before c).waiting.get c =
      (s.reevaluateIn h before c).countWaiting c := by
    rw [State.countWaiting_of_frame frame, State.reevaluateIn, State.placeStation_waiting]
    simp only [State.adjustWaiting, PerClass.get_set_same]
    exact adjusted_count law.waiting
  have elig : ∀ k, ((s.reevaluateIn h before c).station k).eligible c = (s.station k).eligible c :=
    fun k => State.eligible_of_frame frame k c
  suffices goal : (∃ m, ((s.reevaluateIn h before c).view c).Sound m) ∧
      ((s.reevaluateIn h before c).view c).Tight ∧
      ∀ k, (s.station k).eligible c = true ↔ ((s.reevaluateIn h before c).view c).holds k by
    obtain ⟨a, b, d⟩ := goal
    exact ⟨a, b, fun k => by rw [elig]; exact d k, countEq⟩
  obtain ⟨m, sound⟩ := law.sound
  have tight := law.tight
  have base : (s.adjustWaiting c (before.isWaiting c) ((s.station h).isWaiting c)).view c =
    s.view c := rfl
  have recs : ∀ k, (s.adjustWaiting c (before.isWaiting c)
    ((s.station h).isWaiting c)).station k = s.station k := fun _ => rfl
  unfold State.reevaluateIn
  generalize hu : s.adjustWaiting c (before.isWaiting c) ((s.station h).isWaiting c) = u at base recs
  have slotOf : (s.view c).slot h = (s.station h).ringSlot.get c := rfl
  have placeOf : (s.view c).place h = (s.station h).overflow.get c := rfl
  unfold State.placeStation
  dsimp only
  rw [recs]
  by_cases e : (s.station h).eligible c = true
  · rw [if_pos e]
    by_cases none' : (((s.station h).ringSlot.get c).isNone &&
        ((s.station h).overflow.get c).isNone) = true
    · rw [if_pos none']
      have out : ¬ (s.view c).holds h := by
        simp only [Bool.and_eq_true, Option.isNone_iff_eq_none] at none'
        unfold ClassView.holds
        rw [slotOf, placeOf, none'.1, none'.2]
        simp
      rw [State.view_insertStation, if_pos rfl, base]
      unfold ClassView.insert
      by_cases room : (s.view c).ring.occupancy < Config.ringFull
      · rw [if_pos room]
        unfold Config.ringFull at room
        obtain ⟨s1, h1, r1⟩ := sound.writeTail out room
        refine ⟨⟨m, s1⟩, ?_, ?_⟩
        · intro pos
          have := tight pos
          omega
        · intro k
          rw [h1]
          by_cases q : k = h
          · subst q; simp [e]
          · rw [law.places k q]; simp [q]
      · rw [if_neg room]
        unfold Config.ringFull at room
        have small := Ring.occupancy_lt (s.view c).ring
        obtain ⟨s1, h1, r1⟩ := sound.append out
        refine ⟨⟨_, s1⟩, ?_, ?_⟩
        · intro _
          rw [r1]; omega
        · intro k
          rw [h1]
          by_cases q : k = h
          · subst q; simp [e]
          · rw [law.places k q]; simp [q]
    · rw [if_neg none', base]
      refine ⟨⟨m, sound⟩, tight, fun k => ?_⟩
      by_cases q : k = h
      · subst q
        simp only [e, true_iff]
        unfold ClassView.holds
        rw [slotOf, placeOf]
        cases hs : (s.station k).ringSlot.get c <;> cases hp : (s.station k).overflow.get c <;>
          simp [hs, hp] at none' ⊢
      · exact law.places k q
  · rw [if_neg e]
    cases hs : (s.station h).ringSlot.get c with
    | some i =>
      dsimp only
      rw [State.view_makeHole, if_pos rfl, base]
      obtain ⟨s1, h1, r1⟩ := sound.makeHole (slotOf.trans hs)
      refine ⟨⟨m, s1⟩, ?_, ?_⟩
      · intro pos
        rw [r1]
        exact tight pos
      · intro k
        rw [h1]
        by_cases q : k = h
        · subst q; simp [e]
        · rw [law.places k q]; simp [q]
    | none =>
      dsimp only
      cases hp : (s.station h).overflow.get c with
      | some p =>
        dsimp only
        rw [State.view_unlinkOverflow, if_pos rfl, base]
        have mem : h ∈ m := (sound.member h).mpr (by rw [placeOf, hp]; rfl)
        obtain ⟨a, b, rfl⟩ := List.append_of_mem mem
        obtain ⟨s1, h1, r1⟩ := sound.unlink (placeOf.trans hp)
        refine ⟨⟨_, s1⟩, ?_, ?_⟩
        · intro pos
          rw [r1]
          refine tight ?_
          rw [sound.length]
          simp
        · intro k
          rw [h1]
          by_cases q : k = h
          · subst q; simp [e]
          · rw [law.places k q]; simp [q]
      | none =>
        dsimp only
        rw [base]
        refine ⟨⟨m, sound⟩, tight, fun k => ?_⟩
        by_cases q : k = h
        · subst q
          unfold ClassView.holds
          rw [slotOf, placeOf, hs, hp]
          simp [e]
        · exact law.places k q

/-- The re-evaluation in one class leaves the laws of another, and what is pending there. -/
theorem State.reevaluateIn_other (s : State) (h : Handle) (before : StationRecord)
    {c d : ServiceClass} (ne : d ≠ c) :
    (s.reevaluateIn h before c).view d = s.view d ∧
      (s.reevaluateIn h before c).waiting.get d = s.waiting.get d := by
  constructor
  · rw [State.reevaluateIn, State.view_placeStation_ne _ _ ne, State.view_adjustWaiting]
  · rw [State.reevaluateIn, State.placeStation_waiting]
    simp [State.adjustWaiting, PerClass.get_set, ne]

theorem State.ClassLawful.reevaluateIn_other {s : State} {d : ServiceClass} (law : s.ClassLawful d)
    (h : Handle) (before : StationRecord) {c : ServiceClass} (ne : d ≠ c) :
    (s.reevaluateIn h before c).ClassLawful d := by
  have frame := State.reevaluateIn_frame s h before c
  exact law.transfer (State.reevaluateIn_other s h before ne).1
    (fun k => State.eligible_of_frame frame k d) (State.reevaluateIn_other s h before ne).2
    (State.countWaiting_of_frame frame d)

theorem State.Pending.reevaluateIn_other {s : State} {h : Handle} {before : StationRecord}
    {d : ServiceClass} (law : s.Pending h before d) {c : ServiceClass} (ne : d ≠ c) :
    (s.reevaluateIn h before c).Pending h before d := by
  have frame := State.reevaluateIn_frame s h before c
  obtain ⟨view, wait⟩ := State.reevaluateIn_other s h before ne
  refine ⟨by rw [view]; exact law.sound, by rw [view]; exact law.tight, fun k q => ?_, ?_⟩
  · rw [view, State.eligible_of_frame frame]
    exact law.places k q
  · rw [wait, State.isWaiting_of_frame frame, State.countWaiting_of_frame frame]
    exact law.waiting

/-- The re-evaluation in every class brings the laws of every class about (R65). -/
theorem State.reevaluate_lawful {s : State} {h : Handle} {before : StationRecord}
    (law : ∀ c, s.Pending h before c) (c : ServiceClass) :
    (s.reevaluate h before).ClassLawful c := by
  have n0 : ∀ d, d ≠ ServiceClass.sc0 → (s.reevaluateIn h before .sc0).Pending h before d :=
    fun d ne => (law d).reevaluateIn_other ne
  have n1 : ∀ d, d ≠ ServiceClass.sc0 → d ≠ ServiceClass.sc1 →
      ((s.reevaluateIn h before .sc0).reevaluateIn h before .sc1).Pending h before d :=
    fun d ne ne' => (n0 d ne).reevaluateIn_other ne'
  have n2 := (n1 .sc3 (by decide) (by decide)).reevaluateIn_other (c := .sc2) (by decide)
  unfold State.reevaluate
  cases c with
  | sc0 =>
    exact (((law .sc0).reevaluateIn.reevaluateIn_other h before (by decide)).reevaluateIn_other h
      before (by decide)).reevaluateIn_other h before (by decide)
  | sc1 =>
    exact ((n0 .sc1 (by decide)).reevaluateIn.reevaluateIn_other h before
      (by decide)).reevaluateIn_other h before (by decide)
  | sc2 => exact (n1 .sc2 (by decide) (by decide)).reevaluateIn.reevaluateIn_other h before (by decide)
  | sc3 => exact n2.reevaluateIn

theorem sameInputs_eligible {a b : StationRecord} (same : sameInputs a b = true) (c : ServiceClass) :
    a.eligible c = b.eligible c ∧ a.isWaiting c = b.isWaiting c := by
  simp only [sameInputs, Bool.and_eq_true, beq_iff_eq] at same
  obtain ⟨⟨⟨⟨h1, h2⟩, h3⟩, h4⟩, h5⟩ := same
  simp only [StationRecord.eligible, StationRecord.isWaiting, StationRecord.ready, h1, h2, h3, h4, h5,
    and_self]

/-- A visit that writes its record back keeps the laws of every class (R16, R65). -/
theorem State.writeBack_lawful {s : State} (law : ∀ c, s.ClassLawful c) {h : Handle}
    {r : StationRecord} (slot : r.ringSlot = (s.station h).ringSlot)
    (place : r.overflow = (s.station h).overflow) (c : ServiceClass) :
    (s.writeBack h r).ClassLawful c := by
  unfold State.writeBack
  split
  · next same =>
    obtain ⟨e, w⟩ := sameInputs_eligible same c
    exact (law c).setStation (by rw [slot]) (by rw [place]) e.symm w.symm
  · refine State.reevaluate_lawful (fun d => ?_) c
    obtain ⟨sound, tight, places, waiting⟩ := (State.classLawful_iff s d).mp (law d)
    have view := State.view_setStation s h r d (by rw [slot]) (by rw [place])
    refine ⟨by rw [view]; exact sound, by rw [view]; exact tight, fun k q => ?_, ?_⟩
    · rw [view, State.station_setStation_ne s q]
      exact places k
    · have := State.countWaiting_setStation s h r d
      rw [State.station_setStation_same]
      show s.waiting.get d + _ = _
      rw [waiting]
      omega

/-- An ineligible station's re-evaluation raises no flag (R65, R72). -/
theorem State.reevaluateIn_flags {s : State} {h : Handle} {before : StationRecord} {c : ServiceClass}
    (out : (s.station h).eligible c = false) : (s.reevaluateIn h before c).flags = s.flags := by
  unfold State.reevaluateIn State.placeStation
  dsimp only
  rw [State.station_adjustWaiting, out]
  simp only [Bool.false_eq_true, if_false]
  split
  · rfl
  · split
    · unfold State.unlinkOverflow
      dsimp only
      split <;> split <;> rfl
    · rfl

/-- A record written back that is eligible nowhere raises no flag (R65). -/
theorem State.writeBack_flags {s : State} {h : Handle} {r : StationRecord}
    (out : ∀ c, r.eligible c = false) : (s.writeBack h r).flags = s.flags := by
  have keep : ∀ (u : State) (d : ServiceClass), (∀ c, (u.station h).eligible c = false) →
      (u.reevaluateIn h (s.station h) d).flags = u.flags ∧
        ∀ c, ((u.reevaluateIn h (s.station h) d).station h).eligible c = false := fun u d not' =>
    ⟨State.reevaluateIn_flags (not' d), fun c => by
      rw [State.eligible_of_frame (State.reevaluateIn_frame u h (s.station h) d)]
      exact not' c⟩
  unfold State.writeBack
  split
  · rfl
  · unfold State.reevaluate
    obtain ⟨f0, e0⟩ := keep (s.setStation h r) .sc0 (fun c => by
      rw [State.station_setStation_same]; exact out c)
    obtain ⟨f1, e1⟩ := keep _ .sc1 e0
    obtain ⟨f2, e2⟩ := keep _ .sc2 e1
    obtain ⟨f3, _⟩ := keep _ .sc3 e2
    rw [f3, f2, f1, f0]
    rfl
/-! ### Pops (R69, R74) -/

theorem State.promote_waiting (s : State) (c : ServiceClass) : (s.promote c).waiting = s.waiting := by
  unfold State.promote
  split
  · cases (s.overflowList c).head with
    | none => rfl
    | some h =>
      dsimp only
      cases (s.station h).overflow.get c with
      | none => rfl
      | some p => exact State.unlinkOverflow_waiting s c h p
  · rfl

theorem State.advanceHead_waiting (s : State) (c : ServiceClass) :
    (s.advanceHead c).waiting = s.waiting := by
  rw [State.advanceHead, State.promote_waiting, State.setRing_waiting]

/-- The head that passes a hole keeps the laws of every class (R69, R74). -/
theorem State.advanceHead_lawful {s : State} {c : ServiceClass} (law : ∀ d, s.ClassLawful d)
    (occupied : 0 < (s.ring c).occupancy) (hole : (s.ring c).at (s.ring c).head = none)
    (d : ServiceClass) : (s.advanceHead c).ClassLawful d := by
  have frame := State.advanceHead_frame s c
  by_cases q : d = c
  · subst q
    obtain ⟨⟨m, sound⟩, tight, places, waiting⟩ := (State.classLawful_iff s d).mp (law d)
    obtain ⟨a, b, g⟩ := sound.advance tight occupied hole
    rw [State.classLawful_iff, State.view_advanceHead, if_pos rfl,
      State.countWaiting_of_frame frame, State.advanceHead_waiting]
    exact ⟨⟨_, a⟩, b, fun h => by rw [State.eligible_of_frame frame, g]; exact places h, waiting⟩
  · refine (law d).transfer ?_ (fun h => State.eligible_of_frame frame h d) ?_
      (State.countWaiting_of_frame frame d)
    · rw [State.view_advanceHead, if_neg q]
    · rw [State.advanceHead_waiting]

/-- The discarding of holes keeps the laws of every class (R69, R74). -/
theorem State.discardHoles_lawful (fuel : Nat) {s : State} (c : ServiceClass)
    (law : ∀ d, s.ClassLawful d) (d : ServiceClass) : (State.discardHoles fuel s c).ClassLawful d := by
  induction fuel generalizing s with
  | zero => exact law d
  | succ n ih =>
    unfold State.discardHoles
    split
    · exact law d
    · next occ =>
      split
      · exact law d
      · next hole => exact ih (State.advanceHead_lawful law (Nat.pos_of_ne_zero occ) hole)

theorem State.discardHoles_waiting (fuel : Nat) (s : State) (c : ServiceClass) :
    (State.discardHoles fuel s c).waiting = s.waiting := by
  induction fuel generalizing s with
  | zero => rfl
  | succ n ih =>
    unfold State.discardHoles
    split
    · rfl
    · split
      · rfl
      · rw [ih, State.advanceHead_waiting]

/-- The discarding of holes leaves the waiting counts. -/
theorem State.clearHead_waiting (s : State) (c : ServiceClass) :
    (s.clearHead c).waiting = s.waiting := State.discardHoles_waiting 256 s c

theorem State.clearHead_lawful {s : State} (c : ServiceClass) (law : ∀ d, s.ClassLawful d)
    (d : ServiceClass) : (s.clearHead c).ClassLawful d := State.discardHoles_lawful 256 c law d

/-- The station at the head is eligible in the class (R65, R69). -/
theorem State.headStation_eligible {s : State} {c : ServiceClass} (law : s.ClassLawful c)
    {h : Handle} (head : s.headStation c = some h) : (s.station h).eligible c = true := by
  unfold State.headStation at head
  split at head
  · exact absurd head (by simp)
  · rw [law.places]
    exact Or.inl (by rw [(law.slots _ _).mp head]; rfl)

/-- The view of a class after a pop (R69). -/
theorem State.view_popHead (s : State) (c : ServiceClass) (h : Handle) (e : ServiceClass) :
    (s.popHead c h).view e =
      if e = c then (s.view c).advance.setSlot h none else s.view e := by
  unfold State.popHead
  rw [State.changeStation_eq]
  by_cases q : e = c
  · subst q
    rw [if_pos rfl]
    have := State.view_advanceHead s e e
    rw [if_pos rfl] at this
    rw [← this]
    refine ClassView.ext_fun rfl rfl (fun k => ?_) (fun k => ?_)
    all_goals
      simp only [State.view, ClassView.setSlot, State.station_setStation]
      by_cases w : k = h
      · subst w; simp
      · simp [w]
  · rw [if_neg q]
    have same := State.view_setStation (s.advanceHead c) h
      { (s.advanceHead c).station h with
        ringSlot := ((s.advanceHead c).station h).ringSlot.set c none
        inFlight := ((s.advanceHead c).station h).inFlight.set c true } e
      (PerClass.get_set_ne _ q none) rfl
    rw [same, State.view_advanceHead, if_neg q]

/-- A pop keeps the laws of every class (R69). -/
theorem State.popHead_lawful {s : State} {c : ServiceClass} (law : ∀ d, s.ClassLawful d)
    {h : Handle} (head : s.headStation c = some h) (d : ServiceClass) :
    (s.popHead c h).ClassLawful d := by
  have elig := State.headStation_eligible (law c) head
  have frame := State.popHead_frame s c h
  have ready : (s.station h).ready c = true ∧ 0 < (s.station h).credit := by
    simpa [StationRecord.eligible] using elig
  have other : ∀ k e, (k ≠ h ∨ e ≠ c) →
      ((s.popHead c h).station k).eligible e = (s.station k).eligible e := by
    intro k e ne
    rw [State.eligible_of_frame frame, State.station_setStation]
    split
    · next q =>
      subst q
      have ne' : e ≠ c := ne.resolve_left (by simp)
      simp [StationRecord.eligible, StationRecord.ready, PerClass.get_set, ne']
    · rfl
  have wait : (s.popHead c h).countWaiting d = s.countWaiting d := by
    rw [State.countWaiting_of_frame frame]
    have eq := State.countWaiting_setStation s h
      { s.station h with inFlight := (s.station h).inFlight.set c true } d
    have same : (StationRecord.isWaiting
        { s.station h with inFlight := (s.station h).inFlight.set c true } d) =
        (s.station h).isWaiting d := by
      by_cases q : d = c
      · subst q
        have a : (s.station h).isWaiting d = false := by
          simp [StationRecord.isWaiting]
          intro _
          exact ready.2
        rw [a]
        simp [StationRecord.isWaiting, StationRecord.ready]
      · simp [StationRecord.isWaiting, StationRecord.ready, PerClass.get_set, q]
    rw [same] at eq
    omega
  have count : (s.popHead c h).waiting = s.waiting := by
    show (s.advanceHead c).waiting = _
    exact State.advanceHead_waiting s c
  by_cases q : d = c
  · subst q
    obtain ⟨⟨m, sound⟩, tight, places, waiting⟩ := (State.classLawful_iff s d).mp (law d)
    unfold State.headStation at head
    split at head
    · exact absurd head (by simp)
    · next occ =>
      obtain ⟨a, b, g⟩ := sound.pop tight (Nat.pos_of_ne_zero occ) head
      rw [State.classLawful_iff, State.view_popHead, if_pos rfl, count, wait]
      refine ⟨⟨_, a⟩, b, fun k => ?_, waiting⟩
      rw [g]
      by_cases w : k = h
      · subst w
        rw [State.eligible_of_frame frame]
        simp [StationRecord.eligible, StationRecord.ready]
      · rw [other k d (Or.inl w), places k]
        simp [w]
  · exact (law d).transfer (by rw [State.view_popHead, if_neg q]) (fun k => other k d (Or.inr q))
      (by rw [count]) wait

end Sys2Proof.Machine
end

