-- ==== Sys2Proof/Laws/Clear.lean ====
section
/-!
SUPPORT. What a record visit of a TABLE_CLEAR makes of the free list, the address index, the rings and the
records, and what it leaves alone (R11, R13, R22, R65).
-/

namespace Sys2Proof.Machine

/-! ### Handles in order -/

/-- The handles below one do not name it. -/
theorem not_mem_below (h : Handle) : h ∉ allHandles.take h.val := by
  intro mem
  obtain ⟨i, lt, e⟩ := List.getElem_of_mem mem
  rw [List.getElem_take] at e
  simp only [allHandles, List.length_take, List.length_finRange, List.getElem_finRange] at e lt
  rw [← e] at lt
  simp at lt

theorem mem_below {h k : Handle} : k ∈ allHandles.take h.val ↔ k < h := by
  constructor
  · intro mem
    obtain ⟨i, lt, e⟩ := List.getElem_of_mem mem
    rw [List.getElem_take] at e
    simp only [allHandles, List.length_take, List.length_finRange, List.getElem_finRange] at e lt
    rw [← e, Fin.lt_def]
    simp
    omega
  · intro lt
    refine List.mem_iff_getElem.mpr ⟨k.val, ?_, ?_⟩
    · simp only [allHandles, List.length_take, List.length_finRange]
      have := Fin.lt_def.mp lt
      omega
    · rw [List.getElem_take]
      simp [allHandles]

/-- The handles below one, those below its predecessor and the predecessor. -/
theorem below_succ {h x : Handle} (before : Handle.before h = some x) :
    allHandles.take h.val = allHandles.take x.val ++ [x] := by
  unfold Handle.before at before
  split at before
  · exact absurd before (by simp)
  · next pos =>
    have e : x.val + 1 = h.val := by
      rw [← Option.some.inj before]
      show h.val - 1 + 1 = h.val
      omega
    rw [← e, List.take_add_one]
    have at_ : allHandles[x.val]? = some x := by
      rw [List.getElem?_eq_getElem (by simp [allHandles])]
      simp [allHandles]
    rw [at_]
    rfl

/-! ### The free list (R11, R22) -/

/-- The free list is one list only. -/
theorem State.FreeOrder.unique {s : State} {m n : List Handle} (a : s.FreeOrder m) (b : s.FreeOrder n) :
    m = n := a.freeList.symm.trans b.freeList

/-- A record that leaves the index leaves the free list and every state as they are. -/
theorem State.leaveIndex_freeList (s : State) (h : Handle) :
    (s.leaveIndex h).freeHead = s.freeHead ∧ (s.leaveIndex h).freeTail = s.freeTail ∧
      ∀ k, ((s.leaveIndex h).station k).nextFree = (s.station k).nextFree ∧
        ((s.leaveIndex h).station k).state = (s.station k).state := by
  have link : ∀ (u : State) (a : Handle) (x : Option Handle) (k : Handle),
      ((u.setNextInBucket a x).station k).nextFree = (u.station k).nextFree ∧
      ((u.setNextInBucket a x).station k).state = (u.station k).state := by
    intro u a x k
    rw [State.setNextInBucket_eq, State.station_setStation]
    split
    · next e => subst e; exact ⟨rfl, rfl⟩
    · exact ⟨rfl, rfl⟩
  unfold State.leaveIndex
  dsimp only
  split
  · exact ⟨rfl, rfl, fun k => ⟨(link _ _ _ k).1.trans (link _ _ _ k).1, (link _ _ _ k).2.trans (link _ _ _ k).2⟩⟩
  · split
    · exact ⟨rfl, rfl, fun k => link _ _ _ k⟩
    · exact ⟨rfl, rfl, fun k => link _ _ _ k⟩

/-- A record visit puts its record in its place: the handles passed stand first, ascending, and behind them
the FREE records above, in the order they held (R11 (d), R22). -/
theorem State.FreeListLawful.clearRecord {s : State} (law : s.FreeListLawful) {h : Handle}
    (ex : s.executing = .clearRecords h) {members : List Handle} (order : s.FreeOrder members) :
    (s.clearRecord h).FreeOrder (allHandles.take h.val ++ h :: members.filter (h < ·)) := by
  obtain ⟨m, nodup, head, tail, mem, chained, pre⟩ := law.list
  obtain rfl := order.unique ⟨nodup, head, tail, chained⟩
  obtain ⟨rest, split'⟩ := pre h ex
  have erased : members.erase h = allHandles.take h.val ++ members.filter (h < ·) := by
    rw [nodup.erase_eq_filter]
    have low : (allHandles.take h.val).filter (· != h) = allHandles.take h.val :=
      List.filter_eq_self.mpr fun k hk => by
        have := ne_of_lt (mem_below.mp hk)
        simpa using this
    have none' : (allHandles.take h.val).filter (h < ·) = [] :=
      List.filter_eq_nil_iff.mpr fun k hk => by
        have := le_of_lt (mem_below.mp hk)
        simpa using this
    have high : rest.filter (· != h) = rest.filter (h < ·) :=
      List.filter_congr fun k hk => by
        have out : ¬ k < h := fun lt => by
          rw [split'] at nodup
          exact (List.nodup_append.mp nodup).2.2 k (mem_below.mpr lt) k hk rfl
        rw [Bool.eq_iff_iff]
        simp only [bne_iff_ne, decide_eq_true_eq]
        exact ⟨fun ne => lt_of_le_of_ne (not_lt.mp out) (Ne.symm ne), ne_of_gt⟩
    rw [split', List.filter_append, List.filter_append, low, none', high]
    rfl
  unfold State.clearRecord
  dsimp only
  generalize e1 : (if (s.station h).associated then s.leaveIndex h else s) = s1
  have one : s1.FreeOrder members ∧ (s1.station h).state = (s.station h).state := by
    subst e1
    split
    · obtain ⟨a, b, c⟩ := s.leaveIndex_freeList h
      exact ⟨order.congr a b fun k _ => (c k).1, (c h).2⟩
    · exact ⟨order, rfl⟩
  generalize e2 : (if (s1.station h).state = .free then s1.unlinkFree h else s1) = s2
  have two : s2.FreeOrder (members.erase h) := by
    subst e2
    split
    · next free =>
      obtain ⟨a, b, rfl⟩ := List.append_of_mem ((mem h).mpr (one.2.symm.trans free))
      have out : h ∉ a := fun ha => (List.nodup_append.mp nodup).2.2 h ha h (by simp) rfl
      rw [List.erase_append_right _ out, List.erase_cons_head]
      exact one.1.unlinkFree
    · next used =>
      rw [List.erase_of_not_mem fun hm => used (one.2.trans ((mem h).mp hm))]
      exact one.1
  generalize e3 : s2.writeBack h { s2.station h with state := .free } = s3
  have three : s3.FreeOrder (members.erase h) := by
    subst e3
    refine two.congr (by simp) (by simp) fun k _ => ?_
    have frame := State.unplaced_of_frame
      (State.writeBack_frame s2 h { s2.station h with state := .free }) k
    have link := congrArg StationRecord.nextFree frame
    refine link.trans ?_
    show ((s2.setStation h _).station k).nextFree = _
    rw [State.station_setStation]
    split
    · next e => subst e; rfl
    · rfl
  have out : h ∉ members.erase h := nodup.not_mem_erase
  rw [erased] at three out
  cases before : Handle.before h with
  | none =>
    have zero : h.val = 0 := by
      unfold Handle.before at before
      split at before
      · next z => exact z
      · exact absurd before (by simp)
    have first : s3.freeInOrder h = s3.freeAtHead h := by unfold State.freeInOrder; rw [before]
    rw [first]
    rw [zero] at three out ⊢
    exact three.freeAtHead out
  | some x =>
    rw [below_succ before, List.append_assoc] at three out ⊢
    exact three.freeInOrder before out

/-! ### The address index (R13, R22) -/

/-- A record visit takes its record out of the index: the record before it in its chain, or the bucket's
head, takes its link, and it has none (R13, R22). -/
theorem State.IndexLawful.clearRecord {s : State} (law : s.IndexLawful) (h : Handle) :
    (∀ k, ((s.clearRecord h).station k).nextInBucket =
      if k = h then none
      else if (s.station k).nextInBucket = some h then (s.station h).nextInBucket
      else (s.station k).nextInBucket) ∧
    (∀ b, (s.clearRecord h).bucketHead b =
      if s.bucketHead b = some h then (s.station h).nextInBucket else s.bucketHead b) := by
  have nextFree : ∀ (u : State) (a : Handle) (x : Option Handle) (k : Handle),
      ((u.setNextFree a x).station k).nextInBucket = (u.station k).nextInBucket := by
    intro u a x k
    rw [State.setNextFree_eq, State.station_setStation]
    split
    · next e => subst e; rfl
    · rfl
  unfold State.clearRecord
  dsimp only
  generalize e1 : (if (s.station h).associated then s.leaveIndex h else s) = s1
  have one : (∀ k, k ≠ h → (s1.station k).nextInBucket =
      if (s.station k).nextInBucket = some h then (s.station h).nextInBucket
      else (s.station k).nextInBucket) ∧ ∀ b, s1.bucketHead b =
      if s.bucketHead b = some h then (s.station h).nextInBucket else s.bucketHead b := by
    subst e1
    by_cases isIn : (s.station h).associated = true
    · rw [if_pos isIn]
      obtain ⟨a, b⟩ := law.leaveIndex isIn
      exact ⟨fun k ne => by rw [a, if_neg ne], b⟩
    · rw [if_neg isIn]
      have out : ∀ b m, s.BucketOrder b m →
          (∀ k, k ∈ m ↔ (s.station k).indexed = true ∧ bucketOf (s.station k).descriptor.linkAddress = b) →
          h ∉ m := fun b m _ mem hm => isIn ((mem h).mp hm).1
      constructor
      · intro k _
        rw [if_neg]
        intro link
        have indexed : (s.station k).indexed = true := by
          by_contra no
          rw [law.outside k (by simpa using no)] at link
          exact absurd link (by simp)
        obtain ⟨m, nodup, head, mem, chained⟩ :=
          law.chains (bucketOf (s.station k).descriptor.linkAddress)
        obtain ⟨a, c, rfl⟩ := List.append_of_mem ((mem k).mpr ⟨indexed, rfl⟩)
        have next := chained_iff.mp chained
        rw [ChainedTo.append] at next
        have first : c.head? = some h := by
          have := next.2.1
          simp only [Option.or_none] at this
          rw [← this, link]
        refine out _ _ ⟨nodup, head, chained⟩ mem ?_
        have := List.mem_of_head? first
        simp [this]
      · intro b
        rw [if_neg]
        intro first
        obtain ⟨m, nodup, head, mem, chained⟩ := law.chains b
        exact out _ _ ⟨nodup, head, chained⟩ mem (List.mem_of_head? (head.symm.trans first))
  generalize e2 : (if (s1.station h).state = .free then s1.unlinkFree h else s1) = s2
  have two : (∀ k, (s2.station k).nextInBucket = (s1.station k).nextInBucket) ∧
      ∀ b, s2.bucketHead b = s1.bucketHead b := by
    subst e2
    split
    · unfold State.unlinkFree
      dsimp only
      split
      · exact ⟨fun k => nextFree _ _ _ k, fun b => rfl⟩
      · split <;> exact ⟨fun k => rfl, fun b => rfl⟩
    · exact ⟨fun k => rfl, fun b => rfl⟩
  generalize e3 : s2.writeBack h { s2.station h with state := .free } = s3
  have three : (∀ k, (s3.station k).nextInBucket = (s2.station k).nextInBucket) ∧
      ∀ b, s3.bucketHead b = s2.bucketHead b := by
    subst e3
    refine ⟨fun k => ?_, fun b => by simp only [State.bucketHead, State.writeBack_buckets]⟩
    have frame := State.unplaced_of_frame
      (State.writeBack_frame s2 h { s2.station h with state := .free }) k
    refine (congrArg StationRecord.nextInBucket frame).trans ?_
    show ((s2.setStation h _).station k).nextInBucket = _
    rw [State.station_setStation]
    split
    · next e => subst e; rfl
    · rfl
  have four : (∀ k, ((s3.freeInOrder h).station k).nextInBucket =
      if k = h then none else (s3.station k).nextInBucket) ∧
      ∀ b, (s3.freeInOrder h).bucketHead b = s3.bucketHead b := by
    have set' : ∀ (x : Option Handle) (k : Handle),
        ((s3.setStation h { StationRecord.cleared with nextFree := x }).station k).nextInBucket =
          if k = h then none else (s3.station k).nextInBucket := by
      intro x k
      rw [State.station_setStation]
      split <;> rfl
    unfold State.freeInOrder
    split
    · exact ⟨fun k => set' _ k, fun b => rfl⟩
    · exact ⟨fun k => (nextFree _ _ _ k).trans (set' _ k), fun b => rfl⟩
  refine ⟨fun k => ?_, fun b => ?_⟩
  · rw [four.1]
    split
    · rfl
    · next ne => rw [three.1, two.1, one.1 k ne]
  · rw [four.2, three.2, two.2, one.2]

/-! ### What a record visit leaves alone (R22) -/

/-- A record visit changes the records, the free list, the index, the rings, the overflow lists and the
waiting counts, and nothing else (R22). -/
theorem State.clearRecord_frame (s : State) (h : Handle) :
    { s.clearRecord h with
      stations := s.stations, freeHead := s.freeHead, freeTail := s.freeTail, buckets := s.buckets
      rings := s.rings, overflows := s.overflows, waiting := s.waiting } = s := by
  have placed : ∀ (u : State) (r : StationRecord), r.state = .free →
      { u.writeBack h r with stations := s.stations, freeHead := s.freeHead, freeTail := s.freeTail
                             buckets := s.buckets, rings := s.rings, overflows := s.overflows
                             waiting := s.waiting } =
      { u with stations := s.stations, freeHead := s.freeHead, freeTail := s.freeTail
               buckets := s.buckets, rings := s.rings, overflows := s.overflows
               waiting := s.waiting } := by
    intro u r free
    have flags : (u.writeBack h r).flags = u.flags :=
      State.writeBack_flags fun c => by simp [StationRecord.eligible, StationRecord.ready, free]
    have frame := State.writeBack_frame u h r
    have outer := congrArg (fun v : State =>
      { v with stations := s.stations, freeHead := s.freeHead, freeTail := s.freeTail
               buckets := s.buckets, rings := s.rings, overflows := s.overflows
               waiting := s.waiting, flags := u.flags }) frame
    rw [← flags] at outer ⊢
    exact outer
  have link : ∀ u : State,
      { u.freeInOrder h with stations := s.stations, freeHead := s.freeHead, freeTail := s.freeTail
                             buckets := s.buckets, rings := s.rings, overflows := s.overflows
                             waiting := s.waiting } =
      { u with stations := s.stations, freeHead := s.freeHead, freeTail := s.freeTail
               buckets := s.buckets, rings := s.rings, overflows := s.overflows
               waiting := s.waiting } := by
    intro u
    unfold State.freeInOrder
    split <;> rfl
  unfold State.clearRecord
  dsimp only
  rw [link, placed _ _ rfl]
  unfold State.unlinkFree State.leaveIndex
  dsimp only
  repeat' split
  all_goals rfl

/-! ### The laws of rings (R22, R65) -/

/-- The laws of a class do not see the free list and the index. -/
theorem State.ClassLawful.ofRings {s t : State} {c : ServiceClass} (law : s.ClassLawful c)
    (stations : t.stations = s.stations) (rings : t.rings = s.rings) (lists : t.overflows = s.overflows)
    (counts : t.waiting = s.waiting) : t.ClassLawful c := by
  have record : ∀ k, t.station k = s.station k := fun k => by simp only [State.station, stations]
  refine law.transfer ?_ (fun k => by rw [record]) (by rw [counts]) ?_
  · simp only [State.view, State.ring, State.overflowList, rings, lists, record]
  · simp only [State.countWaiting, record]

theorem State.ClassLawful.setNextFree {s : State} {c : ServiceClass} (law : s.ClassLawful c) (h : Handle)
    (x : Option Handle) : (s.setNextFree h x).ClassLawful c := by
  rw [State.setNextFree_eq]
  exact law.setStation rfl rfl rfl rfl

theorem State.ClassLawful.setNextInBucket {s : State} {c : ServiceClass} (law : s.ClassLawful c)
    (h : Handle) (x : Option Handle) : (s.setNextInBucket h x).ClassLawful c := by
  rw [State.setNextInBucket_eq]
  exact law.setStation rfl rfl rfl rfl

/-- A record visit keeps the laws of every class (R22, R65). -/
theorem State.clearRecord_lawful {s : State} (law : ∀ c, s.ClassLawful c) (h : Handle)
    (c : ServiceClass) : (s.clearRecord h).ClassLawful c := by
  unfold State.clearRecord
  dsimp only
  generalize e1 : (if (s.station h).associated then s.leaveIndex h else s) = s1
  have one : ∀ c, s1.ClassLawful c := fun c => by
    subst e1
    split
    · unfold State.leaveIndex
      dsimp only
      split
      · exact ((law c).setNextInBucket _ _).setNextInBucket _ _
      · split
        · refine State.ClassLawful.setNextInBucket ?_ _ _
          exact (law c).ofRings rfl rfl rfl rfl
        · exact (law c).setNextInBucket _ _
    · exact law c
  generalize e2 : (if (s1.station h).state = .free then s1.unlinkFree h else s1) = s2
  have two : ∀ c, s2.ClassLawful c := fun c => by
    subst e2
    split
    · unfold State.unlinkFree
      dsimp only
      split
      · exact ((one c).setNextFree _ _).ofRings rfl rfl rfl rfl
      · split <;> exact (one c).ofRings rfl rfl rfl rfl
    · exact one c
  generalize e3 : s2.writeBack h { s2.station h with state := .free } = s3
  have three : ∀ c, s3.ClassLawful c := fun c => by
    subst e3
    exact State.writeBack_lawful (r := { s2.station h with state := .free }) two rfl rfl c
  have free : (s3.station h).state = .free := by
    subst e3
    have frame := State.unplaced_of_frame
      (State.writeBack_frame s2 h { s2.station h with state := .free }) h
    refine (congrArg StationRecord.state frame).trans ?_
    rw [State.station_setStation_same]
    rfl
  have out : (s3.station h).eligible c = false ∧ (s3.station h).isWaiting c = false := by
    simp [StationRecord.eligible, StationRecord.isWaiting, StationRecord.ready, free]
  have places := (three c).places h
  rw [out.1] at places
  simp only [Bool.false_eq_true, false_iff, not_or, Bool.not_eq_true, Option.isSome_eq_false_iff,
    Option.isNone_iff_eq_none] at places
  have cleared : ∀ x,
      (s3.setStation h { StationRecord.cleared with nextFree := x }).ClassLawful c := fun x => by
    refine (three c).setStation ?_ ?_ ?_ ?_
    · rw [places.1]; cases c <;> rfl
    · rw [places.2]; cases c <;> rfl
    · rw [out.1]; cases c <;> rfl
    · rw [out.2]; cases c <;> rfl
  unfold State.freeInOrder
  split
  · exact (cleared _).ofRings rfl rfl rfl rfl
  · exact ((cleared _).setNextFree _ _).ofRings rfl rfl rfl rfl

/-! ### The records (R22) -/

/-- A record visit clears its record but for its free-list link, and changes no other record but for links
and places (R22). -/
theorem State.clearRecord_records (s : State) (h : Handle) :
    ({ (s.clearRecord h).station h with nextFree := none } : StationRecord) = StationRecord.cleared ∧
    ∀ k, k ≠ h →
      ({ (s.clearRecord h).station k with nextFree := none, nextInBucket := none } :
        StationRecord).unplaced =
      ({ s.station k with nextFree := none, nextInBucket := none } : StationRecord).unplaced := by
  let content := fun r : StationRecord =>
    ({ r with nextFree := none, nextInBucket := none } : StationRecord).unplaced
  have free : ∀ (u : State) a x k, content ((u.setNextFree a x).station k) = content (u.station k) := by
    intro u a x k
    rw [State.setNextFree_eq, State.station_setStation]
    split
    · next e => subst e; rfl
    · rfl
  have bucket : ∀ (u : State) a x k,
      content ((u.setNextInBucket a x).station k) = content (u.station k) := by
    intro u a x k
    rw [State.setNextInBucket_eq, State.station_setStation]
    split
    · next e => subst e; rfl
    · rfl
  unfold State.clearRecord
  dsimp only
  generalize e1 : (if (s.station h).associated then s.leaveIndex h else s) = s1
  have one : ∀ k, content (s1.station k) = content (s.station k) := fun k => by
    subst e1
    split
    · unfold State.leaveIndex
      dsimp only
      split
      · exact (bucket _ _ _ _).trans (bucket _ _ _ _)
      · split <;> exact bucket _ _ _ _
    · rfl
  generalize e2 : (if (s1.station h).state = .free then s1.unlinkFree h else s1) = s2
  have two : ∀ k, content (s2.station k) = content (s1.station k) := fun k => by
    subst e2
    split
    · unfold State.unlinkFree
      dsimp only
      split
      · exact free _ _ _ _
      · split <;> rfl
    · rfl
  generalize e3 : s2.writeBack h { s2.station h with state := .free } = s3
  have three : ∀ k, k ≠ h → content (s3.station k) = content (s2.station k) := fun k ne => by
    subst e3
    have frame := State.unplaced_of_frame
      (State.writeBack_frame s2 h { s2.station h with state := .free }) k
    rw [State.station_setStation_ne _ ne] at frame
    exact congrArg
      (fun r : StationRecord => ({ r with nextFree := none, nextInBucket := none } : StationRecord)) frame
  constructor
  · unfold State.freeInOrder
    split
    · show ({ (s3.setStation h _).station h with nextFree := none } : StationRecord) = _
      rw [State.station_setStation_same]
      rfl
    · next x below =>
      have ne : h ≠ x := by
        rintro rfl
        have := below_succ below
        have mem : h ∈ allHandles.take h.val := by rw [this]; simp
        exact not_mem_below h mem
      show ({ ((s3.setStation h _).setNextFree x _).station h with nextFree := none } : StationRecord) = _
      rw [State.setNextFree_eq, State.station_setStation_ne _ ne, State.station_setStation_same]
      rfl
  · intro k ne
    have four : content ((s3.freeInOrder h).station k) = content (s3.station k) := by
      unfold State.freeInOrder
      split
      · show content ((s3.setStation h _).station k) = _
        rw [State.station_setStation_ne _ ne]
      · refine (free _ _ _ _).trans ?_
        rw [State.station_setStation_ne _ ne]
    exact four.trans ((three k ne).trans ((two k).trans (one k)))

end Sys2Proof.Machine
end

