-- ==== Sys2Proof/Laws/Coding.lean ====
section
/-!
SUPPORT. The codings of chapter 10, field by field: numbers of 2, 3 and 6 bytes, handles, overflow places,
sets, traces, and what a snapshot shows of a record.
-/

namespace Sys2Proof.Machine

/-! ### Numbers in bytes (R167) -/

theorem bytesOf_two (x : Nat) : bytesOf 2 x = [BitVec.ofNat 8 (x / 256), BitVec.ofNat 8 x] := by
  simp [bytesOf]

theorem bytesOf_three (x : Nat) :
    bytesOf 3 x = [BitVec.ofNat 8 (x / 65536), BitVec.ofNat 8 (x / 256), BitVec.ofNat 8 x] := by
  simp [bytesOf]

theorem bytesOf_six (x : Nat) :
    bytesOf 6 x = [BitVec.ofNat 8 (x / 1099511627776), BitVec.ofNat 8 (x / 4294967296),
      BitVec.ofNat 8 (x / 16777216), BitVec.ofNat 8 (x / 65536), BitVec.ofNat 8 (x / 256),
      BitVec.ofNat 8 x] := by
  simp [bytesOf]

theorem natOf_two (x : Nat) : natOf [BitVec.ofNat 8 (x / 256), BitVec.ofNat 8 x] = x % 65536 := by
  simp [natOf]
  omega

theorem natOf_three (x : Nat) :
    natOf [BitVec.ofNat 8 (x / 65536), BitVec.ofNat 8 (x / 256), BitVec.ofNat 8 x] =
      x % 16777216 := by
  simp [natOf]
  omega

theorem natOf_six (x : Nat) :
    natOf [BitVec.ofNat 8 (x / 1099511627776), BitVec.ofNat 8 (x / 4294967296),
      BitVec.ofNat 8 (x / 16777216), BitVec.ofNat 8 (x / 65536), BitVec.ofNat 8 (x / 256),
      BitVec.ofNat 8 x] = x % 281474976710656 := by
  simp [natOf]
  omega

/-- A signed number of 24 bits, from the three bytes that code it. -/
theorem ofNat_codeSigned (c : Int) :
    BitVec.ofNat 24 (codeSigned 24 c % 16777216) = BitVec.ofInt 24 c := by
  apply BitVec.eq_of_toNat_eq
  simp [codeSigned]
  omega

/-! ### Handles and places (R167, R172) -/

/-- A handle field holds the handle, or 0xFFFF for none. -/
theorem handleBytes_field (h : Option Handle) :
    ∃ a b, handleBytes h = [a, b] ∧ natOf [a, b] = h.elim 0xFFFF (·.val) := by
  cases h with
  | none => exact ⟨0xFF, 0xFF, rfl, rfl⟩
  | some h =>
    refine ⟨_, _, bytesOf_two _, ?_⟩
    rw [natOf_two]
    have := h.isLt
    simp only [Option.elim_some]
    omega

/-- The fields of an overflow place hold its two neighbours, 0xFFFF for none and for an absent place. -/
theorem overflowBytes_fields (o : Option OverflowPlace) :
    ∃ a b c d, overflowBytes o = [a, b, c, d] ∧
      natOf [a, b] = (o.bind (·.prev)).elim 0xFFFF (·.val) ∧
      natOf [c, d] = (o.bind (·.next)).elim 0xFFFF (·.val) := by
  cases o with
  | none => exact ⟨0xFF, 0xFF, 0xFF, 0xFF, rfl, rfl, rfl⟩
  | some p =>
    obtain ⟨a, b, ab, first⟩ := handleBytes_field p.prev
    obtain ⟨c, d, cd, second⟩ := handleBytes_field p.next
    exact ⟨a, b, c, d, by simp [overflowBytes, ab, cd], first, second⟩

/-! ### Sets and traces (R167, R170) -/

/-- Bit n of a coded set stands for SCn. -/
theorem bitsOfClasses_bit (k : ClassSet) :
    (bitsOfClasses k).getLsbD 0 = k.sc0 ∧ (bitsOfClasses k).getLsbD 1 = k.sc1 ∧
      (bitsOfClasses k).getLsbD 2 = k.sc2 ∧ (bitsOfClasses k).getLsbD 3 = k.sc3 := by
  obtain ⟨a, b, c, d⟩ := k
  revert a b c d
  decide

/-- An entry of a trace holds its stage and its rule. -/
theorem TraceEntry.byte_toNat (e : TraceEntry) : e.byte.toNat = 64 * e.stage.val + e.rule.val := by
  simp only [TraceEntry.byte, BitVec.toNat_append, BitVec.toNat_ofNat]
  have := e.stage.isLt
  have := e.rule.isLt
  rw [← Nat.shiftLeft_add_eq_or_of_lt (by omega), Nat.shiftLeft_eq]
  omega

@[simp] theorem traceBytes_length (entries : List TraceEntry) : (traceBytes entries).length = 5 := by
  simp [traceBytes]

/-! ### The snapshot (R153, R172) -/

/-- What a snapshot shows of a record that is neither FREE nor FORMING: the fields that carry a meaning in
its state, the others cleared (R1). -/
theorem StationRecord.shown_settled {r : StationRecord} (notFree : r.state ≠ .free)
    (notForming : r.state ≠ .forming) :
    r.shown = { r with
      backlog := if r.state = .active then r.backlog else ClassSet.none
      inFlight := if r.state = .cooling then ClassSet.none else r.inFlight
      ringSlot := if r.state = .active then r.ringSlot else PerClass.const none
      overflow := if r.state = .active then r.overflow else PerClass.const none
      coolCountdown := if r.state = .cooling then r.coolCountdown else 0
      nextInBucket := none, nextFree := none } := by
  cases state : r.state <;> simp_all [StationRecord.shown, StationRecord.cleared]

end Sys2Proof.Machine
end

