-- ==== Sys2Proof/Laws/Line.lean ====
section
/-!
SUPPORT. The line of a class: the slots of the ring's occupied run in order, behind them the overflow
list. The head that advances takes the first of the line away and brings the list's head in at the end; so
the discarding of holes leaves the first station in line at the head (R69, R74).
-/

namespace Sys2Proof.Machine

@[simp] theorem Ring.line_length (r : Ring) : r.line.length = r.occupancy := by simp [Ring.line]

theorem State.firstInLine_eq (s : State) (c : ServiceClass) :
    s.firstInLine c = ((s.ring c).line.findSome? id).or (s.overflowList c).head := by
  simp only [State.firstInLine, Ring.line, List.findSome?_map]
  rfl

theorem Ring.line_head (r : Ring) (occupied : 0 < r.occupancy) :
    r.line.head? = some (r.at r.head) := by
  obtain ⟨n, hn⟩ : ∃ n, r.occupancy = n + 1 := ⟨r.occupancy - 1, by omega⟩
  simp [Ring.line, hn, List.range_succ_eq_map]

/-- The head that advances takes the first slot from the line. -/
theorem Ring.line_advanced (r : Ring) (occupied : 0 < r.occupancy) :
    ({ r.write r.head none with head := r.head + 1 } : Ring).line = r.line.tail := by
  have occ := Ring.advanced_occupancy r occupied
  have small := Ring.occupancy_lt r
  obtain ⟨n, hn⟩ : ∃ n, r.occupancy = n + 1 := ⟨r.occupancy - 1, by omega⟩
  have le : n < 255 := by omega
  simp only [Ring.line, occ, hn, List.range_succ_eq_map, List.map_cons, List.tail_cons, List.map_map,
    Nat.add_sub_cancel]
  refine List.map_congr_left fun k hk => ?_
  have hk' : k < n := List.mem_range.mp hk
  show (r.write r.head none).at (r.head + 1 + BitVec.ofNat 8 k) = r.at (r.head + BitVec.ofNat 8 (k + 1))
  have ne : r.head + 1 + BitVec.ofNat 8 k ≠ r.head := by bv_omega
  have eq : r.head + 1 + BitVec.ofNat 8 k = r.head + BitVec.ofNat 8 (k + 1) := by bv_omega
  rw [Ring.at_write, if_neg ne, eq]

/-- A station written at the tail ends the line. -/
theorem Ring.line_written (r : Ring) (h : Handle) (room : r.occupancy < 255) :
    ({ r.write r.tail (some h) with tail := r.tail + 1 } : Ring).line = r.line ++ [some h] := by
  have occ : ({ r.write r.tail (some h) with tail := r.tail + 1 } : Ring).occupancy =
      r.occupancy + 1 := by
    simp only [Ring.occupancy, Ring.write] at room ⊢
    bv_omega
  simp only [Ring.line, occ, List.range_succ, List.map_append, List.map_cons, List.map_nil]
  congr 1
  · refine List.map_congr_left fun k hk => ?_
    have hk' : k < r.occupancy := List.mem_range.mp hk
    show (r.write r.tail (some h)).at (r.head + BitVec.ofNat 8 k) = r.at (r.head + BitVec.ofNat 8 k)
    have ne : r.head + BitVec.ofNat 8 k ≠ r.tail := by
      simp only [Ring.occupancy] at hk' room
      bv_omega
    rw [Ring.at_write, if_neg ne]
  · show [(r.write r.tail (some h)).at (r.head + BitVec.ofNat 8 r.occupancy)] = [some h]
    have eq : r.head + BitVec.ofNat 8 r.occupancy = r.tail := by
      simp only [Ring.occupancy]
      bv_omega
    rw [eq, Ring.at_write, if_pos rfl]

/-- The head that advances: the first of the line leaves, and the overflow list's head comes in at the
end (R69, R74). -/
theorem ClassView.Sound.advance_line {v : ClassView} {m : List Handle} (law : v.Sound m)
    (occupied : 0 < v.ring.occupancy) :
    v.advance.ring.line = v.ring.line.tail ++ m.head?.toList.map some ∧
      v.advance.list.head = m.tail.head? := by
  have occ := Ring.advanced_occupancy v.ring occupied
  have small := Ring.occupancy_lt v.ring
  have line := Ring.line_advanced v.ring occupied
  have headOf : v.list.head = m.head? := law.head
  have isAt : ∀ h t, m = h :: t → v.place h = some { prev := none, next := t.head? } := by
    rintro h t rfl
    exact ClassView.Sound.place_eq (a := []) (b := t) law
  unfold ClassView.advance
  generalize hr : ({ v.ring.write v.ring.head none with head := v.ring.head + 1 } : Ring) = ring at *
  have room : (v.setRing ring).ring.occupancy < Config.ringFull := by
    show ring.occupancy < 255
    omega
  have head : (v.setRing ring).list.head = m.head? := headOf
  rw [ClassView.promote, if_pos room, head]
  rcases m with _ | ⟨h, t⟩
  · exact ⟨line.trans (by simp), head⟩
  · have place : (v.setRing ring).place h = some { prev := none, next := t.head? } := isAt h t rfl
    simp only [List.head?_cons, place, List.tail_cons, Option.toList_some, List.map_cons, List.map_nil]
    have ringOf : ((v.setRing ring).unlink h { prev := none, next := t.head? }).ring = ring := by
      unfold ClassView.unlink
      cases t.head? <;> rfl
    refine ⟨?_, rfl⟩
    have written := Ring.line_written ring h room
    rw [line] at written
    rw [← written]
    generalize (v.setRing ring).unlink h { prev := none, next := t.head? } = w at ringOf
    rw [← ringOf]
    rfl

/-- A hole that leaves the head of the line leaves its first station. -/
theorem State.firstInLine_advance {s : State} {c : ServiceClass} (law : s.ClassLawful c)
    (occupied : 0 < (s.ring c).occupancy) (hole : (s.ring c).at (s.ring c).head = none) :
    (s.advanceHead c).firstInLine c = s.firstInLine c ∧
      ((s.advanceHead c).ring c).line.count none + 1 = (s.ring c).line.count none := by
  obtain ⟨⟨m, sound⟩, _⟩ := (State.classLawful_iff s c).mp law
  obtain ⟨line, head⟩ := sound.advance_line occupied
  have view : (s.advanceHead c).view c = (s.view c).advance := by
    rw [State.view_advanceHead, if_pos rfl]
  have ringOf : (s.advanceHead c).ring c = (s.view c).advance.ring := congrArg ClassView.ring view
  have listOf : (s.advanceHead c).overflowList c = (s.view c).advance.list :=
    congrArg ClassView.list view
  have first : (s.ring c).line = none :: (s.ring c).line.tail := by
    have hd := Ring.line_head (s.ring c) occupied
    rw [hole] at hd
    cases hl : (s.ring c).line with
    | nil => rw [hl] at hd; simp at hd
    | cons x t =>
      rw [hl, List.head?_cons, Option.some.injEq] at hd
      rw [hd, List.tail_cons]
  have oldList : (s.overflowList c).head = m.head? := sound.head
  have oldRing : (s.view c).ring = s.ring c := rfl
  rw [State.firstInLine_eq, State.firstInLine_eq, ringOf, listOf, line, head, oldRing, oldList]
  constructor
  · rw [first]
    rcases m with _ | ⟨h, t⟩
    · simp
    · simp only [List.tail_cons, List.head?_cons, Option.toList_some, List.map_cons, List.map_nil,
        List.findSome?_append, List.findSome?_cons, id]
      cases List.findSome? id (s.ring c).line.tail <;> simp
  · rw [first, List.tail_cons, List.count_append, List.count_cons_self]
    rcases m with _ | ⟨h, t⟩ <;> simp

/-- Once the holes are discarded, the head holds the first station in line, if there is one; and the line
keeps its first station (R69). -/
theorem State.discardHoles_head (fuel : Nat) {s : State} {c : ServiceClass}
    (law : ∀ d, s.ClassLawful d) (enough : (s.ring c).line.count none < fuel) :
    (State.discardHoles fuel s c).headStation c = s.firstInLine c ∧
      (s.firstInLine c = none → ((State.discardHoles fuel s c).ring c).occupancy = 0) := by
  induction fuel generalizing s with
  | zero => omega
  | succ n ih =>
    unfold State.discardHoles
    by_cases empty : (s.ring c).occupancy = 0
    · rw [if_pos empty]
      have noList : (s.overflowList c).head = none := by
        obtain ⟨m, l⟩ := (law c).list
        have len : m.length = 0 := by
          rw [← l.length]
          apply Nat.eq_zero_of_not_pos
          intro pos
          have := (law c).full pos
          omega
        rw [l.head, List.eq_nil_of_length_eq_zero len]
        rfl
      have line : (s.ring c).line = [] := by simp [Ring.line, empty]
      constructor
      · rw [State.headStation, if_pos empty, State.firstInLine_eq, line, noList]
        rfl
      · exact fun _ => empty
    · rw [if_neg empty]
      have occupied : 0 < (s.ring c).occupancy := Nat.pos_of_ne_zero empty
      cases atHead : (s.ring c).at (s.ring c).head with
      | some h =>
        dsimp only
        have hd := Ring.line_head (s.ring c) occupied
        have first : s.firstInLine c = some h := by
          rw [State.firstInLine_eq]
          cases hl : (s.ring c).line with
          | nil => rw [hl] at hd; simp at hd
          | cons x t =>
            rw [hl, List.head?_cons, Option.some.injEq, atHead] at hd
            simp [hd]
        constructor
        · rw [State.headStation, if_neg empty, atHead, first]
        · intro e
          rw [first] at e
          exact absurd e (by simp)
      | none =>
        dsimp only
        obtain ⟨same, fewer⟩ := State.firstInLine_advance (law c) occupied atHead
        have lawful := State.advanceHead_lawful law occupied atHead
        have := ih lawful (by omega)
        rw [same] at this
        exact this

/-- A pop visit of a lawful class finds at the head the first station in line (R69). -/
theorem State.clearHead_head {s : State} {c : ServiceClass} (law : ∀ d, s.ClassLawful d) :
    (s.clearHead c).headStation c = s.firstInLine c ∧
      (s.firstInLine c = none → ((s.clearHead c).ring c).occupancy = 0) := by
  refine State.discardHoles_head 256 law ?_
  have := List.count_le_length (a := (none : Option Handle)) (l := (s.ring c).line)
  rw [Ring.line_length] at this
  have := Ring.occupancy_lt (s.ring c)
  omega

end Sys2Proof.Machine
end

