-- ==== Sys2Proof/Laws/Lines.lean ====
section
/-!
SUPPORT. What a visit makes of the line of each class (R65 to R74): a re-evaluation ends the line with a
station that has become eligible and takes one that is no longer from it; the discarding of holes leaves
it; and a pop takes its first.
-/

namespace Sys2Proof.Machine

/-! ### The line of a view -/

theorem Ring.stations_eq (r : Ring) : r.stations = r.line.filterMap id := by
  simp only [Ring.stations, Ring.line, List.filterMap_map]
  rfl

/-- The laws of a view, with the stations in line: those of the ring, and behind them the list. -/
def ClassView.Line (v : ClassView) (line : List Handle) : Prop :=
  ∃ m, v.Sound m ∧ v.Tight ∧ line = v.ring.stations ++ m

theorem State.inLine_iff {s : State} {c : ServiceClass} (law : s.ClassLawful c) (line : List Handle) :
    s.InLine c line ↔ (s.view c).Line line := by
  have tight : (s.view c).Tight := law.full
  constructor
  · rintro ⟨m, l, eq, _⟩
    exact ⟨m, ⟨law.slots, law.run, law.single, l.nodup, l.head, l.tail, l.length, l.member, l.linked⟩,
      tight, eq⟩
  · rintro ⟨m, l, _, eq⟩
    refine ⟨m, ⟨l.nodup, l.head, l.tail, l.length, l.member, l.linked⟩, eq, fun some' => tight ?_⟩
    rw [l.length]
    exact List.length_pos_of_ne_nil some'

theorem ClassView.Sound.mem_stations {v : ClassView} {m : List Handle} (law : v.Sound m) (h : Handle) :
    h ∈ v.ring.stations ↔ (v.slot h).isSome = true := by
  simp only [Ring.stations, List.mem_filterMap, List.mem_range]
  constructor
  · rintro ⟨n, _, found⟩
    rw [(law.slots _ _).mp found]
    rfl
  · intro held
    obtain ⟨i, hi⟩ := Option.isSome_iff_exists.mp held
    have found := (law.slots _ _).mpr hi
    refine ⟨(i - v.ring.head).toNat, law.run _ _ found, ?_⟩
    have eq : v.ring.head + BitVec.ofNat 8 (i - v.ring.head).toNat = i := by bv_omega
    rw [eq, found]

theorem ClassView.Sound.nodup_stations {v : ClassView} {m : List Handle} (law : v.Sound m) :
    v.ring.stations.Nodup := by
  unfold Ring.stations List.Nodup
  rw [List.pairwise_filterMap]
  refine List.pairwise_lt_range.imp_of_mem fun {a b} ma mb lt h atA k atB e => ?_
  subst e
  have small := Ring.occupancy_lt v.ring
  have a' := List.mem_range.mp ma
  have b' := List.mem_range.mp mb
  have same := ((law.slots _ _).mp atA).symm.trans ((law.slots _ _).mp atB)
  have eq := Option.some.inj same
  bv_omega

/-- A hole takes its station from those of the ring (R68). -/
theorem ClassView.Sound.stations_makeHole {v : ClassView} {m : List Handle} (law : v.Sound m)
    {h : Handle} {i : BitVec 8} (at_i : v.slot h = some i) :
    (v.ring.write i none).stations = v.ring.stations.erase h := by
  rw [law.nodup_stations.erase_eq_filter]
  unfold Ring.stations
  rw [List.filter_filterMap]
  refine List.filterMap_congr fun n _ => ?_
  show (v.ring.write i none).at (v.ring.head + BitVec.ofNat 8 n) = _
  rw [Ring.at_write]
  have here := (law.slots i h).mpr at_i
  by_cases e : v.ring.head + BitVec.ofNat 8 n = i
  · rw [if_pos e, e, here]
    simp [Option.filter]
  · rw [if_neg e]
    cases found : v.ring.at (v.ring.head + BitVec.ofNat 8 n) with
    | none => rfl
    | some k =>
      have ne : k ≠ h := by
        rintro rfl
        exact e (Option.some.inj (((law.slots _ _).mp found).symm.trans at_i))
      simp [Option.filter, ne]

theorem ClassView.Sound.not_mem {v : ClassView} {m : List Handle} (law : v.Sound m) {h : Handle}
    (out : ¬ v.holds h) : h ∉ v.ring.stations ++ m := by
  rw [List.mem_append, law.mem_stations, law.member]
  exact out

/-- An insertion ends the line (R67, R72). -/
theorem ClassView.Line.insert {v : ClassView} {line : List Handle} (law : v.Line line) {h : Handle}
    (out : ¬ v.holds h) : (v.insert h).Line (line ++ [h]) := by
  obtain ⟨m, sound, tight, rfl⟩ := law
  have small := Ring.occupancy_lt v.ring
  unfold ClassView.insert
  by_cases room : v.ring.occupancy < Config.ringFull
  · rw [if_pos room]
    unfold Config.ringFull at room
    obtain ⟨s1, _, r1⟩ := sound.writeTail out room
    have none' : m = [] := by
      rw [← List.length_eq_zero_iff, ← sound.length]
      apply Nat.eq_zero_of_not_pos
      intro pos
      have := tight pos
      omega
    subst none'
    refine ⟨[], s1, fun pos => ?_, ?_⟩
    · have := tight pos
      omega
    · show _ = ({ v.ring.write v.ring.tail (some h) with tail := v.ring.tail + 1 } : Ring).stations ++ _
      rw [Ring.stations_eq, Ring.stations_eq, Ring.line_written v.ring h room]
      simp
  · rw [if_neg room]
    unfold Config.ringFull at room
    obtain ⟨s1, _, r1⟩ := sound.append out
    refine ⟨m ++ [h], s1, fun _ => ?_, ?_⟩
    · rw [r1]
      omega
    · rw [r1, List.append_assoc]

/-- A hole takes its station from the line, the others keeping their order (R68). -/
theorem ClassView.Line.makeHole {v : ClassView} {line : List Handle} (law : v.Line line) {h : Handle}
    {i : BitVec 8} (at_i : v.slot h = some i) : (v.makeHole h i).Line (line.erase h) := by
  obtain ⟨m, sound, tight, rfl⟩ := law
  obtain ⟨s1, _, r1⟩ := sound.makeHole at_i
  refine ⟨m, s1, fun pos => by rw [r1]; exact tight pos, ?_⟩
  have mem : h ∈ v.ring.stations := (sound.mem_stations h).mpr (by simp [at_i])
  rw [List.erase_append_left _ mem, ← sound.stations_makeHole at_i]
  rfl

/-- An unlinking takes its station from the line, the others keeping their order (R73). -/
theorem ClassView.Line.unlink {v : ClassView} {line : List Handle} (law : v.Line line) {h : Handle}
    {p : OverflowPlace} (isAt : v.place h = some p) : (v.unlink h p).Line (line.erase h) := by
  obtain ⟨m, sound, tight, rfl⟩ := law
  have mem : h ∈ m := (sound.member h).mpr (by simp [isAt])
  have out : h ∉ v.ring.stations := fun x =>
    sound.single h ⟨(sound.mem_stations h).mp x, by simp [isAt]⟩
  obtain ⟨a, b, rfl⟩ := List.append_of_mem mem
  obtain ⟨s1, _, r1⟩ := sound.unlink isAt
  have notA : h ∉ a := by
    have := sound.nodup
    rw [List.nodup_append] at this
    exact fun x => this.2.2 h x h (List.mem_cons_self ..) rfl
  refine ⟨a ++ b, s1, fun pos => ?_, ?_⟩
  · rw [r1]
    exact tight (by rw [sound.length]; simp)
  · rw [r1, List.erase_append_right _ out, List.erase_append_right _ notA, List.erase_cons_head]

/-- What re-evaluation makes of a class's view: the table of R65. -/
def ClassView.settle (v : ClassView) (h : Handle) (eligible : Bool) : ClassView :=
  if eligible then
    if (v.slot h).isNone && (v.place h).isNone then v.insert h else v
  else
    match v.slot h with
    | some i => v.makeHole h i
    | none =>
      match v.place h with
      | some p => v.unlink h p
      | none => v

/-- A re-evaluation that finds the station eligible ends the line with it where it held no place, and one
that finds it ineligible takes it from the line (R65, R67, R68, R72, R73). -/
theorem ClassView.Line.settle {v : ClassView} {line : List Handle} (law : v.Line line) (h : Handle)
    (eligible : Bool) :
    (v.settle h eligible).Line
      (if eligible then if h ∈ line then line else line ++ [h] else line.erase h) := by
  have memIff : h ∈ line ↔ v.holds h := by
    obtain ⟨m, sound, _, rfl⟩ := law
    rw [List.mem_append, sound.mem_stations, sound.member]
    rfl
  unfold ClassView.settle
  cases eligible with
  | true =>
    simp only [if_true]
    by_cases free : ((v.slot h).isNone && (v.place h).isNone) = true
    · have out : ¬ v.holds h := by
        simp only [Bool.and_eq_true, Option.isNone_iff_eq_none] at free
        simp [ClassView.holds, free]
      rw [if_pos free, if_neg (memIff.not.mpr out)]
      exact law.insert out
    · have held : v.holds h := by
        unfold ClassView.holds
        cases hs : v.slot h <;> cases hp : v.place h <;> simp [hs, hp] at free ⊢
      rw [if_neg free, if_pos (memIff.mpr held)]
      exact law
  | false =>
    simp only [Bool.false_eq_true, if_false]
    cases hs : v.slot h with
    | some i => exact law.makeHole hs
    | none =>
      cases hp : v.place h with
      | some p => exact law.unlink hp
      | none =>
        have out : h ∉ line := memIff.not.mpr (by simp [ClassView.holds, hs, hp])
        simpa [List.erase_of_not_mem out] using law

theorem State.view_placeStation (s : State) (h : Handle) (c : ServiceClass) :
    (s.placeStation h c).view c = (s.view c).settle h ((s.station h).eligible c) := by
  have slot : (s.view c).slot h = (s.station h).ringSlot.get c := rfl
  have place : (s.view c).place h = (s.station h).overflow.get c := rfl
  unfold State.placeStation ClassView.settle
  dsimp only
  rw [slot, place]
  split
  · split
    · rw [State.view_insertStation, if_pos rfl]
    · rfl
  · cases (s.station h).ringSlot.get c with
    | some i => exact (State.view_makeHole s c c h i).trans (if_pos rfl)
    | none =>
      cases (s.station h).overflow.get c with
      | some p => exact (State.view_unlinkOverflow s c c h p).trans (if_pos rfl)
      | none => rfl

theorem State.view_reevaluateIn (s : State) (h : Handle) (before : StationRecord) (c d : ServiceClass) :
    (s.reevaluateIn h before c).view d =
      if d = c then (s.view c).settle h ((s.station h).eligible c) else s.view d := by
  by_cases q : d = c
  · subst q
    rw [if_pos rfl, State.reevaluateIn, State.view_placeStation, State.view_adjustWaiting]
    rfl
  · rw [if_neg q]
    exact (State.reevaluateIn_other s h before q).1

/-- A re-evaluation settles the station's place in every class (R65). -/
theorem State.view_reevaluate (s : State) (h : Handle) (before : StationRecord) (c : ServiceClass) :
    (s.reevaluate h before).view c = (s.view c).settle h ((s.station h).eligible c) := by
  have elig : ∀ (u : State) (d e : ServiceClass),
      ((u.reevaluateIn h before d).station h).eligible e = (u.station h).eligible e :=
    fun u d e => State.eligible_of_frame (State.reevaluateIn_frame u h before d) h e
  unfold State.reevaluate
  cases c <;> simp [State.view_reevaluateIn, elig]

/-- A visit that writes its record back settles the station's place in every class, by the record it writes
(R16, R65). -/
theorem State.view_writeBack {s : State} {c : ServiceClass} (law : s.ClassLawful c) {h : Handle}
    {r : StationRecord} (slot : r.ringSlot = (s.station h).ringSlot)
    (place : r.overflow = (s.station h).overflow) :
    (s.writeBack h r).view c = (s.view c).settle h (r.eligible c) := by
  have view := State.view_setStation s h r c (by rw [slot]) (by rw [place])
  unfold State.writeBack
  split
  · next same =>
    obtain ⟨e, _⟩ := sameInputs_eligible same c
    rw [view, ← e]
    have slotOf : (s.view c).slot h = (s.station h).ringSlot.get c := rfl
    have placeOf : (s.view c).place h = (s.station h).overflow.get c := rfl
    have holds := law.places h
    unfold ClassView.settle
    rw [slotOf, placeOf]
    cases hs : (s.station h).ringSlot.get c <;> cases hp : (s.station h).overflow.get c <;>
      cases he : (s.station h).eligible c <;> simp_all
  · rw [State.view_reevaluate, State.station_setStation_same, view]

/-- The line of each class after a visit that writes its record back (R16, R65). -/
theorem State.inLine_writeBack {s : State} (law : ∀ c, s.ClassLawful c) {h : Handle}
    {r : StationRecord} (slot : r.ringSlot = (s.station h).ringSlot)
    (place : r.overflow = (s.station h).overflow) {c : ServiceClass} {line : List Handle}
    (inLine : s.InLine c line) :
    (s.writeBack h r).InLine c
      (if r.eligible c then if h ∈ line then line else line ++ [h] else line.erase h) := by
  rw [State.inLine_iff (State.writeBack_lawful law slot place c), State.view_writeBack (law c) slot place]
  exact ((State.inLine_iff (law c) line).mp inLine).settle h _

/-! ### The line under pops -/

theorem Ring.stations_head {r : Ring} (occupied : 0 < r.occupancy) :
    r.stations = (r.at r.head).toList ++ (r.line.tail).filterMap id := by
  have hd := Ring.line_head r occupied
  rw [Ring.stations_eq]
  cases hl : r.line with
  | nil => rw [hl] at hd; simp at hd
  | cons x t =>
    rw [hl, List.head?_cons, Option.some.injEq] at hd
    subst hd
    cases r.at r.head <;> simp

/-- The head that advances takes what it held from the line; a station of the list moves into the ring, in
its place in line (R69, R74). -/
theorem ClassView.Sound.stations_advance {v : ClassView} {m : List Handle} (law : v.Sound m)
    (occupied : 0 < v.ring.occupancy) :
    v.ring.stations ++ m = (v.ring.at v.ring.head).toList ++ (v.advance.ring.stations ++ m.tail) := by
  rw [Ring.stations_head occupied, Ring.stations_eq v.advance.ring, (law.advance_line occupied).1]
  cases m <;> simp

/-- A hole that leaves the head leaves the line (R69). -/
theorem ClassView.Line.advance {v : ClassView} {line : List Handle} (law : v.Line line)
    (occupied : 0 < v.ring.occupancy) (hole : v.ring.at v.ring.head = none) : v.advance.Line line := by
  obtain ⟨m, sound, tight, rfl⟩ := law
  obtain ⟨s1, t1, _⟩ := sound.advance tight occupied hole
  refine ⟨m.tail, s1, t1, ?_⟩
  rw [sound.stations_advance occupied, hole]
  rfl

/-- A pop takes the first of the line (R69). -/
theorem ClassView.Line.pop {v : ClassView} {line : List Handle} (law : v.Line line)
    (occupied : 0 < v.ring.occupancy) {h : Handle} (atHead : v.ring.at v.ring.head = some h) :
    ∃ rest, line = h :: rest ∧ (v.advance.setSlot h none).Line rest := by
  obtain ⟨m, sound, tight, rfl⟩ := law
  obtain ⟨s1, t1, _⟩ := sound.pop tight occupied atHead
  refine ⟨v.advance.ring.stations ++ m.tail, ?_, m.tail, s1, t1, rfl⟩
  rw [sound.stations_advance occupied, atHead]
  rfl

theorem State.inLine_discardHoles (fuel : Nat) {s : State} {c : ServiceClass}
    (law : ∀ d, s.ClassLawful d) {d : ServiceClass} {line : List Handle} (inLine : s.InLine d line) :
    (State.discardHoles fuel s c).InLine d line := by
  induction fuel generalizing s with
  | zero => exact inLine
  | succ n ih =>
    unfold State.discardHoles
    split
    · exact inLine
    · next occ =>
      split
      · exact inLine
      · next hole =>
        have occupied := Nat.pos_of_ne_zero occ
        have lawful := State.advanceHead_lawful law occupied hole
        refine ih lawful ?_
        rw [State.inLine_iff (lawful d), State.view_advanceHead]
        have before := (State.inLine_iff (law d) line).mp inLine
        by_cases q : d = c
        · subst q
          rw [if_pos rfl]
          exact before.advance occupied hole
        · rw [if_neg q]
          exact before

/-- The discarding of holes leaves every line (R69). -/
theorem State.inLine_clearHead {s : State} {c : ServiceClass} (law : ∀ d, s.ClassLawful d)
    {d : ServiceClass} {line : List Handle} (inLine : s.InLine d line) :
    (s.clearHead c).InLine d line := State.inLine_discardHoles 256 law inLine

/-- A pop takes the first of its class's line and leaves the others (R69, R74). -/
theorem State.inLine_popHead {s : State} {c : ServiceClass} (law : ∀ d, s.ClassLawful d) {h : Handle}
    (head : s.headStation c = some h) {d : ServiceClass} {line : List Handle}
    (inLine : s.InLine d line) :
    if d = c then ∃ rest, line = h :: rest ∧ (s.popHead c h).InLine d rest
    else (s.popHead c h).InLine d line := by
  have before := (State.inLine_iff (law d) line).mp inLine
  have after := State.inLine_iff (State.popHead_lawful law head d)
  simp only [after, State.view_popHead]
  by_cases q : d = c
  · subst q
    simp only [if_true]
    unfold State.headStation at head
    split at head
    · exact absurd head (by simp)
    · next occ => exact before.pop (Nat.pos_of_ne_zero occ) head
  · simp only [q, if_false]
    exact before

/-- Discarding the holes of a class in which no station stands in line brings the head to the tail, and
changes nothing else (R69). -/
theorem State.discardHoles_none (fuel : Nat) {s : State} {c : ServiceClass} (law : ∀ d, s.ClassLawful d)
    (enough : (s.ring c).occupancy < fuel) (noStation : s.firstInLine c = none) :
    State.discardHoles fuel s c = s.setRing c { s.ring c with head := (s.ring c).tail } := by
  induction fuel generalizing s with
  | zero => omega
  | succ n ih =>
    unfold State.discardHoles
    by_cases empty : (s.ring c).occupancy = 0
    · rw [if_pos empty]
      have : (s.ring c).tail = (s.ring c).head := by
        simp only [Ring.occupancy] at empty; bv_omega
      rw [this]
      cases c <;> rfl
    · rw [if_neg empty]
      have occ := Nat.pos_of_ne_zero empty
      have first := State.firstInLine_eq s c
      rw [noStation] at first
      have hole : (s.ring c).at (s.ring c).head = none := by
        have hd := Ring.line_head (s.ring c) occ
        cases hl : (s.ring c).line with
        | nil => rw [hl] at hd; simp at hd
        | cons x t =>
          rw [hl, List.head?_cons, Option.some.injEq] at hd
          rw [hl] at first
          cases x with
          | none => exact hd.symm
          | some k => simp at first
      have nolist : (s.overflowList c).head = none := by
        cases hd : (s.overflowList c).head with
        | none => rfl
        | some k =>
          rw [hd] at first
          cases found : List.findSome? id (s.ring c).line <;> simp [found] at first
      rw [hole]
      dsimp only
      have adv : s.advanceHead c = s.setRing c { s.ring c with head := (s.ring c).head + 1 } := by
        have w : (s.ring c).write (s.ring c).head none = s.ring c := by
          have hat : (s.ring c).slots[(s.ring c).head.toFin.val] = none := hole
          simp only [Ring.write, ← hat, Vector.set_getElem_self]
        unfold State.advanceHead
        dsimp only
        rw [w]
        unfold State.promote
        have l : ((s.setRing c { s.ring c with head := (s.ring c).head + 1 }).overflowList c).head = none := nolist
        rw [l]
        split <;> rfl
      have lawful := State.advanceHead_lawful law occ hole
      have fst := (State.firstInLine_advance (law c) occ hole).1
      have occ' := Ring.advanced_occupancy (s.ring c) occ
      rw [adv] at lawful fst ⊢
      rw [ih lawful ?_ (fst.trans noStation)]
      · rw [State.ring_setRing, if_pos rfl]
        cases c <;> rfl
      · rw [State.ring_setRing, if_pos rfl]
        have same : ({ s.ring c with head := (s.ring c).head + 1 } : Ring).occupancy =
            (s.ring c).occupancy - 1 := occ'
        rw [same]
        omega

/-- A pop visit of a class in which no station stands in line finds an empty ring, and changes nothing but
its head (R69). -/
theorem State.clearHead_none {s : State} {c : ServiceClass} (law : ∀ d, s.ClassLawful d)
    (noStation : s.firstInLine c = none) :
    s.clearHead c = s.setRing c { s.ring c with head := (s.ring c).tail } :=
  State.discardHoles_none 256 law (Ring.occupancy_lt _) noStation

/-! ### The slots that leave a ring at its head -/

/-- The ends of the run after the head has advanced: the tail advances for a station promoted (R69, R74). -/
theorem ClassView.Sound.advance_ends {v : ClassView} {m : List Handle} (law : v.Sound m)
    (occupied : 0 < v.ring.occupancy) :
    v.advance.ring.head = v.ring.head + 1 ∧
      v.advance.ring.tail = v.ring.tail + BitVec.ofNat 8 (m.take 1).length := by
  have occ := Ring.advanced_occupancy v.ring occupied
  have small := Ring.occupancy_lt v.ring
  have headOf : v.list.head = m.head? := law.head
  have isAt : ∀ h t, m = h :: t → v.place h = some { prev := none, next := t.head? } := by
    rintro h t rfl
    exact ClassView.Sound.place_eq (a := []) (b := t) law
  unfold ClassView.advance
  generalize hr : ({ v.ring.write v.ring.head none with head := v.ring.head + 1 } : Ring) = ring at *
  have room : (v.setRing ring).ring.occupancy < Config.ringFull := by
    show ring.occupancy < 255
    omega
  have head : (v.setRing ring).list.head = m.head? := headOf
  have ends : ring.head = v.ring.head + 1 ∧ ring.tail = v.ring.tail := by subst hr; exact ⟨rfl, rfl⟩
  rw [ClassView.promote, if_pos room, head]
  rcases m with _ | ⟨h, t⟩
  · exact ⟨ends.1, by simp [ClassView.setRing, ends.2]⟩
  · have place : (v.setRing ring).place h = some { prev := none, next := t.head? } :=
      isAt h t rfl
    simp only [List.head?_cons, place]
    have ringOf : ((v.setRing ring).unlink h { prev := none, next := t.head? }).ring = ring := by
      unfold ClassView.unlink
      cases t.head? <;> rfl
    generalize (v.setRing ring).unlink h { prev := none, next := t.head? } = w at ringOf
    constructor
    · show w.ring.head = _
      rw [ringOf, ends.1]
    · show w.ring.tail + 1 = _
      rw [ringOf, ends.2]
      simp

/-- A view whose head goes past one slot, as a state's (R69, R74). -/
theorem State.HeadAdvances.one {s t : State} {c : ServiceClass} (law : s.ClassLawful c)
    (after : t.ClassLawful c) (occupied : 0 < (s.ring c).occupancy)
    (ring : t.ring c = (s.view c).advance.ring)
    (listed : ∀ m, (s.view c).Sound m → t.ListedAs c m.tail) : s.HeadAdvances t c 1 := by
  have sound : ∀ m, s.ListedAs c m → (s.view c).Sound m := fun m l =>
    ⟨law.slots, law.run, law.single, l.nodup, l.head, l.tail, l.length, l.member, l.linked⟩
  obtain ⟨m₀, l₀⟩ := law.list
  refine ⟨?_, fun m l => ?_, after.slots⟩
  · rw [ring]
    exact ((sound _ l₀).advance_ends occupied).1
  · have line := ((sound m l).advance_line occupied).1
    have same : (t.ring c).line = ((s.ring c).line ++ (m.take 1).map some).drop 1 := by
      have first := Ring.line_head (s.ring c) occupied
      rw [ring, line]
      show (s.ring c).line.tail ++ _ = _
      cases hl : (s.ring c).line with
      | nil => rw [hl] at first; simp at first
      | cons x r => cases m <;> simp
    refine ⟨by rw [List.drop_one]; exact listed m (sound m l), ?_, ?_, same⟩
    · rw [ring]
      exact ((sound m l).advance_ends occupied).2
    · have len := congrArg List.length same
      simp only [Ring.line_length, List.length_drop, List.length_append, List.length_map] at len
      omega

theorem State.HeadAdvances.zero {s : State} {c : ServiceClass} (law : s.ClassLawful c) :
    s.HeadAdvances s c 0 :=
  ⟨by simp, fun m l => ⟨by simpa using l, by simp, by simp, by simp⟩, law.slots⟩

theorem State.HeadAdvances.trans {s t u : State} {c : ServiceClass} {n k : Nat}
    (first : s.HeadAdvances t c n) (second : t.HeadAdvances u c k) : s.HeadAdvances u c (n + k) := by
  refine ⟨?_, fun m l => ?_, second.slots⟩
  · rw [second.head, first.head]
    bv_omega
  · obtain ⟨l1, tail1, occ1, line1⟩ := first.promoted m l
    obtain ⟨l2, tail2, occ2, line2⟩ := second.promoted _ l1
    have taken : m.take (n + k) = m.take n ++ (m.drop n).take k := List.take_add
    have len : (m.take (n + k)).length = (m.take n).length + ((m.drop n).take k).length := by
      rw [taken, List.length_append]
    refine ⟨by rw [← List.drop_drop]; exact l2, ?_, ?_, ?_⟩
    · rw [tail2, tail1, len]
      bv_omega
    · omega
    · have le : n ≤ ((s.ring c).line ++ (m.take n).map some).length := by
        rw [List.length_append, List.length_map, Ring.line_length]
        omega
      rw [line2, line1, taken, List.map_append, ← List.append_assoc, ← List.drop_drop,
        List.drop_append_of_le_length le]

/-- What does not touch records, rings and lists leaves how far the head has gone. -/
theorem State.HeadAdvances.ofRings {s t u : State} {c : ServiceClass} {n : Nat} (law : s.HeadAdvances t c n)
    (stations : u.stations = t.stations) (rings : u.rings = t.rings) (lists : u.overflows = t.overflows) :
    s.HeadAdvances u c n := by
  have ring : u.ring c = t.ring c := by simp only [State.ring, rings]
  have list : u.overflowList c = t.overflowList c := by simp only [State.overflowList, lists]
  have record : ∀ h, u.station h = t.station h := fun h => by simp only [State.station, stations]
  have place : u.placeOf c = t.placeOf c := by funext h; simp only [State.placeOf, record]
  refine ⟨by rw [ring]; exact law.head, fun m l => ?_, fun i h => by rw [ring, record]; exact law.slots i h⟩
  obtain ⟨listed, rest⟩ := law.promoted m l
  rw [ring]
  refine ⟨⟨listed.nodup, ?_, ?_, ?_, fun h => ?_, ?_⟩, rest⟩
  · rw [list]; exact listed.head
  · rw [list]; exact listed.tail
  · rw [list]; exact listed.length
  · rw [place]; exact listed.member h
  · rw [place]; exact listed.linked

/-- The head that passes a hole (R69, R74). -/
theorem State.advanceHead_advances {s : State} {c : ServiceClass} (law : ∀ d, s.ClassLawful d)
    (occupied : 0 < (s.ring c).occupancy) (hole : (s.ring c).at (s.ring c).head = none) :
    s.HeadAdvances (s.advanceHead c) c 1 := by
  have view := State.view_advanceHead s c c
  rw [if_pos rfl] at view
  refine .one (law c) (State.advanceHead_lawful law occupied hole c) occupied
    (congrArg ClassView.ring view) fun m sound => ?_
  obtain ⟨a, _⟩ := sound.advance (law c).full occupied hole
  rw [← view] at a
  exact ⟨a.nodup, a.head, a.tail, a.length, a.member, a.linked⟩

/-- The discarding of holes takes the head past the holes ahead, and no further (R69). -/
theorem State.discardHoles_advances (fuel : Nat) {s : State} {c : ServiceClass}
    (law : ∀ d, s.ClassLawful d) (enough : (s.ring c).holesAhead < fuel) :
    s.HeadAdvances (State.discardHoles fuel s c) c (s.ring c).holesAhead := by
  induction fuel generalizing s with
  | zero => omega
  | succ n ih =>
    unfold State.discardHoles
    by_cases empty : (s.ring c).occupancy = 0
    · have none' : (s.ring c).holesAhead = 0 := by simp [Ring.holesAhead, Ring.line, empty]
      rw [if_pos empty, none']
      exact .zero (law c)
    · rw [if_neg empty]
      have occupied := Nat.pos_of_ne_zero empty
      have first := Ring.line_head (s.ring c) occupied
      cases atHead : (s.ring c).at (s.ring c).head with
      | some h =>
        have none' : (s.ring c).holesAhead = 0 := by
          unfold Ring.holesAhead
          cases hl : (s.ring c).line with
          | nil => rfl
          | cons x t =>
            rw [hl, List.head?_cons, Option.some.injEq, atHead] at first
            simp [first]
        rw [none']
        exact .zero (law c)
      | none =>
        dsimp only
        have lawful := State.advanceHead_lawful law occupied atHead
        have step := State.advanceHead_advances law occupied atHead
        have one : (s.ring c).holesAhead = 1 + ((s.advanceHead c).ring c).holesAhead := by
          obtain ⟨m, l⟩ := (law c).list
          unfold Ring.holesAhead
          rw [(step.promoted m l).2.2.2]
          cases hl : (s.ring c).line with
          | nil => rw [hl] at first; simp at first
          | cons x t =>
            rw [hl, List.head?_cons, Option.some.injEq, atHead] at first
            subst first
            cases m with
            | nil => simp [Nat.add_comm]
            | cons k r =>
              have : ∀ t : List (Option Handle),
                  (t ++ [some k]).takeWhile (·.isNone) = t.takeWhile (·.isNone) := fun t => by
                induction t with
                | nil => rfl
                | cons y t ih => cases y <;> simp [ih]
              simp [this, Nat.add_comm]
        rw [one]
        exact step.trans (ih lawful (by omega))

/-- The discarding of holes at the start of a pop visit (R69). -/
theorem State.clearHead_advances {s : State} {c : ServiceClass} (law : ∀ d, s.ClassLawful d) :
    s.HeadAdvances (s.clearHead c) c (s.ring c).holesAhead := by
  refine State.discardHoles_advances 256 law ?_
  have := (List.takeWhile_prefix (p := (·.isNone)) (l := (s.ring c).line)).length_le
  rw [Ring.line_length] at this
  have := Ring.occupancy_lt (s.ring c)
  unfold Ring.holesAhead
  omega

/-- The discarding of holes leaves the other classes (R69). -/
theorem State.view_clearHead_ne (s : State) {c d : ServiceClass} (ne : d ≠ c) :
    (s.clearHead c).view d = s.view d := by
  have all : ∀ (fuel : Nat) (u : State), (State.discardHoles fuel u c).view d = u.view d := by
    intro fuel
    induction fuel with
    | zero => exact fun _ => rfl
    | succ n ih =>
      intro u
      unfold State.discardHoles
      split
      · rfl
      · split
        · rfl
        · rw [ih, State.view_advanceHead, if_neg ne]
  exact all 256 s

/-- A pop takes the head past the slot of the station popped (R69, R74). -/
theorem State.popHead_advances {s : State} {c : ServiceClass} (law : ∀ d, s.ClassLawful d) {h : Handle}
    (head : s.headStation c = some h) : s.HeadAdvances (s.popHead c h) c 1 := by
  have view := State.view_popHead s c h c
  rw [if_pos rfl] at view
  have found := head
  unfold State.headStation at found
  split at found
  · exact absurd found (by simp)
  · next occ =>
    have occupied := Nat.pos_of_ne_zero occ
    refine .one (law c) (State.popHead_lawful law head c) occupied (congrArg ClassView.ring view)
      fun m sound => ?_
    obtain ⟨a, _⟩ := sound.pop (law c).full occupied found
    rw [← view] at a
    exact ⟨a.nodup, a.head, a.tail, a.length, a.member, a.linked⟩

/-- The first station in line popped once the holes ahead of it are discarded: the head goes past them and
past its slot (R69, R74). -/
theorem State.popFirst_advances {s : State} {c : ServiceClass} (law : ∀ d, s.ClassLawful d) {h : Handle}
    (first : s.firstInLine c = some h) :
    s.HeadAdvances ((s.clearHead c).popHead c h) c ((s.ring c).holesAhead + 1) :=
  (State.clearHead_advances law).trans
    (State.popHead_advances (State.clearHead_lawful c law) ((State.clearHead_head law).1.trans first))

end Sys2Proof.Machine
end

