-- ==== Sys2Proof/Laws/Steps.lean ====
section
/-!
SUPPORT. What one step can do to the tables, said once: a predicate that is kept by each of the works
listed in `Kept`, and that does not see the port, the link's queues, time, the walker, counters or flags,
is kept by every step.
-/

namespace Sys2Proof.Machine

/-! ### The part of the state that the tables are in -/

/-- The state without the command queue, the pins and the port, the request and response queues, the
arbiter's waiting visits, time, the walker, the link and its queues, counters and flags. -/
def State.core (s : State) : State :=
  { s with
    pending := [], resetLow := false, csLow := false, port := .idle, spiOut := [], requests := []
    responses := [], tablePort := PortAsks.none, dueExpiries := [], timebase := 0, walker := Walker.held
    linkUp := false, inbound := [], outbound := [], lkoSent := [], counters := Counters.zero
    flags := Flags.clear }

/-- What a request has in hand right after its start. -/
def Execution.Started : Execution → Prop
  | .admitAllocate _ _ => True
  | .amend _ f _ => ∃ p, f = amendOf p
  | .reapplyRead _ => True
  | .retire _ => True
  | .find _ => True
  | .query _ => True
  | .list _ _ _ => True
  | .idle => False
  | .admitComplete _ _ _ => False
  | .reapplyApply _ _ => False
  | .clearRelease => False
  | .clearRecords _ => False

/-- A request other than TABLE_CLEAR executes. -/
def Execution.Plain : Execution → Prop
  | .clearRelease => False
  | .clearRecords _ => False
  | .idle => True
  | .admitAllocate _ _ => True
  | .admitComplete _ _ _ => True
  | .amend _ _ _ => True
  | .reapplyRead _ => True
  | .reapplyApply _ _ => True
  | .retire _ => True
  | .find _ => True
  | .query _ => True
  | .list _ _ _ => True

/-- The works of the part, each with what holds when it is made: the predicate `P` is kept by each of
them on the states in which `B` holds. -/
structure Kept (B P : State → Prop) : Prop where
  quietB : ∀ s t : State, t.core = s.core → B s → B t
  quiet : ∀ s t : State, t.core = s.core → P s → P t
  reset : P State.reset
  -- requests
  ended : ∀ s : State, B s → P s → s.executing.Plain → (∀ h r c, s.executing ≠ .admitComplete h r c) →
    P { s with executing := .idle }
  started : ∀ (s : State) (e : Execution), B s → P s → s.executing = .idle → e.Started →
    P { s with executing := e }
  ruled : ∀ (s : State) (n : Nat) (lt : n < 64) (coded : List Byte), B s → P s →
    P { s with rules := s.rules.set n (ruleOf coded) }
  written : ∀ (s : State) (v : Word) (i : SettingItem), B s → P s →
    P { s with settings := s.settings.write v i }
  clearing : ∀ s : State, B s → P s → s.executing = .idle →
    P { s with clearing := true, releaseDue := true, executing := .clearRelease }
  allocated : ∀ (s : State) (d : Descriptor) (clamped : Bool) (h : Handle), B s → P s →
    s.executing = .admitAllocate d clamped → s.probe d.linkAddress = none → s.freeHead = some h →
    P { (s.takeFree h).changeStation h fun r => { r with state := .forming, descriptor := d } with
        executing := .admitComplete h (classify s.classPolicy d).1 clamped }
  completed : ∀ (s : State) (h : Handle) (result : ClassResult) (clamped : Bool), B s → P s →
    s.executing = .admitComplete h result clamped → result.outcome = .accept →
    P { (s.writeBack h (admitted (s.station h) s.settings result)).enterIndex h with executing := .idle }
  denied : ∀ (s : State) (h : Handle) (result : ClassResult) (clamped : Bool), B s → P s →
    s.executing = .admitComplete h result clamped → P { s.freeAtHead h with executing := .idle }
  amended : ∀ (s : State) (h : Handle) (f : AmendFields) (clamped : Bool), B s → P s →
    s.executing = .amend h f clamped → (s.station h).associated = true →
    P { s.writeBack h ((s.station h).amended f) with executing := .idle }
  reread : ∀ (s : State) (h : Handle), B s → P s → s.executing = .reapplyRead h →
    (s.station h).associated = true →
    P { s with executing := .reapplyApply h (classify s.classPolicy (s.station h).descriptor).1 }
  reapplied : ∀ (s : State) (h : Handle) (result : ClassResult), B s → P s →
    s.executing = .reapplyApply h result →
    P { s.writeBack h { s.station h with profile := result.profile, trace := result.trace } with
        executing := .idle }
  retired : ∀ (s : State) (h : Handle), B s → P s → s.executing = .retire h →
    (s.station h).associated = true →
    P { (s.leaveIndex h).writeBack h (((s.leaveIndex h).station h).retired s.settings.coolEpochs) with
        executing := .idle }
  listed : ∀ (s : State) (states : BitVec 6) (h next : Handle) (found more : List Handle), B s → P s →
    s.executing = .list states h found → P { s with executing := .list states next more }
  cleared : ∀ (s : State) (h next : Handle), B s → P s → s.executing = .clearRecords h →
    next.val = h.val + 1 → P { s.clearRecord h with executing := .clearRecords next }
  clearEnded : ∀ (s : State) (h : Handle), B s → P s → s.executing = .clearRecords h → h.val = 511 →
    P { (s.clearRecord h).resetRings with clearing := false, executing := .idle }
  -- the engine's items
  taken : ∀ (s : State) (e : EngineItem), B s → P s → s.engine = .idle →
    ((∃ m, e = .answer m) ∨ (∃ b, e = .backlog b) ∨ (∃ h a, e = .uplink h a)) → P { s with engine := e }
  asked : ∀ (s : State) (a : AskFields), B s → P s → s.engine = .idle → s.clearing = false →
    s.lowestFreeEntry ≠ none → P { s with engine := .askFirst a }
  judged : ∀ (s : State) (id : AwardId) (airtime : Nat) (entries : List DoneEntry) (w : OpenAward),
    B s → P s → s.engine = .idle → (s.entry id).award = some w → entries.length = w.members.length →
    P { s with engine := .done id airtime (doneWork w.members entries) }
  expired : ∀ (s : State) (id : AwardId) (w : OpenAward), B s → P s → s.engine = .idle →
    (s.entry id).award = some w → P { s with engine := .expiry id w.heldHandles }
  restarted : ∀ (s : State) (tag : Byte), B s → P s → s.engine = .idle →
    P { s with engine :=
          if s.openMembers = [] then .restartBacklog tag 0 else .restartRelease tag s.openMembers }
  released : ∀ s : State, B s → P s → s.engine = .idle → s.releaseDue = true →
    P (if s.openMembers = [] then { s with releaseDue := false }.releaseDone
       else { s with releaseDue := false, engine := .clearRelease s.openMembers })
  sent : ∀ (s : State) (m : OutMessage), B s → P s → s.engine = .answer m → P { s with engine := .idle }
  -- the engine's visits
  declined : ∀ (s : State) (a : AskFields) (m : OutMessage), B s → P s → s.engine = .askFirst a →
    (s.clearHead a.cls).headStation a.cls = none → P { s.clearHead a.cls with engine := .answer m }
  unclaimed : ∀ (s : State) (a : AskFields) (h : Handle), B s → P s → s.engine = .askFirst a →
    (s.clearHead a.cls).headStation a.cls = some h → s.lowestFreeEntry = none → P (s.clearHead a.cls)
  claimed : ∀ (s : State) (defers : Bool) (a : AskFields) (h : Handle) (id : AwardId), B s → P s →
    s.engine = .askFirst a → (s.clearHead a.cls).headStation a.cls = some h →
    s.lowestFreeEntry = some id → P ((s.clearHead a.cls).popFirst defers a id h)
  selected : ∀ (s : State) (defers : Bool) (a : AskFields) (id : AwardId) (allowances : List Int), B s →
    P s → s.engine = .askMore a id allowances →
    P ((s.clearHead a.cls).endSelection defers a id allowances)
  joined : ∀ (s : State) (defers : Bool) (a : AskFields) (id : AwardId) (allowances : List Int)
    (h : Handle), B s → P s → s.engine = .askMore a id allowances →
    (s.clearHead a.cls).headStation a.cls = some h →
    P ((s.clearHead a.cls).popFurther defers a id allowances h)
  issued : ∀ (s : State) (a : AskFields) (id : AwardId) (allowances : List Int) (w : OpenAward)
    (e : EngineItem), B s → P s → s.engine = .issuing a id allowances → (s.entry id).award = some w →
    (e = .idle ∨ ∃ m, e = .answer m) → P { s.issueAward a id allowances with engine := e }
  doneVisited : ∀ (s : State) (id : AwardId) (airtime : Nat) (m : DoneWork) (rest : List DoneWork)
    (w : OpenAward), B s → P s → s.engine = .done id airtime (m :: rest) →
    (s.entry id).award = some w →
    P { s.doneMember id w airtime m.handle m.entry with
        engine := if rest = [] then .idle else .done id airtime rest }
  doneEnded : ∀ (s : State) (id : AwardId) (airtime : Nat) (work : List DoneWork), B s → P s →
    s.engine = .done id airtime work → work = [] ∨ (s.entry id).award = none →
    P { s with engine := .idle }
  expiryVisited : ∀ (s : State) (id : AwardId) (h : Handle) (rest : List Handle) (w : OpenAward)
    (i : Issue), B s → P s → s.engine = .expiry id (h :: rest) → (s.entry id).award = some w →
    w.issue = some i →
    P { s.expiryMember id w i h with engine := if rest = [] then .idle else .expiry id rest }
  expiryEnded : ∀ (s : State) (id : AwardId) (work : List Handle), B s → P s →
    s.engine = .expiry id work →
    (work = [] ∨ (s.entry id).award = none ∨ ∃ w, (s.entry id).award = some w ∧ w.issue = none) →
    P { s with engine := .idle }
  clearReleased : ∀ (s : State) (m : ReleaseWork) (rest : List ReleaseWork), B s → P s →
    s.engine = .clearRelease (m :: rest) →
    P (if rest = [] then (s.releaseOne m false).releaseDone
       else { s.releaseOne m false with engine := .clearRelease rest })
  clearReleaseEnded : ∀ s : State, B s → P s → s.engine = .clearRelease [] → P s.releaseDone
  restartReleased : ∀ (s : State) (tag : Byte) (m : ReleaseWork) (rest : List ReleaseWork), B s → P s →
    s.engine = .restartRelease tag (m :: rest) →
    P { s.releaseOne m true with
        engine := if rest = [] then .restartBacklog tag 0 else .restartRelease tag rest }
  restartReleaseEnded : ∀ (s : State) (tag : Byte), B s → P s → s.engine = .restartRelease tag [] →
    P { s with engine := .restartBacklog tag 0 }
  reported : ∀ (s : State) (e : BacklogEntry) (rest : List BacklogEntry), B s → P s →
    s.engine = .backlog (e :: rest) →
    P { s.backlogEntry e with engine := if rest = [] then .idle else .backlog rest }
  reportEnded : ∀ s : State, B s → P s → s.engine = .backlog [] → P { s with engine := .idle }
  uplinked : ∀ (s : State) (h : Handle) (airtime : Nat), B s → P s → s.engine = .uplink h airtime →
    P { s.uplinkStation h airtime with engine := .idle }
  emptied : ∀ (s : State) (tag : Byte) (h next : Handle), B s → P s → s.engine = .restartBacklog tag h →
    next.val = h.val + 1 → P { s.emptyBacklog h with engine := .restartBacklog tag next }
  restartEnded : ∀ (s : State) (tag : Byte) (h : Handle) (m : OutMessage), B s → P s →
    s.engine = .restartBacklog tag h → h.val = 511 →
    P { (s.emptyBacklog h).resetRings with engine := .answer m }
  -- the walker's visit
  walked : ∀ (s : State) (h : Handle), B s → P s → P (s.walkRecord h)

/-! ### What the core does not see -/

@[simp] theorem State.core_raise (s : State) (f : Flag) : (s.raise f).core = s.core := rfl

@[simp] theorem State.core_raiseIf (s : State) (b : Bool) (f : Flag) : (s.raiseIf b f).core = s.core := by
  cases b <;> rfl

@[simp] theorem State.core_enter (s : State) (p : PortState) : (s.enter p).core = s.core := rfl

@[simp] theorem State.core_granted (s : State) (r : Requester) (asks : PortAsks) :
    (s.granted r asks).core = s.core := rfl

@[simp] theorem State.core_pass (s : State) (n : Nat) : (s.pass n).core = s.core := rfl

theorem State.core_timerExpiry (s : State) : s.timerExpiry.core = s.core := by
  unfold State.timerExpiry
  rw [State.core_raiseIf]
  rfl

theorem State.core_noCreditReport (s : State) : s.noCreditReport.core = s.core := by
  unfold State.noCreditReport
  split <;> rfl

theorem State.core_respond (s : State) (status : Status) (clamped : Bool) (payload : List Byte) :
    (s.respond status clamped payload).core = ({ s with executing := .idle } : State).core := by
  unfold State.respond
  split <;> rfl

theorem State.core_transactionByte (s : State) (b : Byte) : (s.transactionByte b).core = s.core := by
  unfold State.transactionByte
  repeat' split
  all_goals rfl

/-- Writing a field of the core writes it in every state with that core. -/
theorem State.core_executing {s t : State} (same : t.core = s.core) (e : Execution) :
    ({ t with executing := e } : State).core = ({ s with executing := e } : State).core := by
  show { t.core with executing := e } = { s.core with executing := e }
  rw [same]

theorem State.core_engine {s t : State} (same : t.core = s.core) (e : EngineItem) :
    ({ t with engine := e } : State).core = ({ s with engine := e } : State).core := by
  show { t.core with engine := e } = { s.core with engine := e }
  rw [same]

theorem Handle.after_some {h next : Handle} (after : Handle.after h = some next) :
    next.val = h.val + 1 := by
  unfold Handle.after at after
  split at after
  · cases after; rfl
  · cases after

theorem Handle.after_none {h : Handle} (after : Handle.after h = none) : h.val = 511 := by
  unfold Handle.after at after
  split at after
  · cases after
  · omega

/-- Member selection that ends issues the award in the visit (R89). -/
theorem State.endSelection_now (s : State) (a : AskFields) (id : AwardId) (allowances : List Int) :
    s.endSelection false a id allowances = s.issueAward a id allowances := rfl

/-- Member selection that ends leaves the issuing step to come (R91). -/
theorem State.endSelection_deferred (s : State) (a : AskFields) (id : AwardId)
    (allowances : List Int) :
    s.endSelection true a id allowances = { s with engine := .issuing a id allowances } := rfl

/-- The issue of a claimed entry writes its duration and deadline, and answers with its AWARD (R52, R89). -/
theorem State.issueAward_eq {s : State} {id : AwardId} {w : OpenAward}
    (claimed : (s.entry id).award = some w) (a : AskFields) (allowances : List Int) :
    s.issueAward a id allowances =
      (s.setEntry id { s.entry id with
        award := some { w with
          issue := some ⟨awardDuration a.txop allowances,
            s.timebase + BitVec.ofNat 32 s.settings.awardTimeout⟩ } }).answer
        (.award w.askTag id (s.entry id).generation w.cls (awardDuration a.txop allowances)
          (w.members.map (·.handle))) := by
  rw [State.issueAward, claimed]

/-- The issuing step, where it is still to come, is the issue (R89, R91). -/
theorem State.issueDue_issuing {s : State} {a : AskFields} {id : AwardId} {allowances : List Int}
    (due : s.engine = .issuing a id allowances) : s.issueDue = s.issueAward a id allowances := by
  rw [State.issueDue, due]

/-- An answer in hand enters the queue, which ends its item, or waits (R135). -/
theorem State.enqueueAnswer_answer (s : State) (m : OutMessage) :
    (s.answer m).enqueueAnswer =
      if s.outbound.length < Config.outboundDepth then
        { s with engine := .idle, outbound := s.outbound ++ [m] }
      else s.answer m := rfl

/-- Everything that the placing of an answer can do, but for the outbound queue: nothing; the end of the
item; or the issue of the award, after which the item ends or its answer waits (R89, R91, R135). -/
theorem State.enqueueAnswer_issueDue (s : State) :
    s.issueDue.enqueueAnswer.core = s.core ∨
    (∃ m, s.engine = .answer m ∧
      s.issueDue.enqueueAnswer.core = ({ s with engine := .idle } : State).core) ∨
    ∃ a id allowances w e, s.engine = .issuing a id allowances ∧ (s.entry id).award = some w ∧
      (e = .idle ∨ ∃ m, e = .answer m) ∧
      s.issueDue.enqueueAnswer.core = ({ s.issueAward a id allowances with engine := e } : State).core := by
  cases hs : s.engine with
  | issuing a id allowances =>
    rw [State.issueDue_issuing hs]
    cases hw : (s.entry id).award with
    | none =>
      refine Or.inl ?_
      rw [State.issueAward, hw]
      dsimp only
      rw [State.enqueueAnswer, hs]
    | some w =>
      refine Or.inr (Or.inr ?_)
      obtain ⟨m, u, issued⟩ : ∃ m u, s.issueAward a id allowances = State.answer u m := by
        rw [State.issueAward, hw]
        exact ⟨_, _, rfl⟩
      rw [issued, State.enqueueAnswer_answer]
      by_cases room : u.outbound.length < Config.outboundDepth
      · exact ⟨a, id, allowances, w, .idle, rfl, hw, Or.inl rfl, by rw [if_pos room, issued]; rfl⟩
      · exact ⟨a, id, allowances, w, .answer m, rfl, hw, Or.inr ⟨m, rfl⟩,
          by rw [if_neg room, issued]; rfl⟩
  | answer m =>
    have due : s.issueDue = s := by rw [State.issueDue, hs]
    rw [due, State.enqueueAnswer, hs]
    dsimp only
    split
    · exact Or.inr (Or.inl ⟨m, rfl, rfl⟩)
    · exact Or.inl rfl
  | _ => exact Or.inl (by rw [State.issueDue, hs]; dsimp only; rw [State.enqueueAnswer, hs])

/-! ### A step -/

variable {B P : State → Prop}

namespace Kept

/-- A state with the same core has what is kept. -/
theorem both (k : Kept B P) {s t : State} (b : B s) (p : P s) (same : t.core = s.core) : B t ∧ P t :=
  ⟨k.quietB s t same b, k.quiet s t same p⟩

/-- The end of a request that leaves everything as it is. -/
theorem respond (k : Kept B P) {s : State} (b : B s) (p : P s) (plain : s.executing.Plain)
    (notAdmit : ∀ h r c, s.executing ≠ .admitComplete h r c) (status : Status) (clamped : Bool)
    (payload : List Byte) : P (s.respond status clamped payload) :=
  k.quiet _ _ (State.core_respond s status clamped payload) (k.ended s b p plain notAdmit)

/-- The end of a request after its work. -/
theorem respondAfter (k : Kept B P) {s : State} (p : P { s with executing := .idle })
    (status : Status) (clamped : Bool) (payload : List Byte) : P (s.respond status clamped payload) :=
  k.quiet _ _ (State.core_respond s status clamped payload) p

/-- The start of a request (R142, R147). -/
theorem start (k : Kept B P) {s : State} (b : B s) (p : P s) (idle : s.executing = .idle)
    (q : Request) : P (s.start q) := by
  have refused : ∀ status clamped payload, P (s.respond status clamped payload) := fun x y z =>
    k.respond b p (by rw [idle]; trivial) (by rw [idle]; simp) x y z
  have begun : ∀ e : Execution, e.Started → P { s with executing := e } := fun e on =>
    k.started s e b p idle on
  have asked : ∀ e : Execution, e.Started → P (s.asksFor e) := fun e on =>
    k.quiet { s with executing := e } _ rfl (begun e on)
  have same : ({ s with executing := .idle } : State) = s := by rw [← idle]
  unfold State.start
  split
  · exact refused _ _ _
  · exact asked _ trivial
  · unfold State.startAmend
    split
    · exact refused _ _ _
    · exact asked _ ⟨_, rfl⟩
  · unfold State.startReapply
    split
    · exact refused _ _ _
    · exact asked _ trivial
  · unfold State.startRetire
    split
    · exact refused _ _ _
    · exact asked _ trivial
  · exact asked _ trivial
  · unfold State.startQuery
    split
    · exact refused _ _ _
    · exact asked _ trivial
  · unfold State.startList
    split
    · exact refused _ _ _
    · exact begun _ trivial
  · unfold State.startRulePut
    split
    · next lt =>
      refine k.respondAfter ?_ _ _ _
      have done := k.ruled s _ lt (q.payload.drop 1) b p
      rw [← same] at done
      exact done
    · exact refused _ _ _
  · unfold State.startRuleGet
    split <;> exact refused _ _ _
  · unfold State.startItemPut
    split
    · next i _ =>
      refine k.respondAfter ?_ _ _ _
      have done := k.written s (itemValue q.payload) i b p
      rw [← same] at done
      exact done
    · exact refused _ _ _
  · unfold State.startItemGet
    split <;> exact refused _ _ _
  · exact k.quiet _ _ (State.core_respond _ _ _ _)
      (k.quiet { s with executing := .idle } _ rfl (by rw [same]; exact p))
  · exact k.quiet { s with clearing := true, releaseDue := true, executing := .clearRelease } _ rfl
      (k.clearing s b p idle)

theorem startHead (k : Kept B P) {s : State} (b : B s) (p : P s) : P s.startHead := by
  unfold State.startHead
  split
  · next may =>
    split
    · exact p
    · simp only [State.canStart, Bool.and_eq_true, beq_iff_eq] at may
      exact k.start b p may.1.2 _
  · exact p

theorem startForm (k : Kept B P) {s : State} (b : B s) (p : P s) (form : Option RequestKind) :
    P (s.startForm form) := by
  unfold State.startForm
  split
  · exact p
  · split
    · exact k.startHead b p
    · exact p

/-- A visit keeps what its work keeps (R16). -/
theorem visit (k : Kept B P) {s : State} (b : B s) (p : P s) {r : Requester} {asks : PortAsks}
    {due : Bool} {work : State → State} (kept : ∀ t : State, B t → P t → P (work t)) :
    P (s.visit r asks due work) := by
  rcases State.visit_cases s r asks due work with e | e | ⟨_, _, _, e⟩ <;> rw [e]
  · exact p
  · exact k.quiet s _ rfl p
  · obtain ⟨b', p'⟩ := k.both b p (State.core_granted s r asks)
    exact kept _ b' p'

/-- The taking of a message keeps what its work keeps on a free engine (R80). -/
theorem takeItem (k : Kept B P) {s : State} (b : B s) (p : P s)
    {work : InMessage → Option (State → State)}
    (kept : ∀ m f, work m = some f → ∀ t : State, B t → P t → t.engine = .idle → P (f t)) :
    P (s.takeItem work) := by
  unfold State.takeItem
  split
  · next may =>
    simp only [State.engineFree, Bool.and_eq_true, beq_iff_eq] at may
    have free : s.engine = .idle := may.1.2
    split
    · exact p
    · next m _ _ =>
      split
      · exact p
      · next f hf =>
        obtain ⟨b', p'⟩ := k.both (t := s.takeMessage) b p rfl
        exact kept m f hf _ b' p' free
  · exact p

/-- The end of a transaction (R137, R140, R144). -/
theorem endTransaction (k : Kept B P) {s : State} (b : B s) (p : P s) (bytes : List Byte) :
    P (s.endTransaction bytes) := by
  unfold State.endTransaction State.endingWork
  split
  · split
    · exact k.quiet s _ rfl p
    · exact k.quiet s _ rfl p
  · split
    · unfold State.removeResponse State.startWaiting
      split
      · obtain ⟨b', p'⟩ := k.both b p (t := { s with
          csLow := false, spiOut := s.spiOut ++ shiftedOut s.port.own bytes.length, port := .idle
          responses := s.responses.tail }) rfl
        exact k.startHead b' p'
      · exact k.quiet s _ rfl p
    · exact k.quiet s _ rfl p
  all_goals exact k.quiet s _ rfl p

/-! ### The commands without a visit -/

theorem pins (k : Kept B P) {s : State} (b : B s) (p : P s) :
    (∀ t, execResetAssert s = .next t → P t) ∧ (∀ t, execResetRelease s = .next t → P t) ∧
      (∀ t, execChipSelectFall s = .next t → P t) ∧
      ∀ bytes stray t, execChipSelectRise bytes stray s = .next t → P t := by
  refine ⟨?_, ?_, ?_, ?_⟩
  · rintro _ ⟨⟩
    exact k.quiet State.reset _ rfl k.reset
  · rintro _ ⟨⟩
    split
    · exact k.quiet s _ rfl p
    · exact p
  · rintro _ ⟨⟩
    split
    · exact p
    · split
      · exact k.quiet s _ rfl p
      · split <;> exact k.quiet s _ rfl p
  · rintro bytes stray _ ⟨⟩
    split
    · exact p
    · split
      · exact k.quiet s _ rfl p
      · split
        · split
          · exact k.endTransaction b p _
          · obtain ⟨b', p'⟩ := k.both b p (State.core_transactionByte s _)
            exact k.endTransaction b' p' _
        · exact k.endTransaction b p _

theorem inOpening (k : Kept B P) {s : State} (p : P s) {work : State → State}
    (same : (work s).core = s.core) : P (s.inOpening work) := by
  unfold State.inOpening
  split
  · exact p
  · split
    · exact k.quiet s _ same p
    · exact p

/-- An award whose issuing step is to come is issued, and the answer enters the outbound queue or waits
(R89, R91, R135). -/
theorem enqueue (k : Kept B P) {s : State} (b : B s) (p : P s) : P s.issueDue.enqueueAnswer := by
  rcases State.enqueueAnswer_issueDue s with same | ⟨m, hm, same⟩ | ⟨a, id, al, w, e, ha, hw, he, same⟩
  · exact k.quiet s _ same p
  · exact k.quiet _ _ same (k.sent s m b p hm)
  · exact k.quiet _ _ same (k.issued s a id al w e b p ha hw he)

/-- What the link's own commands do to its queues is not seen (R125 to R127, R135). -/
theorem link (k : Kept B P) {s : State} (b : B s) (p : P s) :
    (∀ nibbles low t, execMessageReceived nibbles low s = .next t → P t) ∧
      (∀ t, execFirstSync s = .next t → P t) ∧ (∀ t, execDownMessageDrop s = .next t → P t) ∧
      (∀ t, execOutboundEnqueue s = .next t → P t) ∧ ∀ t, execOutboundSent s = .next t → P t := by
  refine ⟨?_, ?_, ?_, ?_, ?_⟩
  · rintro nibbles low _ ⟨⟩
    split
    · exact p
    · unfold State.receive
      split
      · exact k.quiet s _ rfl p
      · split <;> exact k.quiet s _ rfl p
  · rintro _ ⟨⟩
    split
    · exact p
    · split
      · split
        · exact k.quiet s _ rfl p
        · exact p
      · exact p
  · rintro _ ⟨⟩
    split
    · exact p
    · split
      · exact p
      · exact p
      · exact k.quiet s _ rfl p
  · rintro _ ⟨⟩
    split
    · exact p
    · exact k.enqueue b p
  · rintro _ ⟨⟩
    split
    · exact p
    · split
      · exact p
      · exact k.quiet s _ rfl p

/-- The items that the engine takes from the link (R86, R92, R128, R129). -/
theorem items (k : Kept B P) {s : State} (b : B s) (p : P s) :
    (∀ t, execAsk s = .next t → P t) ∧ (∀ t, execDone s = .next t → P t) ∧
      (∀ t, execBacklog s = .next t → P t) ∧ (∀ t, execUplink s = .next t → P t) ∧
      ∀ t, execLinkRestart s = .next t → P t := by
  refine ⟨?_, ?_, ?_, ?_, ?_⟩
  · rintro _ ⟨⟩
    refine k.takeItem b p fun m f hf t b' p' free => ?_
    split at hf <;> cases hf
    next a =>
      show P (t.checkAsk a)
      have decline : ∀ r, P (t.decline a r) := fun r =>
        k.taken t _ b' p' free (Or.inl ⟨_, rfl⟩)
      unfold State.checkAsk
      split
      · exact decline _
      · next on =>
        split
        · exact decline _
        · split
          · exact decline _
          · next room => exact k.asked t a b' p' free (by simpa using on) room
  · rintro _ ⟨⟩
    refine k.takeItem b p fun m f hf t b' p' free => ?_
    split at hf <;> cases hf
    next id generation airtime entries =>
      show P (t.judgeDone id generation airtime entries)
      unfold State.judgeDone
      split
      · exact k.quiet t _ rfl p'
      · split
        · exact k.quiet t _ rfl p'
        · next w hw =>
          split
          · exact k.quiet t _ rfl p'
          · next fits =>
            refine k.judged t id airtime entries w b' p' free hw ?_
            simp only [OpenAward.doneMisfits, Bool.or_eq_true, bne_iff_ne, not_or, ne_eq,
              not_not] at fits
            exact fits.1
  · rintro _ ⟨⟩
    refine k.takeItem b p fun m f hf t b' p' free => ?_
    split at hf <;> cases hf
    exact k.taken t _ b' p' free (Or.inr (Or.inl ⟨_, rfl⟩))
  · rintro _ ⟨⟩
    refine k.takeItem b p fun m f hf t b' p' free => ?_
    split at hf <;> cases hf
    next h airtime =>
      exact k.quiet { t with engine := .uplink h airtime } _ rfl
        (k.taken t _ b' p' free (Or.inr (Or.inr ⟨_, _, rfl⟩)))
  · rintro _ ⟨⟩
    refine k.takeItem b p fun m f hf t b' p' free => ?_
    split at hf <;> cases hf
    exact k.restarted t _ b' p' free

/-- The taking of a due expiry (R99, R100). -/
theorem takeExpiry (k : Kept B P) {s : State} (b : B s) (p : P s) (free : s.engine = .idle)
    (d : DueExpiry) : P (s.takeExpiry d) := by
  unfold State.takeExpiry
  dsimp only
  split
  · exact k.quiet s _ rfl p
  · next w hw =>
    split
    · exact k.quiet { s with engine := .expiry d.id w.heldHandles } _ rfl
        (k.expired s d.id w b p free hw)
    · exact k.quiet s _ rfl p

/-- Expiries, of an award and of the step timer, and the clear's release. -/
theorem events (k : Kept B P) {s : State} (b : B s) (p : P s) :
    (∀ id generation t, execAwardExpiry id generation s = .next t → P t) ∧
      (∀ t, execStepTimerExpiry s = .next t → P t) ∧
      ∀ t, execTableClearRelease s = .next t → P t := by
  refine ⟨?_, ?_, ?_⟩
  · rintro id generation _ ⟨⟩
    split
    · exact p
    · next free =>
      have idle : s.engine = .idle := by
        simp only [State.engineFree, Bool.and_eq_false_iff, not_or, Bool.not_eq_false,
          beq_iff_eq] at free
        exact free.2
      split
      · exact k.takeExpiry b p idle _
      · split
        · obtain ⟨b', p'⟩ := k.both b p (State.core_pass s _)
          exact k.takeExpiry b' p' idle _
        · exact p
  · rintro _ ⟨⟩
    split
    · exact p
    · split
      · refine k.quiet s _ ?_ p
        rw [State.core_timerExpiry, State.core_pass]
      · exact p
  · rintro _ ⟨⟩
    split
    · next due =>
      simp only [State.engineFree, Bool.and_eq_true, beq_iff_eq] at due
      exact k.released s b p due.1.2 due.2
    · exact p

/-! ### The visits of the Request Processor -/

theorem requestVisits (k : Kept B P) {s : State} (b : B s) (p : P s) (asks : PortAsks) :
    (∀ t, execAdmitAllocationVisit asks s = .next t → P t) ∧
      (∀ t, execAdmitCompletionVisit asks s = .next t → P t) ∧
      (∀ t, execAmendVisit asks s = .next t → P t) ∧
      (∀ t, execReapplyReadVisit asks s = .next t → P t) ∧
      (∀ t, execReapplyApplyVisit asks s = .next t → P t) ∧
      (∀ t, execRetireVisit asks s = .next t → P t) ∧
      (∀ t, execFindProbeVisit asks s = .next t → P t) ∧
      (∀ t, execQueryVisit asks s = .next t → P t) ∧
      (∀ t, execListScanVisit asks s = .next t → P t) ∧
      ∀ t, execTableClearRecordVisit asks s = .next t → P t := by
  have plain : ∀ {t : State} {e : Execution}, t.executing = e → B t → P t → e.Plain →
      (∀ h r c, e ≠ .admitComplete h r c) → ∀ x y z, P (t.respond x y z) :=
    fun e b p on no x y z => k.respond b p (by rw [e]; exact on) (by rw [e]; exact no) x y z
  refine ⟨?_, ?_, ?_, ?_, ?_, ?_, ?_, ?_, ?_, ?_⟩
  · rintro _ ⟨⟩
    refine k.visit b p fun t b p => ?_
    split
    · next d clamped he =>
      unfold State.allocate
      split
      · exact plain he b p trivial (by simp) _ _ _
      · next free =>
        split
        · obtain ⟨b', p'⟩ := k.both b p (State.core_raise t .noRoom)
          exact plain (t := t.raise .noRoom) he b' p' trivial (by simp) _ _ _
        · next h hh =>
          refine k.quiet _ _ ?_ (k.allocated t d clamped h b p he free hh)
          unfold State.runClassifier
          refine State.core_executing ?_ _
          simp only [State.core_raiseIf]
    · exact p
  · rintro _ ⟨⟩
    refine k.visit b p fun t b p => ?_
    split
    · next h result clamped he =>
      unfold State.completeAdmit
      split
      · next accepted =>
        exact k.respondAfter (k.completed t h result clamped b p he accepted) _ _ _
      · exact k.respondAfter (k.denied t h result clamped b p he) _ _ _
      · exact k.respondAfter (k.denied t h result clamped b p he) _ _ _
    · exact p
  · rintro _ ⟨⟩
    refine k.visit b p fun t b p => ?_
    split
    · next h f clamped he =>
      unfold State.amendStation
      split
      · next on => exact k.respondAfter (k.amended t h f clamped b p he on) _ _ _
      · exact plain he b p trivial (by simp) _ _ _
    · exact p
  · rintro _ ⟨⟩
    refine k.visit b p fun t b p => ?_
    split
    · next h he =>
      unfold State.readForReapply State.runClassifier
      split
      · next on =>
        dsimp only
        obtain ⟨b', p'⟩ := k.both b p (State.core_raiseIf t
          (classify t.classPolicy (t.station h).descriptor).2 .chainRange)
        split
        · exact k.quiet _ _ (State.core_executing (State.core_raiseIf t _ _) _)
            (k.reread t h b p he on)
        · exact plain ((State.raiseIf_executing t _ _).trans he) b' p' trivial (by simp) _ _ _
        · exact plain ((State.raiseIf_executing t _ _).trans he) b' p' trivial (by simp) _ _ _
      · exact plain he b p trivial (by simp) _ _ _
    · exact p
  · rintro _ ⟨⟩
    refine k.visit b p fun t b p => ?_
    split
    · next h result he => exact k.respondAfter (k.reapplied t h result b p he) _ _ _
    · exact p
  · rintro _ ⟨⟩
    refine k.visit b p fun t b p => ?_
    split
    · next h he =>
      unfold State.retireStation
      split
      · next on =>
        have done := k.retired t h b p he on
        exact k.respondAfter done _ _ _
      · exact plain he b p trivial (by simp) _ _ _
    · exact p
  · rintro _ ⟨⟩
    refine k.visit b p fun t b p => ?_
    split
    · next a he => split <;> exact plain he b p trivial (by simp) _ _ _
    · exact p
  · rintro _ ⟨⟩
    refine k.visit b p fun t b p => ?_
    split
    · next h he => split <;> exact plain he b p trivial (by simp) _ _ _
    · exact p
  · rintro _ ⟨⟩
    refine k.visit b p fun t b p => ?_
    split
    · next states h found he =>
      unfold State.scan
      dsimp only
      generalize (if states.getLsbD (t.station h).state.code = true then found ++ [h] else found) = more
      split
      · exact plain he b p trivial (by simp) _ _ _
      · split
        · exact plain he b p trivial (by simp) _ _ _
        · exact k.listed t states h _ found more b p he
    · exact p
  · rintro _ ⟨⟩
    refine k.visit b p fun t b p => ?_
    split
    · next h he =>
      split
      · next next hn => exact k.cleared t h next b p he (Handle.after_some hn)
      · next hn =>
        refine k.respondAfter (k.quiet { (t.clearRecord h).resetRings with
          clearing := false, executing := .idle } _ rfl ?_) _ _ _
        exact k.clearEnded t h b p he (Handle.after_none hn)
    · exact p

/-! ### The visits of the Award Engine and of the walker -/

theorem engineVisits (k : Kept B P) {s : State} (b : B s) (p : P s) (pop : PopOperands)
    (asks : PortAsks) :
    (∀ t, execPopVisit pop s = .next t → P t) ∧
      (∀ t, execConditionalPopVisit pop s = .next t → P t) ∧
      (∀ t, execDoneMemberVisit asks s = .next t → P t) ∧
      ∀ t, execExpiryMemberVisit asks s = .next t → P t := by
  refine ⟨?_, ?_, ?_, ?_⟩
  · rintro _ ⟨⟩
    refine k.visit b p fun t b p => ?_
    split
    · next a he =>
      unfold State.popVisit
      dsimp only
      have free : (t.clearHead a.cls).lowestFreeEntry = t.lowestFreeEntry := by
        simp only [State.lowestFreeEntry, State.entry, State.clearHead_awards]
      split
      · next hs =>
        have done := fun m => k.declined t a m b p he hs
        unfold State.declineEmpty
        split
        · refine k.quiet _ _ ?_ (done (.decline a.tag a.cls .noCredit))
          unfold State.noCreditReport
          split <;> rfl
        · exact done _
      · next h id hs hf => exact k.claimed t pop.defers a h id b p he hs (free.symm.trans hf)
      · next h hs hf => exact k.unclaimed t a h b p he hs (free.symm.trans hf)
    · exact p
  · rintro _ ⟨⟩
    refine k.visit b p fun t b p => ?_
    split
    · next a id allowances he =>
      unfold State.conditionalPop
      dsimp only
      split
      · exact k.selected t pop.defers a id allowances b p he
      · next h hs =>
        split
        · exact k.joined t pop.defers a id allowances h b p he hs
        · exact k.selected t pop.defers a id allowances b p he
    · exact p
  · rintro _ ⟨⟩
    refine k.visit b p fun t b p => ?_
    split
    · next id airtime m rest he =>
      split
      · next w hw => exact k.doneVisited t id airtime m rest w b p he hw
      · next hw => exact k.doneEnded t id airtime _ b p he (Or.inr hw)
    · next he => exact k.doneEnded t _ _ [] b p he (Or.inl rfl)
    · exact p
  · rintro _ ⟨⟩
    refine k.visit b p fun t b p => ?_
    split
    · next id h rest he =>
      split
      · next w hw =>
        split
        · next i hi =>
          refine k.quiet _ _ ?_ (k.expiryVisited t id h rest w i b p he hw hi)
          exact State.core_engine (State.core_raiseIf _ _ _) _
        · next hi => exact k.expiryEnded t id _ b p he (Or.inr (Or.inr ⟨w, hw, hi⟩))
      · next hw => exact k.expiryEnded t id _ b p he (Or.inr (Or.inl hw))
    · next he => exact k.expiryEnded t _ [] b p he (Or.inl rfl)
    · exact p

theorem otherVisits (k : Kept B P) {s : State} (b : B s) (p : P s) (asks : PortAsks) :
    (∀ t, execReleaseVisit asks s = .next t → P t) ∧
      (∀ t, execBacklogEntryVisit asks s = .next t → P t) ∧
      (∀ t, execUplinkVisit asks s = .next t → P t) ∧
      (∀ t, execLinkRestartBacklogVisit asks s = .next t → P t) ∧
      ∀ t, execWalkerVisit asks s = .next t → P t := by
  refine ⟨?_, ?_, ?_, ?_, ?_⟩
  · rintro _ ⟨⟩
    refine k.visit b p fun t b p => ?_
    split
    · next m rest he => exact k.clearReleased t m rest b p he
    · next he => exact k.clearReleaseEnded t b p he
    · next tag m rest he => exact k.restartReleased t tag m rest b p he
    · next tag he => exact k.restartReleaseEnded t tag b p he
    · exact p
  · rintro _ ⟨⟩
    refine k.visit b p fun t b p => ?_
    split
    · next e rest he => exact k.reported t e rest b p he
    · next he => exact k.reportEnded t b p he
    · exact p
  · rintro _ ⟨⟩
    refine k.visit b p fun t b p => ?_
    split
    · next h airtime he => exact k.uplinked t h airtime b p he
    · exact p
  · rintro _ ⟨⟩
    refine k.visit b p fun t b p => ?_
    split
    · next tag h he =>
      split
      · next next hn => exact k.emptied t tag h next b p he (Handle.after_some hn)
      · next hn =>
        refine k.quiet _ _ ?_ (k.restartEnded t tag h (.sync tag) b p he (Handle.after_none hn))
        exact State.core_engine (State.core_raise _ _) _
    · exact p
  · rintro _ ⟨⟩
    refine k.visit b p fun t b p => ?_
    split
    · next step he => exact k.quiet (t.walkRecord step.next) _ rfl (k.walked t step.next b p)
    · exact p

/-- Every step keeps what each work keeps. -/
theorem step (k : Kept B P) {s t : State} (b : B s) (p : P s) (stepped : Machine.step s = .next t) :
    P t := by
  unfold Machine.step at stepped
  split at stepped
  · cases stepped
    unfold State.idleStep
    split
    · exact p
    · split
      · exact k.quiet s _ (State.core_timerExpiry s) p
      · exact k.quiet s _ rfl p
  · next c rest _ =>
    obtain ⟨b', p'⟩ := k.both (t := { s with pending := rest }) b p rfl
    generalize ({ s with pending := rest } : State) = u at b' p' stepped
    have form : ∀ f, Host.Outcome.next (u.startForm f) = (.next t : Host.Outcome State Fault Refusal) →
        P t := by
      rintro f ⟨⟩
      exact k.startForm b' p' f
    cases c with
    | resetAssert => exact (k.pins b' p').1 t stepped
    | resetRelease => exact (k.pins b' p').2.1 t stepped
    | chipSelectFall => exact (k.pins b' p').2.2.1 t stepped
    | chipSelectRise bytes stray => exact (k.pins b' p').2.2.2 bytes stray t stepped
    | put => cases stepped; exact k.inOpening p' rfl
    | take => cases stepped; exact k.inOpening p' rfl
    | peek => cases stepped; exact k.inOpening p' rfl
    | ignoring byte =>
      cases stepped
      split
      · exact p'
      · exact k.inOpening p' rfl
    | badKind => exact form _ stepped
    | admitStart => exact form _ stepped
    | amend => exact form _ stepped
    | reapply => exact form _ stepped
    | retire => exact form _ stepped
    | find => exact form _ stepped
    | query => exact form _ stepped
    | list => exact form _ stepped
    | rulePut => exact form _ stepped
    | ruleGet => exact form _ stepped
    | itemPut => exact form _ stepped
    | itemGet => exact form _ stepped
    | summaryClear => exact form _ stepped
    | tableClear => exact form _ stepped
    | admitAllocationVisit asks => exact (k.requestVisits b' p' asks).1 t stepped
    | admitCompletionVisit asks => exact (k.requestVisits b' p' asks).2.1 t stepped
    | amendVisit asks => exact (k.requestVisits b' p' asks).2.2.1 t stepped
    | reapplyReadVisit asks => exact (k.requestVisits b' p' asks).2.2.2.1 t stepped
    | reapplyApplyVisit asks => exact (k.requestVisits b' p' asks).2.2.2.2.1 t stepped
    | retireVisit asks => exact (k.requestVisits b' p' asks).2.2.2.2.2.1 t stepped
    | findProbeVisit asks => exact (k.requestVisits b' p' asks).2.2.2.2.2.2.1 t stepped
    | queryVisit asks => exact (k.requestVisits b' p' asks).2.2.2.2.2.2.2.1 t stepped
    | listScanVisit asks => exact (k.requestVisits b' p' asks).2.2.2.2.2.2.2.2.1 t stepped
    | tableClearRecordVisit asks => exact (k.requestVisits b' p' asks).2.2.2.2.2.2.2.2.2 t stepped
    | messageReceived nibbles low => exact (k.link b' p').1 nibbles low t stepped
    | firstSync => exact (k.link b' p').2.1 t stepped
    | downMessageDrop => exact (k.link b' p').2.2.1 t stepped
    | outboundEnqueue => exact (k.link b' p').2.2.2.1 t stepped
    | outboundSent => exact (k.link b' p').2.2.2.2 t stepped
    | ask => exact (k.items b' p').1 t stepped
    | done => exact (k.items b' p').2.1 t stepped
    | backlog => exact (k.items b' p').2.2.1 t stepped
    | uplink => exact (k.items b' p').2.2.2.1 t stepped
    | linkRestart => exact (k.items b' p').2.2.2.2 t stepped
    | awardExpiry id generation => exact (k.events b' p').1 id generation t stepped
    | stepTimerExpiry => exact (k.events b' p').2.1 t stepped
    | tableClearRelease => exact (k.events b' p').2.2 t stepped
    | popVisit pop => exact (k.engineVisits b' p' pop pop.asks).1 t stepped
    | conditionalPopVisit pop => exact (k.engineVisits b' p' pop pop.asks).2.1 t stepped
    | doneMemberVisit asks => exact (k.engineVisits b' p' ⟨asks, false⟩ asks).2.2.1 t stepped
    | expiryMemberVisit asks => exact (k.engineVisits b' p' ⟨asks, false⟩ asks).2.2.2 t stepped
    | releaseVisit asks => exact (k.otherVisits b' p' asks).1 t stepped
    | backlogEntryVisit asks => exact (k.otherVisits b' p' asks).2.1 t stepped
    | uplinkVisit asks => exact (k.otherVisits b' p' asks).2.2.1 t stepped
    | linkRestartBacklogVisit asks => exact (k.otherVisits b' p' asks).2.2.2.1 t stepped
    | walkerVisit asks => exact (k.otherVisits b' p' asks).2.2.2.2 t stepped

end Kept

end Sys2Proof.Machine
end

