-- ==== Sys2Proof/WellFormed.lean ====
section
/-!
DEFINITION. Which commands describe an event that can come to the part: the two checks on operands
that the types do not make.
-/

namespace Sys2Proof

/-- A transaction byte that names a transaction (R138, R168). -/
def isTransactionByte (b : Byte) : Bool :=
  b == Config.putByte || b == Config.takeByte || b == Config.peekByte

/-- The operand checks: an ignored transaction byte is none of PUT, TAKE and PEEK (R138), and fewer
than eight bits of a byte are an incomplete byte (R137). -/
def Instr.wellFormed : Instr → Bool
  | .ignoring byte => !isTransactionByte byte
  | .chipSelectRise _ strayBits => decide (strayBits < 8)
  | .resetAssert => true
  | .resetRelease => true
  | .chipSelectFall => true
  | .put => true
  | .take => true
  | .peek => true
  | .badKind => true
  | .admitStart => true
  | .admitAllocationVisit _ => true
  | .admitCompletionVisit _ => true
  | .amend => true
  | .amendVisit _ => true
  | .reapply => true
  | .reapplyReadVisit _ => true
  | .reapplyApplyVisit _ => true
  | .retire => true
  | .retireVisit _ => true
  | .find => true
  | .findProbeVisit _ => true
  | .query => true
  | .queryVisit _ => true
  | .list => true
  | .listScanVisit _ => true
  | .rulePut => true
  | .ruleGet => true
  | .itemPut => true
  | .itemGet => true
  | .summaryClear => true
  | .tableClear => true
  | .tableClearRelease => true
  | .releaseVisit _ => true
  | .tableClearRecordVisit _ => true
  | .messageReceived _ _ => true
  | .firstSync => true
  | .downMessageDrop => true
  | .ask => true
  | .popVisit _ => true
  | .conditionalPopVisit _ => true
  | .outboundEnqueue => true
  | .outboundSent => true
  | .done => true
  | .doneMemberVisit _ => true
  | .awardExpiry _ _ => true
  | .expiryMemberVisit _ => true
  | .backlog => true
  | .backlogEntryVisit _ => true
  | .uplink => true
  | .uplinkVisit _ => true
  | .linkRestart => true
  | .linkRestartBacklogVisit _ => true
  | .stepTimerExpiry => true
  | .walkerVisit _ => true

end Sys2Proof
end

