-- ==== Sys2Proof/Tests/Slice0.lean ====
section
/-!
SUPPORT. The model's own tests: ill-formed commands that the check refuses, small steps with the values of
the spec's worked sequences, and, for every statement with hypotheses, states and operands that meet them.
-/

namespace Sys2Proof.Machine

/-! ### Well-formedness -/

theorem test_wellFormed_refuses_named_byte : (Instr.ignoring 0xB1).wellFormed = false ∧
    (Instr.ignoring 0xB2).wellFormed = false ∧ (Instr.ignoring 0xB4).wellFormed = false ∧
    (Instr.ignoring 0xB3).wellFormed = true := by decide

theorem test_wellFormed_refuses_whole_byte : (Instr.chipSelectRise [] 8).wellFormed = false ∧
    (Instr.chipSelectRise [] 7).wellFormed = true := by decide

theorem test_no_word_spells_a_command : ∀ n w, decodeTableWord n w = none := fun _ _ => rfl

/-! ### Arithmetic, with the values of the worked sequences (11.1, 11.2, 11.4, 11.5) -/

theorem test_initialCredit : initialCredit 1000 Profile.default = 1000 := by decide
theorem test_portions : portionOf 1400 (readShare false 10) = 875 ∧
    portionOf 1400 (readShare false 7) = 613 ∧ portionOf 1620 (readShare true 3) = 1620 := by decide
theorem test_debits : flooredCredit 1000 (rawDebit 1620 100 0) = -720 ∧
    flooredCredit 1000 (rawDebit 875 100 0) = 25 ∧ flooredCredit 1000 (rawDebit 613 100 0) = 287 := by
  decide
theorem test_costShift : rawDebit 100 21 1 = 242 ∧ rawDebit 100 21 (-2) = 30 := by decide
theorem test_averages : newAverage 0 1620 3 = 202 ∧ newAverage 250 300 3 = 256 ∧
    newAverage 10 0 3 = 8 := by decide
theorem test_duration : awardDuration 3000 [1500, 1500] = 1500 ∧ awardDuration 4000 [1500] = 1500 ∧
    awardDuration 0 [1500] = 32 ∧ awardDuration 2000 [5] = 5 := by decide
theorem test_replenish : paid (-560) 8000 (replenishAmount 1000 16) = 440 ∧
    paid 8100 8000 1000 = 8100 ∧ paid 7500 8000 1000 = 8000 := by decide
theorem test_penalty : penalised 1000 100 101 2 = 250 ∧ penalised 1000 100 100 2 = 1000 ∧
    penalised 1000 0 500 2 = 1000 := by decide
theorem test_bucket : bucketOf 0x010203040506 = 0x07 := by decide

/-! ### Codings (chapter 10) -/

theorem test_descriptor_clamps :
    (descriptorOf [1, 2, 3, 4, 5, 6, 9, 0x00, 40, 0xFF, 0]).topRate = 31 ∧
    (descriptorOf [1, 2, 3, 4, 5, 6, 9, 0x00, 40, 0xFF, 0]).streams = 1 ∧
    (descriptorOf [1, 2, 3, 4, 5, 6, 9, 0x00, 40, 0xFF, 0]).signal = -1 ∧
    (descriptorOf [1, 2, 3, 4, 5, 6, 9, 0x00, 40, 0xFF, 0]).linkAddress = 0x010203040506 := by decide

theorem test_received_sync : receivedMessage [5, 0, 0, 0, 0, 0, 2, 10] = some (.sync 0x2A) := by
  decide
theorem test_received_short : receivedMessage [5, 0, 0] = none := by decide
theorem test_decline_words : (OutMessage.decline 7 .sc2 .noCredit).words.length = 1 := by decide

/-! ### Steps from reset -/

/-- The state a command leaves. -/
def after (c : Instr) (s : State) : State :=
  match step { s with pending := [c] } with
  | .next t => t
  | _ => s

/-- The machine after reset with the link UP. -/
def up : State := { State.reset with linkUp := true }

theorem test_put : (after (.chipSelectRise [0x13, 0x01, 0x00] 0)
      (after .put (after .chipSelectFall State.reset))).requests = [⟨0x13, [0x00]⟩] ∧
    (after (.chipSelectRise [0x13, 0x01, 0x00] 0)
      (after .put (after .chipSelectFall State.reset))).spiOut = [0x00, 0xAC, 0x00, 0x00] := by
  decide +kernel
theorem test_doutHighImpedance : State.reset.doutHighImpedance = true ∧
    (after .chipSelectFall State.reset).doutHighImpedance = false ∧
    (after .resetAssert (after .chipSelectFall State.reset)).doutHighImpedance = true := by
  decide +kernel
theorem test_itemGet_version : (after .itemGet { State.reset with requests := [⟨0x13, [0x00]⟩] }).responses =
    [⟨0x13, .ok, false, [0x00, 0, 0, 0, 1]⟩] := by decide +kernel
theorem test_ruleGet_default : (after .ruleGet { State.reset with requests := [⟨0x11, [60]⟩] }).responses =
    [⟨0x11, .ok, false, 60 :: List.replicate 24 0 ++ [0x01, 0x00]⟩] := by decide +kernel
theorem test_find_none : (after (.findProbeVisit PortAsks.none)
      (after .find { State.reset with requests := [⟨0x05, [1, 2, 3, 4, 5, 6]⟩] })).responses =
    [⟨0x05, .notFound, false, [0xFF, 0xFF]⟩] := by decide +kernel
theorem test_stepTimerExpiry : (after .stepTimerExpiry State.reset).timebase = 1000 ∧
    (after .stepTimerExpiry State.reset).walker =
      { State.reset.walker with lag := 1, step := some ⟨.owed, 0⟩, nextExpiry := 2000 } := by
  decide +kernel
theorem test_sync : (after .firstSync (after (.messageReceived [5, 0, 0, 0, 0, 0, 2, 10] false)
      State.reset)).outbound = [.sync 0x2A] := by decide +kernel
theorem test_ask_declined : (after (.popVisit ⟨PortAsks.none, false⟩) (after .ask
      { up with inbound := [.ask ⟨7, .sc2, 1, false, 1500⟩] })).engine =
    .answer (.decline 7 .sc2 .noStation) := by decide +kernel
theorem test_outboundSent : (after .outboundSent { up with outbound := [.sync 0x2A] }).lkoSent =
    [.strobeRise, .nibble 5, .nibble 0, .nibble 0, .nibble 0, .nibble 0, .nibble 0, .nibble 2,
      .nibble 10, .strobeFall] := by decide +kernel
theorem test_lkoStrobe : State.reset.lkoStrobe = false ∧
    { up with outbound := [.sync 0x2A] }.lkoStrobe = true := by decide +kernel
theorem test_message_cut : after (.messageReceived [5, 0, 0] true) up = after .resetRelease up := rfl
theorem test_uplink_stale : (after (.uplinkVisit PortAsks.none) (after .uplink
      { up with inbound := [.uplink 3 500] })).counters.stale = 1 := by decide +kernel

/-! ### States for the tests -/

/-- A record with the power-on profile, ACTIVE, credit 1000, backlog in SC0. -/
def laptop : StationRecord :=
  { StationRecord.cleared with
    state := .active, profile := Profile.default, credit := 1000, idleCountdown := 60
    backlog := ClassSet.none.set .sc0 true }

/-- The empty ring. -/
def noRing : Ring := Ring.powerOn
/-- A full ring of holes. -/
def holes : Ring := { slots := Vector.replicate 256 none, head := 0, tail := 255 }
/-- A ring with station 0 in slot 0. -/
def lone : Ring := { slots := (Vector.replicate 256 none).set 0 (some 0), head := 0, tail := 1 }
/-- The empty overflow list. -/
def noList : OverflowList := OverflowList.powerOn
/-- The overflow list of station 0 alone. -/
def loneList : OverflowList := { head := some 0, tail := some 0, length := 1 }

/-- The machine after reset but for station 0, its ring and list in SC0 and the waiting count there. -/
def bench (r : StationRecord) (ring : Ring) (list : OverflowList) (waits : Nat) : State :=
  { State.reset with
    stations := State.reset.stations.set 0 r
    freeHead := some 1
    buckets := (Vector.replicate 256 none).set 0 (some 0)
    rings := (PerClass.const Ring.powerOn).set .sc0 ring
    overflows := (PerClass.const OverflowList.powerOn).set .sc0 list
    waiting := (PerClass.const 0).set .sc0 waits }

theorem station_reset (h : Handle) :
    State.reset.station h = { StationRecord.cleared with nextFree := Handle.after h } := by
  simp [State.station, State.reset, stationsPowerOn]

theorem bench_first (r : StationRecord) (ring : Ring) (list : OverflowList) (waits : Nat) :
    (bench r ring list waits).station 0 = r := by
  simp [State.station, bench]

theorem bench_other (r : StationRecord) (ring : Ring) (list : OverflowList) (waits : Nat) {h : Handle}
    (ne : h ≠ 0) : (bench r ring list waits).station h =
      { StationRecord.cleared with nextFree := Handle.after h } := by
  rw [← station_reset]
  have : 0 ≠ h.val := fun e => ne (Fin.ext e.symm)
  simp [State.station, bench, Vector.getElem_set_ne _ _ this]

/-! ### The laws hold on them -/

theorem countWaiting_reset (c : ServiceClass) : State.reset.countWaiting c = 0 := by
  unfold State.countWaiting
  rw [List.length_eq_zero_iff, List.filter_eq_nil_iff]
  intro h _
  rw [station_reset]
  cases c <;> simp [StationRecord.isWaiting, StationRecord.ready, StationRecord.cleared]

theorem countWaiting_bench (r : StationRecord) (ring : Ring) (list : OverflowList) (waits : Nat)
    (c : ServiceClass) : (bench r ring list waits).countWaiting c = one (r.isWaiting c) := by
  have eq := State.countWaiting_setStation State.reset 0 r c
  have was : (State.reset.station 0).isWaiting c = false := by
    rw [station_reset]; cases c <;> rfl
  rw [countWaiting_reset, was] at eq
  have same : (bench r ring list waits).countWaiting c = (State.reset.setStation 0 r).countWaiting c :=
    rfl
  rw [same]
  simpa [one] using eq

/-- The class laws of a bench, from what they say of station 0 and of SC0. -/
theorem bench_class {r : StationRecord} {ring : Ring} {list : OverflowList} {waits : Nat}
    (slots : ∀ i h, ring.at i = some h ↔ h = 0 ∧ r.ringSlot.get .sc0 = some i)
    (run : ∀ i h, ring.at i = some h → (i - ring.head).toNat < ring.occupancy)
    (places : r.eligible .sc0 = true ↔
      (r.ringSlot.get .sc0).isSome = true ∨ (r.overflow.get .sc0).isSome = true)
    (single : ¬ ((r.ringSlot.get .sc0).isSome = true ∧ (r.overflow.get .sc0).isSome = true))
    (listed : r.overflow.get .sc0 = none ∧ list = noList ∨
      r.overflow.get .sc0 = some { prev := none, next := none } ∧ list = loneList)
    (full : 0 < list.length → ring.occupancy = 255) (waiting : waits = one (r.isWaiting .sc0))
    (rest : ∀ c, c ≠ .sc0 → r.eligible c = false ∧ r.isWaiting c = false ∧
      r.ringSlot.get c = none ∧ r.overflow.get c = none) (c : ServiceClass) :
    (bench r ring list waits).ClassLawful c := by
  have record : ∀ h, (bench r ring list waits).station h = if h = 0 then r else
      { StationRecord.cleared with nextFree := Handle.after h } := fun h => by
    split
    · next e => rw [e, bench_first]
    · next e => exact bench_other r ring list waits e
  have cleared : ∀ c x, ({ StationRecord.cleared with nextFree := x } : StationRecord).eligible c =
      false := fun c x => by cases c <;> rfl
  have count := countWaiting_bench r ring list waits c
  have holesOnly : ∀ i, noRing.at i = none := fun i => by simp [Ring.at, noRing, Ring.powerOn]
  by_cases own : c = .sc0
  · subst own
    have theRing : (bench r ring list waits).ring .sc0 = ring := rfl
    have theList : (bench r ring list waits).overflowList .sc0 = list := rfl
    refine ⟨?_, ?_, ?_, ?_, ?_, ?_, ?_⟩
    · intro i h
      rw [theRing, slots, record]
      by_cases e : h = 0
      · simp [e]
      · rw [if_neg e]
        simp [e, StationRecord.cleared, PerClass.const, PerClass.get]
    · intro i h; rw [theRing]; exact run i h
    · intro h
      rw [record]
      split
      · exact places
      · rw [cleared]; simp [StationRecord.cleared, PerClass.const, PerClass.get]
    · intro h
      rw [record]
      split
      · exact single
      · simp [StationRecord.cleared, PerClass.const, PerClass.get]
    · rcases listed with ⟨none', rfl⟩ | ⟨some', rfl⟩
      · refine ⟨[], List.nodup_nil, rfl, rfl, rfl, fun h => ?_, trivial⟩
        simp only [List.not_mem_nil, false_iff, State.placeOf, record]
        split
        · rw [none']; simp
        · simp [StationRecord.cleared, PerClass.const, PerClass.get]
      · refine ⟨[0], by simp, rfl, rfl, rfl, fun h => ?_, ?_, trivial⟩
        · simp only [List.mem_singleton, State.placeOf, record]
          split
          · next e => rw [some']; simp [e]
          · next e => simp [e, StationRecord.cleared, PerClass.const, PerClass.get]
        · simp only [State.placeOf, record, if_pos]
          exact some'
    · exact full
    · rw [count]; exact waiting
  · obtain ⟨e1, e2, e3, e4⟩ := rest c own
    have theRing : (bench r ring list waits).ring c = noRing := by
      cases c <;> first | rfl | exact absurd rfl own
    have theList : (bench r ring list waits).overflowList c = noList := by
      cases c <;> first | rfl | exact absurd rfl own
    have theCount : (bench r ring list waits).waiting.get c = 0 := by
      cases c <;> first | rfl | exact absurd rfl own
    have slotNone : ∀ h, ((bench r ring list waits).station h).ringSlot.get c = none := fun h => by
      rw [record]
      split
      · exact e3
      · cases c <;> rfl
    have placeNone : ∀ h, ((bench r ring list waits).station h).overflow.get c = none := fun h => by
      rw [record]
      split
      · exact e4
      · cases c <;> rfl
    refine ⟨?_, ?_, ?_, ?_, ?_, ?_, ?_⟩
    · intro i h; rw [theRing, holesOnly, slotNone]; simp
    · intro i h; rw [theRing, holesOnly]; simp
    · intro h
      rw [slotNone, placeNone, record]
      split
      · simp [e1]
      · simp [cleared]
    · intro h; rw [slotNone]; simp
    · refine ⟨[], List.nodup_nil, by rw [theList]; rfl, by rw [theList]; rfl, by rw [theList]; rfl,
        fun h => ?_, trivial⟩
      simp [State.placeOf, placeNone]
    · rw [theList]; intro pos; exact absurd pos (by decide)
    · rw [theCount, count, e2]; rfl

/-- A state that differs from a bench beyond records, rings, lists and counts has its class laws. -/
theorem rings_of_bench {b s : State} (law : ∀ c, b.ClassLawful c) (stations : s.stations = b.stations)
    (rings : s.rings = b.rings) (lists : s.overflows = b.overflows) (counts : s.waiting = b.waiting)
    (forming : ∀ h result clamped, s.executing = .admitComplete h result clamped →
      (s.station h).state = .forming)
    (cleared : ∀ next, s.executing ≠ .clearRecords next)
    (restarted : ∀ tag next, s.engine ≠ .restartBacklog tag next) : s.RingsLawful := by
  have record : ∀ h, s.station h = b.station h := fun h => by simp only [State.station, stations]
  refine ⟨fun c => (law c).transfer ?_ (fun h => by rw [record]) (by rw [counts]) ?_, forming,
    fun next e => absurd e (cleared next), fun tag next e => absurd e (restarted tag next)⟩
  · simp only [State.view, State.ring, State.overflowList, rings, lists, record]
  · simp only [State.countWaiting, record]

theorem noRing_slots {r : StationRecord} {ring : Ring} (empty : ∀ i, ring.at i = none)
    (none' : r.ringSlot.get .sc0 = none) (i : BitVec 8) (h : Handle) :
    ring.at i = some h ↔ h = 0 ∧ r.ringSlot.get .sc0 = some i := by
  rw [empty, none']; simp

theorem empty_noRing (i : BitVec 8) : noRing.at i = none := by simp [Ring.at, noRing, Ring.powerOn]
theorem empty_holes (i : BitVec 8) : holes.at i = none := by simp [Ring.at, holes]

/-- A record that holds no place, is eligible nowhere and waits in SC0 at most. -/
structure Outside (r : StationRecord) (waits : Nat) : Prop where
  slot : ∀ c, r.ringSlot.get c = none
  place : ∀ c, r.overflow.get c = none
  eligible : ∀ c, r.eligible c = false
  waiting : waits = one (r.isWaiting .sc0)
  rest : ∀ c, c ≠ .sc0 → r.isWaiting c = false

/-- Such a record beside a ring of holes has the class laws. -/
theorem Outside.lawful {r : StationRecord} {waits : Nat} (law : Outside r waits) {ring : Ring}
    (empty : ∀ i, ring.at i = none) (c : ServiceClass) : (bench r ring noList waits).ClassLawful c :=
  bench_class (noRing_slots empty (law.slot .sc0)) (fun i h e => by rw [empty] at e; cases e)
    (by rw [law.eligible, law.slot, law.place]; simp) (by rw [law.slot]; simp)
    (Or.inl ⟨law.place .sc0, rfl⟩) (fun pos => absurd pos (by decide)) law.waiting
    (fun c ne => ⟨law.eligible c, law.rest c ne, law.slot c, law.place c⟩) c

/-- Station 0 ACTIVE with no backlog. -/
def silent : StationRecord := { laptop with backlog := ClassSet.none }
/-- Station 0 waiting in SC0. -/
def dry : StationRecord := { laptop with credit := 0 }
/-- Station 0 in the ring of SC0. -/
def lined : StationRecord := { laptop with ringSlot := (PerClass.const none).set .sc0 (some 0) }
/-- Station 0 in the ring of SC0, multi-user capable. -/
def capable : StationRecord := { lined with descriptor := { lined.descriptor with multiUser := true } }
/-- Station 0 in the overflow list of SC0. -/
def listed : StationRecord :=
  { laptop with overflow := (PerClass.const none).set .sc0 (some { prev := none, next := none }) }
/-- Station 0 FORMING. -/
def forming : StationRecord := { StationRecord.cleared with state := .forming }

theorem outside_silent : Outside silent 0 where
  slot c := by cases c <;> rfl
  place c := by cases c <;> rfl
  eligible c := by cases c <;> rfl
  waiting := by decide
  rest c _ := by cases c <;> rfl

theorem outside_dry : Outside dry 1 where
  slot c := by cases c <;> rfl
  place c := by cases c <;> rfl
  eligible c := by cases c <;> rfl
  waiting := by decide
  rest c ne := by cases c <;> first | exact absurd rfl ne | rfl

theorem outside_forming : Outside forming 0 where
  slot c := by cases c <;> rfl
  place c := by cases c <;> rfl
  eligible c := by cases c <;> rfl
  waiting := by decide
  rest c _ := by cases c <;> rfl

/-! ### The free list, the index and the awards of a bench -/

theorem exists_otherHandles : ∃ l : List Handle, l.Nodup ∧ l.head? = some 1 ∧ l.getLast? = some 511 ∧
    (∀ h, h ∈ l ↔ h ≠ 0) ∧
    ∀ i, l[i]? = if lt : i < 511 then some ⟨i + 1, by omega⟩ else none := by
  refine ⟨List.ofFn fun i : Fin 511 => (⟨i.val + 1, by omega⟩ : Handle), ?_, ?_, ?_, ?_, ?_⟩
  · rw [List.nodup_ofFn]
    intro i j e
    exact Fin.ext (Nat.succ_injective (congrArg Fin.val e))
  · rw [List.head?_eq_getElem?, List.getElem?_ofFn]
    rfl
  · rw [List.getLast?_eq_getElem?, List.getElem?_ofFn, List.length_ofFn]
    rfl
  · intro h
    rw [List.mem_ofFn]
    constructor
    · rintro ⟨i, rfl⟩ e
      exact absurd (congrArg Fin.val e) (Nat.succ_ne_zero _)
    · intro ne
      have pos : 0 < h.val := Nat.pos_of_ne_zero fun e => ne (Fin.ext e)
      exact ⟨⟨h.val - 1, by omega⟩, Fin.ext (by simp; omega)⟩
  · intro i
    rw [List.getElem?_ofFn]

theorem freeList_bench {r : StationRecord} (ring : Ring) (list : OverflowList) (waits : Nat)
    (taken : r.state ≠ .free) (link : r.nextFree = none) :
    (bench r ring list waits).FreeListLawful := by
  obtain ⟨others, nodup, first, last, others_mem, others_at⟩ := exists_otherHandles
  refine ⟨⟨others, nodup, first.symm, last.symm, fun h => ?_, ?_, fun next e => by cases e⟩,
    fun h busy => ?_, fun h result clamped e => by cases e⟩
  · rw [others_mem]
    by_cases e : h = 0
    · subst e
      rw [bench_first]
      simp [taken]
    · rw [bench_other _ _ _ _ e]
      simp [e, StationRecord.cleared]
  · apply chained_of_getElem
    intro i lt
    have own := others_at i
    rw [List.getElem?_eq_getElem lt] at own
    rw [others_at]
    split at own
    · rw [Option.some.inj own,
        bench_other _ _ _ _ fun e => absurd (congrArg Fin.val e) (Nat.succ_ne_zero _)]
      simp only [Handle.after]
      by_cases top : i + 1 < 511
      · rw [dif_pos (show i + 1 + 1 < 512 by omega), dif_pos top]
      · rw [dif_neg (show ¬ i + 1 + 1 < 512 by omega), dif_neg top]
    · cases own
  · by_cases e : h = 0
    · rw [e, bench_first]; exact link
    · rw [bench_other _ _ _ _ e] at busy
      exact absurd rfl busy

theorem index_bench {r : StationRecord} (ring : Ring) (list : OverflowList) (waits : Nat)
    (inside : r.indexed = true) (address : bucketOf r.descriptor.linkAddress = 0)
    (link : r.nextInBucket = none) : (bench r ring list waits).IndexLawful := by
  have only : ∀ h, ((bench r ring list waits).station h).indexed = true ↔ h = 0 := fun h => by
    by_cases e : h = 0
    · simp [e, bench_first, inside]
    · rw [bench_other _ _ _ _ e]
      simp [e, StationRecord.indexed, StationRecord.cleared]
  refine ⟨fun b => ?_, fun h out => ?_, fun h k ih ik _ => ?_, fun h result clamped e => by cases e⟩
  · by_cases zero : b = 0
    · subst zero
      refine ⟨[0], by simp, by simp [State.bucketHead, bench], fun h => ?_, ?_, trivial⟩
      · rw [only, List.mem_singleton]
        constructor
        · intro e; subst e; rw [bench_first]; exact ⟨rfl, address⟩
        · exact fun e => e.1
      · show ((bench r ring list waits).station 0).nextInBucket = none
        rw [bench_first]; exact link
    · have ne : 0 ≠ b.toNat := fun e => zero (BitVec.eq_of_toNat_eq e.symm)
      refine ⟨[], List.nodup_nil, ?_, fun h => ?_, trivial⟩
      · simp [State.bucketHead, bench, Vector.getElem_set_ne _ _ ne]
      · simp only [List.not_mem_nil, only, false_iff, not_and]
        intro e; subst e; rw [bench_first, address]; exact fun e => zero e.symm
  · by_cases e : h = 0
    · subst e; rw [bench_first, inside] at out; cases out
    · rw [bench_other _ _ _ _ e]; rfl
  · rw [(only h).mp ih, (only k).mp ik]

/-- The machine after reset with an award in entry 0, of generation 1. -/
def awarding (w : OpenAward) : State :=
  { State.reset with
    awards := (Vector.replicate 16 { generation := 0, award := none }).set 0
      { generation := 1, award := some w } }

theorem entry_awarding (w : OpenAward) :
    (awarding w).entry 0 = { generation := 1, award := some w } := by
  simp [State.entry, awarding]

theorem entry_free {s : State} (fresh : s.awards = awardsPowerOn) (id : AwardId) :
    s.entry id = { generation := 0, award := none } := by
  simp [State.entry, fresh, awardsPowerOn]

theorem awards_bench {r : StationRecord} (ring : Ring) (list : OverflowList) (waits : Nat)
    (ground : r.inFlight = ClassSet.none) : (bench r ring list waits).AwardsLawful := by
  have free : ∀ id, ((bench r ring list waits).entry id).award = none := fun id => by
    rw [entry_free rfl]
  have flight : ∀ h, ((bench r ring list waits).station h).inFlight = ClassSet.none := fun h => by
    by_cases e : h = 0
    · rw [e, bench_first]; exact ground
    · rw [bench_other _ _ _ _ e]; rfl
  refine ⟨?_, ?_, ?_, ?_, ?_, trivial, fun h _ => flight h, ?_, ?_, ?_⟩
  · intro h c
    rw [flight]
    simp only [free, reduceCtorEq, false_and, exists_false, iff_false]
    cases c <;> decide
  · intro id _ w _ _ e; rw [free] at e; cases e
  · intro id w e; rw [free] at e; cases e
  · intro id w e; rw [free] at e; cases e
  · intro id w e; rw [free] at e; cases e
  · intro h result clamped e; cases e
  · constructor
    · intro e; cases e
    · rintro (e | ⟨next, e⟩) <;> cases e
  · intro next e; cases e

/-- A bench with an item of the engine in hand. -/
def engaged (b : State) (item : EngineItem) : State := { b with engine := item }
/-- A bench with a request executing. -/
def serving (b : State) (ex : Execution) : State :=
  { b with executing := ex, requests := [⟨0x01, []⟩] }

theorem lawful_silent {ring : Ring} (empty : ∀ i, ring.at i = none) (c : ServiceClass) :
    (bench silent ring noList 0).ClassLawful c := outside_silent.lawful empty c
theorem lawful_dry (c : ServiceClass) : (bench dry noRing noList 1).ClassLawful c :=
  outside_dry.lawful empty_noRing c

theorem lone_at (i : BitVec 8) (h : Handle) : lone.at i = some h ↔ h = 0 ∧ 0 = i := by
  by_cases e : i = 0
  · subst e
    simp [Ring.at, lone, eq_comm]
  · have ne : 0 ≠ i.toNat := fun k => e (BitVec.eq_of_toNat_eq k.symm)
    have e' : ¬ 0#8 = i := fun k => e k.symm
    simp [Ring.at, lone, Vector.getElem_set_ne _ _ ne, e']

/-- A record with the backlog and place of `lined`. -/
theorem lawful_alone {r : StationRecord} (slot : r.ringSlot = lined.ringSlot)
    (place : r.overflow = lined.overflow) (state : r.state = .active)
    (classes : r.profile.classes = lined.profile.classes) (backlog : r.backlog = lined.backlog)
    (flight : r.inFlight = ClassSet.none) (credit : r.credit = 1000) (c : ServiceClass) :
    (bench r lone noList 0).ClassLawful c := by
  have inputs : ∀ c, r.eligible c = lined.eligible c ∧ r.isWaiting c = lined.isWaiting c := fun c => by
    simp only [StationRecord.eligible, StationRecord.isWaiting, StationRecord.ready, state, classes,
      backlog, flight, credit]
    exact ⟨rfl, rfl⟩
  refine bench_class (fun i h => ?_) (fun i h e => ?_) ?_ ?_ (Or.inl ⟨?_, rfl⟩)
    (fun pos => absurd pos (by decide)) ?_ (fun c ne => ?_) c
  · rw [lone_at, slot]
    have own : lined.ringSlot.get .sc0 = some 0 := rfl
    rw [own]; simp
  · rw [← ((lone_at i h).mp e).2]; decide
  · rw [(inputs _).1, slot, place]; decide
  · rw [slot, place]; decide
  · rw [place]; rfl
  · rw [(inputs _).2]; decide
  · rw [(inputs _).1, (inputs _).2, slot, place]
    cases c <;> first | exact absurd rfl ne | exact ⟨rfl, rfl, rfl, rfl⟩

theorem lawful_listed (c : ServiceClass) : (bench listed holes loneList 0).ClassLawful c :=
  bench_class (noRing_slots empty_holes rfl) (fun i h e => by rw [empty_holes] at e; cases e)
    (by decide) (by decide) (Or.inr ⟨rfl, rfl⟩) (fun _ => by decide) (by decide)
    (fun c ne => by cases c <;> first | exact absurd rfl ne | exact ⟨rfl, rfl, rfl, rfl⟩) c

/-- The ring laws of a bench with an item of the engine and the request of the bench. -/
theorem rings_engaged {b : State} (law : ∀ c, b.ClassLawful c) {item : EngineItem}
    (ex : b.executing = .idle) (item' : ∀ tag next, item ≠ .restartBacklog tag next) :
    (engaged b item).RingsLawful :=
  rings_of_bench law rfl rfl rfl rfl
    (fun h result clamped e => by
      have : b.executing = .admitComplete h result clamped := e
      rw [ex] at this; cases this)
    (fun next e => by
      have : b.executing = .clearRecords next := e
      rw [ex] at this; cases this) item'

/-! ### Witnesses: the queue of commands and reset -/

/-- A machine with RESET_N low. -/
def inReset : State := { State.reset with resetLow := true }

theorem witness_StepRunsFrontCommand :
    ({ State.reset with pending := [.put] } : State).pending = .put :: [] := rfl

theorem witness_TimePasses_inReset : inReset.pending = [] ∧ inReset.resetLow = true := ⟨rfl, rfl⟩

/-- The step timer's expiry is due. -/
def timerAt (now : Word) : State := { State.reset with timebase := now }

theorem witness_TimePasses_timerDue : (timerAt 1000).pending = [] ∧ (timerAt 1000).resetLow = false ∧
    (timerAt 1000).walker.timerRunning = true ∧
    (timerAt 1000).timebase = (timerAt 1000).walker.nextExpiry := ⟨rfl, rfl, rfl, by decide⟩

theorem witness_TimePasses_notDue : (timerAt 999).pending = [] ∧ (timerAt 999).resetLow = false ∧
    ¬ ((timerAt 999).walker.timerRunning = true ∧
      (timerAt 999).timebase = (timerAt 999).walker.nextExpiry) := ⟨rfl, rfl, by decide⟩

/-- An issued award of station 0 in SC0 with this deadline. -/
def single (deadline : Word) : OpenAward :=
  { askTag := 7, cls := .sc0, issue := some ⟨500, deadline⟩, members := [⟨0, true⟩] }

/-- The deadline that the timer's expiry reaches last. -/
theorem witness_TimePasses_deadline :
    let s := awarding (single 1000)
    s.resetLow = false ∧ s.walker.timerRunning = true ∧ (s.entry 0).award = some (single 1000) ∧
    (single 1000).issue = some ⟨500, 1000⟩ ∧ (1000 : Word) ≠ s.timebase ∧
    ((1000 : Word) - s.timebase).toNat ≤ (s.walker.nextExpiry - s.timebase).toNat :=
  ⟨rfl, rfl, by rw [entry_awarding], rfl, by decide, by decide⟩

theorem witness_ResetHoldsPowerOnValues : inReset.resetLow = true := rfl

theorem witness_NothingHappensInReset : inReset.resetLow = true ∧ Instr.put ≠ .resetAssert ∧
    Instr.put ≠ .resetRelease ∧ Instr.put ≠ .chipSelectFall ∧
    ∀ bytes stray, Instr.put ≠ .chipSelectRise bytes stray :=
  ⟨rfl, by decide, by decide, by decide, fun _ _ e => by cases e⟩

/-! ### Witnesses: the Management Port -/

/-- The port in a transaction, with so many requests and responses waiting. -/
def talking (port : PortState) (requests responses : Nat) : State :=
  { State.reset with
    csLow := true, port := port
    requests := List.replicate requests ⟨0x1F, []⟩
    responses := List.replicate responses ⟨0x1F, .ok, false, []⟩ }

theorem witness_TransactionByte_room : (talking .opening 3 0).resetLow = false ∧
    (talking .opening 3 0).port = .opening ∧ (talking .opening 3 0).requests.length < 4 :=
  ⟨rfl, rfl, by decide⟩
theorem witness_TransactionByte_full : (talking .opening 4 0).resetLow = false ∧
    (talking .opening 4 0).port = .opening ∧ 4 ≤ (talking .opening 4 0).requests.length :=
  ⟨rfl, rfl, by decide⟩
theorem witness_TransactionByte_other : (0xB0 : Byte) ≠ 0xB1 ∧ (0xB3 : Byte) ≠ 0xB2 ∧
    (0xB5 : Byte) ≠ 0xB4 ∧ (0xB3 : Byte) ≠ 0xB1 ∧ (0xB3 : Byte) ≠ 0xB4 := by decide

theorem witness_Peek : (talking .opening 4 4).resetLow = false ∧
    (talking .opening 4 4).port = .opening ∧ (talking .opening 4 4).QueuesLawful :=
  ⟨rfl, rfl, by decide, by decide, by decide, by decide, fun ne => absurd rfl ne, fun e => by cases e⟩

theorem witness_PutFrame_state : (talking .putFrame 3 0).resetLow = false ∧
    (talking .putFrame 3 0).csLow = true ∧ (talking .putFrame 3 0).port = .putFrame :=
  ⟨rfl, rfl, rfl⟩
theorem witness_PutFrame_empty : ([0x1F, 0x00] : List Byte) = 0x1F :: 0x00 :: [] ∧
    (0x00 : Byte).toNat ≤ 60 ∧ ([] : List Byte).length = (0x00 : Byte).toNat := by decide
theorem witness_PutFrame_longest : (60 : Byte).toNat ≤ 60 ∧
    (List.replicate 60 (0 : Byte)).length = (60 : Byte).toNat := by decide
theorem witness_PutFrame_short : ∀ kind len payload, ([0x1F] : List Byte) = kind :: len :: payload →
    60 < len.toNat ∨ payload.length ≠ len.toNat := by
  intro _ _ _ e; cases e
theorem witness_PutFrame_tooLong : ∀ kind len payload,
    (0x01 :: 61 :: List.replicate 61 0 : List Byte) = kind :: len :: payload →
    60 < len.toNat ∨ payload.length ≠ len.toNat := by
  intro _ _ _ e
  obtain ⟨-, e⟩ := List.cons.inj e
  obtain ⟨e, -⟩ := List.cons.inj e
  exact Or.inl (by rw [← e]; decide)

/-- A response of one payload byte. -/
def reply : Response := ⟨0x11, .badRule, false, [7]⟩
/-- A TAKE that has fixed the oldest of so many responses, a request waiting. -/
def taking (responses : Nat) : State :=
  { talking (.takeSending (some reply)) 1 0 with responses := reply :: List.replicate responses reply }

theorem witness_Take_state : (taking 3).resetLow = false ∧ (taking 3).csLow = true ∧
    (taking 3).port = .takeSending (some reply) ∧
    (taking 3).responses = reply :: List.replicate 3 reply := ⟨rfl, rfl, rfl, rfl⟩
theorem witness_Take_cut : (List.replicate 4 (0 : Byte)).length < 4 + reply.payload.length := by decide
theorem witness_Take_whole : 4 + reply.payload.length ≤ (List.replicate 5 (0 : Byte)).length := by
  decide
theorem witness_Take_starts : (List.replicate 3 reply).length = 3 ∧
    (taking 3).requests = ⟨0x1F, []⟩ :: [] ∧ (taking 3).executing = .idle := ⟨rfl, rfl, rfl⟩
theorem witness_Take_noStart : (List.replicate 2 reply).length < 3 := by decide

theorem witness_Transactions_begin : State.reset.resetLow = false ∧ State.reset.csLow = false ∧
    State.reset.port = .idle := ⟨rfl, rfl, rfl⟩
theorem witness_Transactions_byte : (talking .opening 0 0).resetLow = false ∧
    (talking .opening 0 0).csLow = true ∧ (talking .opening 0 0).port = .opening ∧
    exec .put (talking .opening 0 0) = .next ((talking .opening 0 0).beginPut) :=
  ⟨rfl, rfl, rfl, rfl⟩
theorem witness_Transactions_end (port : PortState)
    (which : port ∈ [.putRefused, .peekSending [1, 2, 3], .ignoring, .takeSending none]) :
    (talking port 0 0).resetLow = false ∧ (talking port 0 0).csLow = true ∧
    ((talking port 0 0).port = .putRefused ∨ (∃ b, (talking port 0 0).port = .peekSending b) ∨
      (talking port 0 0).port = .ignoring ∨ (talking port 0 0).port = .takeSending none) := by
  refine ⟨rfl, rfl, ?_⟩
  simp only [List.mem_cons, List.not_mem_nil, or_false] at which
  rcases which with rfl | rfl | rfl | rfl <;> simp [talking]

theorem witness_Transactions_idle : (talking .idle 0 0).resetLow = false ∧
    (talking .idle 0 0).csLow = true ∧ (talking .idle 0 0).port = .idle := ⟨rfl, rfl, rfl⟩
theorem witness_Transactions_nothing : (talking .opening 0 0).port = .opening ∧
    ([] : List Byte) = [] := ⟨rfl, rfl⟩

/-! ### Witnesses: requests -/

/-- The machine after reset with one request waiting. -/
def asked (kind : Byte) (payload : List Byte) : State :=
  { State.reset with requests := [⟨kind, payload⟩] }

theorem witness_asked (kind : Byte) (payload : List Byte) : (asked kind payload).resetLow = false ∧
    (asked kind payload).executing = .idle ∧ (asked kind payload).responses.length < 4 ∧
    (asked kind payload).requests = ⟨kind, payload⟩ :: [] := ⟨rfl, rfl, Nat.succ_pos 3, rfl⟩

/-- The kinds with their payload lengths, as UnknownKindIsRefused lists them. -/
def kinds : List (Byte × Nat) :=
  [(0x01, 11), (0x02, 18), (0x03, 2), (0x04, 2), (0x05, 6), (0x06, 2), (0x07, 3),
    (0x10, 27), (0x11, 1), (0x12, 5), (0x13, 1), (0x14, 3), (0x1F, 0)]

theorem witness_UnknownKind : (∀ k ∈ kinds, ((0x08, 0) : Byte × Nat) ≠ k) ∧
    (∀ k ∈ kinds, ((0x01, 10) : Byte × Nat) ≠ k) ∧ ∀ k ∈ kinds, ((0x1F, 1) : Byte × Nat) ≠ k := by
  decide

theorem witness_Rules : (63 : Byte).toNat < 64 ∧ 64 ≤ (64 : Byte).toNat ∧
    (List.replicate 26 (0 : Byte)).length = 26 ∧
    (asked 0x10 (63 :: List.replicate 26 0)).requests = ⟨0x10, 63 :: List.replicate 26 0⟩ :: [] ∧
    (asked 0x11 [64]).requests = ⟨0x11, [64]⟩ :: [] := ⟨by decide, by decide, rfl, rfl, rfl⟩

/-- Values of weight 16, and those of a rule never written. -/
theorem witness_RuleCoding : Profile.default.Bounded ∧ 1 ≤ Profile.default.weight ∧
    (PolicyRule.zero .accept).action.values.Bounded ∧ (PolicyRule.zero .accept).action.values.weight = 0 ∧
    (PolicyRule.zero .accept).action.chainValue ≤ 255 ∧
    (255 : Nat) ≤ 255 ∧ (List.replicate 26 (0xFF : Byte)).length = 26 :=
  ⟨⟨by decide, by decide, by decide, by decide, by decide, by decide⟩, by decide,
    ⟨by decide, by decide, by decide, by decide, by decide, by decide⟩, rfl, by decide, le_refl _, rfl⟩

theorem test_power_on_rule : (PolicyRule.zero .accept).bytes = (List.replicate 26 0).set 24 1 ∧
    (ruleOf (PolicyRule.zero .accept).bytes).action.values.weight = 1 ∧
    ruleClamped (PolicyRule.zero .accept).bytes = true := by decide

/-- A header byte of each kind, and a byte 24 of each verdict, chain control and next kind. -/
theorem witness_RuleCoding_codes :
    ([0x00, 0x10, 0x20, 0x30] : List Byte).map (fun b => b.extractLsb' 4 2) = [0, 1, 2, 3] ∧
    ([0x00, 0x15, 0x2A, 0x3F] : List Byte).map (fun b => b.extractLsb' 0 2) = [0, 1, 2, 3] ∧
    ([0x00, 0x15, 0x2A, 0x3F] : List Byte).map (fun b => b.extractLsb' 2 2) = [0, 1, 2, 3] ∧
    ([0x00, 0x15, 0x2A, 0x3F] : List Byte).map (fun b => b.extractLsb' 4 2) = [0, 1, 2, 3] := by decide

/-- Rule 1 of the lecture hall, as the example of 10.5 codes its header, its writes and its last bytes. -/
theorem test_ruleOf :
    let r := ruleOf ([0x91, 0, 0x20, 0, 0, 0, 0, 0, 0x20, 0, 0, 0, 0, 0x47] ++
      [8, 0x0F, 0x0B, 0xB8, 0, 0, 0, 0, 0x27, 0x10] ++ [0x24, 1])
    r.valid = true ∧ r.kind = .capability ∧ r.stages = 1 ∧ r.value = 0x002000000000 ∧
    r.mask = 0x002000000000 ∧ r.action.writes = ⟨true, true, true, false, false, false, true⟩ ∧
    r.action.verdict = .goOn ∧ r.action.chainControl = .set ∧ r.action.nextKind = .tag ∧
    r.action.chainValue = 1 := by decide

theorem witness_Items : settingItemOf (0x01 : Byte).toNat = some .stepInterval ∧
    settingItemOf (0x1C : Byte).toNat = some .attnMask ∧ 0x30 ≤ (0x30 : Byte).toNat ∧
    (0x43 : Byte).toNat ≤ 0x43 ∧ (0x1D : Byte).toNat ≤ 0x2F ∧ 0x1D ≤ (0x2F : Byte).toNat ∧
    0x43 < (0x44 : Byte).toNat ∧ readOnlyItemOf (0x00 : Byte).toNat = some .version ∧
    readOnlyItemOf (0x43 : Byte).toNat = some .frameErrorCount ∧
    (asked 0x12 (itemResponse 0x1C 5)).requests = ⟨0x12, itemResponse 0x1C 5⟩ :: [] ∧
    (asked 0x13 [0x43]).requests = ⟨0x13, [0x43]⟩ :: [] := by decide +kernel

theorem witness_ItemWrites : SettingItem.stepInterval.range = some (100, 20000) ∧
    SettingItem.defaultCostShift.range = some (-3, 3) ∧ SettingItem.stepInterval ≠ .quantum := by
  decide
theorem witness_ItemWrites_kind : Settings.powerOn.firstKind = .capability ∧
    min (0 : Word).toNat 3 = 0 ∧ min (4 : Word).toNat 3 = 3 := by decide

theorem witness_SummaryClear : (asked 0x14 [0x1F, 0xFF, 0]).requests = ⟨0x14, [0x1F, 0xFF, 0]⟩ :: [] ∧
    (0 : Byte).getLsbD 0 = false ∧ (1 : Byte).getLsbD 0 = true := ⟨rfl, by decide, by decide⟩

theorem witness_StationRequests : fieldAt [0x01, 0xFF] 0 2 < 512 ∧ 512 ≤ fieldAt [0x02, 0x00] 0 2 ∧
    fieldAt [0x3F, 0x01, 0xFF] 1 2 < 512 ∧ 512 ≤ fieldAt [0x3F, 0x02, 0x00] 1 2 ∧
    fieldAt (0x01 :: 0xFF :: List.replicate 16 0) 0 2 < 512 ∧
    (0x01 :: 0xFF :: List.replicate 16 0 : List Byte).length = 18 ∧
    (List.replicate 11 (0 : Byte)).length = 11 := by decide

theorem witness_TableClear : (asked 0x1F []).requests = ⟨0x1F, []⟩ :: [] := rfl

/-! ### Witnesses: the visits of the Request Processor -/

/-- What every visit of the Request Processor supposes: the visit is due, its request is the oldest and
the arbiter grants it. -/
def Visiting (s : State) (ex : Execution) : Prop :=
  s.resetLow = false ∧ s.executing = ex ∧ s.requests = ⟨0x01, []⟩ :: [] ∧
    s.grants .request PortAsks.none = true

theorem visiting {b : State} {ex : Execution} (high : b.resetLow = false)
    (lag : b.walker.lag = 0) (port : b.tablePort = PortAsks.none) (engine : b.engine = .idle)
    (due : ex.visit.isSome = true) : Visiting (serving b ex) ex := by
  refine ⟨high, rfl, rfl, ?_⟩
  have visit : (serving b ex).visitDue .request = true := due
  have award : (serving b ex).visitDue .award = false := by
    show b.engine.visit.isSome = false; rw [engine]; rfl
  have port' : (serving b ex).tablePort = PortAsks.none := port
  have lag' : (serving b ex).walker.lag = 0 := lag
  simp only [State.grants, State.arrivals, visit, award, port', lag', PortAsks.none, arbitrate]
  cases (serving b ex).visitDue .walker <;> rfl

theorem freeList_serving {b : State} {ex : Execution} (law : b.FreeListLawful)
    (clears : ∀ next, ex ≠ .clearRecords next)
    (completes : ∀ h result clamped, ex ≠ .admitComplete h result clamped) :
    (serving b ex).FreeListLawful := by
  obtain ⟨⟨members, nodup, head, tail, mem, chained, _⟩, outside, _⟩ := law
  exact ⟨⟨members, nodup, head, tail, mem, chained, fun next e => absurd e (clears next)⟩, outside,
    fun h result clamped e => absurd e (completes h result clamped)⟩

theorem index_serving {b : State} {ex : Execution} (law : b.IndexLawful)
    (completes : ∀ h result clamped, ex ≠ .admitComplete h result clamped) :
    (serving b ex).IndexLawful :=
  ⟨law.chains, law.outside, law.distinct, fun h result clamped e => absurd e (completes h result clamped)⟩

/-- A machine whose 512 records are COOLING. -/
def crowded : State :=
  { State.reset with
    stations := Vector.replicate 512 { StationRecord.cleared with state := .cooling, coolCountdown := 2 }
    freeHead := none, freeTail := none }

theorem station_crowded (h : Handle) :
    crowded.station h = { StationRecord.cleared with state := .cooling, coolCountdown := 2 } := by
  simp [State.station, crowded]

theorem freeList_crowded : crowded.FreeListLawful :=
  ⟨⟨[], List.nodup_nil, rfl, rfl, fun h => by simp [station_crowded], trivial, fun next e => by cases e⟩,
    fun h _ => by rw [station_crowded]; rfl, fun h result clamped e => by cases e⟩

theorem outside_crowded (h : Handle) : (crowded.station h).indexed = false := by
  rw [station_crowded]; rfl

theorem index_crowded : crowded.IndexLawful :=
  ⟨fun b => ⟨[], List.nodup_nil, by simp [State.bucketHead, crowded, State.reset],
      fun h => by simp [outside_crowded], trivial⟩,
    fun h _ => by rw [station_crowded]; rfl,
    fun h k e => absurd e (by rw [outside_crowded]; decide), fun h result clamped e => by cases e⟩

/-- Station 0 ACTIVE with no backlog, at address 0. -/
def quiet : State := bench silent noRing noList 0

theorem freeList_quiet : quiet.FreeListLawful := freeList_bench _ _ _ (by decide) rfl
theorem index_quiet : quiet.IndexLawful := index_bench _ _ _ (by decide) (by decide) rfl
theorem indexed_quiet (h : Handle) : (quiet.station h).indexed = true ↔ h = 0 := by
  by_cases e : h = 0
  · subst e; rw [quiet, bench_first]; decide
  · rw [quiet, bench_other _ _ _ _ e]; simp [e, StationRecord.indexed, StationRecord.cleared]

theorem station_serving (b : State) (ex : Execution) (h : Handle) :
    (serving b ex).station h = b.station h := by unfold State.station serving; rfl

/-- A descriptor at an address. -/
def at' (a : BitVec 48) : Descriptor := { Descriptor.cleared with linkAddress := a }

theorem witness_AdmitAllocation_duplicate :
    let s := serving quiet (.admitAllocate (at' 0) false)
    Visiting s (.admitAllocate (at' 0) false) ∧ s.IndexLawful ∧ s.FreeListLawful ∧
    ∃ h, (s.station h).indexed = true ∧
      (s.station h).descriptor.linkAddress = (at' 0).linkAddress := by
  refine ⟨visiting rfl rfl rfl rfl rfl, index_serving index_quiet (by simp),
    freeList_serving freeList_quiet (by simp) (by simp), 0, ?_, ?_⟩
  · rw [station_serving, indexed_quiet]
  · rw [station_serving, quiet, bench_first]; rfl

theorem witness_AdmitAllocation_room :
    let s := serving quiet (.admitAllocate (at' 1) false)
    Visiting s (.admitAllocate (at' 1) false) ∧ s.IndexLawful ∧ s.FreeListLawful ∧
    (∀ h, (s.station h).indexed = true → (s.station h).descriptor.linkAddress ≠ (at' 1).linkAddress) ∧
    s.freeHead = some 1 := by
  refine ⟨visiting rfl rfl rfl rfl rfl, index_serving index_quiet (by simp),
    freeList_serving freeList_quiet (by simp) (by simp), fun h i => ?_, rfl⟩
  rw [station_serving, indexed_quiet] at i
  rw [i, station_serving, quiet, bench_first]; decide

theorem witness_AdmitAllocation_noRoom :
    let s := serving crowded (.admitAllocate (at' 1) false)
    Visiting s (.admitAllocate (at' 1) false) ∧ s.IndexLawful ∧ s.FreeListLawful ∧
    (∀ h, (s.station h).indexed = true → (s.station h).descriptor.linkAddress ≠ (at' 1).linkAddress) ∧
    s.freeHead = none :=
  ⟨visiting rfl rfl rfl rfl rfl, index_serving index_crowded (by simp),
    freeList_serving freeList_crowded (by simp) (by simp),
    fun h i => absurd i (by rw [station_serving, outside_crowded]; decide), rfl⟩

/-- An outcome with the default profile. -/
def result (o : ClassOutcome) : ClassResult := { outcome := o, profile := Profile.default, trace := [⟨0, 60⟩] }

theorem witness_AdmitCompletion (o : ClassOutcome) :
    let s := serving (bench forming noRing noList 0) (.admitComplete 0 (result o) false)
    Visiting s (.admitComplete 0 (result o) false) ∧ (s.station 0).state = .forming ∧
      s.RingsLawful := by
  have forming0 : ((serving (bench forming noRing noList 0)
      (.admitComplete 0 (result o) false)).station 0).state = .forming := by
    show ((bench forming noRing noList 0).station 0).state = _
    rw [bench_first]; rfl
  refine ⟨visiting rfl rfl rfl rfl rfl, forming0, rings_of_bench (outside_forming.lawful empty_noRing)
    rfl rfl rfl rfl (fun h r clamped e => ?_) (fun next e => by cases e) (fun tag next e => by cases e)⟩
  cases e; exact forming0

theorem witness_AdmitCompletion_outcomes : (result .accept).outcome = .accept ∧
    (result .denied).outcome ≠ .accept ∧ (result .noClass).outcome ≠ .accept := by decide

/-- Station 0 is ACTIVE and indexed, the others are FREE and are not. -/
theorem records_quiet : (quiet.station 0).state = .active ∧ (quiet.station 0).indexed = true ∧
    (quiet.station 511).state = .free ∧ (quiet.station 511).indexed = false := by
  have other : (quiet.station 511).state = .free := by
    rw [quiet, bench_other _ _ _ _ (by decide)]; rfl
  exact ⟨by rw [quiet, bench_first]; rfl, (indexed_quiet 0).mpr rfl, other,
    by rw [StationRecord.indexed, other]; rfl⟩

theorem witness_AmendVisit (f : AmendFields) :
    let s := fun h : Handle => serving quiet (.amend h f false)
    Visiting (s 0) (.amend 0 f false) ∧ ((s 0).station 0).state = .active ∧
    Visiting (s 511) (.amend 511 f false) ∧ ((s 511).station 511).state ≠ .active ∧
    ((s 511).station 511).state ≠ .dormant := by
  have other : ((serving quiet (.amend 511 f false)).station 511).state = .free := records_quiet.2.2.1
  exact ⟨visiting rfl rfl rfl rfl rfl, records_quiet.1, visiting rfl rfl rfl rfl rfl,
    by rw [other]; decide, by rw [other]; decide⟩

/-- Station 0 ACTIVE with this descriptor, under 64 rules of this verdict. -/
def ruled (v : Verdict) (d : Descriptor) : State :=
  { bench { silent with descriptor := d } noRing noList 0 with
    rules := Vector.replicate 64 (PolicyRule.zero v) }

/-- The read visit of REAPPLY and its three outcomes: a descriptor that requests a class under rules that
accept and that deny, and one that requests none. -/
theorem witness_ReapplyRead (v : Verdict) (d : Descriptor) (o : ClassOutcome)
    (which : (v, d, o) ∈ [(Verdict.accept, { at' 0 with requested := ClassSet.all }, ClassOutcome.accept),
      (.deny, { at' 0 with requested := ClassSet.all }, .denied), (.accept, at' 0, .noClass)]) :
    let s := serving (ruled v d) (.reapplyRead 0)
    Visiting s (.reapplyRead 0) ∧ (s.station 0).indexed = true ∧
    (classify s.classPolicy (s.station 0).descriptor).1.outcome = o := by
  have record : (serving (ruled v d) (.reapplyRead 0)).station 0 = { silent with descriptor := d } :=
    bench_first { silent with descriptor := d } noRing noList 0
  refine ⟨visiting rfl rfl rfl rfl rfl, by rw [record]; rfl, ?_⟩
  rw [record]
  simp only [List.mem_cons, List.not_mem_nil, or_false, Prod.mk.injEq] at which
  rcases which with ⟨rfl, rfl, rfl⟩ | ⟨rfl, rfl, rfl⟩ | ⟨rfl, rfl, rfl⟩ <;> decide +kernel

theorem witness_Reapply_others :
    Visiting (serving quiet (.reapplyRead 511)) (.reapplyRead 511) ∧
    ((serving quiet (.reapplyRead 511)).station 511).indexed = false ∧
    Visiting (serving quiet (.reapplyApply 0 (result .accept))) (.reapplyApply 0 (result .accept)) :=
  ⟨visiting rfl rfl rfl rfl rfl, records_quiet.2.2.2, visiting rfl rfl rfl rfl rfl⟩

/-- The chain of bucket 0 is station 0 alone. -/
theorem order_quiet (ex : Execution) : (serving quiet ex).BucketOrder 0 [0] :=
  ⟨by simp, rfl, by
    refine ⟨?_, trivial⟩
    show ((serving quiet ex).station 0).nextInBucket = none
    rw [station_serving, quiet, bench_first]
    rfl⟩

theorem witness_RetireVisit :
    Visiting (serving quiet (.retire 0)) (.retire 0) ∧
    ((serving quiet (.retire 0)).station 0).indexed = true ∧
    (serving quiet (.retire 0)).IndexLawful ∧ (serving quiet (.retire 0)).BucketOrder 0 [0] ∧
    (serving quiet (.retire 0)).bucketHead 0 = some 0 ∧ (0 : Handle) ≠ 1 ∧
    Visiting (serving quiet (.retire 511)) (.retire 511) ∧
    ((serving quiet (.retire 511)).station 511).indexed = false :=
  ⟨visiting rfl rfl rfl rfl rfl, records_quiet.2.1, index_serving index_quiet (by simp), order_quiet _,
    rfl, by decide, visiting rfl rfl rfl rfl rfl, records_quiet.2.2.2⟩

theorem witness_FindVisit :
    let s := fun a : BitVec 48 => serving quiet (.find a)
    Visiting (s 0) (.find 0) ∧ (s 0).IndexLawful ∧ ((s 0).station 0).indexed = true ∧
    ((s 0).station 0).descriptor.linkAddress = 0 ∧ Visiting (s 1) (.find 1) ∧ (s 1).IndexLawful ∧
    ∀ h, ((s 1).station h).indexed = true → ((s 1).station h).descriptor.linkAddress ≠ 1 := by
  have address : (quiet.station 0).descriptor.linkAddress = 0 := by rw [quiet, bench_first]; rfl
  refine ⟨visiting rfl rfl rfl rfl rfl, index_serving index_quiet (by simp), ?_, ?_,
    visiting rfl rfl rfl rfl rfl, index_serving index_quiet (by simp), fun h i => ?_⟩
  · rw [station_serving, indexed_quiet]
  · rw [station_serving, address]
  · rw [station_serving, indexed_quiet] at i
    rw [i, station_serving, address]; decide

theorem witness_QueryVisit :
    Visiting (serving quiet (.query 0)) (.query 0) ∧
    ((serving quiet (.query 0)).station 0).state = .active ∧
    Visiting (serving quiet (.query 511)) (.query 511) ∧
    ((serving quiet (.query 511)).station 511).state = .free :=
  ⟨visiting rfl rfl rfl rfl rfl, records_quiet.1, visiting rfl rfl rfl rfl rfl, records_quiet.2.2.1⟩

theorem witness_Snapshot : silent.state ≠ .free ∧ silent.state ≠ .forming ∧ silent.state = .active ∧
    StationState.cooling ≠ .free ∧ StationState.cooling ≠ .forming ∧
    (List.replicate 28 (511 : Handle)).length ≤ 28 ∧
    ([⟨0, 63⟩, ⟨1, 0⟩, ⟨2, 5⟩, ⟨3, 63⟩] : List TraceEntry).length ≤ 4 := by decide

/-- A station last in an overflow list, by the layout of R172. -/
theorem test_snapshot :
    (snapshotBytes { silent with
      trace := [⟨0, 1⟩, ⟨1, 61⟩], credit := -2
      overflow := (PerClass.const none).set .sc1 (some ⟨some 300, none⟩) } 7).drop 22 =
      [2, 0x01, 0x7D, 0, 0, 0xFF, 0xFF, 0xFE, 0, 0, 0, 0, 0, 0x20, 0, 0, 0, 0] ++
      [0xFF, 0xFF, 0xFF, 0xFF, 0x01, 0x2C, 0xFF, 0xFF, 0xFF, 0xFF, 0xFF, 0xFF, 0xFF, 0xFF, 0xFF, 0xFF] ++
      [60, 0, 0, 7] := by decide

/-- A scan with 26 or 27 handles found, at handle 510, which it adds or not, and at handle 511. -/
theorem witness_ListScan (n : Nat) (h : Handle) (states : BitVec 6) (lt : n < 28) :
    Visiting (serving quiet (.list states h (List.replicate n 0))) (.list states h (List.replicate n 0)) ∧
    (List.replicate n (0 : Handle)).length < 28 ∧ (510 : Nat) + 1 < 512 ∧
    (List.replicate 27 (0 : Handle) ++ [510]).length = 28 :=
  ⟨visiting rfl rfl rfl rfl rfl, by rw [List.length_replicate]; exact lt, by decide, by decide⟩

theorem witness_TableClearRecordVisit :
    Visiting (serving quiet (.clearRecords 0)) (.clearRecords 0) ∧
    Visiting (serving quiet (.clearRecords 511)) (.clearRecords 511) ∧ (0 : Handle).val + 1 < 512 ∧
    (511 : Handle).val = 511 :=
  ⟨visiting rfl rfl rfl rfl rfl, visiting rfl rfl rfl rfl rfl, by decide, rfl⟩

/-- The first visit of a clear: station 0 is the chain of bucket 0, and the other records are FREE. -/
theorem witness_TableClear_chains :
    let s := serving quiet (.clearRecords 0)
    s.FreeListLawful ∧ (∃ members, s.FreeOrder members) ∧ s.IndexLawful ∧ s.BucketOrder 0 [0] ∧
    s.bucketHead 0 = some 0 := by
  obtain ⟨⟨members, nodup, head, tail, mem, chained, _⟩, outside, _⟩ := freeList_quiet
  exact ⟨⟨⟨members, nodup, head, tail, mem, chained, fun next e => by cases e; exact ⟨members, rfl⟩⟩,
    outside, fun h result clamped e => by cases e⟩, ⟨members, nodup, head, tail, chained⟩,
    index_serving index_quiet (by simp), order_quiet _, rfl⟩

/-- The last visit of a clear: every record below is cleared, and all 512 are in the free list. -/
def lastCleared : State := serving State.reset (.clearRecords 511)

theorem station_lastCleared (h : Handle) :
    lastCleared.station h = { StationRecord.cleared with nextFree := Handle.after h } :=
  (station_serving _ _ h).trans (station_reset h)

theorem chained_after (all : List Handle) (eq : all = allHandles) : Chained Handle.after all := by
  have len : all.length = 512 := by rw [eq]; simp [allHandles]
  have at_ : ∀ (i : Nat) (lt : i < all.length), all[i] = ⟨i, len ▸ lt⟩ := fun i lt => by
    rw [List.getElem_of_eq eq lt]
    simp [allHandles]
  refine chained_of_getElem fun i lt => ?_
  rw [at_]
  by_cases top : i + 1 < 512
  · rw [List.getElem?_eq_getElem (len ▸ top), at_]
    simp [Handle.after, top]
  · rw [List.getElem?_eq_none (by omega)]
    simp [Handle.after, top]

theorem freeList_lastCleared : lastCleared.FreeListLawful := by
  have link : (fun h => (lastCleared.station h).nextFree) = Handle.after := by
    funext h
    rw [station_lastCleared]
  have ends : some 0 = allHandles.head? ∧ some 511 = allHandles.getLast? ∧
      allHandles = allHandles.take 511 ++ [511] := by decide +kernel
  obtain ⟨all, eq⟩ : ∃ all, all = allHandles := ⟨_, rfl⟩
  have chained := chained_after all eq
  rw [← link] at chained
  refine ⟨⟨all, by rw [eq]; exact List.nodup_finRange 512, by rw [eq]; exact ends.1,
    by rw [eq]; exact ends.2.1, fun h => ?_, chained, fun next e => ?_⟩,
    fun h busy => absurd (by rw [station_lastCleared]; rfl) busy, fun h result clamped e => by cases e⟩
  · rw [station_lastCleared, eq]
    simp [allHandles, StationRecord.cleared]
  · cases e
    exact ⟨[511], eq.trans ends.2.2⟩

theorem index_lastCleared : lastCleared.IndexLawful := by
  have out : ∀ h, (lastCleared.station h).indexed = false := fun h => by
    rw [station_lastCleared]; rfl
  exact ⟨fun b => ⟨[], List.nodup_nil, by simp [State.bucketHead, lastCleared, serving, State.reset],
      fun h => by simp [out], trivial⟩,
    fun h _ => by rw [station_lastCleared]; rfl,
    fun h k e => absurd e (by rw [out]; decide), fun h result clamped e => by cases e⟩

theorem outside_freed : Outside { StationRecord.cleared with nextFree := some 1 } 0 where
  slot c := by cases c <;> rfl
  place c := by cases c <;> rfl
  eligible c := by cases c <;> rfl
  waiting := rfl
  rest c _ := by cases c <;> rfl

theorem rings_lastCleared : lastCleared.RingsLawful := by
  have record : ∀ h, lastCleared.station h =
      (bench { StationRecord.cleared with nextFree := some 1 } noRing noList 0).station h := fun h => by
    rw [station_lastCleared]
    by_cases e : h = 0
    · subst e; rw [bench_first]; rfl
    · rw [bench_other _ _ _ _ e]
  refine ⟨fun c => (outside_freed.lawful empty_noRing c).transfer ?_ (fun h => by rw [record]) ?_ ?_,
    (fun h result clamped e => by cases e), (fun next _ h _ => by rw [station_lastCleared]; rfl),
    (fun tag next e => by cases e)⟩
  · refine ClassView.ext_fun ?_ ?_ (fun h => ?_) fun h => ?_
    · cases c <;> rfl
    · cases c <;> rfl
    · simp only [State.view, record]
    · simp only [State.view, record]
  · cases c <;> rfl
  · simp only [State.countWaiting, record]

theorem witness_TableClear_last : Visiting lastCleared (.clearRecords 511) ∧ (511 : Handle).val = 511 ∧
    lastCleared.FreeListLawful ∧ lastCleared.RingsLawful ∧ lastCleared.IndexLawful ∧
    ∀ k, k ≠ 511 →
      ({ lastCleared.station k with nextFree := none } : StationRecord) = StationRecord.cleared :=
  ⟨visiting rfl rfl rfl rfl rfl, rfl, freeList_lastCleared, rings_lastCleared, index_lastCleared,
    fun k _ => by rw [station_lastCleared]; rfl⟩

/-! ### Witnesses: the MAC Link -/

/-- The link UP or DOWN with this message at the head of so many, and so many outbound ones. -/
def linked (up : Bool) (m : InMessage) (inbound outbound : Nat) : State :=
  { State.reset with
    linkUp := up, inbound := m :: List.replicate inbound (.sync 1)
    outbound := List.replicate outbound (.sync 1) }

theorem witness_Message_queued : (linked true (.sync 1) 6 0).resetLow = false ∧
    receivedMessage [5, 0, 0, 0, 0, 0, 2, 10] = some (.sync 0x2A) ∧
    (linked true (.sync 1) 6 0).inbound.length < 8 := by decide
theorem witness_Message_full : 8 ≤ (linked true (.sync 1) 7 0).inbound.length := by decide
theorem witness_Message_nibbles : (List.replicate 24 (0 : Word)).length ≤ 24 ∧
    24 < (List.replicate 25 (0 : Word)).length ∧ ([5, 0, 0] : List Nibble).length % 8 ≠ 0 := by decide
theorem witness_Message_malformed : receivedMessage [6, 0, 0, 0, 0, 0, 0, 0] = none := by decide

/-- Words of each type, and of types that are none. -/
theorem witness_Message_words : (0x17E0002A : Word).extractLsb' 28 4 = 1 ∧
    (0x20180000 : Word).extractLsb' 28 4 = 2 ∧ ((0x20180000 : Word).extractLsb' 16 4).toNat = 8 ∧
    (0x20000000 : Word).extractLsb' 28 4 = 2 ∧ ((0x20000000 : Word).extractLsb' 16 4).toNat = 0 ∧
    (0x20090000 : Word).extractLsb' 28 4 = 2 ∧ 8 < ((0x20090000 : Word).extractLsb' 16 4).toNat ∧
    (0x31000000 : Word).extractLsb' 28 4 = 3 ∧ ((0x31000000 : Word).extractLsb' 24 4).toNat = 1 ∧
    (0x30000000 : Word).extractLsb' 28 4 = 3 ∧ ((0x30000000 : Word).extractLsb' 24 4).toNat = 0 ∧
    (0x39000000 : Word).extractLsb' 28 4 = 3 ∧ 8 < ((0x39000000 : Word).extractLsb' 24 4).toNat ∧
    ((0x01FF2000 : Word).extractLsb' 16 16).toNat < 512 ∧
    512 ≤ ((0x02002000 : Word).extractLsb' 16 16).toNat ∧
    (0x400001FF : Word).extractLsb' 28 4 = 4 ∧ ((0x400001FF : Word).extractLsb' 0 16).toNat < 512 ∧
    512 ≤ ((0x40000200 : Word).extractLsb' 0 16).toNat ∧ (0x5000002A : Word).extractLsb' 28 4 = 5 ∧
    (0x00000000 : Word).extractLsb' 28 4 = 0 ∧ 6 ≤ ((0x60000000 : Word).extractLsb' 28 4).toNat := by
  decide

theorem witness_DownLink : (linked false (.sync 9) 0 3).resetLow = false ∧
    (linked false (.sync 9) 0 3).linkUp = false ∧ (linked false (.sync 9) 0 3).inbound = .sync 9 :: [] ∧
    (linked false (.sync 9) 0 3).outbound.length < 4 ∧ ∀ tag, InMessage.uplink 0 5 ≠ .sync tag :=
  ⟨rfl, rfl, rfl, by decide, fun _ e => by cases e⟩

theorem witness_Outbound_room :
    let s := engaged (linked true (.sync 1) 0 3) (.answer (.sync 9))
    s.resetLow = false ∧ s.engine = .answer (.sync 9) ∧ s.outbound.length < 4 ∧
    s.outbound = .sync 1 :: List.replicate 2 (.sync 1) := ⟨rfl, rfl, by decide, rfl⟩
theorem witness_Outbound_full :
    let s := engaged (linked true (.sync 1) 0 4) (.answer (.sync 9))
    s.resetLow = false ∧ s.engine = .answer (.sync 9) ∧ 4 ≤ s.outbound.length := ⟨rfl, rfl, by decide⟩

/-- An award of station 0 in SC0 whose member selection has ended, not yet issued. -/
def unissued : OpenAward := { askTag := 7, cls := .sc0, issue := none, members := [⟨0, true⟩] }

theorem witness_Outbound_issuing (outbound : Nat) :
    let s := engaged { awarding unissued with outbound := List.replicate outbound (.sync 1) }
      (.issuing ⟨7, .sc0, 1, false, 1500⟩ 0 [1000])
    s.resetLow = false ∧ s.engine = .issuing ⟨7, .sc0, 1, false, 1500⟩ 0 [1000] ∧
    (s.entry 0).award = some unissued ∧ s.outbound.length = outbound :=
  ⟨rfl, rfl, congrArg (·.award) (entry_awarding unissued), List.length_replicate⟩

theorem test_issue_after_selection :
    let s := engaged (awarding unissued) (.issuing ⟨7, .sc0, 1, false, 1500⟩ 0 [1000])
    (after .outboundEnqueue s).outbound = [.award 7 0 1 .sc0 1000 [0]] ∧
    (after .outboundEnqueue s).engine = .idle := by decide +kernel

theorem witness_taken (m : InMessage) : (linked true m 0 0).resetLow = false ∧
    (linked true m 0 0).linkUp = true ∧ (linked true m 0 0).engine = .idle ∧
    (linked true m 0 0).inbound = m :: [] := ⟨rfl, rfl, rfl, rfl⟩

/-- A link restart finds an award open, or none. -/
theorem witness_LinkItems_members : (linked true (.sync 9) 0 0).openMembers = [] ∧
    { awarding (single 1000) with linkUp := true, inbound := [.sync 9] }.openMembers ≠ [] := by
  decide +kernel

/-! ### Witnesses: the visits of the Award Engine -/

/-- What every visit of the Award Engine supposes. -/
def Working (s : State) (item : EngineItem) : Prop :=
  s.resetLow = false ∧ s.engine = item ∧ s.grants .award PortAsks.none = true

theorem working {b : State} {item : EngineItem} (high : b.resetLow = false) (lag : b.walker.lag = 0)
    (due : item.visit.isSome = true) : Working (engaged b item) item := by
  refine ⟨high, rfl, ?_⟩
  have visit : (engaged b item).visitDue .award = true := due
  have lag' : (engaged b item).walker.lag = 0 := lag
  simp only [State.grants, State.arrivals, visit, lag', arbitrate, Config.walkerLimit]
  simp

theorem station_engaged (b : State) (item : EngineItem) (h : Handle) :
    (engaged b item).station h = b.station h := by unfold State.station engaged; rfl
theorem entry_engaged (b : State) (item : EngineItem) (id : AwardId) :
    (engaged b item).entry id = b.entry id := by unfold State.entry engaged; rfl

/-- A BACKLOG entry of station 0 in SC0, which sets or clears. -/
def reportOf (sets : Bool) : EngineItem := .backlog [⟨0, .sc0, sets⟩]

theorem witness_BacklogEntryVisit (state : StationState) (sets : Bool) :
    let b := bench { silent with state := state } noRing noList 0
    Working (engaged b (reportOf sets)) (reportOf sets) ∧
    ((engaged b (reportOf sets)).station 0).state = state :=
  ⟨working rfl rfl rfl, by rw [station_engaged, bench_first]⟩

theorem witness_UplinkVisit (state : StationState) :
    let b := bench { silent with state := state } noRing noList 0
    Working (engaged b (.uplink 0 500)) (.uplink 0 500) ∧
    ((engaged b (.uplink 0 500)).station 0).state = state :=
  ⟨working rfl rfl rfl, by rw [station_engaged, bench_first]⟩

theorem witness_RestartVisit : Working (engaged quiet (.restartBacklog 9 510)) (.restartBacklog 9 510) ∧
    (510 : Handle).val + 1 < 512 ∧
    Working (engaged quiet (.restartBacklog 9 511)) (.restartBacklog 9 511) ∧ (511 : Handle).val = 511 :=
  ⟨working rfl rfl rfl, by decide, working rfl rfl rfl, rfl⟩

/-! ### Witnesses: awards -/

/-- An ASK of SC0 for two members of a multi-user award. -/
def request2 : AskFields := { tag := 7, cls := .sc0, maximum := 2, multiUser := true, txop := 1500 }

theorem witness_Ask_clearing : { linked true (.ask request2) 0 0 with clearing := true }.clearing = true ∧
    { linked true (.ask request2) 0 0 with clearing := true }.inbound = .ask request2 :: [] := ⟨rfl, rfl⟩
theorem witness_Ask_classOff :
    let s := { linked true (.ask request2) 0 0 with
      settings := { Settings.powerOn with classEnable := ClassSet.none } }
    s.clearing = false ∧ s.settings.classEnable.get request2.cls = false := ⟨rfl, rfl⟩
theorem witness_Ask_full :
    let s := { linked true (.ask request2) 0 0 with
      awards := Vector.replicate 16 { generation := 1, award := some (single 1000) } }
    s.clearing = false ∧ s.settings.classEnable.get request2.cls = true ∧
    ∀ id, (s.entry id).award ≠ none := by
  refine ⟨rfl, rfl, fun id => ?_⟩
  simp [State.entry]
theorem witness_Ask_free :
    let s := linked true (.ask request2) 0 0
    s.clearing = false ∧ s.settings.classEnable.get request2.cls = true ∧
    ∃ id, (s.entry id).award = none := ⟨rfl, rfl, 0, by rw [entry_free rfl]⟩

theorem firstInLine_noRing (r : StationRecord) (waits : Nat) :
    (bench r noRing noList waits).firstInLine .sc0 = none := by
  show ((List.range noRing.occupancy).findSome? fun n =>
    noRing.at (noRing.head + BitVec.ofNat 8 n)).or noList.head = none
  rw [show noRing.occupancy = 0 by decide]
  rfl

/-- The line of a bench: empty beside a ring and a list that hold no station. -/
theorem inLine_empty {b : State} {c : ServiceClass} (law : b.ClassLawful c) (run : (b.ring c).stations = [])
    (short : (b.overflowList c).length = 0) : b.InLine c [] := by
  obtain ⟨members, listed⟩ := law.list
  have none' : members = [] := List.eq_nil_of_length_eq_zero (by rw [← listed.length, short])
  exact ⟨members, listed, by rw [run, none']; rfl, fun ne => absurd none' ne⟩

theorem witness_PopVisit_noStation :
    let s := engaged quiet (.askFirst request2)
    Working s (.askFirst request2) ∧ s.RingsLawful ∧ s.firstInLine request2.cls = none ∧
    s.waiting.get request2.cls = 0 :=
  ⟨working rfl rfl rfl, rings_engaged (lawful_silent empty_noRing) rfl (by simp),
    firstInLine_noRing silent 0, rfl⟩

/-- Station 0 waiting in SC0, with this lead. -/
def thirsty (lead : Nat) : State :=
  { bench dry noRing noList 1 with walker := { State.reset.walker with lead := lead } }

theorem lawful_thirsty (lead : Nat) (c : ServiceClass) : (thirsty lead).ClassLawful c :=
  (lawful_dry c).transfer rfl (fun _ => rfl) rfl rfl

/-- A report is taken up to a lead of 7 and not at 8. -/
theorem witness_PopVisit_noCredit (lead : Nat) :
    let s := engaged (thirsty lead) (.askFirst request2)
    Working s (.askFirst request2) ∧ s.RingsLawful ∧ s.firstInLine request2.cls = none ∧
    0 < s.waiting.get request2.cls ∧ s.settings.pullIn = 1 ∧ s.walker.lag = 0 ∧
    s.walker.lead = lead ∧ s.walker.step = none ∧ s.walker.timerRunning = true :=
  ⟨working rfl rfl rfl, rings_engaged (lawful_thirsty lead) rfl (by simp), firstInLine_noRing dry 1,
    Nat.zero_lt_one, rfl, rfl, rfl, rfl, rfl⟩

theorem lawful_lined (c : ServiceClass) : (bench lined lone noList 0).ClassLawful c :=
  lawful_alone (r := lined) rfl rfl rfl rfl rfl rfl rfl c
theorem lawful_capable (c : ServiceClass) : (bench capable lone noList 0).ClassLawful c :=
  lawful_alone (r := capable) rfl rfl rfl rfl rfl rfl rfl c

theorem firstInLine_lone (r : StationRecord) :
    (bench r lone noList 0).firstInLine .sc0 = some 0 := by
  have at0 : lone.at 0#8 = some 0 := (lone_at 0 0).mpr ⟨rfl, rfl⟩
  show ((List.range lone.occupancy).findSome? fun n => lone.at (lone.head + BitVec.ofNat 8 n)).or _ = _
  have one' : lone.occupancy = 1 := by decide
  rw [one']
  have head : lone.head + BitVec.ofNat 8 0 = 0 := by decide
  simp [List.range_succ, head, at0]

/-- Rings of holes alone, of a station at the head, and of a station behind a hole. -/
theorem test_holesAhead : holes.holesAhead = 255 ∧ lone.holesAhead = 0 ∧
    ({ lone with head := 255 } : Ring).holesAhead = 1 := by decide +kernel

/-- Station 0 alone in line. -/
theorem inLine_lone (b : State) (ring : b.ring .sc0 = lone) (list : b.overflowList .sc0 = noList)
    (law : b.ClassLawful .sc0) : b.InLine .sc0 [0] := by
  obtain ⟨members, listed⟩ := law.list
  have none' : members = [] :=
    List.eq_nil_of_length_eq_zero (by rw [← listed.length, list]; rfl)
  exact ⟨members, listed, by rw [ring, none']; decide +kernel, fun ne => absurd none' ne⟩

/-- The first member, one that is not capable and one that is. -/
theorem witness_PopVisit_first (r : StationRecord) (which : r ∈ [lined, capable]) :
    let s := engaged (bench r lone noList 0) (.askFirst request2)
    Working s (.askFirst request2) ∧ s.RingsLawful ∧ s.firstInLine request2.cls = some 0 ∧
    (s.entry 0).award = none ∧ (∀ lower : AwardId, lower < 0 → (s.entry lower).award ≠ none) ∧
    (s.station 0).descriptor.multiUser = r.descriptor.multiUser ∧
    1 < max 1 (min request2.maximum 8) ∧ request2.multiUser = true ∧ s.InLine request2.cls [0] := by
  have law : ∀ c, (bench r lone noList 0).ClassLawful c := by
    simp only [List.mem_cons, List.not_mem_nil, or_false] at which
    rcases which with rfl | rfl
    · exact lawful_lined
    · exact lawful_capable
  exact ⟨working rfl rfl rfl, rings_engaged law rfl (by simp), firstInLine_lone r,
    by rw [entry_engaged, entry_free rfl], fun lower lt => absurd lt (Nat.not_lt_zero _),
    by rw [station_engaged, bench_first], by decide, rfl,
    inLine_lone (engaged (bench r lone noList 0) (.askFirst request2)) rfl rfl
      ((law .sc0).transfer rfl (fun _ => rfl) rfl rfl)⟩

theorem witness_PopVisit_capable : lined.descriptor.multiUser = false ∧
    capable.descriptor.multiUser = true := ⟨rfl, rfl⟩

/-- An award whose members are being selected, in entry 0. -/
def forming2 : OpenAward := { askTag := 7, cls := .sc0, issue := none, members := [⟨1, true⟩] }
/-- A bench with that award. -/
def selecting (b : State) : State :=
  { b with
    awards := (Vector.replicate 16 { generation := 0, award := none }).set 0
      { generation := 1, award := some forming2 } }

theorem station_selecting (b : State) (h : Handle) : (selecting b).station h = b.station h := by
  unfold State.station selecting; rfl

/-- A conditional pop visit with no station in line, and with one at the head that is capable or not; the
maximum is 2, or 3, with one allowance recorded. -/
theorem witness_ConditionalPop (r : StationRecord) (ring : Ring) (most : Nat)
    (which : (r, ring) ∈ [(silent, noRing), (lined, lone), (capable, lone)]) :
    let a : AskFields := { request2 with maximum := most }
    let s := engaged (selecting (bench r ring noList 0)) (.askMore a 0 [1000])
    Working s (.askMore a 0 [1000]) ∧ s.RingsLawful ∧ (s.entry 0).award = some forming2 ∧
    s.firstInLine a.cls = (if ring.occupancy = 0 then none else some 0) ∧
    (s.station 0).descriptor.multiUser = r.descriptor.multiUser := by
  have entry : (selecting (bench r ring noList 0)).entry 0 =
      { generation := 1, award := some forming2 } := by simp [State.entry, selecting]
  have law : ∀ c, (selecting (bench r ring noList 0)).ClassLawful c := fun c => by
    have base : (bench r ring noList 0).ClassLawful c := by
      simp only [List.mem_cons, List.not_mem_nil, or_false, Prod.mk.injEq] at which
      rcases which with ⟨rfl, rfl⟩ | ⟨rfl, rfl⟩ | ⟨rfl, rfl⟩
      · exact lawful_silent empty_noRing c
      · exact lawful_lined c
      · exact lawful_capable c
    exact base.transfer rfl (fun _ => rfl) rfl rfl
  refine ⟨working rfl rfl rfl, rings_engaged law rfl (by simp), by rw [entry_engaged, entry], ?_,
    by rw [station_engaged, station_selecting, bench_first]⟩
  simp only [List.mem_cons, List.not_mem_nil, or_false, Prod.mk.injEq] at which
  rcases which with ⟨rfl, rfl⟩ | ⟨rfl, rfl⟩ | ⟨rfl, rfl⟩
  · rw [if_pos (show noRing.occupancy = 0 by decide)]
    exact firstInLine_noRing silent 0
  · rw [if_neg (show ¬ lone.occupancy = 0 by decide)]
    exact firstInLine_lone lined
  · rw [if_neg (show ¬ lone.occupancy = 0 by decide)]
    exact firstInLine_lone capable

theorem witness_duration : ∀ x ∈ ([1, 16383] : List Int), 1 ≤ x := by decide

/-- A DONE of entry 0 under this generation with these entries, its award of generation 1 open. -/
def closing (generation : BitVec 4) (entries : List DoneEntry) : State :=
  { awarding (single 1000) with linkUp := true, inbound := [.done 0 generation 400 entries] }

theorem entry_closing (g : BitVec 4) (entries : List DoneEntry) :
    (closing g entries).entry 0 = { generation := 1, award := some (single 1000) } :=
  entry_awarding (single 1000)

theorem witness_Done (g : BitVec 4) (entries : List DoneEntry) : (closing g entries).resetLow = false ∧
    (closing g entries).linkUp = true ∧ (closing g entries).engine = .idle ∧
    (closing g entries).inbound = .done 0 g 400 entries :: [] ∧
    ((closing g entries).entry 0).award = some (single 1000) ∧
    (((closing g entries).entry 0).generation = g ↔ (1 : BitVec 4) = g) :=
  ⟨rfl, rfl, rfl, rfl, by rw [entry_closing], by rw [entry_closing]⟩
theorem witness_Done_entries : ([] : List DoneEntry).length ≠ (single 1000).members.length ∧
    (∃ e ∈ [(⟨.unassigned, 0, false⟩ : DoneEntry)], e.outcome = .unassigned) ∧
    [(⟨.failed, 0, false⟩ : DoneEntry)].length = (single 1000).members.length ∧
    ∀ e ∈ [(⟨.failed, 0, false⟩ : DoneEntry)], e.outcome ≠ .unassigned := by decide
theorem witness_Done_free : (State.reset.entry 0).award = none := by rw [entry_free rfl]

/-- The member visits of a DONE, of an expiry and of the two releases, on the award of entry 0. -/
theorem witness_member_visits (item : EngineItem) (due : item.visit.isSome = true) :
    let s := engaged (awarding (single 1000)) item
    Working s item ∧ (s.entry 0).award = some (single 1000) ∧ (single 1000).issue = some ⟨500, 1000⟩ ∧
    s.openMembers = ⟨0, 0⟩ :: [] :=
  ⟨working rfl rfl due, by rw [entry_engaged, entry_awarding], rfl, by
    show (awarding (single 1000)).openMembers = _
    decide +kernel⟩

theorem witness_member_items : (EngineItem.done 0 400 [⟨0, ⟨.failed, 16, true⟩⟩]).visit.isSome = true ∧
    (EngineItem.expiry 0 [0]).visit.isSome = true ∧ (EngineItem.clearRelease [⟨0, 0⟩]).visit.isSome = true ∧
    (EngineItem.restartRelease 9 [⟨0, 0⟩]).visit.isSome = true := ⟨rfl, rfl, rfl, rfl⟩

theorem witness_ReleasedMember : ((awarding (single 1000)).entry 0).award = some (single 1000) ∧
    (single 1000).members = [] ++ ⟨0, true⟩ :: [] ∧ ∀ m ∈ ([] : List Member), m ≠ ⟨0, true⟩ :=
  ⟨by rw [entry_awarding], rfl, fun m e => by cases e⟩

theorem witness_DueExpiry_due :
    let s := { awarding (single 1000) with dueExpiries := [⟨0, 1⟩, ⟨0, 2⟩, ⟨1, 0⟩] }
    s.resetLow = false ∧ s.engine = .idle ∧ ⟨0, 1⟩ ∈ s.dueExpiries ∧ ⟨0, 2⟩ ∈ s.dueExpiries ∧
    ⟨1, 0⟩ ∈ s.dueExpiries ∧ (s.entry 0).award = some (single 1000) ∧ (s.entry 0).generation = 1 ∧
    (s.entry 0).generation ≠ 2 ∧ (s.entry 1).award = none := by
  have entry := entry_awarding (single 1000)
  refine ⟨rfl, rfl, by decide, by decide, by decide, congrArg (·.award) entry,
    congrArg (·.generation) entry, fun e => ?_, by simp [State.entry, awarding]⟩
  exact absurd ((congrArg (·.generation) entry).symm.trans e) (by decide)

/-- A deadline at the timer's own expiry, and with the timer stopped. -/
theorem witness_DueExpiry_early (running : Bool) :
    let s := { awarding (single 1000) with
      walker := { State.reset.walker with timerRunning := running } }
    s.resetLow = false ∧ s.engine = .idle ∧ ⟨0, 1⟩ ∉ s.dueExpiries ∧
    (s.entry 0).award = some (single 1000) ∧ (single 1000).issue = some ⟨500, 1000⟩ ∧
    (s.entry 0).generation = 1 ∧ s.timebase ≠ 1000 ∧
    ((1000 : Word) - s.timebase).toNat ≤ (s.walker.nextExpiry - s.timebase).toNat := by
  have entry := entry_awarding (single 1000)
  exact ⟨rfl, rfl, by simp [awarding, State.reset], congrArg (·.award) entry, rfl,
    congrArg (·.generation) entry, by show (0 : Word) ≠ 1000; decide,
    by show ((1000 : Word) - 0).toNat ≤ (0 + BitVec.ofNat 32 1000 - 0 : Word).toNat; decide⟩

theorem witness_Release (w : Option OpenAward) :
    let b := match w with
      | none => State.reset
      | some w => awarding w
    let s := { b with releaseDue := true, executing := .clearRelease }
    s.resetLow = false ∧ s.engine = .idle ∧ s.releaseDue = true ∧ s.executing = .clearRelease := by
  cases w <;> exact ⟨rfl, rfl, rfl, rfl⟩
theorem witness_Release_members : State.reset.openMembers = [] ∧
    (awarding (single 1000)).openMembers ≠ [] := by decide +kernel

theorem witness_ReleaseVisit_clear :
    let item := EngineItem.clearRelease [⟨0, 0⟩]
    let s := { engaged (awarding (single 1000)) item with executing := .clearRelease }
    s.resetLow = false ∧ s.engine = item ∧ s.executing = .clearRelease ∧
    s.grants .award PortAsks.none = true ∧ (s.entry 0).award = some (single 1000) :=
  ⟨rfl, rfl, rfl, by decide +kernel, congrArg (·.award) (entry_awarding (single 1000))⟩

/-! ### Witnesses: the walker and the table port -/

/-- A walker with a step in progress before this handle of group 0. -/
def stepping (kind : StepKind) (next : Handle) (lag lead : Nat) : Walker :=
  { State.reset.walker with lag := lag, lead := lead, step := some ⟨kind, next⟩ }

theorem stepping_lawful (next : Handle) (group : next.val < 32) (lag : Nat) (pos : 0 < lag)
    (le : lag ≤ 8) : (stepping .owed next lag 0).Lawful where
  lag_le := le
  lead_le := Nat.zero_le 8
  one_zero := Or.inr rfl
  inGroup p e := by
    cases e
    show next.val / 32 = 0
    omega
  owed _ _ _ := pos
  begun _ := rfl
  stopped e := by cases e

theorem witness_StepTimer_lag (lag : Nat) (pos : 0 < lag) (le : lag ≤ 8) :
    let s := { State.reset with timebase := 1000, walker := stepping .owed 31 lag 0 }
    s.resetLow = false ∧ s.walker.timerRunning = true ∧ s.walker.Lawful ∧
    s.timebase = s.walker.nextExpiry ∧ s.walker.lead = 0 ∧ s.walker.step ≠ none :=
  ⟨rfl, rfl, stepping_lawful 31 (by decide) lag pos le,
    by show (1000 : Word) = 0 + BitVec.ofNat 32 1000; decide, rfl, by simp [stepping]⟩

theorem waiting_lawful (lead : Nat) (le : lead ≤ 8) :
    ({ State.reset.walker with lead := lead } : Walker).Lawful where
  lag_le := Nat.zero_le 8
  lead_le := le
  one_zero := Or.inl rfl
  inGroup p e := by cases e
  owed p e := by cases e
  begun pos := absurd pos (Nat.lt_irrefl 0)
  stopped e := by cases e

theorem witness_StepTimer_none (lead : Nat) (le : lead ≤ 8) :
    let s := { timerAt 1000 with walker := { State.reset.walker with lead := lead } }
    s.resetLow = false ∧ s.walker.timerRunning = true ∧ s.walker.Lawful ∧
    s.timebase = s.walker.nextExpiry ∧ s.walker.lag = 0 ∧ s.walker.lead = lead ∧
    s.walker.step = none :=
  ⟨rfl, rfl, waiting_lawful lead le, by show (1000 : Word) = 0 + BitVec.ofNat 32 1000; decide, rfl,
    rfl, rfl⟩

/-- A walker visit to station 0 in any state, and to a COOLING one with the free list empty. -/
def walking (r : StationRecord) (kind : StepKind) (lag : Nat) : State :=
  { bench r noRing noList 0 with walker := stepping kind 0 lag 0 }

theorem grants_walking (r : StationRecord) (kind : StepKind) (lag : Nat) :
    (walking r kind lag).grants .walker PortAsks.none = true := by
  have due : (walking r kind lag).visitDue .walker = true := rfl
  have award : (walking r kind lag).visitDue .award = false := rfl
  have request : (walking r kind lag).visitDue .request = false := rfl
  simp only [State.grants, State.arrivals, due, award, request, arbitrate]
  simp

theorem witness_WalkerVisit (state : StationState) (cool : Nat) :
    let r := { silent with state := state, coolCountdown := cool }
    (walking r .pulledIn 0).resetLow = false ∧
    (walking r .pulledIn 0).walker.step = some ⟨.pulledIn, 0⟩ ∧
    (walking r .pulledIn 0).grants .walker PortAsks.none = true ∧
    ((walking r .pulledIn 0).station 0).state = state ∧
    ((walking r .pulledIn 0).station 0).coolCountdown = cool ∧
    (walking r .pulledIn 0).freeTail = some 511 ∧ (511 : Handle) ≠ 0 :=
  ⟨rfl, rfl, grants_walking _ _ _, congrArg (·.state) (bench_first _ noRing noList 0),
    congrArg (·.coolCountdown) (bench_first _ noRing noList 0), rfl, by decide⟩
theorem witness_WalkerVisit_emptyList :
    let s := { walking { silent with state := .cooling, coolCountdown := 1 } .pulledIn 0 with freeTail := none }
    s.resetLow = false ∧ s.walker.step = some ⟨.pulledIn, 0⟩ ∧ s.grants .walker PortAsks.none = true ∧
    (s.station 0).state = .cooling ∧ (s.station 0).coolCountdown ≤ 1 ∧ s.freeTail = none := by
  have record : (walking { silent with state := .cooling, coolCountdown := 1 } .pulledIn 0).station 0 =
      { silent with state := .cooling, coolCountdown := 1 } := bench_first _ noRing noList 0
  exact ⟨rfl, rfl, grants_walking { silent with state := .cooling, coolCountdown := 1 } .pulledIn 0,
    congrArg (·.state) record, (congrArg (·.coolCountdown) record).le, rfl⟩

/-- A visit within a step and the last of one, which owes another or does not. -/
theorem witness_StepVisits (next : Handle) (which : next.val = 30 ∨ next.val = 31) (lag : Nat)
    (pos : 0 < lag) (le : lag ≤ 8) :
    let s := { State.reset with walker := stepping .owed next lag 0 }
    s.resetLow = false ∧ s.walker.step = some ⟨.owed, next⟩ ∧
    s.grants .walker PortAsks.none = true ∧ s.walker.Lawful ∧
    (∃ u, exec (.walkerVisit PortAsks.none) s = .next u) ∧
    (next.val % 32 < 31 ∨ next.val % 32 = 31) := by
  refine ⟨rfl, rfl, ?_, stepping_lawful next (by omega) lag pos le, ⟨_, rfl⟩, by omega⟩
  have due : ∀ w : Walker, w.step.isSome = true →
      ({ State.reset with walker := w } : State).grants .walker PortAsks.none = true := fun w some' => by
    have due : ({ State.reset with walker := w } : State).visitDue .walker = true := some'
    have award : ({ State.reset with walker := w } : State).visitDue .award = false := rfl
    have request : ({ State.reset with walker := w } : State).visitDue .request = false := rfl
    simp only [State.grants, State.arrivals, due, award, request, arbitrate]
    simp
  exact due _ rfl

/-- A walker's visit, one of the Request Processor and one of the Award Engine, each with a visit before it:
the Award Engine's, and the walker's with a lag of 8. -/
theorem witness_Arbiter (ex : Execution) (item : EngineItem) (due : ex.visit.isSome = true)
    (due' : item.visit.isSome = true) :
    let w := { engaged quiet (.uplink 0 5) with walker := stepping .owed 0 7 0 }
    let q := { serving quiet ex with walker := stepping .owed 0 8 0 }
    let e := { engaged quiet item with walker := stepping .owed 0 8 0 }
    w.visitDue .walker = true ∧ w.resetLow = false ∧ w.walker.step ≠ none ∧
    w.grants .walker ⟨true, false⟩ = false ∧ q.resetLow = false ∧ q.executing.visit = ex.visit ∧
    q.visitDue .request = true ∧ q.grants .request PortAsks.none = false ∧ e.resetLow = false ∧
    e.engine.visit = item.visit ∧ e.visitDue .award = true ∧
    e.grants .award PortAsks.none = false :=
  ⟨rfl, rfl, by simp [stepping], by decide +kernel, rfl, rfl, due, rfl, rfl, rfl, due', rfl⟩

theorem witness_Arbiter_kinds : (EngineItem.askFirst request2).visit = some .pop ∧
    (EngineItem.askMore request2 0 []).visit = some .conditionalPop ∧
    (EngineItem.done 0 0 []).visit = some .doneMember ∧
    (EngineItem.expiry 0 []).visit = some .expiryMember ∧
    (EngineItem.clearRelease []).visit = some .release ∧
    (EngineItem.backlog []).visit = some .backlogEntry ∧ (EngineItem.uplink 0 0).visit = some .uplink ∧
    (EngineItem.restartBacklog 0 0).visit = some .restartBacklog ∧
    (Execution.admitAllocate (at' 0) false).visit = some .allocation ∧
    (Execution.admitComplete 0 (result .accept) false).visit = some .completion ∧
    (Execution.amend 0 (amendOf []) false).visit = some .amend ∧
    (Execution.reapplyRead 0).visit = some .reapplyRead ∧
    (Execution.reapplyApply 0 (result .accept)).visit = some .reapplyApply ∧
    (Execution.retire 0).visit = some .retire ∧ (Execution.find 0).visit = some .probe ∧
    (Execution.query 0).visit = some .query ∧ (Execution.list 0 0 []).visit = some .scan ∧
    (Execution.clearRecords 0).visit = some .clearRecord :=
  ⟨rfl, rfl, rfl, rfl, rfl, rfl, rfl, rfl, rfl, rfl, rfl, rfl, rfl, rfl, rfl, rfl, rfl, rfl⟩

/-! ### Witnesses: rings and overflow lists -/

/-- A ring of 254 holes. -/
def almost : Ring := { holes with tail := 254 }

theorem empty_almost (i : BitVec 8) : almost.at i = none := by simp [Ring.at, almost, holes]

/-- Every visit that re-evaluates a station, due and granted. -/
theorem witness_Reevaluates (f : AmendFields) :
    (engaged quiet (reportOf true)).Reevaluates (.backlogEntryVisit PortAsks.none) 0 ∧
    (engaged quiet (.uplink 0 5)).Reevaluates (.uplinkVisit PortAsks.none) 0 ∧
    (engaged (awarding (single 1000)) (.done 0 400 [⟨0, ⟨.failed, 16, true⟩⟩])).Reevaluates
      (.doneMemberVisit PortAsks.none) 0 ∧
    (engaged (awarding (single 1000)) (.expiry 0 [0])).Reevaluates (.expiryMemberVisit PortAsks.none) 0 ∧
    (engaged (awarding (single 1000)) (.clearRelease [⟨0, 0⟩])).Reevaluates
      (.releaseVisit PortAsks.none) 0 ∧
    (engaged (awarding (single 1000)) (.restartRelease 9 [⟨0, 0⟩])).Reevaluates
      (.releaseVisit PortAsks.none) 0 ∧
    (engaged quiet (.restartBacklog 9 510)).Reevaluates (.linkRestartBacklogVisit PortAsks.none) 510 ∧
    (serving quiet (.admitComplete 0 (result .accept) false)).Reevaluates
      (.admitCompletionVisit PortAsks.none) 0 ∧
    (serving quiet (.amend 0 f false)).Reevaluates (.amendVisit PortAsks.none) 0 ∧
    (serving quiet (.reapplyApply 0 (result .accept))).Reevaluates
      (.reapplyApplyVisit PortAsks.none) 0 ∧
    (serving quiet (.retire 0)).Reevaluates (.retireVisit PortAsks.none) 0 ∧
    (serving quiet (.clearRecords 510)).Reevaluates (.tableClearRecordVisit PortAsks.none) 510 ∧
    (walking silent .owed 1).Reevaluates (.walkerVisit PortAsks.none) 0 := by
  have award : ∀ item, ((engaged (awarding (single 1000)) item).entry 0).award = some (single 1000) :=
    fun item => by rw [entry_engaged, entry_awarding]
  have engine : ∀ (b : State) (item : EngineItem), b.resetLow = false → b.walker.lag = 0 →
      item.visit.isSome = true → (engaged b item).grants .award PortAsks.none = true :=
    fun b item high lag due => (working high lag due).2.2
  have request : ∀ ex : Execution, ex.visit.isSome = true →
      (serving quiet ex).grants .request PortAsks.none = true :=
    fun ex due => (visiting (b := quiet) rfl rfl rfl rfl due).2.2.2
  exact ⟨.backlogEntry rfl (engine _ _ rfl rfl rfl), .uplink rfl (engine _ _ rfl rfl rfl),
    .doneMember rfl (award _) (engine _ _ rfl rfl rfl), .expiryMember rfl (award _) rfl (engine _ _ rfl rfl rfl),
    .clearRelease rfl (award _) (engine _ _ rfl rfl rfl), .restartRelease rfl (award _) (engine _ _ rfl rfl rfl),
    .restartBacklog rfl (by decide) (engine _ _ rfl rfl rfl), .completion rfl (request _ rfl),
    .amend rfl (request _ rfl), .reapplyApply rfl (request _ rfl), .retire rfl (request _ rfl),
    .clearRecord rfl (by decide) (request _ rfl), .walker rfl (grants_walking silent .owed 1)⟩

/-- Station 0 becomes eligible in SC0 beside a ring with room and beside a full one. -/
theorem witness_Eligible (ring : Ring) (which : ring ∈ [almost, holes]) :
    let s := engaged (bench silent ring noList 0) (reportOf true)
    s.resetLow = false ∧ s.RingsLawful ∧ s.Reevaluates (.backlogEntryVisit PortAsks.none) 0 ∧
    (s.station 0).eligible .sc0 = false ∧ s.ring .sc0 = ring ∧ s.InLine .sc0 [] ∧
    ∃ t, exec (.backlogEntryVisit PortAsks.none) s = .next t ∧ (t.station 0).eligible .sc0 = true := by
  have record : (engaged (bench silent ring noList 0) (reportOf true)).station 0 = silent := by
    rw [station_engaged, bench_first]
  simp only [List.mem_cons, List.not_mem_nil, or_false] at which
  have empty : ∀ i, ring.at i = none := by
    rcases which with rfl | rfl
    · exact empty_almost
    · exact empty_holes
  have run : ring.stations = [] := by
    rw [Ring.stations, List.filterMap_eq_nil_iff]
    exact fun n _ => empty _
  have lawful := rings_engaged (item := reportOf true) (lawful_silent empty) rfl (by simp [reportOf])
  refine ⟨rfl, lawful, .backlogEntry rfl (working rfl rfl rfl).2.2, by rw [record]; rfl, rfl,
    inLine_empty (lawful.classes .sc0) run rfl, _, rfl, ?_⟩
  rcases which with rfl | rfl <;> decide +kernel

theorem witness_Eligible_room : (almost.tail - almost.head).toNat < 255 ∧
    (holes.tail - holes.head).toNat = 255 := by decide

/-- Station 0 stays eligible in SC0, its report set again. -/
theorem witness_Eligible_stays :
    let s := engaged (bench lined lone noList 0) (reportOf true)
    s.resetLow = false ∧ s.RingsLawful ∧ s.Reevaluates (.backlogEntryVisit PortAsks.none) 0 ∧
    (s.station 0).eligible .sc0 = true ∧
    ∃ t, exec (.backlogEntryVisit PortAsks.none) s = .next t ∧ (t.station 0).eligible .sc0 = true := by
  have record : (engaged (bench lined lone noList 0) (reportOf true)).station 0 = lined := by
    rw [station_engaged, bench_first]
  exact ⟨rfl, rings_engaged lawful_lined rfl (by simp [reportOf]),
    .backlogEntry rfl (working rfl rfl rfl).2.2, by rw [record]; rfl, _, rfl, by decide +kernel⟩

theorem witness_Eligible_record : lined.eligible .sc0 = true ∧ dry.isWaiting .sc0 = true ∧
    silent.eligible .sc0 = false ∧ silent.isWaiting .sc0 = false := by decide

/-- Station 0 becomes ineligible in SC0: in the ring, in the list, and in no place. -/
theorem witness_Ineligible (r : StationRecord) (ring : Ring) (list : OverflowList)
    (which : (r, ring, list) ∈ [(lined, lone, noList), (listed, holes, loneList),
      (silent, noRing, noList)]) :
    let s := engaged (bench r ring list 0) (reportOf false)
    s.resetLow = false ∧ s.RingsLawful ∧ s.Reevaluates (.backlogEntryVisit PortAsks.none) 0 ∧
    (s.station 0).ringSlot.get .sc0 = r.ringSlot.get .sc0 ∧
    (s.station 0).overflow.get .sc0 = r.overflow.get .sc0 ∧
    ∃ t, exec (.backlogEntryVisit PortAsks.none) s = .next t ∧ (t.station 0).eligible .sc0 = false := by
  have record : (engaged (bench r ring list 0) (reportOf false)).station 0 = r := by
    rw [station_engaged, bench_first]
  simp only [List.mem_cons, List.not_mem_nil, or_false, Prod.mk.injEq] at which
  refine ⟨rfl, rings_engaged (fun c => ?_) rfl (by simp [reportOf]),
    .backlogEntry rfl (working rfl rfl rfl).2.2, by rw [record], by rw [record], _, rfl, ?_⟩
  · rcases which with ⟨rfl, rfl, rfl⟩ | ⟨rfl, rfl, rfl⟩ | ⟨rfl, rfl, rfl⟩
    · exact lawful_lined c
    · exact lawful_listed c
    · exact lawful_silent empty_noRing c
  · rcases which with ⟨rfl, rfl, rfl⟩ | ⟨rfl, rfl, rfl⟩ | ⟨rfl, rfl, rfl⟩ <;> decide +kernel

theorem witness_Ineligible_places : lined.ringSlot.get .sc0 = some 0 ∧
    listed.overflow.get .sc0 = some { prev := none, next := none } ∧
    silent.ringSlot.get .sc0 = none ∧ silent.overflow.get .sc0 = none := by decide

/-! ### Witnesses: arithmetic, policy and the laws -/

theorem witness_Debits : (-524288 : Int) ≤ -524288 := le_refl _

/-- A rule that agrees with every ADDRESS key of stage 0. -/
def anyAddress : PolicyRule := { PolicyRule.zero .accept with valid := true, stages := 1 }

/-- Rule 59 alone is valid, and agrees. -/
theorem witness_StageSelects_rule :
    let rules := rulesPowerOn.set 59 anyAddress
    ((rules[59]).valid = true ∧ (rules[59]).kind = .address ∧ (rules[59]).stages.getLsbD 0 = true ∧
      ((0x123 : BitVec 48) ^^^ (rules[59]).value) &&& (rules[59]).mask = 0) ∧
    ∀ j : Fin 64, j.val < 59 → (rules[j.val]).valid = false := by
  refine ⟨by simp [anyAddress, PolicyRule.zero], fun j lt => ?_⟩
  have ne : 59 ≠ j.val := by omega
  simp [Vector.getElem_set_ne _ _ ne, rulesPowerOn, PolicyRule.zero]

/-- After reset no rule is valid. -/
theorem witness_StageSelects_default : ∀ i : Fin 64, (State.reset.rules[i.val]).valid = false := by
  intro i
  simp [State.reset, rulesPowerOn, PolicyRule.zero]

/-- A policy of 64 rules of one verdict. -/
def policyOf (v : Verdict) : ClassPolicy :=
  { rules := Vector.replicate 64 (PolicyRule.zero v), checkers := Settings.powerOn.checkers
    defaultProfile := Profile.default, firstKind := .capability }

/-- The verdicts of a stage, in the first and in the last, and the ends of a classification. -/
theorem witness_StageApplies (v : Verdict) (i : Fin 64) :
    (((policyOf v).rules[i.val]).action.verdict = v) ∧ (0 : Fin 4).val + 3 = 3 ∧
    (3 : Fin 4).val + 0 = 3 := by
  refine ⟨by simp [policyOf, PolicyRule.zero], rfl, rfl⟩

theorem witness_Classify_ends :
    let start : ClassWork := { profile := Profile.default, chain := 0, trace := [], chainRange := false }
    (runStages (policyOf .deny) (at' 0) 3 0 .capability start).2 = false ∧
    (runStages (policyOf .accept) (at' 0) 3 0 .capability start).2 = true ∧
    (at' 0).requested = ClassSet.none ∧ ClassSet.all ≠ ClassSet.none := by decide +kernel

/-- A state with every law from which a step is made: station 0 in the ring of SC0. -/
theorem witness_LawsAreKept :
    let s := bench lined lone noList 0
    s.walker.Lawful ∧ s.QueuesLawful ∧ s.RingsLawful ∧ s.FreeListLawful ∧ s.IndexLawful ∧
    s.AwardsLawful ∧ step s = .next s.idleStep :=
  ⟨waiting_lawful 0 (Nat.zero_le 8),
    ⟨by decide, by decide, by decide, by decide, fun ne => absurd rfl ne, fun e => by cases e⟩,
    rings_engaged (b := bench lined lone noList 0) lawful_lined (item := .idle) rfl (by simp),
    freeList_bench _ _ _ (by decide) rfl, index_bench _ _ _ (by decide) (by decide) rfl,
    awards_bench _ _ _ rfl, rfl⟩

theorem witness_AccountLawsAreKept : (bench lined lone noList 0).AccountsLawful := by
  have zero : Profile.cleared.Bounded :=
    ⟨by decide, by decide, by decide, by decide, by decide, by decide⟩
  have fit : Profile.default.Bounded := ⟨by decide, by decide, by decide, by decide, by decide, by decide⟩
  refine ⟨fun h => ?_, fun i => ?_, ⟨fit, by decide⟩, trivial⟩
  · by_cases e : h = 0
    · rw [e, bench_first]
      exact ⟨by decide, by decide, by decide, fit, fun _ => by decide⟩
    · rw [bench_other _ _ _ _ e]
      have credit : (-524288 : Int) ≤ 0 ∧ (0 : Int) ≤ 524287 := by decide
      exact ⟨credit, Nat.zero_le _, Nat.zero_le _, zero, fun e => by cases e⟩
  · have rule : ∀ v, (PolicyRule.zero v).action.values = Profile.cleared := fun _ => rfl
    have bare : ∀ v, (PolicyRule.zero v).action.writes.weight = false := fun _ => rfl
    simpa [bench, State.reset, rulesPowerOn, rule, bare] using zero

end Sys2Proof.Machine
end

section
/-!
PROOFS. The machine after reset: its values block by block (R2, R26, R64, R66, R71, R82, R157), and each of the
laws that every step keeps (O5, O60).
-/

namespace Sys2Proof.Machine

/-! ### The values -/

/-- Every record is FREE and cleared, linked to the next handle (R2). -/
theorem State.station_reset (h : Handle) :
    State.reset.station h = { StationRecord.cleared with nextFree := Handle.after h } := by
  simp [State.station, State.reset, stationsPowerOn]

theorem State.bucketHead_reset (b : BitVec 8) : State.reset.bucketHead b = none := by
  simp [State.bucketHead, State.reset]

theorem State.ring_reset (c : ServiceClass) : State.reset.ring c = Ring.powerOn :=
  PerClass.get_const _ c

theorem State.overflowList_reset (c : ServiceClass) :
    State.reset.overflowList c = OverflowList.powerOn := PerClass.get_const _ c

theorem State.waiting_reset (c : ServiceClass) : State.reset.waiting.get c = 0 := PerClass.get_const _ c

/-- Every slot of a ring after power-on is a hole (R66). -/
theorem Ring.at_powerOn (i : BitVec 8) : Ring.powerOn.at i = none := by
  simp [Ring.at, Ring.powerOn]

theorem State.entry_reset (id : AwardId) :
    State.reset.entry id = { generation := 0, award := none } := by
  simp [State.entry, State.reset, awardsPowerOn]

theorem State.rule_reset (i : Fin 64) :
    State.reset.rules[i.val] = PolicyRule.zero (if i.val < 60 then .goOn else .accept) := by
  simp [State.reset, rulesPowerOn]

/-- Settles O5: the values of every block at the release of RESET_N. -/
theorem resetValues : Obligations.ResetValues := by
  unfold Obligations.ResetValues
  refine ⟨State.station_reset, rfl, rfl, State.bucketHead_reset, fun c => ?_, State.entry_reset,
    State.rule_reset, rfl, rfl, rfl, rfl, rfl, rfl, rfl, rfl, rfl, rfl, rfl, rfl, rfl, rfl, rfl, rfl, rfl,
    rfl, rfl, rfl, rfl, fun f => ?_⟩
  · rw [State.ring_reset, State.overflowList_reset, State.waiting_reset]
    exact ⟨rfl, rfl, Ring.at_powerOn, rfl, rfl⟩
  · cases f <;> rfl

/-! ### The free list in order -/

theorem allHandles_head : allHandles.head? = some 0 := by
  rw [List.head?_eq_getElem?]
  exact List.getElem?_eq_some_iff.mpr ⟨by simp [allHandles], by simp [allHandles]⟩

theorem allHandles_last : allHandles.getLast? = some 511 := by
  rw [List.getLast?_eq_getElem?]
  exact List.getElem?_eq_some_iff.mpr ⟨by simp [allHandles], by simp [allHandles]⟩

/-- All handles are linked in order where each is linked to the next. (The list is named by an equation, so
that it is not unfolded to its 512 members.) -/
theorem chained_allHandles {link : Handle → Option Handle} (each : ∀ h, link h = Handle.after h)
    {all : List Handle} (isAll : all = allHandles) : Chained link all := by
  have length : all.length = 512 := by simp [isAll, allHandles]
  have member : ∀ (i : Nat) (lt : i < 512), all[i]? = some ⟨i, lt⟩ := by
    intro i lt
    rw [isAll, List.getElem?_eq_getElem (by simpa [allHandles] using lt)]
    simp [allHandles]
  refine chained_of_getElem fun i lt => ?_
  have at_ := member i (length ▸ lt)
  rw [List.getElem?_eq_getElem lt, Option.some.injEq] at at_
  rw [each, at_]
  unfold Handle.after
  split
  · next last => exact (member (i + 1) last).symm
  · next last => exact (List.getElem?_eq_none (by rw [length]; exact Nat.not_lt.mp last)).symm

theorem freeOrder_allHandles {s : State} (head : s.freeHead = some 0) (tail : s.freeTail = some 511)
    (each : ∀ h, (s.station h).nextFree = Handle.after h) {all : List Handle} (isAll : all = allHandles) :
    s.FreeOrder all :=
  ⟨by rw [isAll]; exact List.nodup_finRange 512, by rw [isAll, allHandles_head, head],
    by rw [isAll, allHandles_last, tail], chained_allHandles each isAll⟩

/-! ### The laws -/

/-- A record that is cleared but for its free-list link is within the ranges (R2, R44). -/
theorem StationRecord.bounded_cleared (x : Option Handle) :
    ({ StationRecord.cleared with nextFree := x } : StationRecord).Bounded := by
  have credit : (-524288 : Int) ≤ 0 ∧ (0 : Int) ≤ 524287 := by decide
  have profile : Profile.cleared.Bounded :=
    ⟨by decide, by decide, by decide, by decide, by decide, by decide⟩
  exact ⟨credit, Nat.zero_le _, Nat.zero_le _, profile, fun on => by cases on⟩

theorem State.accountsLawful_reset : State.reset.AccountsLawful := by
  have cleared : Profile.cleared.Bounded := (StationRecord.bounded_cleared none).profile
  have default : Profile.default.Bounded :=
    ⟨by decide, by decide, by decide, by decide, by decide, by decide⟩
  refine ⟨fun h => ?_, fun i => ?_, ⟨default, by decide⟩, trivial⟩
  · rw [State.station_reset]
    exact StationRecord.bounded_cleared _
  · rw [State.rule_reset]
    exact ⟨cleared, fun on => by cases on⟩

theorem State.freeListLawful_reset : State.reset.FreeListLawful := by
  obtain ⟨all, isAll⟩ : ∃ all, all = allHandles := ⟨_, rfl⟩
  have order : State.reset.FreeOrder all :=
    freeOrder_allHandles rfl rfl (fun h => by rw [State.station_reset]) isAll
  refine ⟨⟨all, order.nodup, order.head, order.tail, fun h => ?_, order.linked, ?_⟩, ?_, ?_⟩
  · rw [State.station_reset]
    exact iff_of_true (isAll ▸ List.mem_finRange h) rfl
  · intro next clears
    cases clears
  · intro h busy
    rw [State.station_reset] at busy
    exact absurd rfl busy
  · intro h result clamped admits
    cases admits

theorem State.indexLawful_reset : State.reset.IndexLawful := by
  have out : ∀ h, (State.reset.station h).indexed = false := fun h => by
    rw [State.station_reset]
    rfl
  refine ⟨fun b => ⟨[], List.nodup_nil, State.bucketHead_reset b, fun h => ?_, trivial⟩, fun h _ => ?_,
    fun h k isIn => ?_, ?_⟩
  · simp [out h]
  · rw [State.station_reset]
    rfl
  · rw [out h] at isIn
    cases isIn
  · intro h result clamped admits
    cases admits

/-- A cleared record is eligible and waiting in no class (R63). -/
theorem StationRecord.out_cleared (x : Option Handle) (c : ServiceClass) :
    ({ StationRecord.cleared with nextFree := x } : StationRecord).eligible c = false ∧
      ({ StationRecord.cleared with nextFree := x } : StationRecord).isWaiting c = false := ⟨rfl, rfl⟩

theorem State.classLawful_reset (c : ServiceClass) : State.reset.ClassLawful c := by
  have slot : ∀ h, (State.reset.station h).ringSlot.get c = none := fun h => by
    rw [State.station_reset]
    exact PerClass.get_const _ c
  have place : ∀ h, (State.reset.station h).overflow.get c = none := fun h => by
    rw [State.station_reset]
    exact PerClass.get_const _ c
  refine ⟨fun i h => ?_, fun i h on => ?_, fun h => ?_, fun h => ?_, ⟨[], List.nodup_nil, ?_, ?_, ?_, ?_,
    trivial⟩, ?_, ?_⟩
  · rw [State.ring_reset, Ring.at_powerOn, slot]
    simp
  · rw [State.ring_reset, Ring.at_powerOn] at on
    cases on
  · rw [slot, place, State.station_reset, (StationRecord.out_cleared _ c).1]
    simp
  · rw [slot]
    simp
  · rw [State.overflowList_reset]
    rfl
  · rw [State.overflowList_reset]
    rfl
  · rw [State.overflowList_reset]
    rfl
  · intro h
    rw [State.placeOf, place]
    simp
  · rw [State.overflowList_reset]
    exact fun some => absurd some (by decide)
  · rw [State.waiting_reset, State.countWaiting, List.filter_eq_nil_iff.mpr]
    · rfl
    · intro h _
      rw [State.station_reset, (StationRecord.out_cleared _ c).2]
      exact Bool.false_ne_true

theorem State.ringsLawful_reset : State.reset.RingsLawful :=
  ⟨State.classLawful_reset, fun _ _ _ admits => (by cases admits),
    fun _ clears => (by cases clears), fun _ _ restarts => (by cases restarts)⟩

theorem State.awardsLawful_reset : State.reset.AwardsLawful := by
  have closed : ∀ {id w}, (State.reset.entry id).award ≠ some w := fun {id w} opened => by
    rw [State.entry_reset] at opened
    cases opened
  have ground : ∀ h, (State.reset.station h).inFlight = ClassSet.none := fun h => by
    rw [State.station_reset]
    rfl
  refine ⟨fun h c => ?_, fun _ _ _ _ _ opened => (closed opened).elim, fun _ _ opened => (closed opened).elim,
    fun _ _ opened => (closed opened).elim, fun _ _ opened => (closed opened).elim, trivial,
    fun h _ => ground h, fun _ _ _ admits => (by cases admits), ?_, fun _ clears => (by cases clears)⟩
  · rw [ground, ClassSet.none, PerClass.get_const]
    exact iff_of_false Bool.false_ne_true fun ⟨_, _, opened, _⟩ => closed opened
  · refine iff_of_false Bool.false_ne_true ?_
    rintro (clears | ⟨next, clears⟩) <;> cases clears

theorem State.walkerLawful_reset : State.reset.walker.Lawful :=
  ⟨Nat.zero_le _, Nat.zero_le _, Or.inl rfl, fun _ on => (by cases on), fun _ on => (by cases on),
    fun lags => absurd lags (Nat.lt_irrefl 0), fun stopped => by cases stopped⟩

theorem State.queuesLawful_reset : State.reset.QueuesLawful :=
  ⟨Nat.zero_le _, Nat.zero_le _, Nat.zero_le _, Nat.zero_le _, fun busy => absurd rfl busy,
    fun reserved => by cases reserved⟩

/-- Settles O60: the machine after reset has every law that the steps keep. -/
theorem resetHasEveryLaw : Obligations.ResetHasEveryLaw :=
  ⟨State.walkerLawful_reset, State.queuesLawful_reset, State.accountsLawful_reset,
    State.ringsLawful_reset, State.freeListLawful_reset, State.indexLawful_reset, State.awardsLawful_reset⟩

end Sys2Proof.Machine
end

section
/-!
PROOFS. What a visit makes of one record, said once: the records that the Award Engine, the walker, AMEND and
REAPPLY write keep their standing (their place in the free list and in the address index), and the accounts
within their ranges (R1, R4, R11, R13, R44).
-/

namespace Sys2Proof.Machine

/-! ### Standing -/

/-- The record keeps what the free list and the address index read of it: whether it is FREE, FORMING or
indexed, its address and its two links. -/
structure StationRecord.Stands (r q : StationRecord) : Prop where
  free : q.state = .free ↔ r.state = .free
  forming : q.state = .forming ↔ r.state = .forming
  indexed : q.indexed = r.indexed
  address : q.descriptor.linkAddress = r.descriptor.linkAddress
  nextFree : q.nextFree = r.nextFree
  nextInBucket : q.nextInBucket = r.nextInBucket

theorem StationRecord.Stands.trans {r q p : StationRecord} (a : r.Stands q) (b : q.Stands p) :
    r.Stands p :=
  ⟨b.free.trans a.free, b.forming.trans a.forming, b.indexed.trans a.indexed,
    b.address.trans a.address, b.nextFree.trans a.nextFree, b.nextInBucket.trans a.nextInBucket⟩

theorem StationRecord.Stands.settled {r q : StationRecord} (a : r.Stands q) :
    q.settled = r.settled := by
  have free : (q.state == .free) = (r.state == .free) := by
    rw [Bool.eq_iff_iff, beq_iff_eq, beq_iff_eq]; exact a.free
  have forming : (q.state == .forming) = (r.state == .forming) := by
    rw [Bool.eq_iff_iff, beq_iff_eq, beq_iff_eq]; exact a.forming
  simp only [StationRecord.settled, bne, free, forming]

/-- Records with one state, address and pair of links stand alike. -/
theorem StationRecord.Stands.of_state {r q : StationRecord} (state : q.state = r.state)
    (address : q.descriptor.linkAddress = r.descriptor.linkAddress) (nextFree : q.nextFree = r.nextFree)
    (nextInBucket : q.nextInBucket = r.nextInBucket) : r.Stands q :=
  ⟨by rw [state], by rw [state], by simp only [StationRecord.indexed, state], address, nextFree,
    nextInBucket⟩

/-- Two indexed records with one address and pair of links stand alike. -/
theorem StationRecord.Stands.of_indexed {r q : StationRecord} (was : r.indexed = true)
    (is : q.indexed = true) (address : q.descriptor.linkAddress = r.descriptor.linkAddress)
    (nextFree : q.nextFree = r.nextFree) (nextInBucket : q.nextInBucket = r.nextInBucket) :
    r.Stands q := by
  have out : ∀ p : StationRecord, p.indexed = true → p.state ≠ .free ∧ p.state ≠ .forming := by
    intro p on
    constructor <;> intro e <;> simp [StationRecord.indexed, e] at on
  exact ⟨iff_of_false (out q is).1 (out r was).1, iff_of_false (out q is).2 (out r was).2,
    is.trans was.symm, address, nextFree, nextInBucket⟩

/-- A record that stands as a bounded one did, with the same profile and its accounts within their ranges, is
bounded. -/
theorem StationRecord.Bounded.of_stands {r q : StationRecord} (law : r.Bounded) (stands : r.Stands q)
    (profile : q.profile = r.profile) (credit : -524288 ≤ q.credit ∧ q.credit ≤ 524287)
    (usage : q.usage ≤ 65535) (average : q.average ≤ 65535) : q.Bounded :=
  ⟨credit, usage, average, by rw [profile]; exact law.profile,
    fun on => by rw [profile]; exact law.weight (stands.settled ▸ on)⟩

/-- The record keeps its standing and its accounts within their ranges. -/
structure StationRecord.Served (r q : StationRecord) : Prop where
  stands : r.Stands q
  bounded : r.Bounded → q.Bounded

theorem StationRecord.Served.refl (r : StationRecord) : r.Served r :=
  ⟨.of_state rfl rfl rfl rfl, id⟩

theorem StationRecord.Served.trans {r q p : StationRecord} (a : r.Served q) (b : q.Served p) :
    r.Served p := ⟨a.stands.trans b.stands, b.bounded ∘ a.bounded⟩

/-- A record of the same state whose profile, links and accounts are kept is served. -/
theorem StationRecord.Served.of_same {r q : StationRecord} (state : q.state = r.state)
    (descriptor : q.descriptor = r.descriptor) (profile : q.profile = r.profile)
    (credit : q.credit = r.credit) (usage : q.usage = r.usage) (average : q.average = r.average)
    (nextFree : q.nextFree = r.nextFree) (nextInBucket : q.nextInBucket = r.nextInBucket) :
    r.Served q :=
  have stands : r.Stands q := .of_state state (by rw [descriptor]) nextFree nextInBucket
  ⟨stands, fun law => law.of_stands stands profile (by rw [credit]; exact law.credit)
    (by rw [usage]; exact law.usage) (by rw [average]; exact law.average)⟩

/-! ### The records that visits write -/

theorem StationRecord.served_landed (r : StationRecord) (c : ServiceClass) : r.Served (r.landed c) :=
  .of_same rfl rfl rfl rfl rfl rfl rfl rfl

/-- A pop adds its class to the in-flight set (R69). -/
theorem StationRecord.served_inFlight (r : StationRecord) (flight : ClassSet) :
    r.Served { r with inFlight := flight } :=
  .of_same rfl rfl rfl rfl rfl rfl rfl rfl

theorem StationRecord.served_backlog (r : StationRecord) (backlog : ClassSet) :
    r.Served { r with backlog := backlog } :=
  .of_same rfl rfl rfl rfl rfl rfl rfl rfl

theorem StationRecord.served_cooled (r : StationRecord) (coolEpochs : Nat) :
    r.Served (r.cooled coolEpochs) := by
  unfold StationRecord.cooled
  split
  · next drained =>
    have stands : r.Stands { r with state := .cooling, coolCountdown := coolEpochs } :=
      ⟨by simp [drained.1], by simp [drained.1],
        by rw [StationRecord.indexed, StationRecord.indexed, drained.1]; rfl, rfl, rfl, rfl⟩
    exact ⟨stands, fun law => law.of_stands stands rfl law.credit law.usage law.average⟩
  · exact .refl r

theorem StationRecord.served_charged (r : StationRecord) (raw : Nat) : r.Served (r.charged raw) :=
  have stands : r.Stands (r.charged raw) := .of_state rfl rfl rfl rfl
  ⟨stands, fun law => law.of_stands stands rfl (flooredCredit_bounds law.credit.2 _) law.usage law.average⟩

/-- An ACTIVE record whose reports and countdowns change, and which may become DORMANT, is served. -/
theorem StationRecord.served_dormant {r : StationRecord} (active : r.state = .active) (backlog : ClassSet)
    (streak idle : Nat) :
    r.Served { r with state := .dormant, backlog := backlog, failStreak := streak, idleCountdown := idle } :=
  have stands : r.Stands
      { r with state := .dormant, backlog := backlog, failStreak := streak, idleCountdown := idle } :=
    .of_indexed (by simp [StationRecord.indexed, active]) rfl rfl rfl rfl
  ⟨stands, fun law => law.of_stands stands rfl law.credit law.usage law.average⟩

theorem StationRecord.losesReach_active {r : StationRecord} {o : TxOutcome} {failLimit : Nat}
    (loses : r.losesReach o failLimit = true) : r.state = .active := by
  simp only [StationRecord.losesReach, Bool.and_eq_true, beq_iff_eq] at loses
  exact loses.1.1

/-- A DONE makes its member DORMANT where it is unreachable, and leaves its state otherwise (R7, R95). -/
theorem StationRecord.doneBy_state (r : StationRecord) (t : Settings) (w : OpenAward) (airtime : Nat)
    (e : DoneEntry) : (r.doneBy t w airtime e).state =
      if r.losesReach e.outcome t.failLimit then .dormant else r.state := by
  unfold StationRecord.doneBy
  dsimp only
  split <;> split <;> rfl

theorem StationRecord.served_doneBy (r : StationRecord) (t : Settings) (w : OpenAward) (airtime : Nat)
    (e : DoneEntry) : r.Served (r.doneBy t w airtime e) := by
  have kept : (r.doneBy t w airtime e).descriptor = r.descriptor ∧
      (r.doneBy t w airtime e).profile = r.profile ∧ (r.doneBy t w airtime e).average = r.average ∧
      (r.doneBy t w airtime e).nextFree = r.nextFree ∧
      (r.doneBy t w airtime e).nextInBucket = r.nextInBucket ∧
      (r.doneBy t w airtime e).credit =
        flooredCredit r.credit (saturatedDebit (doneDebit r t w airtime e.share)) ∧
      (r.doneBy t w airtime e).usage =
        raisedUsage r.usage (portionOf airtime (readShare (w.members.length == 1) e.share)) := by
    unfold StationRecord.doneBy
    dsimp only
    split <;> split <;> exact ⟨rfl, rfl, rfl, rfl, rfl, rfl, rfl⟩
  obtain ⟨descriptor, profile, average, nextFree, nextInBucket, credit, usage⟩ := kept
  have state := r.doneBy_state t w airtime e
  have stands : r.Stands (r.doneBy t w airtime e) := by
    by_cases loses : r.losesReach e.outcome t.failLimit = true
    · rw [if_pos loses] at state
      exact .of_indexed (by simp [StationRecord.indexed, StationRecord.losesReach_active loses])
        (by rw [StationRecord.indexed, state]; rfl) (by rw [descriptor]) nextFree nextInBucket
    · rw [if_neg loses] at state
      exact .of_state state (by rw [descriptor]) nextFree nextInBucket
  refine ⟨stands, fun law => law.of_stands stands profile ?_ ?_ ?_⟩
  · rw [credit]
    exact flooredCredit_bounds law.credit.2 _
  · rw [usage]
    exact raisedUsage_le _ _
  · rw [average]
    exact law.average

theorem StationRecord.served_averaged (r : StationRecord) (avgShift : Nat) :
    r.Served (r.averaged avgShift) :=
  have stands : r.Stands (r.averaged avgShift) := .of_state rfl rfl rfl rfl
  ⟨stands, fun law => law.of_stands stands rfl law.credit (Nat.zero_le _)
    (newAverage_le law.average law.usage _)⟩

theorem StationRecord.served_replenished (r : StationRecord) (quantum penaltyShift : Nat) :
    r.Served (r.replenished quantum penaltyShift) :=
  have stands : r.Stands (r.replenished quantum penaltyShift) := .of_state rfl rfl rfl rfl
  ⟨stands, fun law => law.of_stands stands rfl
    (paid_bounds _ law.credit.1 law.credit.2 law.profile.ceiling) law.usage law.average⟩

theorem StationRecord.served_idled {r : StationRecord} (active : r.state = .active) (idleLimit : Nat) :
    r.Served (r.idled idleLimit) := by
  unfold StationRecord.idled
  split
  · split
    · exact StationRecord.served_dormant active _ _ _
    · exact .of_same rfl rfl rfl rfl rfl rfl rfl rfl
  · exact .of_same rfl rfl rfl rfl rfl rfl rfl rfl

theorem StationRecord.served_walkedActive {r : StationRecord} (active : r.state = .active) (t : Settings)
    (held : Bool) : r.Served (r.walkedActive t held) := by
  unfold StationRecord.walkedActive
  dsimp only
  split
  · exact (r.served_averaged t.avgShift).trans
      (StationRecord.served_idled (r := r.averaged t.avgShift) active _)
  · exact ((r.served_averaged t.avgShift).trans
      (StationRecord.served_replenished _ t.quantum t.penaltyShift)).trans (StationRecord.served_idled
        (r := (r.averaged t.avgShift).replenished t.quantum t.penaltyShift) active _)

theorem StationRecord.served_backlogged {r : StationRecord} (isIn : r.indexed = true) (e : BacklogEntry)
    (idleLimit : Nat) : r.Served (r.backlogged e idleLimit) := by
  unfold StationRecord.backlogged
  split
  · have stands : r.Stands
        { r with backlog := r.backlog.set e.cls true, idleCountdown := idleLimit, state := .active } :=
      .of_indexed isIn rfl rfl rfl rfl
    exact ⟨stands, fun law => law.of_stands stands rfl law.credit law.usage law.average⟩
  · exact r.served_backlog _

theorem StationRecord.served_uplinked {r : StationRecord} (isIn : r.indexed = true)
    (airtime idleLimit : Nat) : r.Served (r.uplinked airtime idleLimit) :=
  have stands : r.Stands (r.uplinked airtime idleLimit) := .of_indexed isIn rfl rfl rfl rfl
  ⟨stands, fun law => law.of_stands stands rfl (flooredCredit_bounds law.credit.2 _) (raisedUsage_le _ _)
    law.average⟩

/-- The countdown of a COOLING record falls (R118). -/
theorem StationRecord.served_coolCountdown (r : StationRecord) (n : Nat) :
    r.Served { r with coolCountdown := n } :=
  .of_same rfl rfl rfl rfl rfl rfl rfl rfl

/-- AMEND writes the profile, the signal and the credit (R149). -/
theorem StationRecord.stands_amended (r : StationRecord) (f : AmendFields) : r.Stands (r.amended f) :=
  .of_state rfl rfl rfl rfl

/-- REAPPLY writes the profile and the trace (R40). -/
theorem StationRecord.stands_reapplied (r : StationRecord) (result : ClassResult) :
    r.Stands { r with profile := result.profile, trace := result.trace } :=
  .of_state rfl rfl rfl rfl

end Sys2Proof.Machine
end

section
/-!
PROOFS. What one step can do to the station table, said once more on top of `Kept`: a predicate that reads the
records but for their places, the free list, the address index, the rules, the settings and the request under
way is kept by every step where it is kept by the few works of `TableKept`. All visits of the Award Engine,
and the walker's but for the end of COOLING, are one of them: a record written that is served.
-/

namespace Sys2Proof.Machine

/-! ### The part of the state that the station table is in -/

/-- The core of a state beyond its rings, and without the Award Table, the engine's item, the clearing flag
and the clear's due release. -/
def State.table (s : State) : State :=
  { s.beyondRings.core with
    awards := awardsPowerOn, engine := .idle, releaseDue := false, clearing := false }

theorem State.table_of_core {s t : State} (same : t.core = s.core) : t.table = s.table :=
  (congrArg (fun u : State => u.table) same :)

theorem State.table_of_frame {s t : State} (same : t.beyondRings = s.beyondRings) : t.table = s.table :=
  (congrArg (fun u : State => ({ u.core with
    awards := awardsPowerOn, engine := .idle, releaseDue := false, clearing := false } : State)) same :)

theorem State.unplaced_of_table {s t : State} (same : t.table = s.table) (h : Handle) :
    (t.station h).unplaced = (s.station h).unplaced := by
  have records : t.beyondRings.stations = s.beyondRings.stations := (congrArg State.stations same :)
  rw [← State.station_beyondRings, ← State.station_beyondRings, State.station, State.station, records]

theorem State.executing_of_table {s t : State} (same : t.table = s.table) :
    t.executing = s.executing := (congrArg State.executing same :)

theorem State.freeHead_of_table {s t : State} (same : t.table = s.table) : t.freeHead = s.freeHead :=
  (congrArg State.freeHead same :)

theorem State.freeTail_of_table {s t : State} (same : t.table = s.table) : t.freeTail = s.freeTail :=
  (congrArg State.freeTail same :)

theorem State.buckets_of_table {s t : State} (same : t.table = s.table) : t.buckets = s.buckets :=
  (congrArg State.buckets same :)

theorem State.rules_of_table {s t : State} (same : t.table = s.table) : t.rules = s.rules :=
  (congrArg State.rules same :)

theorem State.settings_of_table {s t : State} (same : t.table = s.table) : t.settings = s.settings :=
  (congrArg State.settings same :)

/-- Two states with one table have the same records but for places. -/
theorem State.stands_of_table {s t : State} (same : t.table = s.table) (h : Handle) :
    (s.station h).Stands (t.station h) := by
  have record := State.unplaced_of_table same h
  exact .of_state (congrArg StationRecord.state record :)
    (congrArg (·.descriptor.linkAddress) record :) (congrArg StationRecord.nextFree record :)
    (congrArg StationRecord.nextInBucket record :)

/-- Writing the request under way in two states with one table keeps their tables the same. -/
theorem State.table_executing {s t : State} (same : t.table = s.table) (e : Execution) :
    ({ t with executing := e } : State).table = ({ s with executing := e } : State).table :=
  (congrArg (fun u : State => ({ u with executing := e } : State)) same :)

theorem State.table_engine (s : State) (e : EngineItem) :
    ({ s with engine := e } : State).table = s.table := rfl

theorem State.table_setEntry (s : State) (id : AwardId) (e : AwardEntry) :
    (s.setEntry id e).table = s.table := rfl

theorem State.table_releaseMember (s : State) (id : AwardId) (h : Handle) :
    (s.releaseMember id h).table = s.table := by
  unfold State.releaseMember
  split <;> rfl

theorem State.table_setStation_eq (s : State) (h : Handle) (r : StationRecord) :
    (s.setStation h r).table = s.table.setStation h r.unplaced := by
  unfold State.table
  rw [State.beyondRings_setStation]
  rfl

theorem State.table_setStation {s t : State} (same : t.table = s.table) (h : Handle) (r : StationRecord) :
    (t.setStation h r).table = (s.setStation h r).table := by
  rw [State.table_setStation_eq, State.table_setStation_eq, same]

theorem State.table_clearHead (s : State) (c : ServiceClass) : (s.clearHead c).table = s.table :=
  State.table_of_frame (State.clearHead_frame s c)

theorem State.table_issueAward (s : State) (a : AskFields) (id : AwardId) (allowances : List Int) :
    (s.issueAward a id allowances).table = s.table := by
  unfold State.issueAward
  split <;> rfl

theorem State.table_endSelection (s : State) (defers : Bool) (a : AskFields) (id : AwardId)
    (allowances : List Int) : (s.endSelection defers a id allowances).table = s.table := by
  unfold State.endSelection
  split
  · rfl
  · exact State.table_issueAward s a id allowances

theorem State.table_appendMember (s : State) (id : AwardId) (h : Handle) :
    (s.appendMember id h).table = s.table := by
  unfold State.appendMember
  split <;> rfl

/-- On the table, a pop writes the station's in-flight set (R69). -/
theorem State.table_popHead (s : State) (c : ServiceClass) (h : Handle) :
    (s.popHead c h).table = (s.setStation h
      { s.station h with inFlight := (s.station h).inFlight.set c true }).table :=
  State.table_of_frame (State.popHead_frame s c h)

theorem State.table_popFirst (s : State) (defers : Bool) (a : AskFields) (id : AwardId) (h : Handle) :
    (s.popFirst defers a id h).table = (s.popHead a.cls h).table := by
  unfold State.popFirst
  dsimp only
  split
  · exact (State.table_engine _ _).trans (State.table_setEntry _ _ _)
  · exact (State.table_endSelection _ _ _ _ _).trans (State.table_setEntry _ _ _)

theorem State.table_popFurther (s : State) (defers : Bool) (a : AskFields) (id : AwardId)
    (allowances : List Int) (h : Handle) :
    (s.popFurther defers a id allowances h).table = (s.popHead a.cls h).table := by
  unfold State.popFurther
  dsimp only
  split
  · exact (State.table_engine _ _).trans (State.table_appendMember _ _ _)
  · exact (State.table_endSelection _ _ _ _ _).trans (State.table_appendMember _ _ _)

/-- On the table, the end of a closing visit writes the record, COOLING where R9 says so (R95). -/
theorem State.table_closeMember (s : State) (id : AwardId) (h : Handle) (r : StationRecord) :
    (s.closeMember id h r).table = (s.setStation h (r.cooled s.settings.coolEpochs)).table :=
  (State.table_of_frame (State.closeMember_frame s id h r)).trans
    (State.table_setStation (State.table_releaseMember s id h) h _)

theorem State.table_writeBack (s : State) (h : Handle) (r : StationRecord) :
    (s.writeBack h r).table = (s.setStation h r).table :=
  State.table_of_frame (State.writeBack_frame s h r)

theorem State.table_resetRings (s : State) : s.resetRings.table = s.table := rfl

/-- On the table, a record enters the index in the same way (R13). -/
theorem State.table_enterIndex {s t : State} (same : t.table = s.table) (h : Handle) :
    (t.enterIndex h).table = (s.enterIndex h).table := by
  have on : ∀ u : State, (u.enterIndex h).table = u.table.enterIndex h := by
    intro u
    have record : u.table.station h = (u.station h).unplaced := State.station_beyondRings u h
    unfold State.enterIndex
    dsimp only
    rw [record, State.setNextInBucket_eq, State.setNextInBucket_eq, record]
    show ((u.setStation h _).table).setBucketHead _ _ = _
    rw [State.table_setStation_eq]
    rfl
  rw [on, on, same]

/-! ### The works on the table -/

/-- The request under way holds no FORMING record and no handle of a TABLE_CLEAR. -/
def Execution.Loose (e : Execution) : Prop :=
  (∀ h r c, e ≠ .admitComplete h r c) ∧ ∀ n, e ≠ .clearRecords n

/-- The works on the station table, each with what holds when it is made: the predicate `P`, which reads the
table only, is kept by each of them on the states in which `B` holds. What a work writes is within the ranges
of the accounts where the state is. -/
structure TableKept (B P : State → Prop) : Prop where
  quietB : ∀ s t : State, t.core = s.core → B s → B t
  sees : ∀ s t : State, t.table = s.table → P s → P t
  reset : P State.reset
  turned : ∀ (s : State) (e : Execution), P s → e.Loose → (s.AccountsLawful → e.Bounded) →
    P { s with executing := e }
  configured : ∀ (s : State) (rules : Vector PolicyRule 64) (settings : Settings), P s →
    (s.AccountsLawful → ({ s with rules := rules, settings := settings } : State).AccountsLawful) →
    P { s with rules := rules, settings := settings }
  wrote : ∀ (s : State) (h : Handle) (q : StationRecord), P s → (s.station h).Stands q →
    (s.AccountsLawful → q.Bounded) → P (s.setStation h q)
  allocated : ∀ (s : State) (d : Descriptor) (clamped : Bool) (h : Handle), B s → P s →
    s.probe d.linkAddress = none → s.freeHead = some h →
    P { (s.takeFree h).changeStation h fun r => { r with state := .forming, descriptor := d } with
        executing := .admitComplete h (classify s.classPolicy d).1 clamped }
  completed : ∀ (s : State) (h : Handle) (result : ClassResult) (clamped : Bool), B s → P s →
    s.executing = .admitComplete h result clamped →
    P { (s.setStation h (admitted (s.station h) s.settings result)).enterIndex h with executing := .idle }
  denied : ∀ (s : State) (h : Handle) (result : ClassResult) (clamped : Bool), B s → P s →
    s.executing = .admitComplete h result clamped → P { s.freeAtHead h with executing := .idle }
  retired : ∀ (s : State) (h : Handle), B s → P s → s.executing = .retire h →
    (s.station h).indexed = true → P { (s.leaveIndex h).setStation h
      (((s.leaveIndex h).station h).retired s.settings.coolEpochs) with executing := .idle }
  begun : ∀ s : State, P s → s.executing = .clearRelease → P { s with executing := .clearRecords 0 }
  cleared : ∀ (s : State) (h next : Handle), B s → P s → s.executing = .clearRecords h →
    next.val = h.val + 1 → P { s.clearRecord h with executing := .clearRecords next }
  clearEnded : ∀ (s : State) (h : Handle), B s → P s → s.executing = .clearRecords h → h.val = 511 →
    P { s.clearRecord h with executing := .idle }
  freed : ∀ (s : State) (h : Handle), B s → P s → (s.station h).state = .cooling → P (s.freeAtTail h)

theorem Execution.Started.loose {e : Execution} (on : e.Started) : e.Loose :=
  ⟨by rintro h r c rfl; exact on, by rintro n rfl; exact on⟩

/-- What a request has in hand right after its start is within the ranges (R149). -/
theorem Execution.Started.bounded {e : Execution} (on : e.Started) : e.Bounded := by
  cases e with
  | amend h f clamped =>
    obtain ⟨p, rfl⟩ := on
    obtain ⟨fit, least⟩ := Profile.clamp_bounded (amendRaw p).values
    exact ⟨fit, least, le_clampInt _ _ _, clampInt_le _ (by decide)⟩
  | admitComplete h r c => exact on.elim
  | reapplyApply h r => exact on.elim
  | _ => trivial

theorem Execution.loose_idle : Execution.idle.Loose := ⟨by simp, by simp⟩

namespace TableKept

variable {B P : State → Prop}

theorem idle (k : TableKept B P) {s : State} (p : P s) : P { s with executing := .idle } :=
  k.turned s .idle p Execution.loose_idle fun _ => trivial

/-- The engine's item in hand is not in the table. -/
theorem engine (k : TableKept B P) {s : State} (p : P s) (e : EngineItem) : P { s with engine := e } :=
  k.sees s _ (State.table_engine s e) p

/-- A record written back that keeps its standing. -/
theorem wroteBack (k : TableKept B P) {s : State} {h : Handle} {q : StationRecord} (p : P s)
    (stands : (s.station h).Stands q) (bounded : s.AccountsLawful → q.Bounded) : P (s.writeBack h q) :=
  k.sees _ _ (State.table_writeBack s h q) (k.wrote s h q p stands bounded)

/-- A record written that is served. -/
theorem served (k : TableKept B P) {s : State} {h : Handle} {q : StationRecord} (p : P s)
    (served : (s.station h).Served q) : P (s.setStation h q) :=
  k.wrote s h q p served.stands fun law => served.bounded (law.records h)

theorem servedBack (k : TableKept B P) {s : State} {h : Handle} {q : StationRecord} (p : P s)
    (served : (s.station h).Served q) : P (s.writeBack h q) :=
  k.wroteBack p served.stands fun law => served.bounded (law.records h)

/-- A closing visit that writes a served record. -/
theorem closed (k : TableKept B P) {s : State} {h : Handle} {q : StationRecord} (p : P s)
    (served : (s.station h).Served q) (id : AwardId) : P (s.closeMember id h q) :=
  k.sees _ _ (State.table_closeMember s id h q)
    (k.served p (served.trans (StationRecord.served_cooled q _)))

theorem popped (k : TableKept B P) {s : State} (p : P s) (c : ServiceClass) (h : Handle) :
    P (s.popHead c h) :=
  k.sees _ _ (State.table_popHead s c h) (k.served p (StationRecord.served_inFlight _ _))

theorem releasedOne (k : TableKept B P) {s : State} (p : P s) (w : ReleaseWork) (empties : Bool) :
    P (s.releaseOne w empties) := by
  unfold State.releaseOne
  split
  · exact p
  · next a _ =>
    dsimp only
    have landed := StationRecord.served_landed (s.station w.handle) a.cls
    split
    · exact k.closed p (landed.trans (StationRecord.served_backlog _ _)) w.id
    · exact k.closed p landed w.id

/-- The clear's release reported done begins its record visits (R101). -/
theorem releaseDone (k : TableKept B P) {s : State} (p : P s) : P s.releaseDone := by
  by_cases waits : s.executing = .clearRelease
  · refine k.sees { s with executing := .clearRecords 0 } _ ?_ (k.begun s p waits)
    unfold State.releaseDone
    rw [if_pos waits]
    rfl
  · refine k.sees s _ ?_ p
    unfold State.releaseDone
    rw [if_neg waits]
    rfl

theorem uplinkStation (k : TableKept B P) {s : State} (p : P s) (h : Handle) (airtime : Nat) :
    P (s.uplinkStation h airtime) := by
  have raised : ∀ b, P (s.raiseIf b .floor) := fun b =>
    k.sees s _ (State.table_of_core (State.core_raiseIf s b .floor)) p
  have charged : ∀ b, (s.station h).indexed = true →
      P ((s.raiseIf b .floor).writeBack h ((s.station h).uplinked airtime s.settings.idleLimit)) := by
    intro b isIn
    refine k.servedBack (raised b) ?_
    rw [show (s.raiseIf b .floor).station h = s.station h by cases b <;> rfl]
    exact StationRecord.served_uplinked isIn _ _
  have stale : P (s.raise .stale) := k.sees s _ rfl p
  unfold State.uplinkStation
  dsimp only
  split
  · exact stale
  · exact stale
  · exact stale
  · exact p
  · next active => exact charged _ (by simp [StationRecord.indexed, active])
  · next dormant => exact charged _ (by simp [StationRecord.indexed, dormant])

theorem backlogEntry (k : TableKept B P) {s : State} (p : P s) (e : BacklogEntry) :
    P (s.backlogEntry e) := by
  have stale : P (s.raise .stale) := k.sees s _ rfl p
  have noted : (s.station e.handle).indexed = true →
      P (s.writeBack e.handle ((s.station e.handle).backlogged e s.settings.idleLimit)) := fun isIn =>
    k.servedBack p (StationRecord.served_backlogged isIn e _)
  unfold State.backlogEntry
  dsimp only
  split
  · exact stale
  · exact stale
  · exact stale
  · next active => exact noted (by simp [StationRecord.indexed, active])
  · next dormant =>
    split
    · exact noted (by simp [StationRecord.indexed, dormant])
    · exact p
  · exact p

theorem emptyBacklog (k : TableKept B P) {s : State} (p : P s) (h : Handle) : P (s.emptyBacklog h) := by
  unfold State.emptyBacklog
  dsimp only
  split
  · exact k.servedBack p (StationRecord.served_backlog _ _)
  · exact p

theorem walkRecord (k : TableKept B P) {s : State} (b : B s) (p : P s) (h : Handle) :
    P (s.walkRecord h) := by
  unfold State.walkRecord
  dsimp only
  split
  · exact p
  · exact p
  · next active => exact k.servedBack p (StationRecord.served_walkedActive active _ _)
  · exact k.servedBack p (StationRecord.served_averaged _ _)
  · exact k.servedBack p (StationRecord.served_averaged _ _)
  · next cooling =>
    split
    · exact k.freed s h b p cooling
    · exact k.served p (StationRecord.served_coolCountdown _ _)

theorem doneMember (k : TableKept B P) {s : State} (p : P s) (id : AwardId) (w : OpenAward)
    (airtime : Nat) (h : Handle) (e : DoneEntry) : P (s.doneMember id w airtime h e) := by
  unfold State.doneMember
  dsimp only
  generalize flagged : (s.chargeFlags (s.station h) (doneDebit (s.station h) s.settings w airtime
    e.share)).raiseIf ((s.station h).losesReach e.outcome s.settings.failLimit) .unreachable = u
  have same : u.core = s.core := by
    rw [← flagged, State.chargeFlags, State.core_raiseIf, State.core_raiseIf, State.core_raiseIf]
  have record : u.station h = s.station h :=
    (congrArg (fun v : State => v.station h) same : u.core.station h = s.core.station h)
  refine k.closed (k.sees s u (State.table_of_core same) p) ?_ id
  rw [record]
  exact StationRecord.served_doneBy _ _ _ _ _

theorem expiryMember (k : TableKept B P) {s : State} (p : P s) (id : AwardId) (w : OpenAward)
    (i : Issue) (h : Handle) : P (s.expiryMember id w i h) := by
  unfold State.expiryMember
  dsimp only
  generalize flagged : s.chargeFlags (s.station h) (expiryDebit (s.station h) s.settings w i) = u
  have same : u.core = s.core := by
    rw [← flagged, State.chargeFlags, State.core_raiseIf, State.core_raiseIf]
  have record : u.station h = s.station h :=
    (congrArg (fun v : State => v.station h) same : u.core.station h = s.core.station h)
  refine k.closed (k.sees s u (State.table_of_core same) p) ?_ id
  rw [record]
  exact (StationRecord.served_charged _ _).trans (StationRecord.served_landed _ _)

end TableKept

/-! ### The rules and settings (R27, R158) -/

/-- A rule that is stored is within the ranges, the weight 1 at least (R27, R173). -/
theorem ruleOf_bounded (coded : List Byte) :
    (ruleOf coded).action.values.Bounded ∧ 1 ≤ (ruleOf coded).action.values.weight :=
  Profile.clamp_bounded _

theorem State.AccountsLawful.setRule {s : State} (law : s.AccountsLawful) (n : Nat) (lt : n < 64)
    (coded : List Byte) : ({ s with rules := s.rules.set n (ruleOf coded) } : State).AccountsLawful := by
  refine ⟨law.records, fun i => ?_, law.defaults, law.executing⟩
  dsimp only
  rw [Vector.getElem_set]
  split
  · exact ⟨(ruleOf_bounded coded).1, fun _ => (ruleOf_bounded coded).2⟩
  · exact law.rules i

/-- A settings item that is stored keeps the default profile within the ranges (R157, R158). -/
theorem Settings.write_bounded {t : Settings} (law : t.defaultProfile.Bounded)
    (least : 1 ≤ t.defaultProfile.weight) (v : Word) (i : SettingItem) :
    (t.write v i).defaultProfile.Bounded ∧ 1 ≤ (t.write v i).defaultProfile.weight := by
  obtain ⟨weight, ceiling, borrow, costShift, uplinkEighths, softCap⟩ := law
  cases i with
  | defaultWeight =>
    exact ⟨⟨clampNat_le _ (by decide), ceiling, borrow, costShift, uplinkEighths, softCap⟩,
      le_clampNat _ _ _⟩
  | defaultCeiling =>
    exact ⟨⟨weight, clampNat_le _ (by decide), borrow, costShift, uplinkEighths, softCap⟩, least⟩
  | defaultBorrow =>
    exact ⟨⟨weight, ceiling, clampNat_le _ (by decide), costShift, uplinkEighths, softCap⟩, least⟩
  | defaultCostShift =>
    exact ⟨⟨weight, ceiling, borrow, ⟨le_clampInt _ _ _, clampInt_le _ (by decide)⟩, uplinkEighths,
      softCap⟩, least⟩
  | defaultUplinkEighths =>
    exact ⟨⟨weight, ceiling, borrow, costShift, clampNat_le _ (by decide), softCap⟩, least⟩
  | defaultSoftCap =>
    exact ⟨⟨weight, ceiling, borrow, costShift, uplinkEighths, clampNat_le _ (by decide)⟩, least⟩
  | _ => exact ⟨⟨weight, ceiling, borrow, costShift, uplinkEighths, softCap⟩, least⟩

theorem State.AccountsLawful.write {s : State} (law : s.AccountsLawful) (v : Word) (i : SettingItem) :
    ({ s with settings := s.settings.write v i } : State).AccountsLawful :=
  ⟨law.records, law.rules, Settings.write_bounded law.defaults.1 law.defaults.2 v i, law.executing⟩

theorem State.AccountsLawful.classPolicy {s : State} (law : s.AccountsLawful) : s.classPolicy.Bounded :=
  ⟨law.rules, law.defaults⟩

theorem StationRecord.settled_of_indexed {r : StationRecord} (isIn : r.indexed = true) :
    r.settled = true := by
  cases state : r.state <;> simp_all [StationRecord.indexed, StationRecord.settled]

/-- An AMEND of a record within the ranges keeps it so (R149). -/
theorem StationRecord.Bounded.amended {r : StationRecord} (law : r.Bounded) (isIn : r.indexed = true)
    {f : AmendFields} (values : f.values.Bounded) (least : 1 ≤ f.values.weight)
    (low : -524288 ≤ f.credit) (high : f.credit ≤ 524287) : (r.amended f).Bounded := by
  refine ⟨?_, law.usage, law.average, law.profile.merge values _, fun _ =>
    Profile.merge_weight (law.weight (StationRecord.settled_of_indexed isIn)) fun _ => least⟩
  unfold StationRecord.amended
  dsimp only
  split
  · exact ⟨low, high⟩
  · exact law.credit

/-- A record takes a profile within the ranges (R40). -/
theorem StationRecord.Bounded.reapplied {r : StationRecord} (law : r.Bounded) {result : ClassResult}
    (within : result.profile.Bounded) (least : 1 ≤ result.profile.weight) :
    ({ r with profile := result.profile, trace := result.trace } : StationRecord).Bounded :=
  ⟨law.credit, law.usage, law.average, within, fun _ => least⟩

/-! ### Every step -/

/-- Every work of the part is one of the works on the table, or does not touch it. -/
theorem TableKept.kept {B P : State → Prop} (k : TableKept B P) : Kept B P where
  quietB := k.quietB
  quiet _ _ same p := k.sees _ _ (State.table_of_core same) p
  reset := k.reset
  ended _ _ p _ _ := k.idle p
  started s e _ p _ on := k.turned s e p on.loose fun _ => on.bounded
  ruled s n lt coded _ p := k.configured s _ s.settings p fun law => law.setRule n lt coded
  written s v i _ p := k.configured s s.rules _ p fun law => law.write v i
  clearing s _ p _ := k.sees { s with executing := .clearRelease } _ rfl
    (k.turned s .clearRelease p ⟨by simp, by simp⟩ fun _ => trivial)
  allocated s d clamped h b p _ absent head := k.allocated s d clamped h b p absent head
  completed s h result clamped b p ex _ := by
    exact k.sees _ _ (State.table_executing (State.table_enterIndex (State.table_writeBack s h _) h) _)
      (k.completed s h result clamped b p ex)
  denied s h result clamped b p ex := k.denied s h result clamped b p ex
  amended s h f clamped _ p ex isIn := by
    refine k.idle (k.wroteBack p (StationRecord.stands_amended _ f) fun law => ?_)
    have within := law.executing
    rw [ex] at within
    obtain ⟨values, least, low, high⟩ := within
    exact (law.records h).amended isIn values least low high
  reread s h _ p _ _ := k.turned s _ p ⟨by simp, by simp⟩ fun law => classify_bounded law.classPolicy _
  reapplied s h result _ p ex := by
    refine k.idle (k.wroteBack p (StationRecord.stands_reapplied _ result) fun law => ?_)
    have within := law.executing
    rw [ex] at within
    exact (law.records h).reapplied within.1 within.2
  retired s h b p ex isIn := k.sees _ _ (State.table_executing (State.table_writeBack _ h _) _)
    (k.retired s h b p ex isIn)
  listed s states h next found more _ p _ := k.turned s _ p ⟨by simp, by simp⟩ fun _ => trivial
  cleared s h next b p ex after := k.cleared s h next b p ex after
  clearEnded s h b p ex last := k.sees { s.clearRecord h with executing := .idle } _ rfl
    (k.clearEnded s h b p ex last)
  taken _ e _ p _ _ := k.engine p e
  asked _ a _ p _ _ _ := k.engine p (.askFirst a)
  judged _ _ _ _ _ _ p _ _ _ := k.engine p _
  expired _ _ _ _ p _ _ := k.engine p _
  restarted _ _ _ p _ := k.engine p _
  released s _ p _ _ := by
    have taken : P { s with releaseDue := false } := k.sees s _ rfl p
    split
    · exact k.releaseDone taken
    · exact k.engine taken _
  sent _ _ _ p _ := k.engine p _
  declined s a _ _ p _ _ := k.engine (k.sees s _ (State.table_clearHead s a.cls) p) _
  unclaimed s a _ _ p _ _ _ := k.sees s _ (State.table_clearHead s a.cls) p
  claimed s defers a h id _ p _ _ _ := k.sees _ _ (State.table_popFirst _ defers a id h)
    (k.popped (k.sees s _ (State.table_clearHead s a.cls) p) a.cls h)
  selected s defers a id allowances _ p _ := k.sees s _
    ((State.table_endSelection _ defers a id allowances).trans (State.table_clearHead s a.cls)) p
  joined s defers a id allowances h _ p _ _ := k.sees _ _
    (State.table_popFurther _ defers a id allowances h)
    (k.popped (k.sees s _ (State.table_clearHead s a.cls) p) a.cls h)
  issued s a id allowances _ _ _ p _ _ _ :=
    k.engine (k.sees s _ (State.table_issueAward s a id allowances) p) _
  doneVisited _ id airtime m _ w _ p _ _ := k.engine (k.doneMember p id w airtime m.handle m.entry) _
  doneEnded _ _ _ _ _ p _ _ := k.engine p _
  expiryVisited _ id h _ w i _ p _ _ _ := k.engine (k.expiryMember p id w i h) _
  expiryEnded _ _ _ _ p _ _ := k.engine p _
  clearReleased _ m _ _ p _ := by
    split
    · exact k.releaseDone (k.releasedOne p m false)
    · exact k.engine (k.releasedOne p m false) _
  clearReleaseEnded _ _ p _ := k.releaseDone p
  restartReleased _ _ m _ _ p _ := k.engine (k.releasedOne p m true) _
  restartReleaseEnded _ _ _ p _ := k.engine p _
  reported _ e _ _ p _ := k.engine (k.backlogEntry p e) _
  reportEnded _ _ p _ := k.engine p _
  uplinked _ h airtime _ p _ := k.engine (k.uplinkStation p h airtime) _
  emptied _ _ h _ _ p _ _ := k.engine (k.emptyBacklog p h) _
  restartEnded s _ h _ _ p _ _ := k.engine
    (k.sees (s.emptyBacklog h) _ (State.table_resetRings _) (k.emptyBacklog p h)) _
  walked _ h b p := k.walkRecord b p h

end Sys2Proof.Machine
end

section
/-!
PROOFS. The accounts (O55): every work on the station table keeps each credit, usage, average and profile within
its range (R1, R4, R44).
-/

namespace Sys2Proof.Machine

/-! ### Records within their ranges -/

/-- A change of links and places keeps a record within its ranges. -/
theorem StationRecord.Bounded.of_content {r q : StationRecord} (law : r.Bounded)
    (same : ({ q with nextFree := none, nextInBucket := none } : StationRecord).unplaced =
      ({ r with nextFree := none, nextInBucket := none } : StationRecord).unplaced) : q.Bounded := by
  have bare : ({ r with nextFree := none, nextInBucket := none } : StationRecord).unplaced.Bounded :=
    ⟨law.credit, law.usage, law.average, law.profile, law.weight⟩
  rw [← same] at bare
  exact ⟨bare.credit, bare.usage, bare.average, bare.profile, bare.weight⟩

/-- The record that an accepted ADMIT makes is within the ranges (R19, R48). -/
theorem admitted_bounded (r : StationRecord) (t : Settings) {result : ClassResult}
    (within : result.profile.Bounded) (least : 1 ≤ result.profile.weight) :
    (admitted r t result).Bounded := by
  obtain ⟨low, high⟩ := initialCredit_bounds within t.quantum
  refine ⟨?_, Nat.zero_le _, Nat.zero_le _, within, fun _ => least⟩
  show -524288 ≤ initialCredit t.quantum result.profile ∧ initialCredit t.quantum result.profile ≤ 524287
  omega

/-- RETIRE keeps a record within its ranges (R20). -/
theorem StationRecord.Bounded.retired {r : StationRecord} (law : r.Bounded) (isIn : r.indexed = true)
    (coolEpochs : Nat) : (r.retired coolEpochs).Bounded := by
  have least := law.weight (StationRecord.settled_of_indexed isIn)
  unfold StationRecord.retired
  split <;> exact ⟨law.credit, law.usage, law.average, law.profile, fun _ => least⟩

/-! ### The laws of the accounts -/

namespace State.AccountsLawful

variable {s t : State}

theorem setStation (law : s.AccountsLawful) (h : Handle) {q : StationRecord} (bounded : q.Bounded) :
    (s.setStation h q).AccountsLawful := by
  refine ⟨fun k => ?_, law.rules, law.defaults, law.executing⟩
  rw [State.station_setStation]
  split
  · exact bounded
  · exact law.records k

theorem setExecuting (law : s.AccountsLawful) {e : Execution} (bounded : e.Bounded) :
    ({ s with executing := e } : State).AccountsLawful :=
  ⟨law.records, law.rules, law.defaults, bounded⟩

theorem of_table (law : s.AccountsLawful) (same : t.table = s.table) : t.AccountsLawful := by
  refine ⟨fun h => ?_, ?_, ?_, ?_⟩
  · refine (law.records h).of_content ?_
    exact congrArg
      (fun r : StationRecord => ({ r with nextFree := none, nextInBucket := none } : StationRecord))
      (State.unplaced_of_table same h)
  · rw [State.rules_of_table same]
    exact law.rules
  · rw [State.settings_of_table same]
    exact law.defaults
  · rw [State.executing_of_table same]
    exact law.executing

/-- A change of the free list and the index is not seen. -/
theorem of_links (law : s.AccountsLawful) (stations : ∀ k, (t.station k).Bounded)
    (rules : t.rules = s.rules) (settings : t.settings = s.settings) (executing : t.executing = s.executing) :
    t.AccountsLawful :=
  ⟨stations, by rw [rules]; exact law.rules, by rw [settings]; exact law.defaults,
    by rw [executing]; exact law.executing⟩

theorem setNextFree (law : s.AccountsLawful) (h : Handle) (x : Option Handle) :
    (s.setNextFree h x).AccountsLawful := law.setStation h ((law.records h).of_content rfl)

theorem setNextInBucket (law : s.AccountsLawful) (h : Handle) (x : Option Handle) :
    (s.setNextInBucket h x).AccountsLawful := law.setStation h ((law.records h).of_content rfl)

theorem takeFree (law : s.AccountsLawful) (h : Handle) : (s.takeFree h).AccountsLawful :=
  have linked := law.setNextFree h none
  linked.of_links linked.records rfl rfl rfl

theorem freeAtHead (law : s.AccountsLawful) (h : Handle) : (s.freeAtHead h).AccountsLawful :=
  have freed := law.setStation h (StationRecord.bounded_cleared s.freeHead)
  freed.of_links freed.records rfl rfl rfl

theorem freeAtTail (law : s.AccountsLawful) (h : Handle) : (s.freeAtTail h).AccountsLawful := by
  have freed := law.setStation h (StationRecord.bounded_cleared none)
  unfold State.freeAtTail
  dsimp only
  split
  · exact freed.of_links freed.records rfl rfl rfl
  · next t _ =>
    have linked := freed.setNextFree t (some h)
    exact linked.of_links linked.records rfl rfl rfl

theorem enterIndex (law : s.AccountsLawful) (h : Handle) : (s.enterIndex h).AccountsLawful :=
  have linked := law.setNextInBucket h (s.bucketHead (bucketOf (s.station h).descriptor.linkAddress))
  linked.of_links linked.records rfl rfl rfl

theorem leaveIndex (law : s.AccountsLawful) (h : Handle) : (s.leaveIndex h).AccountsLawful := by
  unfold State.leaveIndex
  dsimp only
  split
  · exact (law.setNextInBucket _ _).setNextInBucket _ _
  · split
    · refine State.AccountsLawful.setNextInBucket ?_ _ _
      exact law.of_links law.records rfl rfl rfl
    · exact law.setNextInBucket _ _

/-- A record visit of a TABLE_CLEAR keeps every record within its ranges (R22). -/
theorem clearRecord (law : s.AccountsLawful) (h : Handle) : (s.clearRecord h).AccountsLawful := by
  obtain ⟨cleared, others⟩ := s.clearRecord_records h
  have frame := s.clearRecord_frame h
  refine law.of_links (fun k => ?_) (congrArg State.rules frame :) (congrArg State.settings frame :)
    (congrArg State.executing frame :)
  by_cases own : k = h
  · subst own
    exact (StationRecord.bounded_cleared none).of_content (congrArg
      (fun r : StationRecord => ({ r with nextInBucket := none } : StationRecord).unplaced) cleared)
  · exact (law.records k).of_content (others k own)

end State.AccountsLawful

theorem accounts_kept : TableKept (fun _ => True) State.AccountsLawful where
  quietB _ _ _ _ := trivial
  sees _ _ same law := law.of_table same
  reset := State.accountsLawful_reset
  turned _ _ law _ bounded := law.setExecuting (bounded law)
  configured _ _ _ law lawful := lawful law
  wrote _ h _ law _ bounded := law.setStation h (bounded law)
  allocated s d clamped h _ law _ _ := by
    have taken := law.takeFree h
    have record := taken.records h
    have formed : ({ (s.takeFree h).station h with state := .forming, descriptor := d } :
        StationRecord).Bounded :=
      ⟨record.credit, record.usage, record.average, record.profile, fun settled => by cases settled⟩
    exact State.AccountsLawful.setExecuting (e := .admitComplete h _ clamped) (taken.setStation h formed)
      (classify_bounded law.classPolicy d)
  completed s h result clamped _ law ex := by
    have within := law.executing
    rw [ex] at within
    exact ((law.setStation h (admitted_bounded _ _ within.1 within.2)).enterIndex h).setExecuting trivial
  denied s h _ _ _ law _ := (law.freeAtHead h).setExecuting trivial
  retired s h _ law _ isIn := by
    have left := law.leaveIndex h
    refine (left.setStation h ((left.records h).retired ?_ _)).setExecuting trivial
    rw [StationRecord.indexed, ((s.leaveIndex_freeList h).2.2 h).2]
    exact isIn
  begun s law _ := law.setExecuting trivial
  cleared s h next _ law _ _ := (law.clearRecord h).setExecuting trivial
  clearEnded s h _ law _ _ := (law.clearRecord h).setExecuting trivial
  freed s h _ law _ := law.freeAtTail h

/-- Settles O55: every step keeps every account and profile within its range. -/
theorem accountLawsAreKept : Obligations.AccountLawsAreKept := fun _ _ law stepped =>
  accounts_kept.kept.step trivial law stepped

end Sys2Proof.Machine
end

section
/-!
PROOFS. The free list (O57): every work on the station table keeps it the list of the FREE records, each once,
from its head to its tail (R11, R22).
-/

namespace Sys2Proof.Machine

/-! ### The records of the free-list operations -/

/-- The taking of the free-list head for an ADMIT makes its record FORMING and touches no other (R18). -/
theorem State.station_formed (s : State) (h k : Handle) (d : Descriptor) :
    ((s.takeFree h).changeStation h fun r => { r with state := .forming, descriptor := d }).station k =
      if k = h then { s.station h with state := .forming, descriptor := d, nextFree := none }
      else s.station k := by
  have taken : ∀ j, (s.takeFree h).station j =
      (s.setStation h { s.station h with nextFree := none }).station j := fun _ => rfl
  rw [State.changeStation_eq, State.station_setStation]
  split
  · rw [taken, State.station_setStation_same]
  · next ne => rw [taken, State.station_setStation_ne s ne]

theorem State.station_freeAtHead (s : State) (h k : Handle) :
    (s.freeAtHead h).station k =
      if k = h then { StationRecord.cleared with nextFree := s.freeHead } else s.station k :=
  State.station_setStation s h k _

theorem State.station_freeAtTail (s : State) {h : Handle} (notTail : s.freeTail ≠ some h) (k : Handle) :
    (s.freeAtTail h).station k =
      if k = h then StationRecord.cleared
      else { s.station k with
        nextFree := if s.freeTail = some k then some h else (s.station k).nextFree } := by
  unfold State.freeAtTail
  dsimp only
  rw [State.setStation_freeTail]
  split
  · next none' =>
    show (s.setStation h StationRecord.cleared).station k = _
    rw [State.station_setStation]
    simp [none']
  · next t tail =>
    have ne : t ≠ h := fun e => notTail (e ▸ tail)
    show ((s.setStation h StationRecord.cleared).setNextFree t (some h)).station k = _
    rw [State.setNextFree_eq, State.station_setStation, State.station_setStation_ne s ne,
      State.station_setStation, tail]
    by_cases own : k = h
    · subst own
      rw [if_neg (Ne.symm ne), if_pos rfl, if_pos rfl]
    · rw [if_neg own, if_neg own]
      by_cases last : k = t
      · subst last
        simp
      · rw [if_neg last, if_neg fun e => last (Option.some.inj e).symm]

/-- The handle before another in a list is a member of the list. -/
theorem predecessorIn_mem {h a : Handle} {l : List Handle} (pred : predecessorIn h l = some a) :
    a ∈ l := by
  induction l with
  | nil => cases pred
  | cons x t ih =>
    cases t with
    | nil => cases pred
    | cons y t =>
      rw [predecessorIn] at pred
      split at pred
      · cases pred
        exact List.mem_cons_self
      · exact List.mem_cons_of_mem _ (ih pred)

/-- Only the record before it in the free list gets a new link when a record leaves that list. -/
theorem State.station_unlinkFree (s : State) {h k : Handle} (notPred : predecessorIn h s.freeList ≠ some k) :
    (s.unlinkFree h).station k = s.station k := by
  unfold State.unlinkFree
  dsimp only
  split
  · next a pred =>
    have ne : k ≠ a := fun e => notPred (e ▸ pred)
    show (s.setNextFree a _).station k = _
    rw [State.setNextFree_eq, State.station_setStation_ne s ne]
  · split <;> rfl

/-- A record visit of a TABLE_CLEAR clears its record and keeps the state of every other (R22). -/
theorem State.clearRecord_state (s : State) (h k : Handle) :
    ((s.clearRecord h).station k).state = if k = h then .free else (s.station k).state := by
  obtain ⟨cleared, others⟩ := s.clearRecord_records h
  split
  · next own =>
    subst own
    exact (congrArg StationRecord.state cleared :)
  · next ne => exact (congrArg StationRecord.state (others k ne) :)

/-- The handle before another is below it. -/
theorem Handle.lt_of_before {h x : Handle} (before : Handle.before h = some x) : x < h := by
  unfold Handle.before at before
  split at before
  · cases before
  · cases before
    rw [Fin.lt_def]
    show h.val - 1 < h.val
    omega

/-- The handles below the next one are those below this one and this one. -/
theorem below_next {h next : Handle} (after : next.val = h.val + 1) :
    allHandles.take next.val = allHandles.take h.val ++ [h] := by
  refine below_succ ?_
  unfold Handle.before
  rw [if_neg (by omega)]
  exact congrArg some (Fin.ext (by simp [after]))

namespace State.FreeListLawful

variable {s t : State}

/-! ### The laws as an order of the FREE records -/

theorem order (law : s.FreeListLawful) : ∃ members, s.FreeOrder members ∧
    (∀ h, h ∈ members ↔ (s.station h).state = .free) ∧
    ∀ next, s.executing = .clearRecords next → ∃ rest, members = allHandles.take next.val ++ rest := by
  obtain ⟨members, nodup, head, tail, mem, linked, passed⟩ := law.list
  exact ⟨members, ⟨nodup, head, tail, linked⟩, mem, passed⟩

theorem of_order {members : List Handle} (order : s.FreeOrder members)
    (mem : ∀ h, h ∈ members ↔ (s.station h).state = .free)
    (passed : ∀ next, s.executing = .clearRecords next →
      ∃ rest, members = allHandles.take next.val ++ rest)
    (outside : ∀ h, (s.station h).state ≠ .free → (s.station h).nextFree = none)
    (forming : ∀ h r c, s.executing = .admitComplete h r c → (s.station h).state = .forming) :
    s.FreeListLawful :=
  ⟨⟨members, order.nodup, order.head, order.tail, mem, order.linked, passed⟩, outside, forming⟩

/-- A change that keeps the FREE records and every next-free link keeps the laws. -/
theorem of_links (law : s.FreeListLawful) (head : t.freeHead = s.freeHead) (tail : t.freeTail = s.freeTail)
    (free : ∀ h, (t.station h).state = .free ↔ (s.station h).state = .free)
    (links : ∀ h, (t.station h).nextFree = (s.station h).nextFree)
    (clears : ∀ next, t.executing = .clearRecords next → s.executing = .clearRecords next ∨ next = 0)
    (forming : ∀ h r c, t.executing = .admitComplete h r c → (t.station h).state = .forming) :
    t.FreeListLawful := by
  obtain ⟨members, order, mem, passed⟩ := law.order
  refine of_order (order.congr head tail fun h _ => links h) (fun h => (mem h).trans (free h).symm) ?_ ?_
    forming
  · intro _ ex
    rcases clears _ ex with was | rfl
    · exact passed _ was
    · exact ⟨members, rfl⟩
  · intro h busy
    rw [links]
    exact law.outside h (mt (free h).mpr busy)

/-- A change of records that keep their standing keeps the laws. -/
theorem of_stands (law : s.FreeListLawful) (head : t.freeHead = s.freeHead)
    (tail : t.freeTail = s.freeTail) (executing : t.executing = s.executing)
    (stands : ∀ h, (s.station h).Stands (t.station h)) : t.FreeListLawful :=
  law.of_links head tail (fun h => (stands h).free) (fun h => (stands h).nextFree)
    (fun _ ex => Or.inl (executing ▸ ex))
    fun h r c ex => (stands h).forming.mpr (law.forming h r c (executing ▸ ex))

/-! ### The works on the table -/

/-- An ADMIT takes the head (R11 (a), R18). -/
theorem formed (law : s.FreeListLawful) {h : Handle} (head : s.freeHead = some h) (d : Descriptor)
    (result : ClassResult) (clamped : Bool) :
    ({ (s.takeFree h).changeStation h fun r => { r with state := .forming, descriptor := d } with
      executing := .admitComplete h result clamped } : State).FreeListLawful := by
  obtain ⟨members, order, mem, _⟩ := law.order
  obtain ⟨rest, rfl⟩ := List.head?_eq_some_iff.mp (order.head.symm.trans head)
  obtain ⟨out, _⟩ := List.nodup_cons.mp order.nodup
  generalize made : ({ (s.takeFree h).changeStation h fun r =>
    { r with state := .forming, descriptor := d } with
    executing := .admitComplete h result clamped } : State) = t
  have station : ∀ k, t.station k =
      if k = h then { s.station h with state := .forming, descriptor := d, nextFree := none }
      else s.station k := fun k => by
    rw [← made]
    exact s.station_formed h k d
  have executing : t.executing = .admitComplete h result clamped := by rw [← made]
  have taken : t.FreeOrder rest := by
    refine order.takeFree.congr (by rw [← made]; rfl) (by rw [← made]; rfl) fun k isIn => ?_
    have ne : k ≠ h := fun e => out (e ▸ isIn)
    rw [station, if_neg ne]
    exact congrArg StationRecord.nextFree (State.station_setStation_ne s ne _).symm
  refine of_order taken (fun k => ?_) (fun next ex => ?_) (fun k busy => ?_) fun k r c ex => ?_
  · rw [station]
    by_cases own : k = h
    · subst own
      simp [out]
    · rw [if_neg own, ← mem, List.mem_cons]
      exact ⟨Or.inr, fun isIn => isIn.resolve_left own⟩
  · rw [executing] at ex
    cases ex
  · rw [station] at busy ⊢
    split
    · rfl
    · next ne =>
      rw [if_neg ne] at busy
      exact law.outside k busy
  · rw [executing] at ex
    cases ex
    rw [station, if_pos rfl]

/-- A refused ADMIT gives its record back at the head (R11 (b), R19). -/
theorem denied (law : s.FreeListLawful) {h : Handle} (formed : (s.station h).state = .forming) :
    ({ s.freeAtHead h with executing := .idle } : State).FreeListLawful := by
  obtain ⟨members, order, mem, _⟩ := law.order
  have out : h ∉ members := fun isIn => by
    have := (mem h).mp isIn
    rw [formed] at this
    cases this
  have back : ({ s.freeAtHead h with executing := .idle } : State).FreeOrder (h :: members) :=
    (order.freeAtHead out).congr rfl rfl fun _ _ => rfl
  have station : ∀ k, ({ s.freeAtHead h with executing := .idle } : State).station k =
      if k = h then { StationRecord.cleared with nextFree := s.freeHead } else s.station k :=
    s.station_freeAtHead h
  refine of_order back (fun k => ?_) (fun _ ex => (by cases ex)) (fun k busy => ?_)
    fun _ _ _ ex => (by cases ex)
  · rw [station, List.mem_cons, mem]
    by_cases own : k = h
    · simp [own, StationRecord.cleared]
    · simp [own]
  · rw [station] at busy ⊢
    split
    · next own =>
      rw [if_pos own] at busy
      exact absurd rfl busy
    · next ne =>
      rw [if_neg ne] at busy
      exact law.outside k busy

/-- The tail of the free list is FREE. -/
theorem tail_free (law : s.FreeListLawful) {k : Handle} (tail : s.freeTail = some k) :
    (s.station k).state = .free := by
  obtain ⟨members, order, mem, _⟩ := law.order
  exact (mem k).mp (List.mem_of_getLast? (order.tail.symm.trans tail))

/-- A COOLING record whose countdown ends goes to the tail (R10, R11 (c)). -/
theorem freed (law : s.FreeListLawful) {h : Handle} (cooling : (s.station h).state = .cooling) :
    (s.freeAtTail h).FreeListLawful := by
  obtain ⟨members, order, mem, passed⟩ := law.order
  have busy : (s.station h).state ≠ .free := by
    rw [cooling]
    decide
  have station := s.station_freeAtTail (h := h) fun e => busy (law.tail_free e)
  have frame : (s.freeAtTail h).executing = s.executing := State.freeAtTail_executing s h
  have state : ∀ k, k ≠ h → ((s.freeAtTail h).station k).state = (s.station k).state := fun k ne => by
    rw [station, if_neg ne]
  refine of_order (order.freeAtTail (mt (mem h).mp busy)) (fun k => ?_) (fun next ex => ?_)
    (fun k isBusy => ?_) fun k r c ex => ?_
  · rw [List.mem_append, List.mem_singleton, mem]
    by_cases own : k = h
    · subst own
      rw [station, if_pos rfl]
      exact iff_of_true (Or.inr rfl) rfl
    · rw [state k own]
      exact or_iff_left own
  · obtain ⟨rest, rfl⟩ := passed next (frame ▸ ex)
    exact ⟨rest ++ [h], List.append_assoc _ _ _⟩
  · have ne : k ≠ h := by
      rintro rfl
      rw [station, if_pos rfl] at isBusy
      exact isBusy rfl
    rw [state k ne] at isBusy
    rw [station, if_neg ne]
    dsimp only
    rw [if_neg fun tail => isBusy (law.tail_free tail)]
    exact law.outside k isBusy
  · have was := law.forming k r c (frame ▸ ex)
    have ne : k ≠ h := by
      rintro rfl
      rw [cooling] at was
      cases was
    rw [state k ne]
    exact was

/-- The handles that a TABLE_CLEAR has passed are FREE (R22). -/
theorem passed_free (law : s.FreeListLawful) {h k : Handle} (ex : s.executing = .clearRecords h)
    (below : k < h) : (s.station k).state = .free := by
  obtain ⟨members, _, mem, passed⟩ := law.order
  obtain ⟨rest, rfl⟩ := passed h ex
  exact (mem k).mp (List.mem_append_left _ (mem_below.mpr below))

/-- A record visit of a TABLE_CLEAR gives no link to a record that is not FREE (R22). -/
theorem clearRecord_outside (law : s.FreeListLawful) {h k : Handle} (ex : s.executing = .clearRecords h)
    (ne : k ≠ h) (busy : (s.station k).state ≠ .free) : ((s.clearRecord h).station k).nextFree = none := by
  have none' := law.outside k busy
  unfold State.clearRecord
  dsimp only
  generalize left : (if (s.station h).associated then s.leaveIndex h else s) = u
  have unindexed : (u.station k).nextFree = none ∧ u.freeList = s.freeList := by
    obtain ⟨head, tail, records⟩ := s.leaveIndex_freeList h
    subst left
    split
    · obtain ⟨members, order, _, _⟩ := law.order
      exact ⟨(records k).1.trans none',
        (order.congr head tail fun j _ => (records j).1).freeList.trans order.freeList.symm⟩
    · exact ⟨none', rfl⟩
  generalize taken : (if (u.station h).state = .free then u.unlinkFree h else u) = v
  have unlinked : (v.station k).nextFree = none := by
    subst taken
    split
    · rw [State.station_unlinkFree]
      · exact unindexed.1
      · intro pred
        rw [unindexed.2] at pred
        exact busy (((State.freeList_members law).2 k).mp (predecessorIn_mem pred))
    · exact unindexed.1
  generalize written : v.writeBack h { v.station h with state := .free } = w
  have rewritten : (w.station k).nextFree = none := by
    subst written
    have frame := State.unplaced_of_frame
      (State.writeBack_frame v h { v.station h with state := .free }) k
    rw [State.station_setStation_ne v ne] at frame
    exact (congrArg StationRecord.nextFree frame :).trans unlinked
  have cleared : ∀ x, ((w.setStation h { StationRecord.cleared with nextFree := x }).station k).nextFree =
      none := fun x => by
    rw [State.station_setStation_ne w ne]
    exact rewritten
  unfold State.freeInOrder
  split
  · exact cleared _
  · next x before =>
    have above : k ≠ x := by
      rintro rfl
      exact busy (law.passed_free ex (Handle.lt_of_before before))
    show ((State.setNextFree _ x (some h)).station k).nextFree = none
    rw [State.setNextFree_eq, State.station_setStation_ne _ above]
    exact cleared _

/-- A record visit of a TABLE_CLEAR gives its record its place (R11 (d), R22). -/
theorem cleared (law : s.FreeListLawful) {h : Handle} (ex : s.executing = .clearRecords h) {e : Execution}
    (loose : ∀ k r c, e ≠ .admitComplete k r c)
    (goesOn : ∀ next, e = .clearRecords next → next.val = h.val + 1) :
    ({ s.clearRecord h with executing := e } : State).FreeListLawful := by
  obtain ⟨members, order, mem, passed⟩ := law.order
  have made := law.clearRecord ex order
  refine of_order (s := { s.clearRecord h with executing := e }) (made.congr rfl rfl fun _ _ => rfl)
    (fun k => ?_) (fun next on => ?_) (fun k busy => ?_) fun k r c on => (loose k r c on).elim
  · show _ ↔ ((s.clearRecord h).station k).state = .free
    rw [s.clearRecord_state h k, List.mem_append, List.mem_cons, mem_below, List.mem_filter,
      decide_eq_true_eq, mem]
    by_cases own : k = h
    · simp [own]
    · rw [if_neg own]
      constructor
      · rintro (below | same | ⟨free, _⟩)
        · exact law.passed_free ex below
        · exact (own same).elim
        · exact free
      · intro free
        rcases lt_or_gt_of_ne own with below | above
        · exact Or.inl below
        · exact Or.inr (Or.inr ⟨free, above⟩)
  · refine ⟨members.filter (h < ·), ?_⟩
    rw [below_next (goesOn next on), List.append_assoc]
    rfl
  · replace busy : ((s.clearRecord h).station k).state ≠ .free := busy
    rw [s.clearRecord_state h k] at busy
    have ne : k ≠ h := fun own => busy (if_pos own)
    rw [if_neg ne] at busy
    exact law.clearRecord_outside ex ne busy

end State.FreeListLawful

/-- RETIRE leaves the free list as it is (R20). -/
theorem StationRecord.retired_links (r : StationRecord) (coolEpochs : Nat) :
    (r.retired coolEpochs).nextFree = r.nextFree ∧ (r.retired coolEpochs).state ≠ .free ∧
      (r.retired coolEpochs).indexed = false ∧ (r.retired coolEpochs).nextInBucket = r.nextInBucket := by
  unfold StationRecord.retired
  split <;> exact ⟨rfl, by simp, rfl, rfl⟩

theorem freeList_kept : TableKept (fun _ => True) State.FreeListLawful where
  quietB _ _ _ _ := trivial
  sees _ _ same law := law.of_stands (State.freeHead_of_table same) (State.freeTail_of_table same)
    (State.executing_of_table same) (State.stands_of_table same)
  reset := State.freeListLawful_reset
  turned _ _ law loose _ := law.of_links rfl rfl (fun _ => Iff.rfl) (fun _ => rfl)
    (fun next ex => (loose.2 next ex).elim) fun h r c ex => (loose.1 h r c ex).elim
  configured _ _ _ law _ := law.of_stands rfl rfl rfl fun _ => .of_state rfl rfl rfl rfl
  wrote s h q law stands _ := by
    refine law.of_stands rfl rfl rfl fun k => ?_
    rw [State.station_setStation]
    split
    · next own => exact own ▸ stands
    · exact .of_state rfl rfl rfl rfl
  allocated s d clamped h _ law _ head := law.formed head d _ clamped
  completed s h result clamped _ law ex := by
    have formed := law.forming h result clamped ex
    refine law.of_links rfl rfl (fun k => ?_) (fun k => ?_) (fun _ on => (by cases on))
      fun _ _ _ on => (by cases on)
    · show (State.station (State.enterIndex _ h) k).state = _ ↔ _
      rw [State.enterIndex_station]
      split
      · next own =>
        rw [State.station_setStation_same, own, formed]
        exact iff_of_false (by simp [admitted]) (by simp)
      · next ne => rw [State.station_setStation_ne s ne]
    · show (State.station (State.enterIndex _ h) k).nextFree = _
      rw [State.enterIndex_station]
      split
      · next own =>
        rw [State.station_setStation_same, own]
        rfl
      · next ne => rw [State.station_setStation_ne s ne]
  denied s h result clamped _ law ex := law.denied (law.forming h result clamped ex)
  retired s h _ law _ isIn := by
    obtain ⟨head, tail, records⟩ := s.leaveIndex_freeList h
    obtain ⟨link, busy, _, _⟩ := ((s.leaveIndex h).station h).retired_links s.settings.coolEpochs
    have wasBusy : (s.station h).state ≠ .free := fun free => by simp [StationRecord.indexed, free] at isIn
    refine law.of_links head tail (fun k => ?_) (fun k => ?_) (fun _ on => (by cases on))
      fun _ _ _ on => (by cases on)
    · show (State.station (State.setStation _ h _) k).state = _ ↔ _
      rw [State.station_setStation]
      split
      · next own => exact iff_of_false busy (own ▸ wasBusy)
      · rw [(records k).2]
    · show (State.station (State.setStation _ h _) k).nextFree = _
      rw [State.station_setStation]
      split
      · next own => rw [link, own, (records h).1]
      · exact (records k).1
  begun s law _ := law.of_links rfl rfl (fun _ => Iff.rfl) (fun _ => rfl)
    (fun _ on => Or.inr (Execution.clearRecords.inj on).symm) fun _ _ _ on => (by cases on)
  cleared s h next _ law ex after := law.cleared ex (by simp) fun n on => by
    cases on
    exact after
  clearEnded s h _ law ex _ := law.cleared ex (by simp) (by simp)
  freed s h _ law cooling := law.freed cooling

/-- Settles O57: every step keeps the free list. -/
theorem freeListLawsAreKept : Obligations.FreeListLawsAreKept := fun _ _ law stepped =>
  freeList_kept.kept.step trivial law stepped

end Sys2Proof.Machine
end

section
/-!
PROOFS. The address index (O58): every work on the station table keeps each bucket's chain the ACTIVE and DORMANT
records of its addresses, each once, and no two of them under one address (R12, R13, R14).
-/

namespace Sys2Proof.Machine

/-- No record carries an address that a probe of a lawful index does not find (R14). -/
theorem State.IndexLawful.address_ne {s : State} (law : s.IndexLawful) {a : BitVec 48}
    (absent : s.probe a = none) {k : Handle} (isIn : (s.station k).indexed = true) :
    (s.station k).descriptor.linkAddress ≠ a := by
  intro carries
  rw [State.probe_eq_some law isIn carries] at absent
  cases absent

namespace State.IndexLawful

variable {s t : State}

/-! ### The laws as an order of each chain -/

theorem order (law : s.IndexLawful) (b : BitVec 8) : ∃ members, s.BucketOrder b members ∧
    ∀ h, h ∈ members ↔ (s.station h).indexed = true ∧
      bucketOf (s.station h).descriptor.linkAddress = b := by
  obtain ⟨members, nodup, head, mem, linked⟩ := law.chains b
  exact ⟨members, ⟨nodup, head, linked⟩, mem⟩

/-- A change that keeps the indexed records, their addresses, the links and the heads keeps the laws. -/
theorem of_links (law : s.IndexLawful) (buckets : t.buckets = s.buckets)
    (indexed : ∀ k, (t.station k).indexed = (s.station k).indexed)
    (links : ∀ k, (t.station k).nextInBucket = (s.station k).nextInBucket)
    (address : ∀ k, (s.station k).indexed = true →
      (t.station k).descriptor.linkAddress = (s.station k).descriptor.linkAddress)
    (forming : ∀ h r c, t.executing = .admitComplete h r c → (t.station h).state = .forming ∧
      ∀ k, (s.station k).indexed = true →
        (s.station k).descriptor.linkAddress ≠ (t.station h).descriptor.linkAddress) :
    t.IndexLawful := by
  refine ⟨fun b => ?_, fun k out => ?_, fun h k isIn isIn' same => ?_, fun h r c ex => ?_⟩
  · obtain ⟨members, order, mem⟩ := law.order b
    have kept : t.BucketOrder b members := order.congr
      (by rw [State.bucketHead, State.bucketHead, buckets]) fun k _ => links k
    refine ⟨members, kept.nodup, kept.head, fun k => ?_, kept.linked⟩
    rw [mem, indexed]
    exact and_congr_right fun isIn => by rw [address k isIn]
  · rw [links]
    exact law.outside k (indexed k ▸ out)
  · rw [indexed] at isIn isIn'
    rw [address h isIn, address k isIn'] at same
    exact law.distinct h k isIn isIn' same
  · obtain ⟨formed, apart⟩ := forming h r c ex
    refine ⟨formed, fun k isIn => ?_⟩
    rw [indexed] at isIn
    rw [address k isIn]
    exact apart k isIn

/-- A change of records that keep their standing keeps the laws. -/
theorem of_stands (law : s.IndexLawful) (buckets : t.buckets = s.buckets)
    (executing : ∀ h r c, t.executing = .admitComplete h r c → s.executing = .admitComplete h r c)
    (stands : ∀ k, (s.station k).Stands (t.station k)) : t.IndexLawful :=
  law.of_links buckets (fun k => (stands k).indexed) (fun k => (stands k).nextInBucket)
    (fun k _ => (stands k).address) fun h r c ex => by
      obtain ⟨formed, apart⟩ := law.forming h r c (executing h r c ex)
      rw [(stands h).forming, (stands h).address]
      exact ⟨formed, apart⟩

/-- A change of one record that is in the index neither before nor after keeps the laws. -/
theorem of_unindexed (law : s.IndexLawful) (buckets : t.buckets = s.buckets) {h : Handle}
    (was : (s.station h).indexed = false) (is : (t.station h).indexed = false)
    (link : (t.station h).nextInBucket = none)
    (others : ∀ k, k ≠ h → (s.station k).Stands (t.station k))
    (forming : ∀ h r c, t.executing = .admitComplete h r c → (t.station h).state = .forming ∧
      ∀ k, (s.station k).indexed = true →
        (s.station k).descriptor.linkAddress ≠ (t.station h).descriptor.linkAddress) :
    t.IndexLawful := by
  refine law.of_links buckets (fun k => ?_) (fun k => ?_) (fun k isIn => ?_) forming
  · by_cases own : k = h
    · rw [own, is, was]
    · exact (others k own).indexed
  · by_cases own : k = h
    · rw [own, link, law.outside h was]
    · exact (others k own).nextInBucket
  · have ne : k ≠ h := by
      rintro rfl
      rw [was] at isIn
      cases isIn
    exact (others k ne).address

/-- The record of an ADMIT under way is FORMING, and so not in the index. -/
theorem forming_out (law : s.IndexLawful) {h : Handle} {r : ClassResult} {c : Bool}
    (ex : s.executing = .admitComplete h r c) : (s.station h).indexed = false := by
  rw [StationRecord.indexed, (law.forming h r c ex).1]
  rfl

/-- A record that leaves the index, its place in its chain given to the record after it (R13). -/
theorem removed (law : s.IndexLawful) {h : Handle}
    (links : ∀ k, k ≠ h → (t.station k).nextInBucket =
      if (s.station k).nextInBucket = some h then (s.station h).nextInBucket
      else (s.station k).nextInBucket)
    (heads : ∀ b, t.bucketHead b =
      if s.bucketHead b = some h then (s.station h).nextInBucket else s.bucketHead b)
    (out : (t.station h).indexed = false) (link : (t.station h).nextInBucket = none)
    (others : ∀ k, k ≠ h → (t.station k).indexed = (s.station k).indexed ∧
      (t.station k).descriptor.linkAddress = (s.station k).descriptor.linkAddress)
    (loose : ∀ k r c, t.executing ≠ .admitComplete k r c) : t.IndexLawful := by
  have ne : ∀ {k}, (t.station k).indexed = true → k ≠ h := by
    rintro k isIn rfl
    rw [out] at isIn
    cases isIn
  refine ⟨fun b => ?_, fun k unindexed => ?_, fun j k isIn isIn' same => ?_, fun k r c ex =>
    (loose k r c ex).elim⟩
  · obtain ⟨members, order, mem⟩ := law.order b
    have erased := order.erase links heads
    refine ⟨members.erase h, erased.nodup, erased.head, fun k => ?_, erased.linked⟩
    rw [order.nodup.mem_erase_iff, mem]
    by_cases own : k = h
    · subst own
      simp [out]
    · obtain ⟨indexed, address⟩ := others k own
      rw [indexed, address]
      exact and_iff_right own
  · by_cases own : k = h
    · rw [own, link]
    · have none' := law.outside k ((others k own).1 ▸ unindexed)
      rw [links k own, none', if_neg (by simp)]
  · obtain ⟨indexed, address⟩ := others j (ne isIn)
    obtain ⟨indexed', address'⟩ := others k (ne isIn')
    rw [address, address'] at same
    exact law.distinct j k (indexed ▸ isIn) (indexed' ▸ isIn') same

/-! ### The works on the table -/

/-- An ADMIT's FORMING record is not in the index, and no indexed record carries its address (R14, R18). -/
theorem formed (law : s.IndexLawful) {h : Handle} (free : (s.station h).state = .free) {d : Descriptor}
    (absent : s.probe d.linkAddress = none) (result : ClassResult) (clamped : Bool) :
    ({ (s.takeFree h).changeStation h fun r => { r with state := .forming, descriptor := d } with
      executing := .admitComplete h result clamped } : State).IndexLawful := by
  have out : (s.station h).indexed = false := by
    rw [StationRecord.indexed, free]
    rfl
  have station : ∀ k, ({ (s.takeFree h).changeStation h fun r =>
      { r with state := .forming, descriptor := d } with
      executing := .admitComplete h result clamped } : State).station k = _ :=
    fun k => s.station_formed h k d
  refine law.of_unindexed rfl out ?_ ?_ (fun k ne => ?_) fun k r c ex => ?_
  · rw [station, if_pos rfl]
    rfl
  · rw [station, if_pos rfl]
    exact law.outside h out
  · rw [station, if_neg ne]
    exact .of_state rfl rfl rfl rfl
  · cases ex
    rw [station, if_pos rfl]
    exact ⟨rfl, fun k isIn => law.address_ne absent isIn⟩

/-- An accepted ADMIT's record enters its chain at the head (R13, R19). -/
theorem completed (law : s.IndexLawful) {h : Handle} {result : ClassResult} {clamped : Bool}
    (ex : s.executing = .admitComplete h result clamped) :
    ({ (s.setStation h (admitted (s.station h) s.settings result)).enterIndex h with
      executing := .idle } : State).IndexLawful := by
  have out := law.forming_out ex
  obtain ⟨_, apart⟩ := law.forming h result clamped ex
  generalize entering : s.setStation h (admitted (s.station h) s.settings result) = u
  have own : u.station h = admitted (s.station h) s.settings result := by
    rw [← entering, State.station_setStation_same]
  have other : ∀ k, k ≠ h → u.station k = s.station k := fun k ne => by
    rw [← entering, State.station_setStation_ne s ne]
  have isIn : (u.station h).indexed = true := by
    rw [own]
    rfl
  have address : (u.station h).descriptor = (s.station h).descriptor := by
    rw [own]
    rfl
  have station : ∀ k, ((u.enterIndex h).station k).indexed = (u.station k).indexed ∧
      ((u.enterIndex h).station k).descriptor = (u.station k).descriptor := fun k => by
    rw [State.enterIndex_station]
    split
    · next e => exact e ▸ ⟨rfl, rfl⟩
    · exact ⟨rfl, rfl⟩
  refine ⟨fun b => ?_, fun k unindexed => ?_, fun j k one two same => ?_, fun _ _ _ on => (by cases on)⟩
  · obtain ⟨members, order, mem⟩ := law.order b
    have notIn : h ∉ members := fun inside => by
      rw [((mem h).mp inside).1] at out
      cases out
    have before : u.BucketOrder b members := order.congr (by rw [← entering]; rfl) fun k inside => by
      rw [other k fun e => notIn (e ▸ inside)]
    have entered := before.enterIndex notIn
    refine ⟨_, entered.nodup, entered.head, fun k => ?_, entered.linked⟩
    show _ ↔ ((u.enterIndex h).station k).indexed = true ∧
      bucketOf ((u.enterIndex h).station k).descriptor.linkAddress = b
    rw [(station k).1, (station k).2]
    by_cases e : k = h
    · subst e
      split
      · next bucket => exact iff_of_true List.mem_cons_self ⟨isIn, bucket.symm⟩
      · next bucket => exact iff_of_false notIn fun inside => bucket inside.2.symm
    · rw [other k e, ← mem]
      split
      · exact ⟨fun inside => (List.mem_cons.mp inside).resolve_left e, List.mem_cons_of_mem _⟩
      · exact Iff.rfl
  · replace unindexed : ((u.enterIndex h).station k).indexed = false := unindexed
    show ((u.enterIndex h).station k).nextInBucket = none
    rw [(station k).1] at unindexed
    have ne : k ≠ h := by
      rintro rfl
      rw [isIn] at unindexed
      cases unindexed
    rw [State.enterIndex_station, if_neg ne]
    rw [other k ne] at unindexed ⊢
    exact law.outside k unindexed
  · replace one : ((u.enterIndex h).station j).indexed = true := one
    replace two : ((u.enterIndex h).station k).indexed = true := two
    replace same : ((u.enterIndex h).station j).descriptor.linkAddress =
      ((u.enterIndex h).station k).descriptor.linkAddress := same
    rw [(station j).1] at one
    rw [(station k).1] at two
    rw [(station j).2, (station k).2] at same
    by_cases ej : j = h <;> by_cases ek : k = h
    · rw [ej, ek]
    · rw [ej, address, other k ek] at same
      exact (apart k (other k ek ▸ two) same.symm).elim
    · rw [ek, address, other j ej] at same
      exact (apart j (other j ej ▸ one) same).elim
    · rw [other j ej] at one same
      rw [other k ek] at two same
      exact law.distinct j k one two same

/-- RETIRE takes its record out of the index (R13, R20). -/
theorem retired (law : s.IndexLawful) {h : Handle} (isIn : (s.station h).indexed = true)
    (coolEpochs : Nat) : ({ (s.leaveIndex h).setStation h (((s.leaveIndex h).station h).retired coolEpochs)
      with executing := .idle } : State).IndexLawful := by
  obtain ⟨records, heads⟩ := law.leaveIndex isIn
  obtain ⟨_, _, unindexed, link⟩ := ((s.leaveIndex h).station h).retired_links coolEpochs
  have station : ∀ k, k ≠ h → State.station { (s.leaveIndex h).setStation h
      (((s.leaveIndex h).station h).retired coolEpochs) with executing := .idle } k =
      { s.station k with nextInBucket :=
          if (s.station k).nextInBucket = some h then (s.station h).nextInBucket
          else (s.station k).nextInBucket } := fun k ne =>
    (State.station_setStation_ne _ ne _).trans ((records k).trans (if_neg ne))
  have own : State.station { (s.leaveIndex h).setStation h
      (((s.leaveIndex h).station h).retired coolEpochs) with executing := .idle } h =
      ((s.leaveIndex h).station h).retired coolEpochs := State.station_setStation_same _ h _
  refine law.removed (fun k ne => ?_) heads ?_ ?_ (fun k ne => ?_) (by simp)
  · rw [station k ne]
  · rw [own]
    exact unindexed
  · rw [own, link, records, if_pos rfl]
  · rw [station k ne]
    exact ⟨rfl, rfl⟩

/-- A record visit of a TABLE_CLEAR takes its record out of the index (R13, R22). -/
theorem cleared (law : s.IndexLawful) (h : Handle) {e : Execution}
    (loose : ∀ k r c, e ≠ .admitComplete k r c) :
    ({ s.clearRecord h with executing := e } : State).IndexLawful := by
  obtain ⟨links, heads⟩ := law.clearRecord h
  obtain ⟨own, others⟩ := s.clearRecord_records h
  refine law.removed (t := { s.clearRecord h with executing := e })
    (fun k ne => (links k).trans (if_neg ne)) heads ?_ ((links h).trans (if_pos rfl)) (fun k ne => ?_) loose
  · exact (congrArg StationRecord.indexed own :)
  · exact ⟨(congrArg StationRecord.indexed (others k ne) :),
      (congrArg (·.descriptor.linkAddress) (others k ne) :)⟩

/-- A COOLING record that becomes FREE is in the index neither before nor after (R10). -/
theorem freed (law : s.IndexLawful) (free : s.FreeListLawful) {h : Handle}
    (cooling : (s.station h).state = .cooling) : (s.freeAtTail h).IndexLawful := by
  have notTail : s.freeTail ≠ some h := fun tail => by
    have := free.tail_free tail
    rw [cooling] at this
    cases this
  have station := s.station_freeAtTail notTail
  have content : ∀ k, k ≠ h → ((s.freeAtTail h).station k).state = (s.station k).state ∧
      ((s.freeAtTail h).station k).descriptor = (s.station k).descriptor ∧
      ((s.freeAtTail h).station k).nextInBucket = (s.station k).nextInBucket := fun k ne => by
    rw [station, if_neg ne]
    exact ⟨rfl, rfl, rfl⟩
  have frame : (s.freeAtTail h).executing = s.executing := State.freeAtTail_executing s h
  have indexed : ∀ k, ((s.freeAtTail h).station k).indexed = (s.station k).indexed := fun k => by
    by_cases own : k = h
    · subst own
      rw [station, if_pos rfl, StationRecord.indexed, StationRecord.indexed, cooling]
      rfl
    · rw [StationRecord.indexed, StationRecord.indexed, (content k own).1]
  have out : (s.station h).indexed = false := by
    rw [StationRecord.indexed, cooling]
    rfl
  refine law.of_links (State.freeAtTail_buckets s h) indexed (fun k => ?_) (fun k isIn => ?_)
    fun k r c ex => ?_
  · by_cases own : k = h
    · rw [own, station, if_pos rfl, law.outside h out]
      rfl
    · exact (content k own).2.2
  · have ne : k ≠ h := by
      rintro rfl
      rw [out] at isIn
      cases isIn
    rw [(content k ne).2.1]
  · obtain ⟨formed, apart⟩ := law.forming k r c (frame ▸ ex)
    have ne : k ≠ h := by
      rintro rfl
      rw [cooling] at formed
      cases formed
    rw [(content k ne).1, (content k ne).2.1]
    exact ⟨formed, apart⟩

end State.IndexLawful

/-- The free list's laws do not see what is outside the core. -/
theorem State.FreeListLawful.of_core {s t : State} (law : s.FreeListLawful) (same : t.core = s.core) :
    t.FreeListLawful :=
  freeList_kept.sees s t (State.table_of_core same) law

theorem index_kept : TableKept State.FreeListLawful State.IndexLawful where
  quietB _ _ same law := law.of_core same
  sees _ _ same law := law.of_stands (State.buckets_of_table same)
    (fun _ _ _ ex => (State.executing_of_table same).symm.trans ex) (State.stands_of_table same)
  reset := State.indexLawful_reset
  turned _ _ law loose _ := law.of_stands rfl (fun h r c ex => (loose.1 h r c ex).elim)
    fun _ => .of_state rfl rfl rfl rfl
  configured _ _ _ law _ := law.of_stands rfl (fun _ _ _ ex => ex) fun _ => .of_state rfl rfl rfl rfl
  wrote s h q law stands _ := by
    refine law.of_stands rfl (fun _ _ _ ex => ex) fun k => ?_
    rw [State.station_setStation]
    split
    · next own => exact own ▸ stands
    · exact .of_state rfl rfl rfl rfl
  allocated s d clamped h free law absent head := by
    obtain ⟨members, order, mem, _⟩ := free.order
    exact law.formed ((mem h).mp (List.mem_of_head? (order.head.symm.trans head))) absent _ clamped
  completed s h result clamped _ law ex := law.completed ex
  denied s h result clamped _ law ex := by
    have station : ∀ k, ({ s.freeAtHead h with executing := .idle } : State).station k =
        if k = h then { StationRecord.cleared with nextFree := s.freeHead } else s.station k :=
      s.station_freeAtHead h
    refine law.of_unindexed rfl (law.forming_out ex) ?_ ?_ (fun k ne => ?_)
      fun _ _ _ on => (by cases on)
    · rw [station, if_pos rfl]
      rfl
    · rw [station, if_pos rfl]
      rfl
    · rw [station, if_neg ne]
      exact .of_state rfl rfl rfl rfl
  retired s h _ law _ isIn := law.retired isIn s.settings.coolEpochs
  begun s law _ := law.of_stands rfl (fun _ _ _ on => (by cases on)) fun _ => .of_state rfl rfl rfl rfl
  cleared s h next _ law _ _ := law.cleared h (by simp)
  clearEnded s h _ law _ _ := law.cleared h (by simp)
  freed s h free law cooling := law.freed free cooling

/-- Settles O58: every step keeps the address index, given the laws of the free list. -/
theorem indexLawsAreKept : Obligations.IndexLawsAreKept := fun _ _ free law stepped =>
  index_kept.kept.step free law stepped

end Sys2Proof.Machine
end

section
/-!
PROOFS. The table port and the short visits: the arbiter (O46), the start of a TABLE_CLEAR (O18), and the visits
of a BACKLOG entry and of an UPLINK (O30, O31).
-/

namespace Sys2Proof.Machine

/-! ### The arbiter (R16, R17) -/

theorem Requester.beq_eq_decide (a b : Requester) : (a == b) = decide (a = b) := by
  rw [Bool.eq_iff_iff, beq_iff_eq, decide_eq_true_eq]

/-- The visits that wait when a command names one, written out. -/
theorem State.arrivals_eq (s : State) (r : Requester) (asks : PortAsks) :
    s.arrivals r asks =
      { award := s.engine.visit.isSome && (s.tablePort.award || asks.award || decide (r = .award))
        request := s.executing.visit.isSome &&
          (s.tablePort.request || asks.request || decide (r = .request)) } := by
  simp only [State.arrivals, State.visitDue, Requester.beq_eq_decide]

/-- The walker is urgent when a step is in progress at a lag of 8 (R17). -/
theorem walker_urgent_iff (s : State) :
    (s.visitDue .walker && s.walker.lag == Config.walkerLimit) = true ↔
      s.walker.step ≠ none ∧ s.walker.lag = 8 := by
  rw [Bool.and_eq_true, beq_iff_eq, State.visitDue, Option.isSome_iff_ne_none]
  rfl

/-- The visit that a command names has come, where it is due. -/
theorem State.arrivals_named (s : State) (asks : PortAsks) :
    (s.visitDue .award = true → (s.arrivals .award asks).award = true) ∧
      (s.visitDue .request = true → (s.arrivals .request asks).request = true) := by
  constructor <;> intro due <;> simp [State.arrivals, due]

/-- The arbiter grants the Award Engine's visit unless the walker is urgent (R17). -/
theorem State.grants_award_iff {s : State} (due : s.visitDue .award = true) (asks : PortAsks) :
    s.grants .award asks = true ↔ ¬ (s.walker.step ≠ none ∧ s.walker.lag = 8) := by
  rw [← walker_urgent_iff, State.grants, arbitrate, (s.arrivals_named asks).1 due]
  split
  · next urgent => simp [urgent]
  · next calm => simp [calm]

/-- The arbiter grants the Request Processor's visit unless the walker is urgent or the Award Engine waits
(R17). -/
theorem State.grants_request_iff {s : State} (due : s.visitDue .request = true) (asks : PortAsks) :
    s.grants .request asks = true ↔
      ¬ (s.walker.step ≠ none ∧ s.walker.lag = 8) ∧ (s.arrivals .request asks).award = false := by
  rw [← walker_urgent_iff, State.grants, arbitrate, (s.arrivals_named asks).2 due]
  split
  · next urgent => simp [urgent]
  · next calm => cases (s.arrivals .request asks).award <;> simp [calm]

/-- The arbiter grants the walker's visit when it is urgent or no other waits (R17). -/
theorem State.grants_walker_iff {s : State} (due : s.visitDue .walker = true) (asks : PortAsks) :
    s.grants .walker asks = true ↔
      s.walker.lag = 8 ∨ (s.arrivals .walker asks).award = false ∧
        (s.arrivals .walker asks).request = false := by
  have urgent : (s.visitDue .walker && s.walker.lag == Config.walkerLimit) = true ↔ s.walker.lag = 8 := by
    rw [due, Bool.true_and, beq_iff_eq]
    rfl
  rw [← urgent, State.grants, arbitrate, due]
  split
  · next now => simp [now]
  · next calm =>
    rw [Bool.true_and] at calm
    cases (s.arrivals .walker asks).award <;> cases (s.arrivals .walker asks).request <;> simp [calm]

theorem State.engineVisit_waits {s : State} {kind : EngineVisit} {asks : PortAsks} {work : State → State}
    (run : s.resetLow = false) (due : s.engine.visit = some kind) (grant : s.grants .award asks = false) :
    s.engineVisit kind asks work = { s with tablePort := s.arrivals .award asks } :=
  State.visit_waits run (by simp [due]) grant

theorem State.requestVisit_waits {s : State} {kind : RequestVisit} {asks : PortAsks}
    {work : State → State} (run : s.resetLow = false) (due : s.executing.visit = some kind)
    (grant : s.grants .request asks = false) :
    s.requestVisit kind asks work = { s with tablePort := s.arrivals .request asks } :=
  State.visit_waits run (by simp [due]) grant

/-- Settles O46: the arbiter's order, and the waiting of each of the nineteen visits. -/
theorem arbiterGrantsByPriority : Obligations.ArbiterGrantsByPriority := by
  unfold Obligations.ArbiterGrantsByPriority
  intro s asks defers
  simp only [← State.arrivals_eq]
  refine ⟨fun r due => ?_, fun run => ⟨?_, ?_, fun inStep grant => ?_⟩⟩
  · cases r with
    | award => exact State.grants_award_iff due asks
    | request => exact State.grants_request_iff due asks
    | walker => exact State.grants_walker_iff due asks
  · simp only [List.forall_mem_cons, List.not_mem_nil, false_imp_iff, implies_true, and_true]
    refine ⟨?_, ?_, ?_, ?_, ?_, ?_, ?_, ?_⟩ <;> intro due grant <;>
      exact congrArg Host.Outcome.next (State.engineVisit_waits run due grant)
  · simp only [List.forall_mem_cons, List.not_mem_nil, false_imp_iff, implies_true, and_true]
    refine ⟨?_, ?_, ?_, ?_, ?_, ?_, ?_, ?_, ?_, ?_⟩ <;> intro due grant <;>
      exact congrArg Host.Outcome.next (State.requestVisit_waits run due grant)
  · exact congrArg Host.Outcome.next
      (State.visit_waits run (Option.isSome_iff_ne_none.mpr inStep) grant)

/-! ### The start of a TABLE_CLEAR (R22, R122, R156) -/

/-- Settles O18: the start of a TABLE_CLEAR. -/
theorem tableClearStarts : Obligations.TableClearStarts := by
  unfold Obligations.TableClearStarts
  intro s rest run idle room head
  have starts : s.startForm (some .tableClear) = s.start ⟨0x1F, []⟩ :=
    State.startForm_eq run idle room head (by decide)
  exact congrArg Host.Outcome.next starts

/-! ### A BACKLOG entry's visit (R15, R131) -/

/-- The visit is made when it is due and granted, and the item goes on to its next entry. -/
theorem exec_backlogEntryVisit {s : State} {asks : PortAsks} {e : BacklogEntry} {rest : List BacklogEntry}
    (run : s.resetLow = false) (item : s.engine = .backlog (e :: rest))
    (grant : s.grants .award asks = true) :
    exec (.backlogEntryVisit asks) s = .next
      { (s.granted .award asks).backlogEntry e with
        engine := if rest = [] then .idle else .backlog rest } := by
  have due : s.engine.visit = some .backlogEntry := by rw [item]; rfl
  have item' : (s.granted .award asks).engine = .backlog (e :: rest) := item
  show Host.Outcome.next (s.engineVisit .backlogEntry asks _) = _
  rw [State.engineVisit_granted run due grant, item']

/-- An entry for an indexed record writes its record back, but for a clear that finds it DORMANT. -/
theorem State.backlogEntry_writes {s : State} {e : BacklogEntry}
    (found : (s.station e.handle).state = .active ∨
      (s.station e.handle).state = .dormant ∧ e.sets = true) :
    s.backlogEntry e =
      s.writeBack e.handle ((s.station e.handle).backlogged e s.settings.idleLimit) := by
  unfold State.backlogEntry
  dsimp only
  rcases found with active | ⟨dormant, sets⟩
  · rw [active]
  · rw [dormant]
    exact if_pos sets

/-- An entry for a record that carries no station is stale (R15). -/
theorem State.backlogEntry_stale {s : State} {e : BacklogEntry}
    (found : (s.station e.handle).state = .free ∨ (s.station e.handle).state = .forming ∨
      (s.station e.handle).state = .cooling) : s.backlogEntry e = s.raise .stale := by
  unfold State.backlogEntry
  dsimp only
  rcases found with free | forming | cooling
  · rw [free]
  · rw [forming]
  · rw [cooling]

/-- A DRAINING record ignores an entry, and a DORMANT one an entry that clears (R131). -/
theorem State.backlogEntry_ignored {s : State} {e : BacklogEntry}
    (found : (s.station e.handle).state = .draining ∨
      (s.station e.handle).state = .dormant ∧ e.sets = false) : s.backlogEntry e = s := by
  unfold State.backlogEntry
  dsimp only
  rcases found with draining | ⟨dormant, clears⟩
  · rw [draining]
  · rw [dormant, clears]
    rfl

/-- A visit of the engine that writes a record back and goes on with its item changes, beyond the rings, that
record and the item only. -/
theorem State.writeBack_engine_frame (s : State) (h : Handle) (r : StationRecord) (e : EngineItem) :
    ({ s.writeBack h r with engine := e } : State).beyondRings =
      State.beyondRings { s with engine := e, stations := s.stations.set h.val r } :=
  State.engine_frame (State.writeBack_frame s h r) e

/-- Settles O30: a BACKLOG entry's visit, by the state of the record it finds. -/
theorem backlogEntryVisitReports : Obligations.BacklogEntryVisitReports := by
  unfold Obligations.BacklogEntryVisitReports
  intro s asks e rest run item grant
  dsimp only
  rw [exec_backlogEntryVisit run item grant]
  have record : (s.granted .award asks).station e.handle = s.station e.handle := rfl
  refine ⟨fun stale => ?_, fun ignored => ?_, fun sets => ?_, fun clears => ?_⟩
  · rw [State.backlogEntry_stale (s := s.granted .award asks) stale]
    rfl
  · rw [State.backlogEntry_ignored (s := s.granted .award asks) ignored]
  · obtain ⟨found, on⟩ := sets
    refine ⟨_, rfl, ?_⟩
    rw [State.backlogEntry_writes (s := s.granted .award asks)
      (found.imp_right fun dormant => ⟨dormant, on⟩), State.writeBack_engine_frame, record, StationRecord.backlogged, if_pos on]
    rfl
  · obtain ⟨active, off⟩ := clears
    refine ⟨_, rfl, ?_⟩
    rw [State.backlogEntry_writes (s := s.granted .award asks) (Or.inl active),
      State.writeBack_engine_frame, record, StationRecord.backlogged, if_neg (by rw [off]; exact Bool.false_ne_true)]
    rfl

/-! ### The UPLINK visit (R15, R58, R133) -/

theorem exec_uplinkVisit {s : State} {asks : PortAsks} {h : Handle} {airtime : Nat}
    (run : s.resetLow = false) (item : s.engine = .uplink h airtime)
    (grant : s.grants .award asks = true) :
    exec (.uplinkVisit asks) s =
      .next { (s.granted .award asks).uplinkStation h airtime with engine := .idle } := by
  have due : s.engine.visit = some .uplink := by rw [item]; rfl
  have item' : (s.granted .award asks).engine = .uplink h airtime := item
  show Host.Outcome.next (s.engineVisit .uplink asks _) = _
  rw [State.engineVisit_granted run due grant, item']

/-- An indexed record is charged the uplink debit, and FLOOR is set where it floors (R58). -/
theorem State.uplinkStation_charges {s : State} {h : Handle}
    (found : (s.station h).state = .active ∨ (s.station h).state = .dormant) (airtime : Nat) :
    s.uplinkStation h airtime =
      (s.raiseIf (creditFloors (s.station h).credit
        (uplinkDebit airtime (s.station h).profile.uplinkEighths)) .floor).writeBack h
        ((s.station h).uplinked airtime s.settings.idleLimit) := by
  unfold State.uplinkStation
  dsimp only
  rcases found with active | dormant
  · rw [active]
  · rw [dormant]

/-- An UPLINK for a record that carries no station is stale (R15). -/
theorem State.uplinkStation_stale {s : State} {h : Handle}
    (found : (s.station h).state = .free ∨ (s.station h).state = .forming ∨
      (s.station h).state = .cooling) (airtime : Nat) : s.uplinkStation h airtime = s.raise .stale := by
  unfold State.uplinkStation
  dsimp only
  rcases found with free | forming | cooling
  · rw [free]
  · rw [forming]
  · rw [cooling]

theorem State.uplinkStation_draining {s : State} {h : Handle} (found : (s.station h).state = .draining)
    (airtime : Nat) : s.uplinkStation h airtime = s := by
  unfold State.uplinkStation
  dsimp only
  rw [found]

theorem State.raiseIf_floor (s : State) (b : Bool) :
    s.raiseIf b .floor = { s with flags := { s.flags with floor := s.flags.floor || b } } := by
  cases b
  · rw [Bool.or_false]
    rfl
  · rw [Bool.or_true]
    rfl

/-- Settles O31: the UPLINK visit, by the state of the record it finds. -/
theorem uplinkVisitCharges : Obligations.UplinkVisitCharges := by
  unfold Obligations.UplinkVisitCharges
  intro s asks h airtime run item grant
  dsimp only
  rw [exec_uplinkVisit run item grant]
  have record : (s.granted .award asks).station h = s.station h := rfl
  refine ⟨fun found => ⟨_, rfl, ?_⟩, fun draining => ?_, fun stale => ?_⟩
  · rw [State.uplinkStation_charges (s := s.granted .award asks) found, State.writeBack_engine_frame,
      record, State.raiseIf_floor]
    rfl
  · rw [State.uplinkStation_draining (s := s.granted .award asks) draining]
  · rw [State.uplinkStation_stale (s := s.granted .award asks) stale]
    rfl

end Sys2Proof.Machine
end

section
/-!
PROOFS. The visits of ADMIT (O19, O20): the allocation visit by what the probe and the free list answer, and the
completion visit by the classifier's outcome, with the coding of the rule trace (R18, R19, R48, R148, R170).
-/

namespace Sys2Proof.Machine

/-! ### Records written twice, flags, payloads -/

theorem State.setStation_setStation (s : State) (h : Handle) (q r : StationRecord) :
    (s.setStation h q).setStation h r = s.setStation h r := by
  simp [State.setStation]

theorem State.raiseIf_chainRange (s : State) (b : Bool) :
    s.raiseIf b .chainRange = { s with flags := { s.flags with chainRange := s.flags.chainRange || b } } := by
  cases b
  · rw [Bool.or_false]
    rfl
  · rw [Bool.or_true]
    rfl

theorem ite_isNone {α β : Type} (x : Option α) (a b : β) :
    (if x.isNone then a else b) = if x = none then a else b := by
  cases x <;> rfl

/-! ### The rule trace (R170) -/

theorem byteAt_traceBytes_count {entries : List TraceEntry} (fits : entries.length ≤ 4) :
    (byteAt (traceBytes entries) 0).toNat = entries.length := by
  show (BitVec.ofNat 8 entries.length).toNat = entries.length
  rw [BitVec.toNat_ofNat]
  omega

/-- An entry byte of a coded trace is its entry's, 0 beyond the count. -/
theorem byteAt_traceBytes_entry (entries : List TraceEntry) {i : Nat} (lt : i < 4) :
    byteAt (traceBytes entries) (1 + i) = (entries[i]?).elim 0 (·.byte) := by
  rw [Nat.add_comm, byteAt, traceBytes, List.getD_cons_succ, List.getD_eq_getElem?_getD,
    List.getElem?_map, List.getElem?_range lt, Option.map_some, Option.getD_some]
  cases entries[i]? <;> rfl

/-! ### The allocation visit (R18) -/

theorem exec_admitAllocationVisit {s : State} {asks : PortAsks} {d : Descriptor} {clamped : Bool}
    (run : s.resetLow = false) (ex : s.executing = .admitAllocate d clamped)
    (grant : s.grants .request asks = true) :
    exec (.admitAllocationVisit asks) s = .next ((s.granted .request asks).allocate d clamped) := by
  have due : s.executing.visit = some .allocation := by rw [ex]; rfl
  have ex' : (s.granted .request asks).executing = .admitAllocate d clamped := ex
  show Host.Outcome.next (s.requestVisit .allocation asks _) = _
  rw [State.requestVisit_granted run due grant, ex']

/-- A probe does not see the visits that wait. -/
theorem State.probe_granted (s : State) (r : Requester) (asks : PortAsks) (a : BitVec 48) :
    (s.granted r asks).probe a = s.probe a := by
  apply State.probe_congr <;> rfl

theorem State.allocate_duplicate {s : State} {d : Descriptor} {h : Handle}
    (found : s.probe d.linkAddress = some h) {q : Request} {rest : List Request}
    (head : s.requests = q :: rest) (clamped : Bool) :
    s.allocate d clamped = s.responded q.kind .duplicate clamped [0xFF, 0xFF, 0, 0, 0, 0, 0] := by
  rw [State.allocate, found]
  exact State.respond_eq head _ _ _

theorem State.allocate_noRoom {s : State} {d : Descriptor} (absent : s.probe d.linkAddress = none)
    (empty : s.freeHead = none) {q : Request} {rest : List Request} (head : s.requests = q :: rest)
    (clamped : Bool) :
    s.allocate d clamped = (s.raise .noRoom).responded q.kind .noRoom clamped
      [0xFF, 0xFF, 0, 0, 0, 0, 0] := by
  have head' : (s.raise .noRoom).requests = q :: rest := head
  rw [State.allocate, absent, empty]
  exact State.respond_eq head' _ _ _

/-- The free-list head leaves the list and becomes FORMING with the descriptor, in one write. -/
theorem State.takeFree_forming (s : State) (h : Handle) (d : Descriptor) :
    ((s.takeFree h).changeStation h fun r => { r with state := .forming, descriptor := d }) =
      { s.setStation h { s.station h with state := .forming, descriptor := d, nextFree := none } with
        freeHead := (s.station h).nextFree
        freeTail := if (s.station h).nextFree = none then none else s.freeTail } := by
  have record : (s.takeFree h).station h = { s.station h with nextFree := none } :=
    State.station_setStation_same s h _
  rw [State.changeStation_eq, record, ← ite_isNone]
  exact congrArg (fun u : State => ({ u with
    freeHead := (s.station h).nextFree
    freeTail := if (s.station h).nextFree.isNone then none else s.freeTail } : State))
    (s.setStation_setStation h _ _)

theorem State.allocate_forms {s : State} {d : Descriptor} (absent : s.probe d.linkAddress = none)
    {h : Handle} (head : s.freeHead = some h) (clamped : Bool) :
    s.allocate d clamped =
      { s.setStation h { s.station h with state := .forming, descriptor := d, nextFree := none } with
        freeHead := (s.station h).nextFree
        freeTail := if (s.station h).nextFree = none then none else s.freeTail
        flags := { s.flags with chainRange := s.flags.chainRange || (classify s.classPolicy d).2 }
        executing := .admitComplete h (classify s.classPolicy d).1 clamped } := by
  rw [State.allocate, absent, head]
  dsimp only [State.runClassifier]
  rw [State.raiseIf_chainRange, State.takeFree_forming]
  rfl

/-- Settles O19: the allocation visit of ADMIT. -/
theorem admitAllocationVisitAllocates : Obligations.AdmitAllocationVisitAllocates := by
  unfold Obligations.AdmitAllocationVisitAllocates
  intro s asks d clamped q rest run ex head grant index _
  rw [exec_admitAllocationVisit run ex grant]
  have head' : (s.granted .request asks).requests = q :: rest := head
  refine ⟨fun ⟨h, isIn, carries⟩ => ?_, fun absent => ?_⟩
  · have found : (s.granted .request asks).probe d.linkAddress = some h :=
      (s.probe_granted _ _ _).trans (State.probe_eq_some index isIn carries)
    rw [State.allocate_duplicate found head']
  · have none' : (s.granted .request asks).probe d.linkAddress = none :=
      (s.probe_granted _ _ _).trans (State.probe_eq_none index absent)
    refine ⟨fun empty => ?_, fun h first => ?_⟩
    · rw [State.allocate_noRoom none' empty head']
      rfl
    · dsimp only
      rw [State.allocate_forms none' first]
      rfl

/-! ### The completion visit (R19) -/

/-- A re-evaluation finds nothing to do for a station that is eligible and waiting nowhere, was waiting
nowhere, and holds no place (R65). -/
theorem State.reevaluateIn_nothing {s : State} {h : Handle} {before : StationRecord} {c : ServiceClass}
    (notWaiting : before.isWaiting c = false) (waits : (s.station h).isWaiting c = false)
    (out : (s.station h).eligible c = false) (slot : (s.station h).ringSlot.get c = none)
    (place : (s.station h).overflow.get c = none) : s.reevaluateIn h before c = s := by
  have counts : s.adjustWaiting c false false = s := by
    simp [State.adjustWaiting]
  rw [State.reevaluateIn, notWaiting, waits, counts, State.placeStation, out]
  rw [slot, place]
  rfl

/-- A record written back that is out of every ring and list before and after is written only (R65). -/
theorem State.writeBack_out {s : State} {h : Handle} {r : StationRecord}
    (notWaiting : ∀ c, (s.station h).isWaiting c = false) (waits : ∀ c, r.isWaiting c = false)
    (out : ∀ c, r.eligible c = false) (slot : ∀ c, r.ringSlot.get c = none)
    (place : ∀ c, r.overflow.get c = none) : s.writeBack h r = s.setStation h r := by
  have nothing : ∀ c, (s.setStation h r).reevaluateIn h (s.station h) c = s.setStation h r := fun c => by
    have own := s.station_setStation_same h r
    exact State.reevaluateIn_nothing (notWaiting c) (by rw [own]; exact waits c)
      (by rw [own]; exact out c) (by rw [own]; exact slot c) (by rw [own]; exact place c)
  unfold State.writeBack
  split
  · rfl
  · rw [State.reevaluate, nothing, nothing, nothing, nothing]

/-- A FORMING record is in no ring or list, nor is one without backlog: ADMIT's record is written only. -/
theorem State.writeBack_admitted {s : State} (rings : s.RingsLawful) {h : Handle}
    (forming : (s.station h).state = .forming) (t : Settings) (result : ClassResult) :
    s.writeBack h (admitted (s.station h) t result) =
      s.setStation h (admitted (s.station h) t result) := by
  have before : ∀ c, (s.station h).eligible c = false ∧ (s.station h).isWaiting c = false := fun c => by
    simp [StationRecord.eligible, StationRecord.isWaiting, StationRecord.ready, forming]
  have ready : ∀ c, (admitted (s.station h) t result).ready c = false := fun c => by
    cases c <;> simp [StationRecord.ready, admitted, ClassSet.none, PerClass.const, PerClass.get]
  have places : ∀ c, (s.station h).ringSlot.get c = none ∧ (s.station h).overflow.get c = none := by
    intro c
    have held := (rings.classes c).places h
    rw [(before c).1] at held
    simpa using held
  exact State.writeBack_out (fun c => (before c).2) (fun c => by rw [StationRecord.isWaiting, ready]; rfl)
    (fun c => by rw [StationRecord.eligible, ready]; rfl) (fun c => (places c).1) fun c => (places c).2

theorem State.RingsLawful.granted {s : State} (law : s.RingsLawful) (r : Requester) (asks : PortAsks) :
    (s.granted r asks).RingsLawful :=
  ⟨fun c => (law.classes c).ofRings rfl rfl rfl rfl, law.forming, law.cleared, law.restarted⟩

theorem exec_admitCompletionVisit {s : State} {asks : PortAsks} {h : Handle} {result : ClassResult}
    {clamped : Bool} (run : s.resetLow = false) (ex : s.executing = .admitComplete h result clamped)
    (grant : s.grants .request asks = true) :
    exec (.admitCompletionVisit asks) s =
      .next ((s.granted .request asks).completeAdmit h result clamped) := by
  have due : s.executing.visit = some .completion := by rw [ex]; rfl
  have ex' : (s.granted .request asks).executing = .admitComplete h result clamped := ex
  show Host.Outcome.next (s.requestVisit .completion asks _) = _
  rw [State.requestVisit_granted run due grant, ex']

/-- A record written and entered in the index, in one write (R13). -/
theorem State.enterIndex_setStation (s : State) (h : Handle) (r : StationRecord) :
    (s.setStation h r).enterIndex h =
      (s.setStation h { r with nextInBucket := s.bucketHead (bucketOf r.descriptor.linkAddress) }).setBucketHead
        (bucketOf r.descriptor.linkAddress) (some h) := by
  unfold State.enterIndex
  dsimp only
  rw [State.setNextInBucket_eq, State.station_setStation_same, State.setStation_setStation,
    State.bucketHead_setStation]

theorem State.completeAdmit_accepts {s : State} {result : ClassResult} (accepts : result.outcome = .accept)
    {q : Request} {rest : List Request} (head : s.requests = q :: rest) (h : Handle) (clamped : Bool) :
    s.completeAdmit h result clamped =
      ((s.writeBack h (admitted (s.station h) s.settings result)).enterIndex h).responded q.kind .ok clamped
        (bytesOf 2 h.val ++ traceBytes result.trace) := by
  rw [State.completeAdmit, accepts]
  refine State.respond_eq (rest := rest) ?_ _ _ _
  exact (State.writeBack_requests s h _).trans head

theorem State.completeAdmit_refuses {s : State} {result : ClassResult} (refuses : result.outcome ≠ .accept)
    {q : Request} {rest : List Request} (head : s.requests = q :: rest) (h : Handle) (clamped : Bool) :
    s.completeAdmit h result clamped =
      (s.freeAtHead h).responded q.kind
        (if result.outcome = ClassOutcome.denied then Status.denied else Status.noClass) clamped
        ([0xFF, 0xFF] ++ traceBytes result.trace) := by
  have head' : (s.freeAtHead h).requests = q :: rest := head
  rw [State.completeAdmit]
  cases outcome : result.outcome with
  | accept => exact absurd outcome refuses
  | denied => exact State.respond_eq head' _ _ _
  | noClass => exact State.respond_eq head' _ _ _

/-- Settles O20: the completion visit of ADMIT, and the coding of its trace. -/
theorem admitCompletionVisitCompletes : Obligations.AdmitCompletionVisitCompletes := by
  unfold Obligations.AdmitCompletionVisitCompletes
  refine ⟨fun entries fits => ⟨traceBytes_length entries, byteAt_traceBytes_count fits, fun i lt => ⟨?_, ?_⟩⟩,
    ?_⟩
  · intro e at_
    rw [byteAt_traceBytes_entry entries lt, at_]
    exact e.byte_toNat
  · intro beyond
    rw [byteAt_traceBytes_entry entries lt, List.getElem?_eq_none beyond]
    rfl
  · intro s asks h result clamped q rest run ex head grant forming rings
    have head' : (s.granted .request asks).requests = q :: rest := head
    dsimp only
    rw [exec_admitCompletionVisit run ex grant]
    refine ⟨fun accepts => ?_, fun refuses => ?_⟩
    · rw [State.completeAdmit_accepts accepts head',
        State.writeBack_admitted (rings.granted .request asks) forming, State.enterIndex_setStation]
      rfl
    · rw [State.completeAdmit_refuses refuses head', ← ite_isNone s.freeHead]
      rfl

end Sys2Proof.Machine
end

section
/-!
PROOFS. The RETIRE visit (O23): what leaves the index, what becomes of the record, and what stays (R13, R20, R151).
-/

namespace Sys2Proof.Machine

/-! ### What a record leaves behind in the index -/

/-- A record that leaves the index changes next-in-bucket links only. -/
theorem State.leaveIndex_content (s : State) (h k : Handle) :
    ({ (s.leaveIndex h).station k with nextInBucket := none } : StationRecord) =
      { s.station k with nextInBucket := none } := by
  have link : ∀ (u : State) (a : Handle) (x : Option Handle),
      ({ (u.setNextInBucket a x).station k with nextInBucket := none } : StationRecord) =
        { u.station k with nextInBucket := none } := by
    intro u a x
    rw [State.setNextInBucket_eq, State.station_setStation]
    split
    · next own => rw [own]
    · rfl
  unfold State.leaveIndex
  dsimp only
  split
  · exact (link _ _ _).trans (link _ _ _)
  · split <;> exact link _ _ _

/-- A record that has left the index has no link. -/
theorem State.leaveIndex_own (s : State) (h : Handle) :
    (s.leaveIndex h).station h = { s.station h with nextInBucket := none } := by
  have link : ((s.leaveIndex h).station h).nextInBucket = none := by
    unfold State.leaveIndex
    dsimp only
    rw [State.setNextInBucket_eq, State.station_setStation_same]
  rw [← s.leaveIndex_content h h, ← link]

/-- Leaving the index changes the records and the buckets, and nothing else. -/
theorem State.leaveIndex_frame (s : State) (h : Handle) :
    { s.leaveIndex h with stations := s.stations, buckets := s.buckets } = s := by
  unfold State.leaveIndex
  dsimp only
  repeat' split
  all_goals rfl

/-- A record written back that is eligible nowhere changes the records, the rings, the overflow lists and the
waiting counts, and nothing else (R65). -/
theorem State.writeBack_rest {s : State} {h : Handle} {r : StationRecord}
    (out : ∀ c, r.eligible c = false) (stations : Vector StationRecord 512) (rings : PerClass Ring)
    (overflows : PerClass OverflowList) (waiting : PerClass Nat) :
    { s.writeBack h r with
      stations := stations, rings := rings, overflows := overflows, waiting := waiting } =
    { s with stations := stations, rings := rings, overflows := overflows, waiting := waiting } := by
  have flags : (s.writeBack h r).flags = s.flags := State.writeBack_flags out
  have rest := congrArg (fun u : State =>
    { u with stations := stations, rings := rings, overflows := overflows, waiting := waiting
             flags := s.flags }) (State.writeBack_frame s h r)
  rw [← flags] at rest ⊢
  exact rest

/-- Beyond its places, a record written back is the record given, and every other is as it was. -/
theorem State.unplaced_writeBack (s : State) (h k : Handle) (r : StationRecord) :
    ((s.writeBack h r).station k).unplaced = if k = h then r.unplaced else (s.station k).unplaced := by
  rw [State.unplaced_of_frame (State.writeBack_frame s h r) k, State.station_setStation]
  split <;> rfl

/-! ### The visit -/

/-- A retired record is eligible in no class (R63). -/
theorem StationRecord.retired_out (r : StationRecord) (coolEpochs : Nat) (c : ServiceClass) :
    (r.retired coolEpochs).eligible c = false := by
  unfold StationRecord.retired
  split <;> rfl

theorem exec_retireVisit {s : State} {asks : PortAsks} {h : Handle} (run : s.resetLow = false)
    (ex : s.executing = .retire h) (grant : s.grants .request asks = true) :
    exec (.retireVisit asks) s = .next ((s.granted .request asks).retireStation h) := by
  have due : s.executing.visit = some .retire := by rw [ex]; rfl
  have ex' : (s.granted .request asks).executing = .retire h := ex
  show Host.Outcome.next (s.requestVisit .retire asks _) = _
  rw [State.requestVisit_granted run due grant, ex']

/-- The work of a RETIRE that finds an indexed record, before its response. -/
def State.retireWork (s : State) (h : Handle) : State :=
  (s.leaveIndex h).writeBack h
    (({ s.station h with nextInBucket := none } : StationRecord).retired s.settings.coolEpochs)

theorem State.retireStation_indexed {s : State} {h : Handle} (isIn : (s.station h).indexed = true)
    {q : Request} {rest : List Request} (head : s.requests = q :: rest) :
    s.retireStation h = (s.retireWork h).responded q.kind
      (if (s.station h).inFlight = ClassSet.none then .ok else .deferred) false (bytesOf 2 h.val) := by
  have found : (s.station h).associated = true := isIn
  have head' : (s.retireWork h).requests = q :: rest :=
    (State.writeBack_requests _ _ _).trans ((congrArg State.requests (s.leaveIndex_frame h) :).trans head)
  unfold State.retireStation
  rw [if_pos found]
  dsimp only
  rw [s.leaveIndex_own h]
  exact State.respond_eq head' _ _ _

theorem State.retireStation_refused {s : State} {h : Handle} (out : (s.station h).indexed = false)
    {q : Request} {rest : List Request} (head : s.requests = q :: rest) :
    s.retireStation h = s.responded q.kind .noStation false (bytesOf 2 h.val) := by
  have missing : ¬ (s.station h).associated = true := by
    rw [show (s.station h).associated = (s.station h).indexed from rfl, out]
    exact Bool.false_ne_true
  unfold State.retireStation
  rw [if_neg missing]
  exact State.respond_eq head _ _ _

theorem State.retireWork_unplaced (s : State) (h k : Handle) :
    ((s.retireWork h).station k).unplaced =
      if k = h then (({ s.station h with nextInBucket := none } : StationRecord).retired
        s.settings.coolEpochs).unplaced
      else ((s.leaveIndex h).station k).unplaced := State.unplaced_writeBack _ h k _

theorem State.retireWork_frame (s : State) (h : Handle) :
    { s.retireWork h with
      stations := s.stations, buckets := s.buckets, rings := s.rings, overflows := s.overflows
      waiting := s.waiting } = s := by
  have written := State.writeBack_rest (s := s.leaveIndex h) (h := h) (StationRecord.retired_out
    ({ s.station h with nextInBucket := none } : StationRecord) s.settings.coolEpochs) s.stations s.rings
    s.overflows s.waiting
  have left := s.leaveIndex_frame h
  calc { s.retireWork h with
        stations := s.stations, buckets := s.buckets, rings := s.rings, overflows := s.overflows
        waiting := s.waiting }
      = { s.leaveIndex h with
          stations := s.stations, buckets := s.buckets, rings := s.rings, overflows := s.overflows
          waiting := s.waiting } :=
        congrArg (fun u : State => { u with buckets := s.buckets }) written
    _ = s := congrArg (fun u : State =>
        { u with rings := s.rings, overflows := s.overflows, waiting := s.waiting }) left

/-- In a lawful index, a retired record's place in its chain goes to the record after it (R13). -/
theorem State.IndexLawful.retireWork {s : State} (law : s.IndexLawful) {h : Handle}
    (isIn : (s.station h).indexed = true) :
    (∀ k, k ≠ h → ((s.retireWork h).station k).nextInBucket =
      if (s.station k).nextInBucket = some h then (s.station h).nextInBucket
      else (s.station k).nextInBucket) ∧
    ∀ b, (s.retireWork h).bucketHead b =
      if s.bucketHead b = some h then (s.station h).nextInBucket else s.bucketHead b := by
  obtain ⟨records, heads⟩ := law.leaveIndex isIn
  constructor
  · intro k ne
    have written := s.retireWork_unplaced h k
    rw [if_neg ne, records, if_neg ne] at written
    exact (congrArg StationRecord.nextInBucket written :)
  · intro b
    rw [← heads b]
    simp only [State.bucketHead, State.retireWork, State.writeBack_buckets]

theorem State.IndexLawful.granted {s : State} (law : s.IndexLawful) (r : Requester) (asks : PortAsks) :
    (s.granted r asks).IndexLawful :=
  law.of_stands rfl (fun _ _ _ on => on) fun _ => .of_state rfl rfl rfl rfl

/-- Settles O23: the RETIRE visit. -/
theorem retireVisitRetires : Obligations.RetireVisitRetires := by
  unfold Obligations.RetireVisitRetires
  intro s asks h q rest run ex head grant
  have head' : (s.granted .request asks).requests = q :: rest := head
  dsimp only
  rw [exec_retireVisit run ex grant]
  generalize granted : s.granted .request asks = g at head'
  have record : ∀ k, g.station k = s.station k := fun k => by rw [← granted]; rfl
  have bucket : ∀ b, g.bucketHead b = s.bucketHead b := fun b => by rw [← granted]; rfl
  have settings : g.settings = s.settings := by rw [← granted]; rfl
  refine ⟨fun isIn => ?_, fun out => ?_⟩
  · have isIn' : (g.station h).indexed = true := by rw [record]; exact isIn
    refine ⟨_, congrArg Host.Outcome.next (State.retireStation_indexed isIn' head'), ?_, fun k ne => ?_,
      fun law => ?_, ?_⟩
    · refine (g.retireWork_unplaced h h).trans ?_
      rw [if_pos rfl, record, settings, StationRecord.retired]
    · have kept := g.retireWork_unplaced h k
      rw [if_neg ne] at kept
      have content := congrArg StationRecord.unplaced (g.leaveIndex_content h k)
      rw [record] at content
      exact (congrArg (fun r : StationRecord => ({ r with nextInBucket := none } : StationRecord)) kept).trans
        content
    · have law' : g.IndexLawful := by
        rw [← granted]
        exact law.granted _ _
      obtain ⟨links, heads⟩ := law'.retireWork isIn'
      simp only [record, bucket] at links heads
      exact ⟨links, heads, fun b members order =>
        (State.BucketOrder.erase links heads order).congr rfl fun _ _ => rfl⟩
    · rw [record]
      have frame := g.retireWork_frame h
      have parts : g.stations = s.stations ∧ g.buckets = s.buckets ∧ g.rings = s.rings ∧
          g.overflows = s.overflows ∧ g.waiting = s.waiting := by
        rw [← granted]
        exact ⟨rfl, rfl, rfl, rfl, rfl⟩
      obtain ⟨stations, buckets, rings, overflows, waiting⟩ := parts
      rw [stations, buckets, rings, overflows, waiting] at frame
      exact congrArg (fun u : State => u.responded q.kind
        (if (s.station h).inFlight = ClassSet.none then .ok else .deferred) false (bytesOf 2 h.val)) frame
  · rw [State.retireStation_refused (by rw [record]; exact out) head']

end Sys2Proof.Machine
end

section
/-!
PROOFS. The reading visits (O24): the fields of a snapshot and of a LIST response, and the visits of FIND, QUERY
and LIST (R14, R153, R154, R167, R170 to R172).
-/

namespace Sys2Proof.Machine

/-! ### Fields of a snapshot -/

/-- The number a handle field carries: the handle, or 0xFFFF for none (R167). -/
def handleNumber (h : Option Handle) : Nat := h.elim 0xFFFF (·.val)

theorem handleNumber_mod (h : Option Handle) : handleNumber h % 65536 = handleNumber h := by
  cases h with
  | none => rfl
  | some h => exact Nat.mod_eq_of_lt (by have := h.isLt; simp only [handleNumber, Option.elim_some]; omega)

theorem handleBytes_eq (h : Option Handle) : handleBytes h = bytesOf 2 (handleNumber h) := by
  cases h <;> rfl

theorem overflowBytes_eq (o : Option OverflowPlace) :
    overflowBytes o =
      bytesOf 2 (handleNumber (o.bind (·.prev))) ++ bytesOf 2 (handleNumber (o.bind (·.next))) := by
  cases o with
  | none => rfl
  | some p => exact congrArg₂ (· ++ ·) (handleBytes_eq p.prev) (handleBytes_eq p.next)

theorem traceBytes_eq (entries : List TraceEntry) :
    ∃ a b c d e, traceBytes entries = [a, b, c, d, e] :=
  ⟨_, _, _, _, _, rfl⟩

/-- The places of the flags in their byte (R170). -/
theorem descriptorFlags_fields (multiUser legacy : Bool) (streams : BitVec 3) (band : BitVec 2) :
    let b : Byte := 0#1 ++ BitVec.ofBool multiUser ++ BitVec.ofBool legacy ++ streams ++ band
    b.extractLsb' 0 2 = band ∧ b.extractLsb' 2 3 = streams ∧ b.getLsbD 5 = legacy ∧
      b.getLsbD 6 = multiUser ∧ b.getLsbD 7 = false := by
  revert multiUser legacy streams band
  decide

/-- The two halves of a byte. -/
theorem halves_fields (high low : BitVec 4) :
    (high ++ low : Byte).extractLsb' 0 4 = low ∧ (high ++ low : Byte).extractLsb' 4 4 = high := by
  constructor
  · exact BitVec.extractLsb'_append_eq_right
  · exact BitVec.extractLsb'_append_eq_left

/-- What holds of each class and its number. -/
theorem forall_classNumbers {P : ServiceClass × Nat → Prop} (p0 : P (.sc0, 0)) (p1 : P (.sc1, 1))
    (p2 : P (.sc2, 2)) (p3 : P (.sc3, 3)) :
    ∀ k ∈ ([(.sc0, 0), (.sc1, 1), (.sc2, 2), (.sc3, 3)] : List (ServiceClass × Nat)), P k := by
  simp [p0, p1, p2, p3]

/-- Bit n of a half byte that codes a set stands for SCn (R167). -/
theorem classHalves_bit (high low : ServiceClass → Bool) :
    ∀ k ∈ ([(.sc0, 0), (.sc1, 1), (.sc2, 2), (.sc3, 3)] : List (ServiceClass × Nat)),
      (bitsOfClasses (classesWhere high) ++ bitsOfClasses (classesWhere low) : Byte).getLsbD k.2 = low k.1 ∧
      (bitsOfClasses (classesWhere high) ++ bitsOfClasses (classesWhere low) : Byte).getLsbD (4 + k.2) =
        high k.1 := by
  obtain ⟨h0, h1, h2, h3⟩ := bitsOfClasses_bit (classesWhere high)
  obtain ⟨l0, l1, l2, l3⟩ := bitsOfClasses_bit (classesWhere low)
  simp only [BitVec.getLsbD_append]
  exact forall_classNumbers ⟨l0, h0⟩ ⟨l1, h1⟩ ⟨l2, h2⟩ ⟨l3, h3⟩

/-- The bits of a set that is shown empty under a condition. -/
theorem bitsOfClasses_ite (p : Prop) [Decidable p] (k l : ClassSet) :
    bitsOfClasses (if p then k else l) = if p then bitsOfClasses k else bitsOfClasses l :=
  apply_ite bitsOfClasses p k l

/-- A place shown for an ACTIVE record only. -/
theorem PerClass.get_ite {α : Type} (p : Prop) [Decidable p] (a : PerClass (Option α)) (c : ServiceClass) :
    (if p then a else PerClass.const none).get c = if p then a.get c else none := by
  split
  · rfl
  · cases c <;> rfl

/-! ### The LIST response -/

/-- Fields of two bytes in a row take two bytes each. -/
theorem length_flatMap_pairs {f : Nat → List Byte} (two : ∀ i, (f i).length = 2) (n : Nat) :
    ((List.range n).flatMap f).length = 2 * n := by
  simp only [List.length_flatMap, two, List.map_const', List.length_range, List.sum_replicate, smul_eq_mul]
  omega

/-- Among fields of two bytes in a row, field `i` stands at byte `2 * i`. -/
theorem flatMap_pairs_at {f : Nat → List Byte} (two : ∀ i, (f i).length = 2) {i n : Nat} (lt : i < n)
    (rest : List Byte) : ((((List.range n).flatMap f) ++ rest).drop (2 * i)).take 2 = f i := by
  obtain ⟨m, rfl⟩ := Nat.exists_eq_add_of_lt lt
  have split : (List.range (i + m + 1)).flatMap f = (List.range i).flatMap f ++
      (f i ++ (List.range m).flatMap fun j => f (i + 1 + j)) := by
    rw [show i + m + 1 = i + (1 + m) by omega, List.range_add, List.range_add]
    simp [List.flatMap_map, Nat.add_assoc]
  rw [split, List.append_assoc, ← length_flatMap_pairs two i, List.drop_left, List.append_assoc, ← two i,
    List.take_left]

theorem handleBytes_length (h : Option Handle) : (handleBytes h).length = 2 := by
  cases h <;> rfl

theorem natOf_handleBytes (h : Option Handle) : natOf (handleBytes h) = handleNumber h := by
  rw [handleBytes_eq, bytesOf_two, natOf_two, handleNumber_mod]

theorem listResponse_length (found : List Handle) (next : Option Handle) :
    (listResponse found next).length = 59 := by
  simp only [listResponse, List.length_cons, List.length_append, handleBytes_length,
    length_flatMap_pairs fun i => handleBytes_length found[i]?, Config.listLimit]

theorem listResponse_count {found : List Handle} (fits : found.length ≤ 28) (next : Option Handle) :
    (byteAt (listResponse found next) 0).toNat = found.length :=
  Nat.mod_eq_of_lt (by omega)

theorem listResponse_handle (found : List Handle) (next : Option Handle) {i : Nat} (lt : i < 28) :
    fieldAt (listResponse found next) (1 + 2 * i) 2 = handleNumber found[i]? := by
  rw [fieldAt, listResponse, List.cons_append, Nat.add_comm 1, List.drop_succ_cons,
    flatMap_pairs_at (fun i => handleBytes_length found[i]?) (show i < Config.listLimit from lt),
    natOf_handleBytes]

theorem listResponse_next (found : List Handle) (next : Option Handle) :
    fieldAt (listResponse found next) 57 2 = handleNumber next := by
  have after : (listResponse found next).drop 57 = handleBytes next := by
    have front := length_flatMap_pairs (fun i => handleBytes_length found[i]?) Config.listLimit
    rw [listResponse, List.cons_append, List.drop_succ_cons, show 56 = 2 * Config.listLimit from rfl, ← front,
      List.drop_left]
  rw [fieldAt, after, ← handleBytes_length next, List.take_length, natOf_handleBytes]

/-! ### The visits -/

theorem exec_findProbeVisit_found {s : State} {asks : PortAsks} {a : BitVec 48} {h : Handle}
    (run : s.resetLow = false) (ex : s.executing = .find a) (grant : s.grants .request asks = true)
    (found : s.probe a = some h) :
    exec (.findProbeVisit asks) s =
      .next ((s.granted .request asks).respond .ok false (handleBytes (some h))) := by
  have due : s.executing.visit = some .probe := by rw [ex]; rfl
  have ex' : (s.granted .request asks).executing = .find a := ex
  have found' := (s.probe_granted .request asks a).trans found
  show Host.Outcome.next (s.requestVisit .probe asks _) = _
  simp only [State.requestVisit_granted run due grant, ex', found']

theorem exec_findProbeVisit_missing {s : State} {asks : PortAsks} {a : BitVec 48}
    (run : s.resetLow = false) (ex : s.executing = .find a) (grant : s.grants .request asks = true)
    (missing : s.probe a = none) :
    exec (.findProbeVisit asks) s =
      .next ((s.granted .request asks).respond .notFound false (handleBytes none)) := by
  have due : s.executing.visit = some .probe := by rw [ex]; rfl
  have ex' : (s.granted .request asks).executing = .find a := ex
  have missing' := (s.probe_granted .request asks a).trans missing
  show Host.Outcome.next (s.requestVisit .probe asks _) = _
  simp only [State.requestVisit_granted run due grant, ex', missing']

theorem exec_queryVisit {s : State} {asks : PortAsks} {h : Handle} (run : s.resetLow = false)
    (ex : s.executing = .query h) (grant : s.grants .request asks = true) :
    exec (.queryVisit asks) s = .next
      (if (s.station h).state = .free ∨ (s.station h).state = .forming then
        (s.granted .request asks).respond .noStation false queryRefused
      else (s.granted .request asks).respond .ok false (snapshotBytes (s.station h) s.walker.epoch)) := by
  have due : s.executing.visit = some .query := by rw [ex]; rfl
  have ex' : (s.granted .request asks).executing = .query h := ex
  show Host.Outcome.next (s.requestVisit .query asks _) = _
  rw [State.requestVisit_granted run due grant, ex']
  rfl

theorem exec_listScanVisit {s : State} {asks : PortAsks} {states : BitVec 6} {h : Handle}
    {found : List Handle} (run : s.resetLow = false) (ex : s.executing = .list states h found)
    (grant : s.grants .request asks = true) :
    exec (.listScanVisit asks) s = .next ((s.granted .request asks).scan states h found) := by
  have due : s.executing.visit = some .scan := by rw [ex]; rfl
  have ex' : (s.granted .request asks).executing = .list states h found := ex
  show Host.Outcome.next (s.requestVisit .scan asks _) = _
  rw [State.requestVisit_granted run due grant, ex']

/-- The handles of a LIST with those of the record scanned, which joins when its state is in the set (R154). -/
def State.listed (s : State) (states : BitVec 6) (h : Handle) (found : List Handle) : List Handle :=
  if states.getLsbD (s.station h).state.code then found ++ [h] else found

/-- A scan with fewer than 28 handles goes on to the next record. -/
theorem State.scan_goesOn {s : State} {states : BitVec 6} {h next : Handle} {found : List Handle}
    (after : Handle.after h = some next) (room : (s.listed states h found).length < 28) :
    s.scan states h found = { s with executing := .list states next (s.listed states h found) } := by
  unfold State.scan
  rw [after]
  exact if_neg (Nat.not_le.mpr room)

/-- A scan ends after handle 511, or at 28 handles. -/
theorem State.scan_ends {s : State} {states : BitVec 6} {h : Handle} {found : List Handle}
    (ends : Handle.after h = none ∨ (s.listed states h found).length = 28) {q : Request}
    {rest : List Request} (head : s.requests = q :: rest) :
    s.scan states h found = s.responded q.kind .ok false
      (listResponse (s.listed states h found) (listNext (s.listed states h found))) := by
  rw [← State.respond_eq head]
  unfold State.scan
  cases after : Handle.after h with
  | none => rfl
  | some next =>
    have full := ends.resolve_left (by rw [after]; exact Option.some_ne_none next)
    exact if_pos full.ge

/-- Below 28 handles a LIST has come to the end and has no next handle. -/
theorem listNext_of_lt {found : List Handle} (lt : found.length < 28) : listNext found = none :=
  if_pos lt

/-- A LIST that a record brought to 28 handles goes on behind it. -/
theorem State.listNext_listed {s : State} {states : BitVec 6} {h : Handle} {found : List Handle}
    (room : found.length < 28) (full : (s.listed states h found).length = 28) :
    listNext (s.listed states h found) = Handle.after h := by
  unfold State.listed at full ⊢
  split at full
  · next joins => rw [if_pos joins, listNext, if_neg (by rw [full]; decide), List.getLast?_concat]
  · exact absurd full room.ne

/-- Settles O24: the visits of FIND, QUERY and LIST. -/
theorem readingVisitsAnswer : Obligations.ReadingVisitsAnswer := by
  unfold Obligations.ReadingVisitsAnswer
  refine ⟨by decide, fun r epoch notFree notForming => ?_, fun found next fits => ?_,
    fun s asks q rest run head grant => ?_⟩
  · obtain ⟨t0, t1, t2, t3, t4, trace⟩ := traceBytes_eq r.trace
    have bytes := snapshotBytes.eq_1 r epoch
    rw [StationRecord.shown_settled notFree notForming] at bytes
    simp only [Descriptor.bytes, Profile.bytes, trace, allClasses, List.map_cons, List.map_nil,
      List.flatMap_cons, List.flatMap_nil, overflowBytes_eq, bytesOf_two, bytesOf_three, bytesOf_six,
      PerClass.get_ite, List.cons_append, List.nil_append] at bytes
    intro b d v bits number slot place
    obtain ⟨band, streams, legacy, multiUser, spare⟩ := descriptorFlags_fields d.multiUser d.legacy
      (BitVec.ofNat 3 d.streams) (BitVec.ofNat 2 d.band)
    have sets := classHalves_bit (fun c => (place c).isSome) fun c => (slot c).isSome
    have handle : ∀ x, natOf [BitVec.ofNat 8 (handleNumber x / 256), BitVec.ofNat 8 (handleNumber x)] =
        number x := fun x => (natOf_two _).trans (handleNumber_mod x)
    have b_eq : b = _ := bytes
    rw [b_eq]
    refine ⟨rfl, rfl, (natOf_six _).trans (Nat.mod_eq_of_lt d.linkAddress.isLt), rfl, band, streams, legacy,
      multiUser, spare, rfl, rfl, rfl, rfl, rfl, natOf_two _, natOf_two _, rfl, rfl, natOf_two _, trace.symm,
      (congrArg (BitVec.ofNat 24) (natOf_three _)).trans (ofNat_codeSigned r.credit), natOf_two _, natOf_two _,
      ?_, ?_, ?_, rfl, ?_, ?_, (natOf_two _).trans (Nat.mod_eq_of_lt epoch.isLt)⟩
    · exact (halves_fields _ _).1.trans (bitsOfClasses_ite _ _ _)
    · exact (halves_fields _ _).2.trans (bitsOfClasses_ite _ _ _)
    · refine forall_classNumbers ?_ ?_ ?_ ?_
      · exact ⟨(sets _ (by simp)).1, (sets _ (by simp)).2, rfl, handle _, handle _⟩
      · exact ⟨(sets _ (by simp)).1, (sets _ (by simp)).2, rfl, handle _, handle _⟩
      · exact ⟨(sets _ (by simp)).1, (sets _ (by simp)).2, rfl, handle _, handle _⟩
      · exact ⟨(sets _ (by simp)).1, (sets _ (by simp)).2, rfl, handle _, handle _⟩
    · refine (halves_fields _ _).2.trans ?_
      split <;> rfl
    · exact (halves_fields _ _).1
  · exact ⟨listResponse_length found next, listResponse_count fits next,
      fun i lt => listResponse_handle found next lt, listResponse_next found next⟩
  · have head' : (s.granted .request asks).requests = q :: rest := head
    refine ⟨fun a ex law => ⟨fun h isIn carries => ?_, fun missing => ?_⟩, fun h ex => ⟨fun free => ?_,
      fun notFree notForming => ?_⟩, fun states h found ex room => ?_⟩
    · rw [exec_findProbeVisit_found run ex grant (State.probe_eq_some law isIn carries)]
      exact congrArg _ (State.respond_eq head' _ _ _)
    · rw [exec_findProbeVisit_missing run ex grant (State.probe_eq_none law missing)]
      exact congrArg _ (State.respond_eq head' _ _ _)
    · rw [exec_queryVisit run ex grant, if_pos (.inl free), State.respond_eq head']
      rfl
    · rw [exec_queryVisit run ex grant, if_neg (not_or.mpr ⟨notFree, notForming⟩), State.respond_eq head']
    · rw [exec_listScanVisit run ex grant]
      refine ⟨fun room' lt => ?_, fun room' last => ?_, fun full => ?_⟩
      · exact congrArg _ (State.scan_goesOn (dif_pos lt) room')
      · have after : Handle.after h = none := dif_neg (by omega)
        refine congrArg _ ((State.scan_ends (.inl after) head').trans ?_)
        rw [show listNext ((s.granted .request asks).listed states h found) = none from listNext_of_lt room']
        rfl
      · have full' : ((s.granted .request asks).listed states h found).length = 28 := full
        refine congrArg _ ((State.scan_ends (.inr full') head').trans ?_)
        rw [State.listNext_listed room full']
        rfl

end Sys2Proof.Machine
end

section
/-!
PROOFS. The record visits of a TABLE_CLEAR (O25): the visit of one record, and the table after the visit of handle
511, the last (R2, R11 to R13, R22, R78, R106, R122).
-/

namespace Sys2Proof.Machine

/-! ### The visit -/

theorem exec_tableClearRecordVisit_goesOn {s : State} {asks : PortAsks} {h next : Handle}
    (run : s.resetLow = false) (ex : s.executing = .clearRecords h) (grant : s.grants .request asks = true)
    (after : Handle.after h = some next) :
    exec (.tableClearRecordVisit asks) s =
      .next { (s.granted .request asks).clearRecord h with executing := .clearRecords next } := by
  have due : s.executing.visit = some .clearRecord := by rw [ex]; rfl
  have ex' : (s.granted .request asks).executing = .clearRecords h := ex
  show Host.Outcome.next (s.requestVisit .clearRecord asks _) = _
  simp only [State.requestVisit_granted run due grant, ex', after]

theorem exec_tableClearRecordVisit_completes {s : State} {asks : PortAsks} {h : Handle}
    (run : s.resetLow = false) (ex : s.executing = .clearRecords h) (grant : s.grants .request asks = true)
    (after : Handle.after h = none) :
    exec (.tableClearRecordVisit asks) s =
      .next ((s.granted .request asks).clearRecord h).completeClear := by
  have due : s.executing.visit = some .clearRecord := by rw [ex]; rfl
  have ex' : (s.granted .request asks).executing = .clearRecords h := ex
  show Host.Outcome.next (s.requestVisit .clearRecord asks _) = _
  simp only [State.requestVisit_granted run due grant, ex', after]

/-- The state after the completion of a TABLE_CLEAR, before its response (R22, R78, R106, R122). -/
def State.cleared (s : State) : State :=
  { s with
    rings := PerClass.const Ring.powerOn
    clearing := false
    walker := { s.walker with
      timerRunning := true
      nextExpiry := s.timebase + BitVec.ofNat 32 s.settings.stepInterval } }

theorem State.completeClear_eq {s : State} {q : Request} {rest : List Request}
    (head : s.requests = q :: rest) : s.completeClear = s.cleared.responded q.kind .ok false [] := by
  have head' : s.cleared.requests = q :: rest := head
  exact State.respond_eq head' .ok false []

/-- The two states agree in the records, the free list, the index, the overflow lists and the waiting counts. -/
structure State.SharesTable (t w : State) : Prop where
  stations : t.stations = w.stations
  freeHead : t.freeHead = w.freeHead
  freeTail : t.freeTail = w.freeTail
  buckets : t.buckets = w.buckets
  overflows : t.overflows = w.overflows
  waiting : t.waiting = w.waiting

theorem State.SharesTable.station {t w : State} (shares : t.SharesTable w) (k : Handle) :
    t.station k = w.station k := by
  simp only [State.station, shares.stations]

theorem State.SharesTable.bucketHead {t w : State} (shares : t.SharesTable w) (b : BitVec 8) :
    t.bucketHead b = w.bucketHead b := by
  simp only [State.bucketHead, shares.buckets]

theorem State.SharesTable.freeOrder {t w : State} (shares : t.SharesTable w) {members : List Handle}
    (order : w.FreeOrder members) : t.FreeOrder members :=
  order.congr shares.freeHead shares.freeTail fun k _ => by rw [shares.station k]

/-- A record visit leaves the station table as the work on its record left it, and goes on to the next record or
completes the clear. -/
theorem exec_tableClearRecordVisit {s : State} {asks : PortAsks} {h : Handle} {q : Request}
    {rest : List Request} (run : s.resetLow = false) (ex : s.executing = .clearRecords h)
    (head : s.requests = q :: rest) (grant : s.grants .request asks = true) :
    ∃ t, exec (.tableClearRecordVisit asks) s = .next t ∧
      t.SharesTable ((s.granted .request asks).clearRecord h) ∧
      { t with stations := s.stations, freeHead := s.freeHead, freeTail := s.freeTail
               buckets := s.buckets, rings := s.rings, overflows := s.overflows
               waiting := s.waiting } =
        (if lt : h.val + 1 < 512 then
          { s.granted .request asks with executing := .clearRecords ⟨h.val + 1, lt⟩ }
        else
          { (s.granted .request asks).responded q.kind .ok false [] with
            clearing := false
            walker := { s.walker with
              timerRunning := true
              nextExpiry := s.timebase + BitVec.ofNat 32 s.settings.stepInterval } }) ∧
      (h.val = 511 → t.rings = PerClass.const Ring.powerOn) := by
  have frame := (s.granted .request asks).clearRecord_frame h
  by_cases lt : h.val + 1 < 512
  · refine ⟨_, exec_tableClearRecordVisit_goesOn run ex grant (dif_pos lt), ⟨rfl, rfl, rfl, rfl, rfl, rfl⟩, ?_,
      fun last => by omega⟩
    rw [dif_pos lt]
    exact congrArg (fun u : State => { u with executing := .clearRecords ⟨h.val + 1, lt⟩ }) frame
  · have head' : ((s.granted .request asks).clearRecord h).requests = q :: rest :=
      (congrArg State.requests frame :).trans head
    refine ⟨_, (exec_tableClearRecordVisit_completes run ex grant (dif_neg lt)).trans
      (congrArg _ (State.completeClear_eq head')), ⟨rfl, rfl, rfl, rfl, rfl, rfl⟩, ?_, fun _ => rfl⟩
    rw [dif_neg lt]
    exact congrArg (fun u : State => { u.cleared.responded q.kind .ok false [] with rings := s.rings }) frame

/-! ### The table after the last record visit -/

/-- The handles up to the last are all handles. -/
theorem below_last {h : Handle} (last : h.val = 511) (members : List Handle) :
    allHandles.take h.val ++ h :: members.filter (h < ·) = allHandles := by
  have above : members.filter (h < ·) = [] := by
    refine List.filter_eq_nil_iff.mpr fun k _ => ?_
    rw [decide_eq_true_eq, Fin.lt_def]
    have := k.isLt
    omega
  obtain ⟨all, isAll⟩ : ∃ all, all = allHandles := ⟨_, rfl⟩
  have length : all.length = h.val + 1 := by simp [isAll, allHandles, last]
  have lt : h.val < all.length := by omega
  have own : all[h.val] = h := by simp [isAll, allHandles]
  calc allHandles.take h.val ++ h :: members.filter (h < ·)
      = all.take h.val ++ [all[h.val]] := by rw [above, own, isAll]
    _ = all.take (h.val + 1) := List.take_append_getElem lt
    _ = allHandles := by rw [← length, List.take_length, isAll]

theorem State.FreeListLawful.granted {s : State} (law : s.FreeListLawful) (r : Requester) (asks : PortAsks) :
    (s.granted r asks).FreeListLawful :=
  law.of_stands rfl rfl rfl fun _ => .of_state rfl rfl rfl rfl

/-- A class in which no station is eligible or waiting has no place taken, no list and nobody waiting. -/
theorem State.ClassLawful.empty {s : State} {c : ServiceClass} (law : s.ClassLawful c)
    (out : ∀ h, (s.station h).ready c = false) :
    (∀ h, (s.station h).ringSlot.get c = none ∧ (s.station h).overflow.get c = none) ∧
      s.overflowList c = { head := none, tail := none, length := 0 } ∧ s.waiting.get c = 0 := by
  have unplaced : ∀ h, (s.station h).ringSlot.get c = none ∧ (s.station h).overflow.get c = none := by
    intro h
    have none_ := mt (law.places h).mpr (by simp [StationRecord.eligible, out])
    simpa only [not_or, Option.not_isSome_iff_eq_none] using none_
  refine ⟨unplaced, ?_, ?_⟩
  · obtain ⟨members, listed⟩ := law.list
    have nobody : members = [] := List.eq_nil_iff_forall_not_mem.mpr fun h isIn => by
      have placed := (listed.member h).mp isIn
      rw [State.placeOf, (unplaced h).2] at placed
      cases placed
    have head := listed.head
    have tail := listed.tail
    have length := listed.length
    rw [nobody] at head tail length
    revert head tail length
    cases s.overflowList c with
    | mk first final count =>
      intro head tail length
      exact (OverflowList.mk.injEq ..).mpr ⟨head, tail, length⟩
  · rw [law.waiting, State.countWaiting,
      List.filter_eq_nil_iff.mpr fun h _ => by simp [StationRecord.isWaiting, out]]
    rfl

/-- A lawful index of no record has empty buckets and no links. -/
theorem State.IndexLawful.empty {s : State} (law : s.IndexLawful)
    (out : ∀ h, (s.station h).indexed = false) :
    s.buckets = Vector.replicate 256 none ∧ ∀ h, (s.station h).nextInBucket = none := by
  refine ⟨?_, fun h => law.outside h (out h)⟩
  have heads : ∀ b, s.bucketHead b = none := by
    intro b
    obtain ⟨members, order, mem⟩ := law.order b
    have nobody : members = [] := List.eq_nil_iff_forall_not_mem.mpr fun h isIn => by
      have isIndexed := ((mem h).mp isIn).1
      rw [out h] at isIndexed
      cases isIndexed
    rw [order.head, nobody]
    rfl
  refine Vector.ext fun i lt => ?_
  have head := heads (BitVec.ofNat 8 i)
  simp only [State.bucketHead] at head
  simpa [Nat.mod_eq_of_lt lt] using head

/-- After the visit of handle 511 every record is FREE. -/
theorem State.RingsLawful.clearRecord_last {s : State} (law : s.RingsLawful) {h : Handle}
    (ex : s.executing = .clearRecords h) (last : h.val = 511) (k : Handle) :
    ((s.clearRecord h).station k).state = .free := by
  rw [s.clearRecord_state h k]
  split
  · rfl
  · next ne =>
    refine law.cleared h ex k (Fin.lt_def.mpr ?_)
    have := Fin.val_ne_of_ne ne
    omega

/-- A record with cleared content, no place and no place in the index is cleared but for its free-list link. -/
theorem StationRecord.eq_cleared {r : StationRecord}
    (content : ({ r with nextFree := none, nextInBucket := none } : StationRecord).unplaced =
      StationRecord.cleared)
    (places : ∀ c, r.ringSlot.get c = none ∧ r.overflow.get c = none) (bucket : r.nextInBucket = none) :
    r = { StationRecord.cleared with nextFree := r.nextFree } := by
  have slots : r.ringSlot = PerClass.const none :=
    PerClass.ext_get fun c => (places c).1.trans (PerClass.get_const none c).symm
  have lists : r.overflow = PerClass.const none :=
    PerClass.ext_get fun c => (places c).2.trans (PerClass.get_const none c).symm
  calc r = { ({ r with nextFree := none, nextInBucket := none } : StationRecord).unplaced with
        ringSlot := r.ringSlot, overflow := r.overflow, nextInBucket := r.nextInBucket
        nextFree := r.nextFree } := rfl
    _ = { StationRecord.cleared with nextFree := r.nextFree } := by
        rw [content, slots, lists, bucket]
        rfl

/-- In a free list of all handles in order, each is linked to the next. -/
theorem State.FreeOrder.link_allHandles {s : State} {all : List Handle} (order : s.FreeOrder all)
    (isAll : all = allHandles) (k : Handle) : (s.station k).nextFree = Handle.after k := by
  have length : all.length = 512 := by simp [isAll, allHandles]
  have at_ : ∀ (i : Nat) (lt : i < all.length), all[i] = ⟨i, length ▸ lt⟩ := fun i lt => by
    simp [isAll, allHandles]
  have lt : k.val < all.length := by rw [length]; exact k.isLt
  have link := order.linked.getElem? k.val lt
  rw [at_ k.val lt] at link
  refine Eq.trans link ?_
  unfold Handle.after
  split
  · next more =>
    have lt' : k.val + 1 < all.length := by rw [length]; exact more
    rw [List.getElem?_eq_getElem lt', at_]
  · next last => exact List.getElem?_eq_none (by omega)

/-! ### The obligation -/

/-- Settles O25: the record visits of TABLE_CLEAR. -/
theorem tableClearRecordVisitClears : Obligations.TableClearRecordVisitClears := by
  unfold Obligations.TableClearRecordVisitClears
  intro s asks h q rest run ex head grant
  obtain ⟨t, visit, shares, frame, rings⟩ := exec_tableClearRecordVisit run ex head grant
  obtain ⟨g, granted⟩ : ∃ g, g = s.granted .request asks := ⟨_, rfl⟩
  rw [← granted] at shares
  have table : g.SharesTable s := by rw [granted]; exact ⟨rfl, rfl, rfl, rfl, rfl, rfl⟩
  have ex' : g.executing = .clearRecords h := by rw [granted]; exact ex
  have free' : s.FreeListLawful → g.FreeListLawful := fun law => by rw [granted]; exact law.granted _ _
  have index' : s.IndexLawful → g.IndexLawful := fun law => by rw [granted]; exact law.granted _ _
  obtain ⟨own, others⟩ := g.clearRecord_records h
  have order' : s.FreeListLawful → ∀ members, s.FreeOrder members →
      t.FreeOrder (allHandles.take h.val ++ h :: members.filter (h < ·)) := fun law members order =>
    shares.freeOrder ((free' law).clearRecord ex' (table.freeOrder order))
  have orderLast : s.FreeListLawful → h.val = 511 → t.FreeOrder allHandles := fun law last => by
    obtain ⟨members, order, _⟩ := law.order
    rw [← below_last last members]
    exact order' law members order
  refine ⟨t, visit, ?_, fun k ne => ?_, order', fun law => ?_, frame, fun last => ⟨fun c => ?_, fun law => ?_,
    fun law => ?_⟩⟩
  · rw [shares.station h, own]
  · rw [shares.station k, others k ne, table.station k]
  · obtain ⟨links, heads⟩ := (index' law).clearRecord h
    simp only [← shares.station, ← shares.bucketHead, table.station, table.bucketHead] at links heads
    have links' := fun k (ne : k ≠ h) => (links k).trans (if_neg ne)
    exact ⟨links', heads, fun b members order => State.BucketOrder.erase links' heads order⟩
  · rw [State.ring, rings last]
    exact PerClass.get_const _ c
  · have order := orderLast law last
    exact ⟨order, order.head.trans allHandles_head, order.tail.trans allHandles_last⟩
  · have lawG : g.RingsLawful := by rw [granted]; exact law.granted _ _
    have free := lawG.clearRecord_last ex' last
    have empty := fun c => (State.clearRecord_lawful lawG.classes h c).empty
      fun k => by simp [StationRecord.ready, free k]
    refine ⟨shares.waiting.trans (PerClass.ext_get fun c => (empty c).2.2.trans (PerClass.get_const 0 c).symm),
      fun c => (congrArg (·.get c) shares.overflows).trans (empty c).2.1, fun indexLaw => ?_⟩
    have lawI := (index' indexLaw).cleared h (e := .idle) (by simp)
    obtain ⟨buckets, links⟩ := lawI.empty fun k =>
      (by rw [StationRecord.indexed, free k]; rfl : ((g.clearRecord h).station k).indexed = false)
    refine ⟨shares.buckets.trans buckets, fun freeLaw clearedOthers k => ?_⟩
    have content : ({ (g.clearRecord h).station k with nextFree := none, nextInBucket := none } :
        StationRecord).unplaced = StationRecord.cleared := by
      by_cases at_ : k = h
      · rw [at_]
        exact (congrArg (fun r : StationRecord => ({ r with nextInBucket := none } : StationRecord).unplaced)
          own :)
      · rw [others k at_, table.station k]
        exact (congrArg (fun r : StationRecord => ({ r with nextInBucket := none } : StationRecord).unplaced)
          (clearedOthers k at_) :)
    rw [← (orderLast freeLaw last).link_allHandles rfl k, shares.station k]
    exact StationRecord.eq_cleared content (fun c => (empty c).1 k) (links k)

end Sys2Proof.Machine
end

section
/-!
PROOFS. The requests on rules (O12) and the visits of REAPPLY (O22): what each is by the rule number, the record
found and the classifier's outcome (R27, R39 to R41, R150, R155).
-/

namespace Sys2Proof.Machine

/-! ### RULE_PUT and RULE_GET (R27, R155) -/

/-- A request's kind is its kind byte's, where its payload has that kind's length (R147). -/
theorem Request.form_eq {q : Request} {k : RequestKind} (kind : requestKindOf q.kind = some k)
    (length : q.payload.length = k.payloadLength) : q.form = some k := by
  rw [Request.form, kind]
  exact if_pos length

theorem exec_rulePut {s : State} {number : Byte} {coded : List Byte} {rest : List Request}
    (run : s.resetLow = false) (idle : s.executing = .idle) (room : s.responses.length < 4)
    (whole : coded.length = 26) (head : s.requests = ⟨0x10, number :: coded⟩ :: rest) :
    exec .rulePut s = .next (s.startRulePut (number :: coded)) := by
  have isForm : Request.form ⟨0x10, number :: coded⟩ = some .rulePut :=
    Request.form_eq rfl (congrArg (· + 1) whole)
  show Host.Outcome.next (s.startForm (some .rulePut)) = _
  rw [State.startForm_eq run idle room head isForm, State.start, isForm]

theorem exec_ruleGet {s : State} {number : Byte} {rest : List Request}
    (run : s.resetLow = false) (idle : s.executing = .idle) (room : s.responses.length < 4)
    (head : s.requests = ⟨0x11, [number]⟩ :: rest) :
    exec .ruleGet s = .next (s.startRuleGet [number]) := by
  have isForm : Request.form ⟨0x11, [number]⟩ = some .ruleGet := Request.form_eq rfl rfl
  show Host.Outcome.next (s.startForm (some .ruleGet)) = _
  rw [State.startForm_eq run idle room head isForm, State.start, isForm]

theorem State.startRulePut_writes (s : State) {number : Byte} (lt : number.toNat < 64)
    (coded : List Byte) :
    s.startRulePut (number :: coded) =
      { s with rules := s.rules.set number.toNat (ruleOf coded) }.respond .ok (ruleClamped coded) [] :=
  dif_pos lt

theorem State.startRulePut_refused (s : State) {number : Byte} (ge : 64 ≤ number.toNat)
    (coded : List Byte) : s.startRulePut (number :: coded) = s.respond .badRule false [] :=
  dif_neg (Nat.not_lt.mpr ge)

theorem State.startRuleGet_reads (s : State) {number : Byte} (lt : number.toNat < 64) :
    s.startRuleGet [number] = s.respond .ok false (number :: (s.rules[number.toNat]).bytes) :=
  dif_pos lt

theorem State.startRuleGet_refused (s : State) {number : Byte} (ge : 64 ≤ number.toNat) :
    s.startRuleGet [number] = s.respond .badRule false (number :: List.replicate 26 0) :=
  dif_neg (Nat.not_lt.mpr ge)

/-- Settles O12: RULE_PUT and RULE_GET, by the rule number. -/
theorem rulesArePutAndGot : Obligations.RulesArePutAndGot := by
  unfold Obligations.RulesArePutAndGot
  intro s number coded rest run idle room
  refine ⟨fun whole head => ?_, fun head => ?_⟩
  · rw [exec_rulePut run idle room whole head]
    refine ⟨fun lt => ?_, fun ge => ?_⟩
    · have head' : ({ s with rules := s.rules.set number.toNat (ruleOf coded) } : State).requests =
          ⟨0x10, number :: coded⟩ :: rest := head
      rw [s.startRulePut_writes lt, State.respond_eq head']
    · rw [s.startRulePut_refused ge, State.respond_eq head]
  · rw [exec_ruleGet run idle room head]
    refine ⟨fun lt => ?_, fun ge => ?_⟩
    · rw [s.startRuleGet_reads lt, State.respond_eq head]
    · rw [s.startRuleGet_refused ge, State.respond_eq head]

/-! ### The visits of REAPPLY (R39 to R41, R150) -/

theorem exec_reapplyReadVisit {s : State} {asks : PortAsks} {h : Handle} (run : s.resetLow = false)
    (ex : s.executing = .reapplyRead h) (grant : s.grants .request asks = true) :
    exec (.reapplyReadVisit asks) s = .next ((s.granted .request asks).readForReapply h) := by
  have due : s.executing.visit = some .reapplyRead := by rw [ex]; rfl
  have ex' : (s.granted .request asks).executing = .reapplyRead h := ex
  show Host.Outcome.next (s.requestVisit .reapplyRead asks _) = _
  rw [State.requestVisit_granted run due grant, ex']

theorem exec_reapplyApplyVisit {s : State} {asks : PortAsks} {h : Handle} {result : ClassResult}
    (run : s.resetLow = false) (ex : s.executing = .reapplyApply h result)
    (grant : s.grants .request asks = true) :
    exec (.reapplyApplyVisit asks) s = .next ((s.granted .request asks).applyReapply h result) := by
  have due : s.executing.visit = some .reapplyApply := by rw [ex]; rfl
  have ex' : (s.granted .request asks).executing = .reapplyApply h result := ex
  show Host.Outcome.next (s.requestVisit .reapplyApply asks _) = _
  rw [State.requestVisit_granted run due grant, ex']

/-- The state after a classification: CHAIN_RANGE is set where a stage set it (R34). -/
def State.classified (s : State) (d : Descriptor) : State :=
  { s with flags := { s.flags with
      chainRange := s.flags.chainRange || (classify s.classPolicy d).2 } }

theorem State.runClassifier_eq (s : State) (d : Descriptor) :
    s.runClassifier d = (s.classified d, (classify s.classPolicy d).1) := by
  rw [State.runClassifier]
  exact congrArg (·, _) (s.raiseIf_chainRange _)

/-- An accepted classification waits for the apply visit (R39). -/
theorem State.readForReapply_accepts {s : State} {h : Handle} (isIn : (s.station h).indexed = true)
    (accepts : (classify s.classPolicy (s.station h).descriptor).1.outcome = .accept) :
    s.readForReapply h = { s.classified (s.station h).descriptor with
      executing := .reapplyApply h (classify s.classPolicy (s.station h).descriptor).1 } := by
  have found : (s.station h).associated = true := isIn
  rw [State.readForReapply, if_pos found, State.runClassifier_eq]
  dsimp only
  rw [accepts]

/-- A refused classification ends the request with its status and trace (R41). -/
theorem State.readForReapply_refuses {s : State} {h : Handle} {o : ClassOutcome} {q : Request}
    {rest : List Request} (isIn : (s.station h).indexed = true)
    (outcome : (classify s.classPolicy (s.station h).descriptor).1.outcome = o) (refuses : o ≠ .accept)
    (head : s.requests = q :: rest) :
    s.readForReapply h = (s.classified (s.station h).descriptor).responded q.kind o.status false
      (traceBytes (classify s.classPolicy (s.station h).descriptor).1.trace) := by
  have found : (s.station h).associated = true := isIn
  have head' : (s.classified (s.station h).descriptor).requests = q :: rest := head
  rw [State.readForReapply, if_pos found, State.runClassifier_eq]
  dsimp only
  rw [outcome]
  cases o with
  | accept => exact absurd rfl refuses
  | denied => exact State.respond_eq head' _ _ _
  | noClass => exact State.respond_eq head' _ _ _

theorem State.readForReapply_missing {s : State} {h : Handle} (out : (s.station h).indexed = false) :
    s.readForReapply h = s.respond .noStation false (traceBytes []) := by
  have missing : ¬ (s.station h).associated = true := by
    rw [show (s.station h).associated = (s.station h).indexed from rfl, out]
    exact Bool.false_ne_true
  exact if_neg missing

/-- Beyond the rings, the apply visit writes the profile and the trace of its record and ends the request
(R40). -/
theorem State.applyReapply_frame {s : State} {q : Request} {rest : List Request}
    (head : s.requests = q :: rest) (h : Handle) (result : ClassResult) :
    (s.applyReapply h result).beyondRings =
      ((s.setStation h { s.station h with profile := result.profile, trace := result.trace }).responded
        q.kind .ok false (traceBytes result.trace)).beyondRings := by
  have head' : (s.setStation h
      { s.station h with profile := result.profile, trace := result.trace }).requests = q :: rest := head
  rw [← State.respond_eq head']
  exact State.respond_frame (State.writeBack_frame _ _ _) _ _ _

/-- Settles O22: the read visit of REAPPLY by the record and the outcome, and the apply visit. -/
theorem reapplyVisitsClassifyAndReplace : Obligations.ReapplyVisitsClassifyAndReplace := by
  unfold Obligations.ReapplyVisitsClassifyAndReplace
  refine ⟨fun s asks h q rest run ex head grant => ?_, fun s asks h result q rest run ex head grant => ?_⟩
  · dsimp only
    rw [exec_reapplyReadVisit run ex grant]
    have head' : (s.granted .request asks).requests = q :: rest := head
    refine ⟨fun isIn => ⟨fun accepts => ?_, fun denied => ?_, fun noClass => ?_⟩, fun out => ?_⟩
    · exact congrArg _ (State.readForReapply_accepts (s := s.granted .request asks) isIn accepts)
    · exact congrArg _ (State.readForReapply_refuses (s := s.granted .request asks) isIn denied
        (by decide) head')
    · exact congrArg _ (State.readForReapply_refuses (s := s.granted .request asks) isIn noClass
        (by decide) head')
    · rw [State.readForReapply_missing (s := s.granted .request asks) out]
      exact congrArg _ (State.respond_eq head' _ _ _)
  · rw [exec_reapplyApplyVisit run ex grant]
    exact ⟨_, rfl, State.applyReapply_frame (s := s.granted .request asks) head h result⟩

end Sys2Proof.Machine
end

section
/-!
PROOFS. The Admission Classifier: the range field and the keys (O50), the selection of a rule, the stages and the
class check (O51), and the order of a trace (O52) (R25, R28 to R37, R175).
-/

namespace Sys2Proof.Machine

/-! ### The range field (R28, R29) -/

/-- Bit i of the range field is checker i's. -/
theorem rangeField_bit (checkers : Vector Checker 4) (d : Descriptor) (i : Fin 4) :
    (rangeField checkers d).getLsbD i.val = (checkers[i.val]).bit d := by
  obtain ⟨b0, b1, b2, b3⟩ := bitsOfClasses_bit
    ⟨checkers[0].bit d, checkers[1].bit d, checkers[2].bit d, checkers[3].bit d⟩
  match i with
  | 0 => exact b0
  | 1 => exact b1
  | 2 => exact b2
  | 3 => exact b3

/-- A checker that selects a field tells whether the field lies within its bounds. -/
theorem Checker.bit_eq {k : Checker} {d : Descriptor} {x : Int} (field : k.select.field d = some x) :
    k.bit d = decide (k.select.bound k.low ≤ k.select.bound k.high ∧ k.select.bound k.low ≤ x ∧
      x ≤ k.select.bound k.high) := by
  rw [Checker.bit, field, Bool.decide_and, Bool.decide_and, ← Bool.and_assoc]

/-- The same with a field and bounds that are not signed. -/
theorem Checker.bit_unsigned {k : Checker} {d : Descriptor} {x : Nat}
    (field : k.select.field d = some (x : Int)) (low : k.select.bound k.low = k.low.toNat)
    (high : k.select.bound k.high = k.high.toNat) :
    k.bit d = decide (k.low.toNat ≤ k.high.toNat ∧ k.low.toNat ≤ x ∧ x ≤ k.high.toNat) := by
  rw [Checker.bit_eq field, low, high]
  simp only [Int.ofNat_le]

/-! ### The keys (R30, R175) -/

/-- A field above the last part of a word is a field of the parts before it. -/
theorem field_above {v w lo len : Nat} {high : BitVec v} {low : BitVec w} {x : BitVec len} (le : w ≤ lo)
    (field : high.extractLsb' (lo - w) len = x) : (high ++ low).extractLsb' lo len = x :=
  (BitVec.extractLsb'_append_eq_of_le le).trans field

/-- A bit above the last part of a word is a bit of the parts before it. -/
theorem bit_above {v w i : Nat} {high : BitVec v} {low : BitVec w} {x : Bool} (le : w ≤ i)
    (bit : high.getLsbD (i - w) = x) : (high ++ low).getLsbD i = x := by
  rw [BitVec.getLsbD_append, if_neg (Nat.not_lt.mpr le), bit]

/-- A bit of the last part of a word. -/
theorem bit_within {v w i : Nat} {high : BitVec v} {low : BitVec w} {x : Bool} (lt : i < w)
    (bit : low.getLsbD i = x) : (high ++ low).getLsbD i = x := by
  rw [BitVec.getLsbD_append, if_pos lt, bit]

theorem ofBool_bit (b : Bool) : (BitVec.ofBool b).getLsbD 0 = b := by
  cases b <;> rfl

section
variable (d : Descriptor) (range : BitVec 4) (chain : Nat) (stage : Fin 4)

theorem buildKey_address :
    let key := buildKey .address d range chain stage
    key.extractLsb' 24 24 = d.linkAddress.extractLsb' 24 24 ∧
      key.extractLsb' 16 8 = BitVec.ofNat 8 d.deviceTag ∧ key.extractLsb' 4 12 = 0 ∧
      key.extractLsb' 0 4 = range := by
  refine ⟨?_, ?_, ?_, BitVec.extractLsb'_append_eq_right⟩
  · exact field_above (by decide) (field_above (by decide) BitVec.extractLsb'_append_eq_left)
  · exact field_above (by decide) (field_above (by decide) BitVec.extractLsb'_append_eq_right)
  · exact field_above (by decide) BitVec.extractLsb'_append_eq_right

theorem buildKey_capability :
    let key := buildKey .capability d range chain stage
    key.extractLsb' 46 2 = BitVec.ofNat 2 d.band ∧ key.extractLsb' 43 3 = BitVec.ofNat 3 d.streams ∧
      key.extractLsb' 38 5 = BitVec.ofNat 5 d.topRate ∧
      key.getLsbD 37 = d.legacy ∧ key.getLsbD 36 = d.multiUser ∧
      key.getLsbD 35 = d.requested.sc3 ∧ key.getLsbD 34 = d.requested.sc2 ∧
      key.getLsbD 33 = d.requested.sc1 ∧ key.getLsbD 32 = d.requested.sc0 ∧
      key.extractLsb' 28 4 = range ∧ key.extractLsb' 20 8 = BitVec.ofNat 8 d.deviceTag ∧
      key.extractLsb' 0 20 = 0 := by
  obtain ⟨sc0, sc1, sc2, sc3⟩ := bitsOfClasses_bit d.requested
  have class_ : ∀ {i : Nat} {b : Bool}, i < 4 → (bitsOfClasses d.requested).getLsbD i = b →
      (buildKey .capability d range chain stage).getLsbD (32 + i) = b := fun {i b} lt bit => by
    refine bit_above (by omega) (bit_above (by omega) (bit_above (by omega) (bit_within (by omega) ?_)))
    rw [← bit]
    congr 1
    omega
  refine ⟨?_, ?_, ?_, ?_, ?_, class_ (by decide) sc3, class_ (by decide) sc2, class_ (by decide) sc1,
    class_ (by decide) sc0, ?_, ?_, BitVec.extractLsb'_append_eq_right⟩
  · iterate 7 refine field_above (by decide) ?_
    exact BitVec.extractLsb'_append_eq_left
  · iterate 7 refine field_above (by decide) ?_
    exact BitVec.extractLsb'_append_eq_right
  · iterate 6 refine field_above (by decide) ?_
    exact BitVec.extractLsb'_append_eq_right
  · iterate 5 refine bit_above (by decide) ?_
    exact bit_within (by decide) (ofBool_bit _)
  · iterate 4 refine bit_above (by decide) ?_
    exact bit_within (by decide) (ofBool_bit _)
  · iterate 2 refine field_above (by decide) ?_
    exact BitVec.extractLsb'_append_eq_right
  · exact field_above (by decide) BitVec.extractLsb'_append_eq_right

theorem buildKey_tag :
    let key := buildKey .tag d range chain stage
    key.extractLsb' 40 8 = BitVec.ofNat 8 d.deviceTag ∧ key.extractLsb' 32 8 = BitVec.ofNat 8 chain ∧
      key.extractLsb' 28 4 = range ∧ key.extractLsb' 26 2 = BitVec.ofNat 2 d.band ∧
      key.extractLsb' 0 26 = 0 := by
  refine ⟨?_, ?_, ?_, ?_, BitVec.extractLsb'_append_eq_right⟩
  · iterate 3 refine field_above (by decide) ?_
    exact BitVec.extractLsb'_append_eq_left
  · iterate 3 refine field_above (by decide) ?_
    exact BitVec.extractLsb'_append_eq_right
  · iterate 2 refine field_above (by decide) ?_
    exact BitVec.extractLsb'_append_eq_right
  · exact field_above (by decide) BitVec.extractLsb'_append_eq_right

theorem buildKey_chain :
    let key := buildKey .chain d range chain stage
    key.extractLsb' 40 8 = BitVec.ofNat 8 chain ∧ key.extractLsb' 38 2 = BitVec.ofNat 2 stage.val ∧
      key.extractLsb' 36 2 = 0 ∧ key.extractLsb' 32 4 = range ∧ key.extractLsb' 0 32 = 0 := by
  refine ⟨?_, ?_, ?_, ?_, BitVec.extractLsb'_append_eq_right⟩
  · iterate 3 refine field_above (by decide) ?_
    exact BitVec.extractLsb'_append_eq_left
  · iterate 3 refine field_above (by decide) ?_
    exact BitVec.extractLsb'_append_eq_right
  · iterate 2 refine field_above (by decide) ?_
    exact BitVec.extractLsb'_append_eq_right
  · exact field_above (by decide) BitVec.extractLsb'_append_eq_right

end

/-- Settles O50: the range field by each checker's select, and the fields of the four kinds of key. -/
theorem rangeFieldAndKeysAreBuilt : Obligations.RangeFieldAndKeysAreBuilt := by
  unfold Obligations.RangeFieldAndKeysAreBuilt
  refine ⟨fun checkers d i => ?_, fun d range chain stage => ⟨buildKey_address d range chain stage,
    buildKey_capability d range chain stage, buildKey_tag d range chain stage,
    buildKey_chain d range chain stage⟩⟩
  dsimp only
  rw [rangeField_bit]
  generalize checkers[i.val] = k
  obtain ⟨select, low, high⟩ := k
  cases select with
  | off => rfl
  | signal => exact Checker.bit_eq rfl
  | rate => exact Checker.bit_unsigned rfl rfl rfl
  | tag => exact Checker.bit_unsigned rfl rfl rfl
  | streams => exact Checker.bit_unsigned rfl rfl rfl

/-! ### The selected rule (R25, R32) -/

/-- What it is that a rule agrees with a stage's key (R32). -/
theorem PolicyRule.agrees_iff (r : PolicyRule) (kind : KeyKind) (stage : Fin 4) (key : BitVec 48) :
    r.agrees kind stage key = true ↔ r.valid = true ∧ r.kind = kind ∧
      r.stages.getLsbD stage.val = true ∧ (key ^^^ r.value) &&& r.mask = 0 := by
  have kinds : (r.kind == kind) = true ↔ r.kind = kind := by
    cases r.kind <;> cases kind <;> decide
  rw [PolicyRule.agrees, Bool.and_eq_true, Bool.and_eq_true, Bool.and_eq_true, kinds, beq_iff_eq, and_assoc,
    and_assoc]

/-- The lowest number that has a property is the one found. -/
theorem find?_finRange_lowest {n : Nat} {has : Fin n → Bool} {i : Fin n} (own : has i = true)
    (least : ∀ j, j < i → has j = false) : (List.finRange n).find? has = some i := by
  rw [List.find?_eq_some_iff_getElem]
  refine ⟨own, i.val, by simp, by simp, fun j lt => ?_⟩
  rw [Bool.not_eq_true', List.getElem_finRange]
  exact least _ lt

theorem selectRule_lowest {rules : Vector PolicyRule 64} {kind : KeyKind} {stage : Fin 4}
    {key : BitVec 48} {i : Fin 64} (below : i.val < 60)
    (own : (rules[i.val]).agrees kind stage key = true)
    (least : ∀ j : Fin 64, j < i → (rules[j.val]).agrees kind stage key = false) :
    selectRule rules kind stage key = i := by
  rw [selectRule, find?_finRange_lowest (i := i) (by rw [own, decide_eq_true below]; rfl)
    fun j lt => by rw [least j lt, Bool.and_false]]

theorem selectRule_default {rules : Vector PolicyRule 64} {kind : KeyKind} {stage : Fin 4}
    {key : BitVec 48}
    (none : ∀ i : Fin 64, i.val < 60 → (rules[i.val]).agrees kind stage key = false) :
    selectRule rules kind stage key = defaultRule stage := by
  rw [selectRule, List.find?_eq_none.mpr fun i _ => ?_]
  rw [Bool.and_eq_true, decide_eq_true_eq]
  exact fun ⟨below, agrees⟩ => Bool.false_ne_true ((none i below).symm.trans agrees)

/-! ### A stage (R33 to R36) -/

section
variable (p : ClassPolicy) (d : Descriptor) (stage : Fin 4) (kind : KeyKind) (w : ClassWork)

/-- The rule a stage selects (R32). -/
def stageRule : Fin 64 :=
  selectRule p.rules kind stage (buildKey kind d (rangeField p.checkers d) w.chain stage)

/-- The action a stage applies. -/
def stageAction : Action := (p.rules[(stageRule p d stage kind w).val]).action

/-- The work a stage leaves (R33 to R35). -/
def stageWork : ClassWork := w.apply stage (stageRule p d stage kind w) (stageAction p d stage kind w)

variable {p d stage kind w}

theorem runStages_deny (verdict : (stageAction p d stage kind w).verdict = .deny) (left : Nat) :
    runStages p d left stage kind w = (stageWork p d stage kind w, false) := by
  simp only [stageAction, stageRule] at verdict
  unfold runStages
  simp only [verdict]
  rfl

theorem runStages_accept (verdict : (stageAction p d stage kind w).verdict = .accept) (left : Nat) :
    runStages p d left stage kind w = (stageWork p d stage kind w, true) := by
  simp only [stageAction, stageRule] at verdict
  unfold runStages
  simp only [verdict]
  rfl

/-- A CONTINUE with no stage left ends the classification as ACCEPT does (R36). -/
theorem runStages_last (verdict : (stageAction p d stage kind w).verdict = .goOn) :
    runStages p d 0 stage kind w = (stageWork p d stage kind w, true) := by
  simp only [stageAction, stageRule] at verdict
  unfold runStages
  simp only [verdict]
  rfl

theorem runStages_next (verdict : (stageAction p d stage kind w).verdict = .goOn) (left : Nat) :
    runStages p d (left + 1) stage kind w =
      runStages p d left (stage + 1) (stageAction p d stage kind w).nextKind
        (stageWork p d stage kind w) := by
  simp only [stageAction, stageRule] at verdict
  rw [runStages.eq_def]
  simp only [verdict]
  rfl

end

/-- An addition that passes 255 leaves the chain index (R34). -/
theorem Action.nextChain_add {a : Action} (adds : a.chainControl = .add) (chain : Nat) :
    a.nextChain chain = if chain + a.chainValue ≤ 255 then chain + a.chainValue else chain := by
  rw [Action.nextChain, adds]
  dsimp only
  split <;> split <;> omega

theorem Action.chainOverflows_eq (a : Action) (chain : Nat) :
    a.chainOverflows chain = decide (a.chainControl = .add ∧ 255 < chain + a.chainValue) := by
  have adds : (a.chainControl == .add) = decide (a.chainControl = .add) := by
    cases a.chainControl <;> rfl
  rw [Action.chainOverflows, adds, Bool.decide_and]

/-! ### A classification (R31, R37) -/

/-- The work a classification begins with: the default profile, chain index 0 and an empty trace (R31). -/
def ClassPolicy.start (p : ClassPolicy) : ClassWork :=
  { profile := p.defaultProfile, chain := 0, trace := [], chainRange := false }

/-- The stages of a classification, from stage 0 with FIRST_KIND (R31). -/
def ClassPolicy.ran (p : ClassPolicy) (d : Descriptor) : ClassWork × Bool :=
  runStages p d 3 0 p.firstKind p.start

/-- The classes of a classification's profile that the descriptor requests (R37). -/
def ClassPolicy.granted (p : ClassPolicy) (d : Descriptor) : ClassSet :=
  (p.ran d).1.profile.classes.inter d.requested

theorem classify_eq (p : ClassPolicy) (d : Descriptor) :
    classify p d =
      ({ outcome := if !(p.ran d).2 then .denied
           else if p.granted d = ClassSet.none then .noClass else .accept
         profile := { (p.ran d).1.profile with classes := p.granted d }
         trace := (p.ran d).1.trace }, (p.ran d).1.chainRange) := rfl

/-- A classification is accepted when its stages accept and a requested class is left (R37). -/
theorem classify_accept_iff (p : ClassPolicy) (d : Descriptor) :
    (classify p d).1.outcome = .accept ↔ (p.ran d).2 = true ∧ p.granted d ≠ ClassSet.none := by
  rw [classify_eq]
  cases (p.ran d).2 <;> by_cases empty : p.granted d = ClassSet.none <;> simp [empty]

theorem ClassSet.inter_get (a b : ClassSet) (c : ServiceClass) :
    (a.inter b).get c = (a.get c && b.get c) := by
  cases c <;> rfl

theorem ClassWork.ext {w v : ClassWork} (profile : w.profile = v.profile) (chain : w.chain = v.chain)
    (trace : w.trace = v.trace) (chainRange : w.chainRange = v.chainRange) : w = v :=
  (ClassWork.mk.injEq ..).mpr ⟨profile, chain, trace, chainRange⟩

/-- Settles O51: the selected rule, what a stage makes of the work and of its verdict, and the beginning and end
of a classification. -/
theorem stageAppliesSelectedRule : Obligations.StageAppliesSelectedRule := by
  unfold Obligations.StageAppliesSelectedRule
  refine ⟨fun rules kind stage key => ?_, fun p d left stage kind w last => ?_, fun p d => ?_, fun s => rfl⟩
  · have notAgrees : ∀ i : Fin 64, i.val < 60 → ¬ (i.val < 60 ∧ (rules[i.val]).valid = true ∧
        (rules[i.val]).kind = kind ∧ (rules[i.val]).stages.getLsbD stage.val = true ∧
        (key ^^^ (rules[i.val]).value) &&& (rules[i.val]).mask = 0) →
        (rules[i.val]).agrees kind stage key = false := fun i below not =>
      Bool.eq_false_iff.mpr fun agrees => not ⟨below, (PolicyRule.agrees_iff _ _ _ _).mp agrees⟩
    refine ⟨fun i ⟨below, own⟩ least => ?_, fun none => ?_⟩
    · exact selectRule_lowest below ((PolicyRule.agrees_iff _ _ _ _).mpr own) fun j lt =>
        notAgrees j (by rw [Fin.lt_def] at lt; omega) (least j lt)
    · rw [selectRule_default fun i below => notAgrees i below (none i)]
      rfl
  · intro i a after
    have work : stageWork p d stage kind w = after := by
      refine ClassWork.ext rfl ?_ rfl ?_
      · show a.nextChain w.chain = _
        dsimp only [after]
        cases control : a.chainControl with
        | keep => rw [Action.nextChain, control]
        | set => rw [Action.nextChain, control]
        | add => exact Action.nextChain_add control w.chain
      · exact congrArg (w.chainRange || ·) (a.chainOverflows_eq w.chain)
    rw [← work]
    refine ⟨fun deny => runStages_deny deny left, fun accept => runStages_accept accept left,
      fun goOn third => ?_, fun n goOn more => ?_⟩
    · obtain rfl : left = 0 := by rw [third] at last; omega
      exact runStages_last goOn
    · rw [more]
      exact runStages_next goOn n
  · dsimp only
    refine ⟨rfl, rfl, fun denies => ?_, fun accepts empty => ?_, fun accepts some => ?_⟩
    · have denies' : (p.ran d).2 = false := denies
      rw [classify_eq, denies']
      rfl
    · have accepts' : (p.ran d).2 = true := accepts
      have empty' : p.granted d = ClassSet.none := empty
      rw [classify_eq, accepts', empty']
      rfl
    · have accepts' : (p.ran d).2 = true := accepts
      have some' : p.granted d ≠ ClassSet.none := some
      rw [classify_eq, accepts', if_neg some']
      rfl

/-! ### The order of a trace (R35, R37) -/

/-- The stages of a trace are 0, 1, … in order. -/
def TraceOrdered (entries : List TraceEntry) : Prop :=
  entries.map (·.stage.val) = List.range entries.length

theorem TraceOrdered.concat {entries : List TraceEntry} (ordered : TraceOrdered entries) {stage : Fin 4}
    (next : entries.length = stage.val) (rule : Fin 64) :
    TraceOrdered (entries ++ [⟨stage, rule⟩]) := by
  rw [TraceOrdered, List.map_append, ordered, List.length_append, next]
  exact List.range_succ.symm

/-- The entries are in order and reach a stage. -/
structure TraceReaches (stage : Fin 4) (entries : List TraceEntry) : Prop where
  ordered : TraceOrdered entries
  reaches : stage.val < entries.length
  fits : entries.length ≤ 4

theorem stageWork_ordered (p : ClassPolicy) (d : Descriptor) {stage : Fin 4} (kind : KeyKind)
    {w : ClassWork} (ordered : TraceOrdered w.trace) (before : w.trace.length = stage.val) :
    TraceOrdered (stageWork p d stage kind w).trace ∧
      (stageWork p d stage kind w).trace.length = stage.val + 1 :=
  ⟨ordered.concat before _, List.length_append.trans (by rw [before]; rfl)⟩

/-- Stage `stage` and those after it leave an ordered trace: the entries before, and one for each stage run. -/
theorem runStages_reaches (p : ClassPolicy) (d : Descriptor) {left : Nat} {stage : Fin 4} (kind : KeyKind)
    {w : ClassWork} (last : stage.val + left = 3) (ordered : TraceOrdered w.trace)
    (before : w.trace.length = stage.val) :
    TraceReaches stage (runStages p d left stage kind w).1.trace := by
  induction left generalizing stage kind w with
  | zero =>
    obtain ⟨own, length⟩ := stageWork_ordered p d kind ordered before
    have ends : TraceReaches stage (stageWork p d stage kind w).trace := ⟨own, by omega, by omega⟩
    cases verdict : (stageAction p d stage kind w).verdict with
    | deny => rw [runStages_deny verdict]; exact ends
    | accept => rw [runStages_accept verdict]; exact ends
    | goOn => rw [runStages_last verdict]; exact ends
  | succ n ih =>
    obtain ⟨own, length⟩ := stageWork_ordered p d kind ordered before
    have ends : TraceReaches stage (stageWork p d stage kind w).trace := ⟨own, by omega, by omega⟩
    cases verdict : (stageAction p d stage kind w).verdict with
    | deny => rw [runStages_deny verdict]; exact ends
    | accept => rw [runStages_accept verdict]; exact ends
    | goOn =>
      have next : (stage + 1).val = stage.val + 1 :=
        Fin.val_add_one_of_lt (Fin.lt_def.mpr (by rw [Fin.val_last]; omega))
      obtain ⟨ordered', more, most⟩ := ih (stage := stage + 1) (stageAction p d stage kind w).nextKind
        (by omega) own (by omega)
      rw [runStages_next verdict]
      exact ⟨ordered', by omega, most⟩

/-- The classes of an accepted classification are requested ones (R37). -/
theorem ClassPolicy.granted_requested {p : ClassPolicy} {d : Descriptor} {c : ServiceClass}
    (granted : (p.granted d).get c = true) : d.requested.get c = true := by
  rw [ClassPolicy.granted, ClassSet.inter_get, Bool.and_eq_true] at granted
  exact granted.2

theorem ClassPolicy.granted_none {p : ClassPolicy} {d : Descriptor} (none : d.requested = ClassSet.none) :
    p.granted d = ClassSet.none :=
  PerClass.ext_get fun c => by
    rw [ClassPolicy.granted, ClassSet.inter_get, none, ClassSet.none, PerClass.get_const, Bool.and_false]

/-- Settles O52: the order of a trace, by the stages, and the classes, by the class check. -/
theorem classificationIsOrdered : Obligations.ClassificationIsOrdered := by
  unfold Obligations.ClassificationIsOrdered
  intro p d
  obtain ⟨ordered, more, most⟩ := runStages_reaches p d (left := 3) (stage := 0) p.firstKind rfl
    (w := p.start) rfl rfl
  refine ⟨more, most, ordered, fun accepts => ?_, fun none accepts => ?_⟩
  · exact ⟨((classify_accept_iff p d).mp accepts).2, fun c => ClassPolicy.granted_requested⟩
  · exact ((classify_accept_iff p d).mp accepts).2 (ClassPolicy.granted_none none)

end Sys2Proof.Machine
end

section
/-!
PROOFS. The coding of a rule in 26 bytes (O13): each field from its bytes, the bytes of a stored rule, and the
fields that the coding adjusts (R24, R26, R27, R167, R173).
-/

namespace Sys2Proof.Machine

/-! ### Fields of bytes (R167) -/

theorem fieldAt_one (p : List Byte) (i : Nat) : fieldAt p i 1 = (byteAt p i).toNat := by
  rw [fieldAt, byteAt, List.take_one, List.head?_drop, List.getD_eq_getElem?_getD]
  cases p[i]? with
  | none => rfl
  | some b => simp [natOf]

theorem fieldAt_two {p : List Byte} {i : Nat} (lt : i + 1 < p.length) :
    fieldAt p i 2 = (byteAt p i).toNat * 256 + (byteAt p (i + 1)).toNat := by
  have lt' : i < p.length := Nat.lt_of_succ_lt lt
  rw [fieldAt, byteAt, byteAt, List.drop_eq_getElem_cons lt', List.drop_eq_getElem_cons lt,
    List.getD_eq_getElem _ _ lt', List.getD_eq_getElem _ _ lt]
  simp only [List.take_succ_cons, List.take_zero, natOf, List.foldl_cons, List.foldl_nil, Nat.zero_mul,
    Nat.zero_add]

/-- A number of n bytes is below 256 ^ n. -/
theorem natOf_lt (bytes : List Byte) : natOf bytes < 256 ^ bytes.length := by
  have grows : ∀ (bytes : List Byte) (acc : Nat),
      bytes.foldl (fun acc b => acc * 256 + b.toNat) acc < (acc + 1) * 256 ^ bytes.length := by
    intro bytes
    induction bytes with
    | nil => intro acc; simp
    | cons b bytes ih =>
      intro acc
      have small : acc * 256 + b.toNat + 1 ≤ (acc + 1) * 256 := by have := b.isLt; omega
      calc bytes.foldl (fun acc b => acc * 256 + b.toNat) (acc * 256 + b.toNat)
          < (acc * 256 + b.toNat + 1) * 256 ^ bytes.length := ih _
        _ ≤ (acc + 1) * 256 * 256 ^ bytes.length := Nat.mul_le_mul_right _ small
        _ = (acc + 1) * 256 ^ (b :: bytes).length := by rw [List.length_cons, Nat.pow_succ']; ring
  simpa [natOf] using grows bytes 0

theorem fieldAt_lt (p : List Byte) (i n : Nat) : fieldAt p i n < 256 ^ n :=
  (natOf_lt _).trans_le (Nat.pow_le_pow_right (by decide) (List.length_take_le ..))

/-! ### Codes (R173) -/

theorem keyKindOf_code (k : KeyKind) : keyKindOf k.code = k := by
  cases k <;> rfl

theorem verdictOf_code (v : Verdict) : verdictOf v.code = v := by
  cases v <;> rfl

theorem chainControlOf_code (c : ChainControl) : chainControlOf c.code = c := by
  cases c <;> rfl

/-- A verdict has no unassigned code. -/
theorem Verdict.code_ne (v : Verdict) : v.code ≠ 3 := by
  cases v <;> decide

theorem ChainControl.code_ne (c : ChainControl) : c.code ≠ 3 := by
  cases c <;> decide

theorem classesOfBits_bitsOfClasses (k : ClassSet) : classesOfBits (bitsOfClasses k) = k := by
  obtain ⟨b0, b1, b2, b3⟩ := bitsOfClasses_bit k
  rw [classesOfBits, b0, b1, b2, b3]

theorem writeSetOf_bits (w : WriteSet) : writeSetOf (0#1 ++ w.bits : Byte).toNat = w := by
  obtain ⟨a, b, c, d, e, f, g⟩ := w
  revert a b c d e f g
  decide

theorem toInt_costShift {x : Int} (least : -3 ≤ x) (most : x ≤ 3) : (BitVec.ofInt 8 x).toInt = x := by
  rw [BitVec.toInt_ofInt]
  exact Int.bmod_eq_of_le (by omega) (by omega)

/-! ### Clamped profile values (R4, R27) -/

/-- Values within the ranges but for a weight of 0 are clamped in the weight only. -/
theorem Profile.Bounded.clamp_eq {v : Profile} (law : v.Bounded) :
    v.clamp = { v with weight := max 1 v.weight } := by
  obtain ⟨weight, ceiling, borrow, ⟨least, most⟩, uplinkEighths, softCap⟩ := law
  rw [Profile.clamp, clampNat, clampInt, min_eq_left weight, min_eq_left ceiling, min_eq_left borrow,
    min_eq_left most, max_eq_right least, min_eq_left uplinkEighths, min_eq_left softCap]

/-- The values that clamping leaves are those within the ranges of R4. -/
theorem Profile.clamp_eq_self_iff (v : Profile) : v.clamp = v ↔ v.Bounded ∧ 1 ≤ v.weight := by
  refine ⟨fun same => same ▸ v.clamp_bounded, fun ⟨law, least⟩ => ?_⟩
  rw [law.clamp_eq, max_eq_right least]

/-! ### The bytes of a stored rule (R173) -/

/-- The 26 bytes of a stored rule, one by one. -/
theorem PolicyRule.bytes_eq (r : PolicyRule) :
    r.bytes =
      [BitVec.ofBool r.valid ++ 0#1 ++ r.kind.code ++ r.stages,
        BitVec.ofNat 8 (r.value.toNat / 1099511627776), BitVec.ofNat 8 (r.value.toNat / 4294967296),
        BitVec.ofNat 8 (r.value.toNat / 16777216), BitVec.ofNat 8 (r.value.toNat / 65536),
        BitVec.ofNat 8 (r.value.toNat / 256), BitVec.ofNat 8 r.value.toNat,
        BitVec.ofNat 8 (r.mask.toNat / 1099511627776), BitVec.ofNat 8 (r.mask.toNat / 4294967296),
        BitVec.ofNat 8 (r.mask.toNat / 16777216), BitVec.ofNat 8 (r.mask.toNat / 65536),
        BitVec.ofNat 8 (r.mask.toNat / 256), BitVec.ofNat 8 r.mask.toNat,
        0#1 ++ r.action.writes.bits, BitVec.ofNat 8 r.action.values.weight,
        0#4 ++ bitsOfClasses r.action.values.classes,
        BitVec.ofNat 8 (r.action.values.ceiling / 256), BitVec.ofNat 8 r.action.values.ceiling,
        BitVec.ofNat 8 (r.action.values.borrow / 256), BitVec.ofNat 8 r.action.values.borrow,
        BitVec.ofInt 8 r.action.values.costShift, BitVec.ofNat 8 r.action.values.uplinkEighths,
        BitVec.ofNat 8 (r.action.values.softCap / 256), BitVec.ofNat 8 r.action.values.softCap,
        0#2 ++ r.action.nextKind.code ++ r.action.chainControl.code ++ r.action.verdict.code,
        BitVec.ofNat 8 r.action.chainValue] := by
  simp only [PolicyRule.bytes, Profile.bytes, bytesOf_six, bytesOf_two, List.cons_append, List.nil_append]

section
variable (r : PolicyRule)

/-- The first byte holds the valid flag, a spare bit, the kind and the stage set. -/
theorem PolicyRule.first_byte :
    (byteAt r.bytes 0).getLsbD 7 = r.valid ∧ (byteAt r.bytes 0).getLsbD 6 = false ∧
      (byteAt r.bytes 0).extractLsb' 4 2 = r.kind.code ∧ (byteAt r.bytes 0).extractLsb' 0 4 = r.stages := by
  rw [r.bytes_eq]
  refine ⟨?_, ?_, field_above (by decide) BitVec.extractLsb'_append_eq_right,
    BitVec.extractLsb'_append_eq_right⟩
  · exact bit_above (by decide) (bit_above (by decide) (bit_above (by decide) (ofBool_bit r.valid)))
  · exact bit_above (by decide) (bit_above (by decide) (bit_within (by decide) rfl))

/-- The byte after the profile values holds two spare bits and the codes of what follows the stage. -/
theorem PolicyRule.follow_byte :
    (byteAt r.bytes 24).extractLsb' 6 2 = 0 ∧
      (byteAt r.bytes 24).extractLsb' 4 2 = r.action.nextKind.code ∧
      (byteAt r.bytes 24).extractLsb' 2 2 = r.action.chainControl.code ∧
      (byteAt r.bytes 24).extractLsb' 0 2 = r.action.verdict.code := by
  rw [r.bytes_eq]
  refine ⟨?_, ?_, ?_, BitVec.extractLsb'_append_eq_right⟩
  · exact field_above (by decide) (field_above (by decide) BitVec.extractLsb'_append_eq_left)
  · exact field_above (by decide) (field_above (by decide) BitVec.extractLsb'_append_eq_right)
  · exact field_above (by decide) BitVec.extractLsb'_append_eq_right

theorem PolicyRule.write_byte :
    (byteAt r.bytes 13).getLsbD 7 = false ∧ writeSetOf (byteAt r.bytes 13).toNat = r.action.writes := by
  rw [r.bytes_eq]
  exact ⟨bit_above (by decide) rfl, writeSetOf_bits _⟩

theorem PolicyRule.class_byte :
    (byteAt r.bytes 15).extractLsb' 4 4 = 0 ∧
      (byteAt r.bytes 15).extractLsb' 0 4 = bitsOfClasses r.action.values.classes := by
  rw [r.bytes_eq]
  exact (halves_fields _ _).symm

theorem PolicyRule.fieldAt_value :
    fieldAt r.bytes 1 6 = r.value.toNat ∧ fieldAt r.bytes 7 6 = r.mask.toNat := by
  rw [r.bytes_eq]
  exact ⟨(natOf_six _).trans (Nat.mod_eq_of_lt r.value.isLt),
    (natOf_six _).trans (Nat.mod_eq_of_lt r.mask.isLt)⟩

variable {r}

theorem PolicyRule.chain_byte (fits : r.action.chainValue ≤ 255) :
    (byteAt r.bytes 25).toNat = r.action.chainValue := by
  rw [r.bytes_eq]
  exact Nat.mod_eq_of_lt (Nat.lt_succ_of_le fits)

/-- The values of a rule within the ranges are read from its bytes as they are. -/
theorem PolicyRule.values_bytes (law : r.action.values.Bounded) :
    profileValuesAt r.bytes 14 = r.action.values := by
  obtain ⟨weight, ceiling, borrow, ⟨least, most⟩, uplinkEighths, softCap⟩ := law
  rw [profileValuesAt, r.class_byte.2, classesOfBits_bitsOfClasses, fieldAt_one, fieldAt_one, r.bytes_eq]
  refine (Profile.mk.injEq ..).mpr ⟨?_, rfl, ?_, ?_, toInt_costShift least most, ?_, ?_⟩
  · exact Nat.mod_eq_of_lt (by omega)
  · exact (natOf_two _).trans (Nat.mod_eq_of_lt (by omega))
  · exact (natOf_two _).trans (Nat.mod_eq_of_lt (by omega))
  · exact Nat.mod_eq_of_lt (by omega)
  · exact (natOf_two _).trans (Nat.mod_eq_of_lt (by omega))

/-- A rule within the ranges survives its coding, but for a weight of 0, which is raised to 1. -/
theorem PolicyRule.ruleOf_bytes (law : r.action.values.Bounded) (fits : r.action.chainValue ≤ 255) :
    ruleOf r.bytes = { r with action := { r.action with
      values := { r.action.values with weight := max 1 r.action.values.weight } } } := by
  obtain ⟨valid, _, kind, stages⟩ := r.first_byte
  obtain ⟨_, nextKind, chainControl, verdict⟩ := r.follow_byte
  obtain ⟨value, mask⟩ := r.fieldAt_value
  rw [ruleOf, valid, kind, stages, nextKind, chainControl, verdict, value, mask, r.write_byte.2,
    PolicyRule.chain_byte fits, PolicyRule.values_bytes law, law.clamp_eq, keyKindOf_code, keyKindOf_code,
    verdictOf_code, chainControlOf_code, BitVec.ofNat_toNat, BitVec.ofNat_toNat, BitVec.setWidth_eq,
    BitVec.setWidth_eq]

end

/-! ### What the coding adjusts (R27, R173) -/

/-- A rule's bytes are adjusted where a value is out of its range or a code is not assigned. -/
theorem ruleClamped_iff (p : List Byte) :
    ruleClamped p = true ↔
      ¬ ((profileValuesAt p 14).Bounded ∧ 1 ≤ (profileValuesAt p 14).weight) ∨
      (byteAt p 24).extractLsb' 0 2 = 3 ∨ (byteAt p 24).extractLsb' 2 2 = 3 := by
  rw [ruleClamped, Bool.or_eq_true, Bool.or_eq_true, bne_iff_ne, beq_iff_eq, beq_iff_eq, ne_eq,
    Profile.clamp_eq_self_iff, or_assoc]

theorem PolicyRule.ruleClamped_bytes {r : PolicyRule} (law : r.action.values.Bounded) :
    ruleClamped r.bytes = true ↔ r.action.values.weight = 0 := by
  obtain ⟨_, _, chainControl, verdict⟩ := r.follow_byte
  rw [ruleClamped_iff, verdict, chainControl, PolicyRule.values_bytes law]
  have codes := And.intro r.action.verdict.code_ne r.action.chainControl.code_ne
  simp only [law, codes, true_and, or_false]
  omega

/-- The profile values that 26 bytes carry, byte by byte (R173). -/
theorem profileValuesAt_rule {coded : List Byte} (whole : coded.length = 26) :
    profileValuesAt coded 14 =
      { weight := (byteAt coded 14).toNat
        classes :=
          { sc0 := (byteAt coded 15).getLsbD 0, sc1 := (byteAt coded 15).getLsbD 1
            sc2 := (byteAt coded 15).getLsbD 2, sc3 := (byteAt coded 15).getLsbD 3 }
        ceiling := fieldAt coded 16 2
        borrow := (byteAt coded 18).toNat * 256 + (byteAt coded 19).toNat
        costShift := (byteAt coded 20).toInt, uplinkEighths := (byteAt coded 21).toNat
        softCap := fieldAt coded 22 2 } := by
  rw [profileValuesAt, fieldAt_one, fieldAt_one, fieldAt_two (i := 14 + 4) (by omega), classesOfBits]
  simp only [BitVec.getLsbD_extractLsb', Nat.zero_add]
  rfl

/-- The values of the stored rule: those of the bytes, each at the nearer end of its range (R27). -/
theorem ruleOf_values {coded : List Byte} (whole : coded.length = 26) :
    (ruleOf coded).action.values =
      { weight := max 1 (min (byteAt coded 14).toNat 64)
        classes :=
          { sc0 := (byteAt coded 15).getLsbD 0, sc1 := (byteAt coded 15).getLsbD 1
            sc2 := (byteAt coded 15).getLsbD 2, sc3 := (byteAt coded 15).getLsbD 3 }
        ceiling := fieldAt coded 16 2, borrow := min (fieldAt coded 18 2) 8191
        costShift := max (-3) (min (byteAt coded 20).toInt 3)
        uplinkEighths := min (byteAt coded 21).toNat 8, softCap := fieldAt coded 22 2 } := by
  have ceiling : fieldAt coded 16 2 ≤ 65535 := Nat.le_of_lt_succ (fieldAt_lt coded 16 2)
  have softCap : fieldAt coded 22 2 ≤ 65535 := Nat.le_of_lt_succ (fieldAt_lt coded 22 2)
  show (profileValuesAt coded 14).clamp = _
  rw [profileValuesAt_rule whole, Profile.clamp, min_eq_left ceiling, min_eq_left softCap,
    fieldAt_two (i := 18) (by omega)]
  rfl

/-- A profile is out of the ranges of R4 where one of its numeric values is. -/
theorem Profile.not_within_iff {v : Profile} (ceiling : v.ceiling ≤ 65535) (softCap : v.softCap ≤ 65535) :
    ¬ (v.Bounded ∧ 1 ≤ v.weight) ↔ v.weight = 0 ∨ 64 < v.weight ∨ 8191 < v.borrow ∨ v.costShift < -3 ∨
      3 < v.costShift ∨ 8 < v.uplinkEighths := by
  have within : v.Bounded ∧ 1 ≤ v.weight ↔ 1 ≤ v.weight ∧ v.weight ≤ 64 ∧ v.borrow ≤ 8191 ∧
      -3 ≤ v.costShift ∧ v.costShift ≤ 3 ∧ v.uplinkEighths ≤ 8 :=
    ⟨fun ⟨law, least⟩ => ⟨least, law.weight, law.borrow, law.costShift.1, law.costShift.2, law.uplinkEighths⟩,
      fun ⟨least, weight, borrow, low, high, uplink⟩ =>
        ⟨⟨weight, ceiling, borrow, ⟨low, high⟩, uplink, softCap⟩, least⟩⟩
  rw [within]
  omega

theorem ruleClamped_bytes_iff {coded : List Byte} (whole : coded.length = 26) :
    ruleClamped coded = true ↔
      (byteAt coded 14).toNat = 0 ∨ 64 < (byteAt coded 14).toNat ∨
      8191 < (byteAt coded 18).toNat * 256 + (byteAt coded 19).toNat ∨
      (byteAt coded 20).toInt < -3 ∨ 3 < (byteAt coded 20).toInt ∨ 8 < (byteAt coded 21).toNat ∨
      (byteAt coded 24).extractLsb' 0 2 = 3 ∨ (byteAt coded 24).extractLsb' 2 2 = 3 := by
  rw [ruleClamped_iff, profileValuesAt_rule whole,
    Profile.not_within_iff (Nat.le_of_lt_succ (fieldAt_lt coded 16 2))
      (Nat.le_of_lt_succ (fieldAt_lt coded 22 2))]
  simp only [or_assoc]

/-- A field of six bytes fits a value or a mask. -/
theorem toNat_fieldAt_six (p : List Byte) (i : Nat) : (BitVec.ofNat 48 (fieldAt p i 6)).toNat = fieldAt p i 6 := by
  rw [BitVec.toNat_ofNat]
  exact Nat.mod_eq_of_lt (fieldAt_lt p i 6)

/-- Settles O13: the coding of a rule in both directions, and the bytes of the power-on rules. -/
theorem ruleCodingRoundTrips : Obligations.RuleCodingRoundTrips := by
  unfold Obligations.RuleCodingRoundTrips
  refine ⟨fun r law fits => ?_, fun i => ?_, fun coded whole => ?_⟩
  · have weight : (byteAt r.bytes 14).toNat = r.action.values.weight := by
      rw [← fieldAt_one]
      exact congrArg Profile.weight (PolicyRule.values_bytes law)
    refine ⟨congrArg List.length r.bytes_eq, weight, fun least => ⟨?_, ?_⟩, fun zero => ⟨?_, ?_⟩,
      r.first_byte.2.1, r.write_byte.1, r.class_byte.1, r.follow_byte.1⟩
    · rw [PolicyRule.ruleOf_bytes law fits, max_eq_right least]
    · rw [Bool.eq_false_iff, ne_eq, PolicyRule.ruleClamped_bytes law]
      omega
    · exact (PolicyRule.ruleClamped_bytes law).mpr zero
    · rw [PolicyRule.ruleOf_bytes law fits, zero]
      rfl
  · rw [State.rule_reset]
    by_cases default : 60 ≤ i.val
    · rw [if_neg (Nat.not_lt.mpr default), if_pos default]
      decide
    · rw [if_pos (Nat.not_le.mp default), if_neg default]
      decide
  · intro kinds writes classes
    have kindOf : ∀ b : BitVec 2, ∀ k ∈ kinds, b = k.1 → keyKindOf b = k.2 := by decide
    have verdictIs : ∀ b : BitVec 2, ∀ k ∈ ([(0, .goOn), (1, .accept), (2, .deny), (3, .deny)] :
        List (BitVec 2 × Verdict)), b = k.1 → verdictOf b = k.2 := by decide
    have controlOf : ∀ b : BitVec 2, ∀ k ∈ ([(0, .keep), (1, .set), (2, .add), (3, .add)] :
        List (BitVec 2 × ChainControl)), b = k.1 → chainControlOf b = k.2 := by decide
    exact ⟨rfl, kindOf _, rfl, toNat_fieldAt_six coded 1, toNat_fieldAt_six coded 7, rfl, ruleOf_values whole,
      verdictIs _, controlOf _, kindOf _, rfl, (ruleOf_bounded coded).1, (ruleOf_bounded coded).2,
      Nat.le_of_lt_succ (byteAt coded 25).isLt, ruleClamped_bytes_iff whole⟩

end Sys2Proof.Machine
end

section
/-!
PROOFS. The settings items (O15): what each reads and stores, the clamping of a number, the positions of a set and
the select of a checker, and that no other item changes (R28, R157, R158, R174).
-/

namespace Sys2Proof.Machine

/-! ### Numbers (R157, R158) -/

/-- A number stored at the nearer end of its range, and when that differs from the number carried. -/
theorem word_clampNat (v : Word) {lo hi : Nat} (fit : lo ≤ hi) (small : hi < 4294967296) :
    ((BitVec.ofNat 32 (clampNat v.toNat lo hi)).toNat : Int) = max (lo : Int) (min v.toNat hi) ∧
      ((BitVec.ofNat 32 (clampNat v.toNat lo hi) != v) = true ↔
        (v.toNat : Int) < lo ∨ (hi : Int) < v.toNat) := by
  have same : (BitVec.ofNat 32 (clampNat v.toNat lo hi)).toNat = clampNat v.toNat lo hi :=
    Nat.mod_eq_of_lt ((clampNat_le _ fit).trans_lt small)
  refine ⟨by rw [same, clampNat]; omega, ?_⟩
  rw [bne_iff_ne, ne_eq, ← BitVec.toNat_inj, same, clampNat]
  omega

/-- The same for a signed number. -/
theorem word_clampInt (v : Word) :
    (BitVec.ofInt 32 (clampInt v.toInt (-3) 3)).toInt = max (-3) (min v.toInt 3) ∧
      ((BitVec.ofInt 32 (clampInt v.toInt (-3) 3) != v) = true ↔ v.toInt < -3 ∨ 3 < v.toInt) := by
  have least := le_clampInt (-3) 3 v.toInt
  have most := clampInt_le (lo := -3) (hi := 3) v.toInt (by decide)
  have same : (BitVec.ofInt 32 (clampInt v.toInt (-3) 3)).toInt = clampInt v.toInt (-3) 3 := by
    rw [BitVec.toInt_ofInt]
    exact Int.bmod_eq_of_le (by omega) (by omega)
  refine ⟨same, ?_⟩
  rw [bne_iff_ne, ne_eq, ← BitVec.toInt_inj, same, clampInt]
  omega

/-- The number of a key kind is read back as it was stored. -/
theorem keyKindOf_word {n : Nat} (fits : n ≤ 3) :
    (keyKindOf (BitVec.ofNat 2 n)).code.setWidth 32 = BitVec.ofNat 32 n := by
  interval_cases n <;> rfl

/-! ### Sets (R157, R174) -/

/-- The positions of a set within its width. -/
theorem setWidth_setWidth_eq_and (v : Word) {n : Nat} (fits : n ≤ 32) :
    (v.setWidth n).setWidth 32 = v &&& BitVec.ofNat 32 (2 ^ n - 1) := by
  apply BitVec.eq_of_toNat_eq
  have le : 2 ^ n ≤ 2 ^ 32 := Nat.pow_le_pow_right (by decide) fits
  have pos : 0 < 2 ^ n := by positivity
  rw [BitVec.toNat_and, BitVec.toNat_setWidth, BitVec.toNat_setWidth, BitVec.toNat_ofNat,
    Nat.mod_eq_of_lt (show 2 ^ n - 1 < 2 ^ 32 by omega), Nat.and_two_pow_sub_one_eq_mod]
  exact Nat.mod_eq_of_lt ((Nat.mod_lt _ pos).trans_le le)

/-- A mask drops a position exactly when some position beyond it is set. -/
theorem and_ne_iff (v mask : Word) : ((v &&& mask) != v) = true ↔ v &&& ~~~mask ≠ 0 := by
  rw [bne_iff_ne, ne_eq, ne_eq, not_iff_not]
  have parts : v = (v &&& mask) ||| (v &&& ~~~mask) := by
    rw [← BitVec.and_or_distrib_left, BitVec.or_not_self, BitVec.and_allOnes]
  refine ⟨fun same => ?_, fun none => ?_⟩
  · rw [← same, BitVec.and_assoc]
    simp
  · rw [none] at parts
    simpa using parts.symm

theorem bitsOfClasses_classesOfBits (b : BitVec 4) : bitsOfClasses (classesOfBits b) = b := by
  revert b
  decide

theorem classesOfBits_setWidth (v : Word) :
    classesOfBits (v.setWidth 4) =
      { sc0 := v.getLsbD 0, sc1 := v.getLsbD 1, sc2 := v.getLsbD 2, sc3 := v.getLsbD 3 } := by
  simp [classesOfBits]

/-- A set of classes keeps its four positions. -/
theorem classes_masked (v : Word) :
    (bitsOfClasses (classesOfBits (v.setWidth 4))).setWidth 32 = v &&& 0xF := by
  rw [bitsOfClasses_classesOfBits]
  exact setWidth_setWidth_eq_and v (n := 4) (by decide)

theorem bitsOfClasses_word (k : ClassSet) :
    (bitsOfClasses k).setWidth 32 = (0#28 ++ BitVec.ofBool k.sc3 ++ BitVec.ofBool k.sc2 ++
      BitVec.ofBool k.sc1 ++ BitVec.ofBool k.sc0 : Word) := by
  obtain ⟨a, b, c, d⟩ := k
  revert a b c d
  decide

/-- A set stored in an item keeps the positions within its mask, and is clamped when it carries others. -/
theorem word_masked {v stored mask : Word} (kept : stored = v &&& mask) :
    stored = v &&& mask ∧ ((stored != v) = true ↔ v &&& ~~~mask ≠ 0) :=
  ⟨kept, by rw [kept]; exact and_ne_iff v mask⟩

/-! ### Range checkers (R28, R174) -/

theorem checkerSelectOf_eq (b : Byte) :
    checkerSelectOf b = if b = 1 then .signal else if b = 2 then .rate else if b = 3 then .tag
      else if b = 4 then .streams else .off := by
  revert b
  decide

/-- An unassigned code is stored as OFF, whose code is 0. -/
theorem checkerSelectOf_code (b : Byte) : (checkerSelectOf b).code = if b.toNat ≤ 4 then b else 0 := by
  revert b
  decide

/-- A word is its four bytes. -/
theorem word_bytes (v : Word) :
    v.extractLsb' 24 8 ++ v.extractLsb' 16 8 ++ v.extractLsb' 8 8 ++ v.extractLsb' 0 8 = v := by
  have high : v.extractLsb' 24 8 ++ v.extractLsb' 16 8 = v.extractLsb' 16 16 :=
    BitVec.extractLsb'_append_extractLsb'_eq_extractLsb' rfl
  have upper : v.extractLsb' 16 16 ++ v.extractLsb' 8 8 = v.extractLsb' 8 24 :=
    BitVec.extractLsb'_append_extractLsb'_eq_extractLsb' rfl
  have whole : v.extractLsb' 8 24 ++ v.extractLsb' 0 8 = v.extractLsb' 0 32 :=
    BitVec.extractLsb'_append_extractLsb'_eq_extractLsb' rfl
  rw [high]
  exact (congrArg (· ++ v.extractLsb' 0 8) upper).trans (whole.trans BitVec.extractLsb'_eq_self)

/-- A mask of whole bytes, byte by byte. -/
theorem and_bytes (v : Word) (m3 m2 m1 m0 : Byte) :
    v &&& (m3 ++ m2 ++ m1 ++ m0 : Word) =
      (v.extractLsb' 24 8 &&& m3) ++ (v.extractLsb' 16 8 &&& m2) ++ (v.extractLsb' 8 8 &&& m1) ++
        (v.extractLsb' 0 8 &&& m0) := by
  conv_lhs => rw [← word_bytes v]
  exact BitVec.and_append.trans (congrArg (· ++ _)
    (BitVec.and_append.trans (congrArg (· ++ _) BitVec.and_append)))

/-- The bytes of a checker's word that its coding assigns, with the select's byte and without it (R174). -/
theorem checker_bytes (v : Word) :
    v &&& 0xFFFFFF00 = v.extractLsb' 24 8 ++ v.extractLsb' 16 8 ++ v.extractLsb' 8 8 ++ 0#8 ∧
      v &&& 0x00FFFF00 = 0#8 ++ v.extractLsb' 16 8 ++ v.extractLsb' 8 8 ++ 0#8 := by
  constructor
  · refine (and_bytes v (BitVec.allOnes 8) (BitVec.allOnes 8) (BitVec.allOnes 8) 0#8).trans ?_
    simp only [BitVec.and_allOnes, BitVec.and_zero]
  · refine (and_bytes v 0#8 (BitVec.allOnes 8) (BitVec.allOnes 8) 0#8).trans ?_
    simp only [BitVec.and_allOnes, BitVec.and_zero]

theorem checkerOf_word (v : Word) :
    (checkerOf v).word = (if (v.extractLsb' 24 8).toNat ≤ 4 then v &&& 0xFFFFFF00 else v &&& 0x00FFFF00) := by
  obtain ⟨assigned, unassigned⟩ := checker_bytes v
  rw [Checker.word, checkerOf, checkerSelectOf_code, assigned, unassigned]
  split <;> rfl

/-- A checker is clamped when its select is not assigned (R28, R158). -/
theorem checkerOf_word_ne_iff (v : Word) :
    ((checkerOf v).word != v &&& 0xFFFFFF00) = true ↔ 4 < (v.extractLsb' 24 8).toNat := by
  rw [bne_iff_ne, ne_eq, checkerOf_word]
  by_cases assigned : (v.extractLsb' 24 8).toNat ≤ 4
  · rw [if_pos assigned]
    exact iff_of_false (fun differs => differs rfl) (Nat.not_lt.mpr assigned)
  · rw [if_neg assigned]
    refine iff_of_true (fun same => assigned ?_) (Nat.not_le.mp assigned)
    have select := congrArg (BitVec.extractLsb' 24 8) same
    rw [BitVec.extractLsb'_and, BitVec.extractLsb'_and] at select
    have zero : v.extractLsb' 24 8 = 0 :=
      (BitVec.and_allOnes.symm.trans select.symm).trans BitVec.and_zero
    rw [zero]
    decide

/-! ### Items (R157) -/

/-- A numeric item stores its number at the nearer end of its range, and tells whether it clamped (R158). -/
theorem Settings.write_number (t : Settings) (v : Word) {i : SettingItem} {lo hi : Int}
    (range : i.range = some (lo, hi)) :
    i.number ((t.write v i).read i) = max lo (min (i.number v) hi) ∧
      (t.clamps v i = true ↔ i.number v < lo ∨ hi < i.number v) := by
  cases i with
  | holdMask => cases range
  | classEnable => cases range
  | defaultClasses => cases range
  | attnMask => cases range
  | checker k => cases range
  | defaultCostShift =>
    cases range
    exact word_clampInt v
  | firstKind =>
    cases range
    have stored : (t.write v .firstKind).read .firstKind = BitVec.ofNat 32 (clampNat v.toNat 0 3) :=
      keyKindOf_word (clampNat_le _ (by decide))
    rw [Settings.clamps, stored]
    exact word_clampNat v (by decide) (by decide)
  | overhead c =>
    cases range
    have stored : (t.write v (.overhead c)).read (.overhead c) =
        BitVec.ofNat 32 (clampNat v.toNat 0 1023) := congrArg (BitVec.ofNat 32) (PerClass.get_set_same t.overhead c _)
    rw [Settings.clamps, stored]
    exact word_clampNat v (by decide) (by decide)
  | _ =>
    cases range
    exact word_clampNat v (by decide) (by decide)

/-- A write reads back as before in every other item (R158). -/
theorem Settings.read_write_ne (t : Settings) (v : Word) {i j : SettingItem} (ne : i ≠ j) :
    (t.write v i).read j = t.read j := by
  cases i with
  | overhead c =>
    cases j with
    | overhead e => exact congrArg (BitVec.ofNat 32) (PerClass.get_set_ne _ (fun same => ne (congrArg _ same.symm)) _)
    | _ => rfl
  | checker c =>
    cases j with
    | checker e =>
      have apart : c.val ≠ e.val := fun same => ne (congrArg _ (Fin.ext same))
      exact congrArg Checker.word (Vector.getElem_set_ne c.isLt e.isLt apart)
    | _ => rfl
  | _ => cases j <;> first | rfl | exact absurd rfl ne

/-- Settles O15: what each item reads and stores, when it clamps, and that no other item changes. -/
theorem itemWritesClampToRange : Obligations.ItemWritesClampToRange := by
  unfold Obligations.ItemWritesClampToRange
  intro t v within classes coded
  refine ⟨⟨rfl, rfl⟩, ⟨rfl, rfl⟩, ⟨rfl, rfl⟩, ⟨rfl, rfl⟩, ⟨rfl, rfl⟩, ⟨rfl, rfl⟩, ⟨rfl, rfl⟩, ⟨rfl, rfl⟩,
    ⟨rfl, rfl⟩, fun c => ⟨rfl, rfl⟩, ⟨rfl, rfl⟩, ⟨rfl, rfl⟩, ⟨rfl, rfl⟩, ⟨rfl, rfl⟩, ⟨rfl, rfl⟩,
    ⟨rfl, rfl⟩, ⟨bitsOfClasses_word _, ?_⟩, ⟨bitsOfClasses_word _, ?_⟩, ⟨rfl, rfl⟩, ⟨rfl, rfl⟩, ?_,
    fun i => ⟨rfl, ?_⟩, ⟨rfl, rfl, rfl, rfl, rfl⟩, fun i lo hi => t.write_number v, ?_, fun i => ?_,
    fun i j => t.read_write_ne v⟩
  · rw [Settings.write, classesOfBits_setWidth]
  · rw [Settings.write, classesOfBits_setWidth]
  · have codes : ∀ k ∈ ([(0, .address), (1, .capability), (2, .tag), (3, .chain)] : List (Nat × KeyKind)),
        k.2.code.setWidth 32 = BitVec.ofNat 32 k.1 ∧ keyKindOf (BitVec.ofNat 2 (max 0 k.1)) = k.2 := by decide
    intro k isIn
    obtain ⟨code, kind⟩ := codes k isIn
    exact ⟨fun first => by rw [Settings.read, first, code],
      fun first => by rw [Settings.write, clampNat, first, kind]⟩
  · rw [Settings.write, checkerOf, checkerSelectOf_eq]
  · simp only [List.forall_mem_cons, List.not_mem_nil, false_imp_iff, implies_true, and_true]
    refine ⟨word_masked ?_, word_masked ?_, word_masked ?_, word_masked ?_⟩
    · exact setWidth_setWidth_eq_and v (n := 16) (by decide)
    · exact classes_masked v
    · exact classes_masked v
    · exact setWidth_setWidth_eq_and v (n := 14) (by decide)
  · have stored : (t.write v (.checker i)).read (.checker i) = (checkerOf v).word :=
      congrArg Checker.word (Vector.getElem_set_self _)
    rw [Settings.clamps, stored]
    exact ⟨checkerOf_word v, checkerOf_word_ne_iff v⟩

end Sys2Proof.Machine
end

section
/-!
PROOFS. Debits and the visits that make them: two debits in either order (O49), and the member visits of a DONE
(O38) and of an expiry (O41): the flags of a charge, the record written, its end in COOLING, and the release
(R53 to R57, R61, R95 to R99).
-/

namespace Sys2Proof.Machine

/-! ### Two debits (R56, R61) -/

/-- One of two debits floors exactly when credit less both is below the floor: a credit that the first has
floored stays at the floor, and one that it has not is floored by the second (R56). -/
theorem creditFloors_twice (credit : Int) (d1 d2 : Nat) :
    (creditFloors credit d1 || creditFloors (flooredCredit credit d1) d2) = true ↔
      credit - d1 - d2 < -524288 := by
  rw [Bool.or_eq_true, creditFloors_iff, creditFloors_iff, flooredCredit_eq]
  omega

/-- Settles O49: two debits in either order. -/
theorem debitsComposeInEitherOrder : Obligations.DebitsComposeInEitherOrder := by
  unfold Obligations.DebitsComposeInEitherOrder
  intro credit d1 d2 _
  have swap : credit - d1 - d2 = credit - d2 - d1 := sub_right_comm ..
  refine ⟨flooredCredit_twice credit d1 d2, ?_, creditFloors_twice credit d1 d2, ?_⟩
  · rw [swap]
    exact flooredCredit_twice credit d2 d1
  · rw [swap]
    exact creditFloors_twice credit d2 d1

/-! ### Flags and counters of a member visit (R55, R56, R95, R99) -/

theorem State.raiseIf_debitSat (s : State) (b : Bool) :
    s.raiseIf b .debitSat = { s with flags := { s.flags with debitSat := s.flags.debitSat || b } } := by
  cases b
  · rw [Bool.or_false]
    rfl
  · rw [Bool.or_true]
    rfl

theorem State.raiseIf_unreachable (s : State) (b : Bool) :
    s.raiseIf b .unreachable =
      { s with flags := { s.flags with unreachable := s.flags.unreachable || b } } := by
  cases b
  · rw [Bool.or_false]
    rfl
  · rw [Bool.or_true]
    rfl

theorem State.raiseIf_expired (s : State) (b : Bool) :
    s.raiseIf b .expired =
      { s with
        flags := { s.flags with expired := s.flags.expired || b }
        counters := { s.counters with
          expired := if b then min (s.counters.expired + 1) 65535 else s.counters.expired } } := by
  cases b
  · rw [Bool.or_false]
    rfl
  · rw [Bool.or_true]
    rfl

theorem State.chargeFlags_eq (s : State) (r : StationRecord) (raw : Nat) :
    s.chargeFlags r raw =
      { s with flags := { s.flags with
          debitSat := s.flags.debitSat || debitSaturates raw
          floor := s.flags.floor || creditFloors r.credit (saturatedDebit raw) } } := by
  rw [State.chargeFlags, State.raiseIf_debitSat, State.raiseIf_floor]

/-! ### The end of a closing visit (R9, R97) -/

/-- The COOLING of a DRAINING record that has landed, field by field (R9). -/
theorem StationRecord.cooled_eq (r : StationRecord) (coolEpochs : Nat) :
    r.cooled coolEpochs =
      { r with
        state := if r.state = .draining ∧ r.inFlight = ClassSet.none then .cooling else r.state
        coolCountdown :=
          if r.state = .draining ∧ r.inFlight = ClassSet.none then coolEpochs else r.coolCountdown } := by
  unfold StationRecord.cooled
  split <;> rfl

/-- A member's release does not see the flags and counters raised before it. -/
theorem State.releaseMember_counted (s : State) (fs : Flags) (cs : Counters) (id : AwardId) (h : Handle) :
    ({ s with flags := fs, counters := cs } : State).releaseMember id h =
      { s.releaseMember id h with flags := fs, counters := cs } := by
  unfold State.releaseMember
  rw [show ({ s with flags := fs, counters := cs } : State).entry id = s.entry id from rfl]
  cases (s.entry id).award <;> rfl

/-- Beyond the rings, a closing visit that has raised flags writes the record, COOLING where R9 says so, releases
the member and goes on with the engine's item (R95, R97, R99). -/
theorem State.closeMember_engine_frame (s : State) (fs : Flags) (id : AwardId) (h : Handle)
    (r : StationRecord) (e : EngineItem) :
    State.beyondRings { ({ s with flags := fs } : State).closeMember id h r with engine := e } =
      State.beyondRings
        { s.releaseMember id h with
          engine := e, flags := fs
          stations := s.stations.set h.val (r.cooled s.settings.coolEpochs) } := by
  refine (State.engine_frame (State.closeMember_frame _ id h r) e).trans ?_
  rw [State.releaseMember_counted s fs s.counters]
  simp only [State.setStation, State.releaseMember_stations, State.releaseMember_counters]

/-! ### The member visit of a DONE (R53 to R56, R95, R96) -/

/-- The record that a DONE's member visit writes, field by field (R95). -/
theorem StationRecord.doneBy_eq (r : StationRecord) (t : Settings) (w : OpenAward) (airtime : Nat)
    (e : DoneEntry) :
    r.doneBy t w airtime e =
      { r with
        credit := flooredCredit r.credit (saturatedDebit (doneDebit r t w airtime e.share))
        usage := raisedUsage r.usage (portionOf airtime (readShare (w.members.length == 1) e.share))
        inFlight := r.inFlight.set w.cls false
        failStreak := nextStreak r.failStreak e.outcome
        backlog :=
          if r.losesReach e.outcome t.failLimit then ClassSet.none
          else if r.state = .active then r.backlog.set w.cls e.backlogged else r.backlog
        idleCountdown := if r.state = .active then t.idleLimit else r.idleCountdown
        state := if r.losesReach e.outcome t.failLimit then .dormant else r.state } := by
  unfold StationRecord.doneBy
  dsimp only
  by_cases active : r.state = .active
  · simp only [if_pos active]
    split <;> rfl
  · simp only [if_neg active]
    split <;> rfl

/-- Only an ACTIVE member loses reach (R7, R95). -/
theorem StationRecord.losesReach_eq (r : StationRecord) (o : TxOutcome) (failLimit : Nat) :
    r.losesReach o failLimit =
      decide (r.state = .active ∧ o = .failed ∧ failLimit ≤ nextStreak r.failStreak o) := by
  rw [StationRecord.losesReach, Bool.eq_iff_iff]
  simp only [Bool.and_eq_true, beq_iff_eq, decide_eq_true_eq, and_assoc]

/-- A DRAINING member that a DONE lands is COOLING, and no other: one that becomes DORMANT was ACTIVE. -/
theorem StationRecord.cooled_doneBy (r : StationRecord) (t : Settings) (w : OpenAward) (airtime : Nat)
    (e : DoneEntry) (coolEpochs : Nat) :
    (r.doneBy t w airtime e).cooled coolEpochs =
      { r.doneBy t w airtime e with
        state :=
          if r.losesReach e.outcome t.failLimit then .dormant
          else if r.state = .draining ∧ r.inFlight.set w.cls false = ClassSet.none then .cooling
          else r.state
        coolCountdown :=
          if r.state = .draining ∧ r.inFlight.set w.cls false = ClassSet.none then coolEpochs
          else r.coolCountdown } := by
  rw [StationRecord.cooled_eq, StationRecord.doneBy_eq]
  by_cases lost : r.losesReach e.outcome t.failLimit = true
  · have active : r.state = .active := by
      rw [StationRecord.losesReach_eq, decide_eq_true_eq] at lost
      exact lost.1
    have stays : ¬ (r.state = .draining ∧ r.inFlight.set w.cls false = ClassSet.none) := by
      rw [active]
      exact fun drains => nomatch drains.1
    simp [lost, stays]
  · simp only [if_neg lost]

theorem exec_doneMemberVisit {s : State} {asks : PortAsks} {id : AwardId} {airtime : Nat} {m : DoneWork}
    {rest : List DoneWork} {w : OpenAward} (run : s.resetLow = false)
    (item : s.engine = .done id airtime (m :: rest)) (grant : s.grants .award asks = true)
    (isOpen : (s.entry id).award = some w) :
    exec (.doneMemberVisit asks) s = .next
      { (s.granted .award asks).doneMember id w airtime m.handle m.entry with
        engine := if rest = [] then .idle else .done id airtime rest } := by
  have due : s.engine.visit = some .doneMember := by rw [item]; rfl
  have item' : (s.granted .award asks).engine = .done id airtime (m :: rest) := item
  have isOpen' : ((s.granted .award asks).entry id).award = some w := isOpen
  show Host.Outcome.next (s.engineVisit .doneMember asks _) = _
  rw [State.engineVisit_granted run due grant, item']
  dsimp only
  rw [isOpen']

/-- The state in which a DONE's member visit closes: the flags of its charge and of a member out of reach are
raised (R55, R56, R96). -/
theorem State.doneMember_eq (s : State) (id : AwardId) (w : OpenAward) (airtime : Nat) (h : Handle)
    (e : DoneEntry) :
    s.doneMember id w airtime h e =
      ({ s with flags := { s.flags with
          debitSat := s.flags.debitSat ||
            debitSaturates (doneDebit (s.station h) s.settings w airtime e.share)
          floor := s.flags.floor || creditFloors (s.station h).credit
            (saturatedDebit (doneDebit (s.station h) s.settings w airtime e.share))
          unreachable := s.flags.unreachable ||
            (s.station h).losesReach e.outcome s.settings.failLimit } } : State).closeMember id h
        ((s.station h).doneBy s.settings w airtime e) := by
  rw [State.doneMember, State.chargeFlags_eq, State.raiseIf_unreachable]

theorem readShare_eq (w : OpenAward) (share : Nat) :
    readShare (w.members.length == 1) share =
      if w.members.length = 1 then 16 else max 1 (min share 16) := by
  unfold readShare clampNat
  simp only [beq_iff_eq]

/-- Settles O38: the member visit of a DONE. -/
theorem doneMemberVisitCharges : Obligations.DoneMemberVisitCharges := by
  unfold Obligations.DoneMemberVisitCharges
  intro s asks id airtime m rest w run item grant isOpen
  have record : (s.granted .award asks).station m.handle = s.station m.handle := rfl
  have settings : (s.granted .award asks).settings = s.settings := rfl
  refine ⟨_, exec_doneMemberVisit run item grant isOpen, ?_⟩
  rw [State.doneMember_eq, State.closeMember_engine_frame, record, settings, StationRecord.cooled_doneBy,
    StationRecord.doneBy_eq, StationRecord.losesReach_eq, doneDebit, readShare_eq]
  simp only [decide_eq_true_eq]
  rfl

/-! ### The member visit of an expiry (R57, R99) -/

theorem exec_expiryMemberVisit {s : State} {asks : PortAsks} {id : AwardId} {h : Handle}
    {rest : List Handle} {w : OpenAward} {i : Issue} (run : s.resetLow = false)
    (item : s.engine = .expiry id (h :: rest)) (grant : s.grants .award asks = true)
    (isOpen : (s.entry id).award = some w) (issued : w.issue = some i) :
    exec (.expiryMemberVisit asks) s = .next
      { ((s.granted .award asks).expiryMember id w i h).raiseIf rest.isEmpty .expired with
        engine := if rest = [] then .idle else .expiry id rest } := by
  have due : s.engine.visit = some .expiryMember := by rw [item]; rfl
  have item' : (s.granted .award asks).engine = .expiry id (h :: rest) := item
  have isOpen' : ((s.granted .award asks).entry id).award = some w := isOpen
  show Host.Outcome.next (s.engineVisit .expiryMember asks _) = _
  rw [State.engineVisit_granted run due grant, item']
  dsimp only
  rw [isOpen']
  dsimp only
  rw [issued]

/-- The state in which an expiry's member visit closes: the flags of its charge are raised (R55, R56). -/
theorem State.expiryMember_eq (s : State) (id : AwardId) (w : OpenAward) (i : Issue) (h : Handle) :
    s.expiryMember id w i h =
      ({ s with flags := { s.flags with
          debitSat := s.flags.debitSat || debitSaturates (expiryDebit (s.station h) s.settings w i)
          floor := s.flags.floor || creditFloors (s.station h).credit
            (saturatedDebit (expiryDebit (s.station h) s.settings w i)) } } : State).closeMember id h
        (((s.station h).charged (expiryDebit (s.station h) s.settings w i)).landed w.cls) := by
  rw [State.expiryMember, State.chargeFlags_eq]

/-- The event of EXPIRED keeps equality beyond the rings. -/
theorem State.raiseIf_expired_frame {s t : State} (same : t.beyondRings = s.beyondRings) (b : Bool) :
    (t.raiseIf b .expired).beyondRings = (s.raiseIf b .expired).beyondRings := by
  have on : ∀ u : State, (u.raiseIf b .expired).beyondRings = u.beyondRings.raiseIf b .expired := by
    intro u
    cases b <;> rfl
  rw [on, on, same]

/-- EXPIRED is raised as well after the engine's item has gone on. -/
theorem State.raiseIf_then_engine (s : State) (b : Bool) (f : Flag) (e : EngineItem) :
    ({ s.raiseIf b f with engine := e } : State) = ({ s with engine := e } : State).raiseIf b f := by
  cases b <;> rfl

/-- The record that an expiry's member visit writes, field by field (R57, R99). -/
theorem StationRecord.cooled_expired (r : StationRecord) (raw : Nat) (c : ServiceClass) (coolEpochs : Nat) :
    ((r.charged raw).landed c).cooled coolEpochs =
      { r with
        credit := flooredCredit r.credit (saturatedDebit raw)
        inFlight := r.inFlight.set c false
        state := if r.state = .draining ∧ r.inFlight.set c false = ClassSet.none then .cooling else r.state
        coolCountdown :=
          if r.state = .draining ∧ r.inFlight.set c false = ClassSet.none then coolEpochs
          else r.coolCountdown } := by
  rw [StationRecord.cooled_eq]
  rfl

/-- Settles O41: the member visit of an expiry. -/
theorem expiryMemberVisitCharges : Obligations.ExpiryMemberVisitCharges := by
  unfold Obligations.ExpiryMemberVisitCharges
  intro s asks id h rest w i run item grant isOpen issued
  have record : (s.granted .award asks).station h = s.station h := rfl
  have settings : (s.granted .award asks).settings = s.settings := rfl
  have last : rest.isEmpty = decide (rest = []) := by cases rest <;> rfl
  refine ⟨_, exec_expiryMemberVisit run item grant isOpen issued, ?_⟩
  rw [State.raiseIf_then_engine, State.expiryMember_eq]
  refine (State.raiseIf_expired_frame (State.closeMember_engine_frame _ _ id h _ _) _).trans ?_
  rw [record, settings, StationRecord.cooled_expired, State.raiseIf_expired, last]
  simp only [decide_eq_true_eq, State.releaseMember_counters]
  rfl

end Sys2Proof.Machine
end

section
/-!
PROOFS. The AMEND visit (O21): the fields of its response, the masked merge, and the refusal (R59, R149, R171).
-/

namespace Sys2Proof.Machine

/-! ### The response (R171) -/

/-- The 18 bytes of an AMEND response, each at its place. -/
theorem amendResponse_bytes (h : Handle) (f : AmendFields) :
    amendResponse h f =
      [BitVec.ofNat 8 (h.val / 256), BitVec.ofNat 8 h.val,
        0#7 ++ BitVec.ofBool f.writesCredit, BitVec.ofBool f.writesSignal ++ f.writes.bits,
        if f.writes.weight then BitVec.ofNat 8 f.values.weight else 0,
        if f.writes.classes then 0#4 ++ bitsOfClasses f.values.classes else 0,
        BitVec.ofNat 8 ((if f.writes.ceiling then f.values.ceiling else 0) / 256),
        BitVec.ofNat 8 (if f.writes.ceiling then f.values.ceiling else 0),
        BitVec.ofNat 8 ((if f.writes.borrow then f.values.borrow else 0) / 256),
        BitVec.ofNat 8 (if f.writes.borrow then f.values.borrow else 0),
        if f.writes.costShift then BitVec.ofInt 8 f.values.costShift else 0,
        if f.writes.uplinkEighths then BitVec.ofNat 8 f.values.uplinkEighths else 0,
        BitVec.ofNat 8 ((if f.writes.softCap then f.values.softCap else 0) / 256),
        BitVec.ofNat 8 (if f.writes.softCap then f.values.softCap else 0),
        if f.writesSignal then BitVec.ofInt 8 f.signal else 0,
        BitVec.ofNat 8 ((if f.writesCredit then codeSigned 24 f.credit else 0) / 65536),
        BitVec.ofNat 8 ((if f.writesCredit then codeSigned 24 f.credit else 0) / 256),
        BitVec.ofNat 8 (if f.writesCredit then codeSigned 24 f.credit else 0)] := by
  simp only [amendResponse, bytesOf_two, bytesOf_three, List.cons_append, List.nil_append]

/-- Two bytes carry the number of their 16 bits. -/
theorem natOf_pair (a b : Byte) : natOf [a, b] = (a ++ b : BitVec 16).toNat := by
  have := b.isLt
  rw [BitVec.toNat_append, ← Nat.shiftLeft_add_eq_or_of_lt this, Nat.shiftLeft_eq]
  simp [natOf]

/-- The named fields of an AMEND in the order of its field set (R149, R171). -/
def AmendFields.named (f : AmendFields) : List Bool :=
  [f.writes.weight, f.writes.classes, f.writes.ceiling, f.writes.borrow, f.writes.costShift,
    f.writes.uplinkEighths, f.writes.softCap, f.writesSignal, f.writesCredit]

/-- Bit n of the field set says whether field n is named, and bits 9 on are 0 (R171). -/
theorem fieldSet_testBit (f : AmendFields) (n : Nat) :
    (natOf [0#7 ++ BitVec.ofBool f.writesCredit, BitVec.ofBool f.writesSignal ++ f.writes.bits]).testBit n =
      f.named.getD n false := by
  rw [natOf_pair, BitVec.testBit_toNat]
  simp only [WriteSet.bits, BitVec.getLsbD_append, BitVec.getLsbD_ofBool, BitVec.getLsbD_zero]
  match n with
  | 0 | 1 | 2 | 3 | 4 | 5 | 6 | 7 | 8 => rfl
  | n + 9 => simp [AmendFields.named]

/-- A number field shows its value where it is named, else 0. -/
theorem natOf_two_named (named : Bool) (x : Nat) :
    natOf [BitVec.ofNat 8 ((if named then x else 0) / 256), BitVec.ofNat 8 (if named then x else 0)] =
      if named then x % 65536 else 0 := by
  rw [natOf_two]
  cases named <;> rfl

/-- The credit field shows the credit where it is named, else 0. -/
theorem ofNat_named_credit (named : Bool) (x : Int) :
    BitVec.ofNat 24 ((if named then codeSigned 24 x else 0) % 16777216) =
      if named then BitVec.ofInt 24 x else 0 := by
  cases named
  · rfl
  · exact ofNat_codeSigned x

/-- The byte of a named set. -/
theorem classByte_eq (k : ClassSet) :
    (0#4 ++ bitsOfClasses k : Byte) =
      0#4 ++ BitVec.ofBool k.sc3 ++ BitVec.ofBool k.sc2 ++ BitVec.ofBool k.sc1 ++ BitVec.ofBool k.sc0 := by
  obtain ⟨a, b, c, d⟩ := k
  revert a b c d
  decide

/-! ### The visit (R59, R149) -/

theorem exec_amendVisit {s : State} {asks : PortAsks} {h : Handle} {f : AmendFields} {clamped : Bool}
    (run : s.resetLow = false) (ex : s.executing = .amend h f clamped)
    (grant : s.grants .request asks = true) :
    exec (.amendVisit asks) s = .next ((s.granted .request asks).amendStation h f clamped) := by
  have due : s.executing.visit = some .amend := by rw [ex]; rfl
  have ex' : (s.granted .request asks).executing = .amend h f clamped := ex
  show Host.Outcome.next (s.requestVisit .amend asks _) = _
  rw [State.requestVisit_granted run due grant, ex']

theorem StationRecord.associated_iff (r : StationRecord) :
    r.associated = true ↔ r.state = .active ∨ r.state = .dormant := by
  rw [StationRecord.associated, Bool.or_eq_true, beq_iff_eq, beq_iff_eq]

/-- A station the host may change is written back amended, and the values as written are the response (R149). -/
theorem State.amendStation_writes {s : State} {h : Handle}
    (found : (s.station h).state = .active ∨ (s.station h).state = .dormant) {q : Request}
    {rest : List Request} (head : s.requests = q :: rest) (f : AmendFields) (clamped : Bool) :
    s.amendStation h f clamped =
      (s.writeBack h ((s.station h).amended f)).responded q.kind .ok clamped (amendResponse h f) := by
  have may := (s.station h).associated_iff.mpr found
  have head' : (s.writeBack h ((s.station h).amended f)).requests = q :: rest :=
    (State.writeBack_requests s h _).trans head
  rw [State.amendStation, if_pos may, State.respond_eq head']

theorem State.amendStation_refused {s : State} {h : Handle} (notActive : (s.station h).state ≠ .active)
    (notDormant : (s.station h).state ≠ .dormant) {q : Request} {rest : List Request}
    (head : s.requests = q :: rest) (f : AmendFields) (clamped : Bool) :
    s.amendStation h f clamped = s.responded q.kind .noStation clamped (amendRefused h.val) := by
  have mayNot := (s.station h).associated_iff.not.mpr (not_or.mpr ⟨notActive, notDormant⟩)
  rw [State.amendStation, if_neg mayNot, State.respond_eq head]

/-- A response ends its request beyond the rings as well. -/
theorem State.responded_frame {s t : State} (same : t.beyondRings = s.beyondRings) (kind : Byte)
    (status : Status) (clamped : Bool) (payload : List Byte) :
    (t.responded kind status clamped payload).beyondRings =
      (s.responded kind status clamped payload).beyondRings := by
  show t.beyondRings.responded kind status clamped payload = s.beyondRings.responded kind status clamped payload
  rw [same]

/-- A record written back with its five inputs of eligibility is written only (R16, R65). -/
theorem State.writeBack_same {s : State} {h : Handle} {r : StationRecord}
    (same : sameInputs (s.station h) r = true) : s.writeBack h r = s.setStation h r :=
  if_pos same

/-- An AMEND that names neither classes nor credit leaves the inputs of eligibility (R63). -/
theorem StationRecord.sameInputs_amended (r : StationRecord) {f : AmendFields}
    (classes : f.writes.classes = false) (credit : f.writesCredit = false) :
    sameInputs r (r.amended f) = true := by
  simp [sameInputs, StationRecord.amended, Profile.merge, classes, credit]

/-- Settles O21: the bytes of the AMEND response, and the AMEND visit by the record it finds. -/
theorem amendVisitWritesNamedFields : Obligations.AmendVisitWritesNamedFields := by
  unfold Obligations.AmendVisitWritesNamedFields
  refine ⟨fun h f => ?_, fun s asks h f clamped q rest run ex head grant => ?_⟩
  · intro b w v named
    have bytes : b = _ := amendResponse_bytes h f
    have handle : h.val % 65536 = h.val := Nat.mod_eq_of_lt (by have := h.isLt; omega)
    rw [bytes]
    exact ⟨rfl, (natOf_two _).trans handle, fieldSet_testBit f, rfl,
      congrArg (fun x => if w.classes then x else 0) (classByte_eq v.classes), natOf_two_named _ _,
      natOf_two_named _ _, rfl, rfl, natOf_two_named _ _, rfl,
      (congrArg (BitVec.ofNat 24) (natOf_three _)).trans (ofNat_named_credit _ _)⟩
  · have head' : (s.granted .request asks).requests = q :: rest := head
    dsimp only
    rw [exec_amendVisit run ex grant]
    refine ⟨fun found => ?_, fun notActive notDormant => ?_⟩
    · rw [State.amendStation_writes (s := s.granted .request asks) found head']
      refine ⟨_, rfl, State.responded_frame (State.writeBack_frame _ _ _) _ _ _ _, fun classes credit => ?_⟩
      rw [State.writeBack_same (StationRecord.sameInputs_amended _ classes credit)]
      exact ⟨rfl, rfl, rfl, rfl⟩
    · rw [State.amendStation_refused (s := s.granted .request asks) notActive notDormant head']
      rfl

end Sys2Proof.Machine
end

section
/-!
PROOFS. The walker's visit (O44), by the state of the record it finds: the usage average, the replenishment, the
idle and the cooling countdown (R45 to R47, R49, R116 to R119).
-/

namespace Sys2Proof.Machine

/-! ### The record of an ACTIVE station (R45 to R47, R49, R117) -/

/-- The idle countdown of an ACTIVE record, which makes it DORMANT when it reaches 0 (R7, R117). -/
theorem StationRecord.idled_eq {r : StationRecord} (active : r.state = .active) (idleLimit : Nat) :
    r.idled idleLimit =
      { r with
        idleCountdown := if r.isIdle then r.idleCountdown - 1 else idleLimit
        state := if r.isIdle && decide (r.idleCountdown ≤ 1) then .dormant else .active } := by
  have ends : r.idleCountdown - 1 = 0 ↔ r.idleCountdown ≤ 1 := Nat.sub_eq_zero_iff_le
  unfold StationRecord.idled
  by_cases idle : r.isIdle = true
  · by_cases last : r.idleCountdown ≤ 1
    · simp [idle, last, ends.mpr last]
    · simp [idle, last, ends, active]
  · simp [idle, active]

/-- A record is idle when its backlog and its in-flight set are empty (R117). -/
theorem StationRecord.isIdle_eq (r : StationRecord) :
    r.isIdle = decide (r.backlog = ClassSet.none ∧ r.inFlight = ClassSet.none) := by
  rw [StationRecord.isIdle, Bool.eq_iff_iff, Bool.and_eq_true, beq_iff_eq, beq_iff_eq, decide_eq_true_eq]

/-- The credit that a walker visit leaves: paid unless its group is held or it has reached the ceiling (R45 to R47,
R119). -/
def StationRecord.walkedCredit (r : StationRecord) (t : Settings) (held : Bool) : Int :=
  let average := newAverage r.average r.usage t.avgShift
  let amount := penalised (replenishAmount t.quantum r.profile.weight) r.profile.softCap average t.penaltyShift
  if held = false ∧ r.credit < r.profile.ceiling then min (r.credit + amount) r.profile.ceiling else r.credit

theorem StationRecord.walkedCredit_held (r : StationRecord) (t : Settings) :
    r.walkedCredit t true = r.credit := by
  rw [StationRecord.walkedCredit]
  exact if_neg fun pays => Bool.noConfusion pays.1

/-- Outside a held group, part (2) pays on the average that part (1) has written. -/
theorem StationRecord.walkedCredit_paid (r : StationRecord) (t : Settings) :
    r.walkedCredit t false =
      ((r.averaged t.avgShift).replenished t.quantum t.penaltyShift).credit :=
  if_congr (and_iff_right rfl) rfl rfl

/-- Parts (1) to (3) on an ACTIVE record, field by field (R116). -/
theorem StationRecord.walkedActive_eq {r : StationRecord} (active : r.state = .active) (t : Settings)
    (held : Bool) :
    r.walkedActive t held =
      { r with
        average := newAverage r.average r.usage t.avgShift, usage := 0
        credit := r.walkedCredit t held
        idleCountdown := if r.isIdle then r.idleCountdown - 1 else t.idleLimit
        state := if r.isIdle && decide (r.idleCountdown ≤ 1) then .dormant else .active } := by
  cases held with
  | true =>
    rw [StationRecord.walkedCredit_held]
    exact StationRecord.idled_eq (r := r.averaged t.avgShift) active t.idleLimit
  | false =>
    rw [StationRecord.walkedCredit_paid]
    exact StationRecord.idled_eq
      (r := (r.averaged t.avgShift).replenished t.quantum t.penaltyShift) active t.idleLimit

/-! ### The visit (R110, R116, R118) -/

theorem exec_walkerVisit {s : State} {asks : PortAsks} {p : WalkerStep} (run : s.resetLow = false)
    (inStep : s.walker.step = some p) (grant : s.grants .walker asks = true) :
    exec (.walkerVisit asks) s = .next ((s.granted .walker asks).walk1 p) := by
  have inStep' : (s.granted .walker asks).walker.step = some p := inStep
  have due : s.walker.step.isSome = true := by rw [inStep]; rfl
  show Host.Outcome.next (s.visit .walker asks _ _) = _
  rw [State.visit_granted run due grant, inStep']

/-- A FREE or FORMING record is passed over (R116). -/
theorem State.walkRecord_passes {s : State} {h : Handle}
    (found : (s.station h).state = .free ∨ (s.station h).state = .forming) : s.walkRecord h = s := by
  unfold State.walkRecord
  dsimp only
  rcases found with free | forming
  · rw [free]
  · rw [forming]

theorem State.walkRecord_active {s : State} {h : Handle} (found : (s.station h).state = .active) :
    s.walkRecord h = s.writeBack h ((s.station h).walkedActive s.settings (s.settings.holds h)) := by
  unfold State.walkRecord
  dsimp only
  rw [found]

/-- A DORMANT or DRAINING record is averaged, which leaves the inputs of its eligibility (R49, R63, R116). -/
theorem State.walkRecord_averages {s : State} {h : Handle}
    (found : (s.station h).state = .dormant ∨ (s.station h).state = .draining) :
    s.walkRecord h = s.setStation h ((s.station h).averaged s.settings.avgShift) := by
  have same : sameInputs (s.station h) ((s.station h).averaged s.settings.avgShift) = true := by
    simp [sameInputs, StationRecord.averaged]
  rw [← State.writeBack_same same]
  unfold State.walkRecord
  dsimp only
  rcases found with dormant | draining
  · rw [dormant]
  · rw [draining]

/-- A COOLING record counts down (R118). -/
theorem State.walkRecord_cools {s : State} {h : Handle} (found : (s.station h).state = .cooling)
    (left : 1 < (s.station h).coolCountdown) :
    s.walkRecord h =
      s.setStation h { s.station h with coolCountdown := (s.station h).coolCountdown - 1 } := by
  unfold State.walkRecord
  dsimp only
  rw [found]
  exact if_neg (Nat.sub_ne_zero_of_lt left)

/-- A COOLING record whose countdown reaches 0 becomes FREE at the tail of the free list (R10, R118). -/
theorem State.walkRecord_frees {s : State} {h : Handle} (found : (s.station h).state = .cooling)
    (last : (s.station h).coolCountdown ≤ 1) : s.walkRecord h = s.freeAtTail h := by
  unfold State.walkRecord
  dsimp only
  rw [found]
  exact if_pos (Nat.sub_eq_zero_of_le last)

/-- A record freed into an empty free list is its head and its tail (R11 (c)). -/
theorem State.freeAtTail_empty {s : State} (empty : s.freeTail = none) (h : Handle) :
    s.freeAtTail h =
      { s.setStation h StationRecord.cleared with freeHead := some h, freeTail := some h } := by
  unfold State.freeAtTail
  dsimp only
  rw [State.setStation_freeTail, empty]

/-- A record freed behind the tail is linked to it (R11 (c)). -/
theorem State.freeAtTail_behind {s : State} {h tail : Handle} (isTail : s.freeTail = some tail)
    (other : tail ≠ h) :
    s.freeAtTail h =
      { (s.setStation h StationRecord.cleared).setStation tail
          { s.station tail with nextFree := some h } with
        freeTail := some h } := by
  unfold State.freeAtTail
  dsimp only
  rw [State.setStation_freeTail, isTail]
  dsimp only
  rw [State.setNextFree_eq, State.station_setStation_ne s other]

/-- Beyond the rings, a walker visit that writes a record back changes that record and the walker (R110). -/
theorem State.writeBack_walker_frame (s : State) (h : Handle) (r : StationRecord) (p : WalkerStep) :
    State.beyondRings { s.writeBack h r with walker := (s.writeBack h r).walker.advance p } =
      State.beyondRings
        { s with walker := s.walker.advance p, stations := s.stations.set h.val r } := by
  rw [State.writeBack_walker]
  exact congrArg (fun u : State => { u with walker := s.walker.advance p }) (State.writeBack_frame s h r)

/-- Settles O44: a walker visit, by the state of the record it finds. -/
theorem walkerVisitWorksRecord : Obligations.WalkerVisitWorksRecord := by
  unfold Obligations.WalkerVisitWorksRecord
  intro s asks p run inStep grant
  dsimp only
  rw [exec_walkerVisit run inStep grant, State.walk1]
  have record : (s.granted .walker asks).station p.next = s.station p.next := rfl
  refine ⟨fun passed => ?_, fun active => ⟨_, rfl, ?_⟩, fun averaged => ?_, fun cooling left => ?_,
    fun cooling last empty => ?_, fun tail cooling last isTail other => ?_⟩
  · rw [State.walkRecord_passes (s := s.granted .walker asks) passed]
    rfl
  · rw [State.walkRecord_active (s := s.granted .walker asks) active, State.writeBack_walker_frame,
      record, StationRecord.walkedActive_eq active, StationRecord.isIdle_eq]
    rfl
  · rw [State.walkRecord_averages (s := s.granted .walker asks) averaged]
    rfl
  · rw [State.walkRecord_cools (s := s.granted .walker asks) cooling left]
    rfl
  · rw [State.walkRecord_frees (s := s.granted .walker asks) cooling last,
      State.freeAtTail_empty (s := s.granted .walker asks) empty]
    rfl
  · rw [State.walkRecord_frees (s := s.granted .walker asks) cooling last,
      State.freeAtTail_behind (s := s.granted .walker asks) isTail other]
    rfl

end Sys2Proof.Machine
end

section
/-!
PROOFS. The first pop visit (O35): the entry claimed, what the visit leaves of the line and the ring, and the three
ends of it: a further member sought, the award issued, or its issuing step still to come (R51, R52, R66, R69, R74,
R84, R87 to R89, R91).
-/

namespace Sys2Proof.Machine

/-! ### The lowest-numbered FREE entry (R87) -/

/-- In an ascending list, the search finds an element that passes when no lower one does. -/
theorem find?_lowest {α : Type} [LT α] {p : α → Bool} {l : List α} (ascending : l.Pairwise (· < ·))
    {x : α} (isIn : x ∈ l) (passes : p x = true) (lowest : ∀ y, y < x → p y = false) :
    l.find? p = some x := by
  induction l with
  | nil => exact absurd isIn List.not_mem_nil
  | cons y rest ih =>
    obtain ⟨below, ascending'⟩ := List.pairwise_cons.mp ascending
    rcases List.mem_cons.mp isIn with rfl | later
    · exact List.find?_cons_of_pos passes
    · rw [List.find?_cons_of_neg (by rw [lowest y (below x later)]; exact Bool.false_ne_true)]
      exact ih ascending' later

theorem allAwardIds_ascending : allAwardIds.Pairwise (· < ·) := by decide

theorem mem_allAwardIds (id : AwardId) : id ∈ allAwardIds := by
  revert id
  decide

theorem State.lowestFreeEntry_eq {s : State} {id : AwardId} (isFree : (s.entry id).award = none)
    (lowest : ∀ lower : AwardId, lower < id → (s.entry lower).award ≠ none) :
    s.lowestFreeEntry = some id :=
  find?_lowest allAwardIds_ascending (mem_allAwardIds id) (Option.isNone_iff_eq_none.mpr isFree)
    fun lower lt => by
      rw [Bool.eq_false_iff, ne_eq, Option.isNone_iff_eq_none]
      exact lowest lower lt

/-! ### A pop raises no flag (R69, R74) -/

theorem State.unlinkOverflow_flags (s : State) (c : ServiceClass) (h : Handle) (p : OverflowPlace) :
    (s.unlinkOverflow c h p).flags = s.flags := by
  unfold State.unlinkOverflow
  dsimp only
  split <;> split <;> rfl

theorem State.promote_flags (s : State) (c : ServiceClass) : (s.promote c).flags = s.flags := by
  unfold State.promote
  split
  · split
    · rfl
    · next h _ =>
      split
      · rfl
      · next p _ => exact s.unlinkOverflow_flags c h p
  · rfl

theorem State.advanceHead_flags (s : State) (c : ServiceClass) : (s.advanceHead c).flags = s.flags := by
  rw [State.advanceHead, State.promote_flags, State.setRing_flags]

theorem State.discardHoles_flags (fuel : Nat) (s : State) (c : ServiceClass) :
    (State.discardHoles fuel s c).flags = s.flags := by
  induction fuel generalizing s with
  | zero => rfl
  | succ n ih =>
    unfold State.discardHoles
    split
    · rfl
    · split
      · rfl
      · rw [ih, State.advanceHead_flags]

theorem State.popHead_flags (s : State) (c : ServiceClass) (h : Handle) :
    (s.popHead c h).flags = s.flags :=
  State.advanceHead_flags s c

/-! ### States with one view of a class (R66, R71) -/

section View
variable {s t u : State} {c : ServiceClass}

theorem State.ListedAs.of_view {members : List Handle} (law : s.ListedAs c members)
    (same : t.view c = s.view c) : t.ListedAs c members := by
  have list : t.overflowList c = s.overflowList c := congrArg ClassView.list same
  have place : t.placeOf c = s.placeOf c := congrArg ClassView.place same
  exact ⟨law.nodup, by rw [list]; exact law.head, by rw [list]; exact law.tail,
    by rw [list]; exact law.length, by rw [place]; exact law.member, by rw [place]; exact law.linked⟩

theorem State.InLine.of_view {line : List Handle} (inLine : s.InLine c line) (same : t.view c = s.view c) :
    t.InLine c line := by
  have ring : t.ring c = s.ring c := congrArg ClassView.ring same
  obtain ⟨members, listed, isLine, full⟩ := inLine
  exact ⟨members, listed.of_view same, by rw [ring]; exact isLine, by rw [ring]; exact full⟩

/-- How far the head has gone from a state is how far it has gone from another with the same view. -/
theorem State.HeadAdvances.from_view {n : Nat} (law : s.HeadAdvances u c n) (same : s.view c = t.view c) :
    t.HeadAdvances u c n := by
  have ring : s.ring c = t.ring c := congrArg ClassView.ring same
  have head := law.head
  rw [ring] at head
  refine ⟨head, fun members listed => ?_, law.slots⟩
  have promoted := law.promoted members (listed.of_view same)
  rwa [ring] at promoted

end View

/-! ### The first station in line, popped (R69) -/

/-- The state after the pop of a station, the holes ahead of it discarded. -/
def State.popped (s : State) (c : ServiceClass) (h : Handle) : State := (s.clearHead c).popHead c h

/-- Beyond the rings, the class joins the in-flight set of the station popped, and nothing else changes. -/
theorem State.popped_frame (s : State) (c : ServiceClass) (h : Handle) :
    (s.popped c h).beyondRings =
      (s.setStation h
        { s.station h with inFlight := (s.station h).inFlight.set c true }).beyondRings := by
  refine (State.popHead_frame _ c h).trans (State.setStation_frame (State.clearHead_frame s c) h ?_)
  exact congrArg (fun r : StationRecord => { r with inFlight := r.inFlight.set c true })
    (State.unplaced_of_frame (State.clearHead_frame s c) h)

/-- Beyond the rings, a pop that claims an entry and sets the item changes those and the in-flight set. -/
theorem State.popped_claim_frame (s : State) (c : ServiceClass) (h : Handle) (awards : Vector AwardEntry 16)
    (item : EngineItem) :
    State.beyondRings { s.popped c h with awards := awards, engine := item } =
      State.beyondRings
        { s with
          stations := s.stations.set h.val
            { s.station h with inFlight := (s.station h).inFlight.set c true }
          awards := awards, engine := item } :=
  congrArg (fun u : State => { u with awards := awards, engine := item }) (s.popped_frame c h)

theorem State.popped_flags (s : State) (c : ServiceClass) (h : Handle) :
    (s.popped c h).flags = s.flags := by
  rw [State.popped, State.popHead_flags]
  exact State.discardHoles_flags 256 s c

theorem State.popped_waiting (s : State) (c : ServiceClass) (h : Handle) :
    (s.popped c h).waiting = s.waiting :=
  (State.advanceHead_waiting _ c).trans (State.clearHead_waiting s c)

/-- The station popped has no slot. -/
theorem State.popped_ringSlot (s : State) (c : ServiceClass) (h : Handle) :
    ((s.popped c h).station h).ringSlot.get c = none := by
  rw [State.popped, State.popHead, State.changeStation_eq, State.station_setStation_same]
  exact PerClass.get_set_same ..

/-- A pop leaves the other classes. -/
theorem State.view_popped_ne (s : State) {c d : ServiceClass} (ne : d ≠ c) (h : Handle) :
    (s.popped c h).view d = s.view d := by
  rw [State.popped, State.view_popHead, if_neg ne, State.view_clearHead_ne s ne]

/-- The station popped was the first in line, and the others keep their order. -/
theorem State.inLine_popped {s : State} {c : ServiceClass} (law : ∀ d, s.ClassLawful d) {h : Handle}
    (first : s.firstInLine c = some h) {line : List Handle} (inLine : s.InLine c line) :
    ∃ rest, line = h :: rest ∧ (s.popped c h).InLine c rest := by
  have head := (State.clearHead_head law).1.trans first
  have popped := State.inLine_popHead (State.clearHead_lawful c law) head (State.inLine_clearHead law inLine)
  rwa [if_pos rfl] at popped

/-! ### The entry claimed, and the end of the visit (R51, R52, R84, R87 to R89, R91) -/

/-- An entry claimed for an ASK, its award issued or not (R84, R87, R89). -/
def AwardEntry.claimed (e : AwardEntry) (a : AskFields) (h : Handle) (issue : Option Issue) : AwardEntry :=
  { generation := e.generation + 1
    award := some { askTag := a.tag, cls := a.cls, issue := issue, members := [⟨h, true⟩] } }

/-- What the first pop visit writes into the award it claims: the duration and the deadline, where it ends the
selection and issues the award at once (R52, R89). -/
def State.firstIssue (s : State) (defers : Bool) (a : AskFields) (first : StationRecord) : Option Issue :=
  if a.seeksMore first || defers then none
  else some ⟨awardDuration a.txop [allowance first],
    s.timebase + BitVec.ofNat 32 s.settings.awardTimeout⟩

/-- The engine's item after the first pop visit (R88, R89, R91). -/
def State.firstItem (s : State) (defers : Bool) (a : AskFields) (id : AwardId) (h : Handle)
    (first : StationRecord) : EngineItem :=
  if a.seeksMore first then .askMore a id [allowance first]
  else if defers then .issuing a id [allowance first]
  else .answer (.award a.tag id ((s.entry id).generation + 1) a.cls
    (awardDuration a.txop [allowance first]) [h])

/-- A further member is sought: nothing is issued yet (R88). -/
theorem State.first_seeks {a : AskFields} {first : StationRecord} (seeks : a.seeksMore first = true)
    (s : State) (defers : Bool) (id : AwardId) (h : Handle) :
    s.firstIssue defers a first = none ∧
      s.firstItem defers a id h first = .askMore a id [allowance first] := by
  simp only [State.firstIssue, State.firstItem, seeks, Bool.true_or, if_true, and_self]

/-- Member selection ends and its issuing step is still to come (R91). -/
theorem State.first_defers {a : AskFields} {first : StationRecord} (ends : a.seeksMore first = false)
    (s : State) (id : AwardId) (h : Handle) :
    s.firstIssue true a first = none ∧
      s.firstItem true a id h first = .issuing a id [allowance first] := by
  simp only [State.firstIssue, State.firstItem, ends, Bool.or_true, if_true, Bool.false_eq_true, if_false,
    and_self]

/-- Member selection ends and the award is issued (R52, R89). -/
theorem State.first_issues {a : AskFields} {first : StationRecord} (ends : a.seeksMore first = false)
    (s : State) (id : AwardId) (h : Handle) :
    s.firstIssue false a first = some ⟨awardDuration a.txop [allowance first],
        s.timebase + BitVec.ofNat 32 s.settings.awardTimeout⟩ ∧
      s.firstItem false a id h first = .answer (.award a.tag id ((s.entry id).generation + 1) a.cls
        (awardDuration a.txop [allowance first]) [h]) := by
  simp only [State.firstIssue, State.firstItem, ends, Bool.or_false, Bool.false_eq_true, if_false, and_self]

theorem State.issueAward_open {s : State} {id : AwardId} {w : OpenAward}
    (isOpen : (s.entry id).award = some w) (a : AskFields) (allowances : List Int) :
    s.issueAward a id allowances =
      { s with
        awards := s.awards.set id.val
          { s.entry id with award := some { w with issue := some ⟨awardDuration a.txop allowances,
            s.timebase + BitVec.ofNat 32 s.settings.awardTimeout⟩ } }
        engine := .answer (.award w.askTag id (s.entry id).generation w.cls
          (awardDuration a.txop allowances) (w.members.map (·.handle))) } := by
  rw [State.issueAward, isOpen]
  rfl

/-- A pop leaves the entries. -/
theorem State.entry_popHead (s : State) (c : ServiceClass) (h : Handle) (id : AwardId) :
    (s.popHead c h).entry id = s.entry id := by
  simp only [State.entry, State.popHead_awards]

theorem State.claimEntry_popHead (s : State) (a : AskFields) (id : AwardId) (h : Handle) :
    (s.popHead a.cls h).claimEntry id a h =
      { s.popHead a.cls h with awards := s.awards.set id.val ((s.entry id).claimed a h none) } := by
  rw [State.claimEntry, State.entry_popHead, State.setEntry, State.popHead_awards]
  rfl

/-- The first pop visit pops its station, claims the entry and sets the item. -/
theorem State.popFirst_eq (s : State) (defers : Bool) (a : AskFields) (id : AwardId) (h : Handle) :
    s.popFirst defers a id h =
      { s.popHead a.cls h with
        awards := s.awards.set id.val
          ((s.entry id).claimed a h (s.firstIssue defers a (s.station h)))
        engine := s.firstItem defers a id h (s.station h) } := by
  unfold State.popFirst
  dsimp only
  rw [State.claimEntry_popHead]
  cases seeks : a.seeksMore (s.station h) with
  | true =>
    obtain ⟨issue, next⟩ := State.first_seeks seeks s defers id h
    rw [if_pos rfl, issue, next]
  | false =>
    rw [if_neg Bool.false_ne_true]
    cases defers with
    | true =>
      obtain ⟨issue, next⟩ := State.first_defers seeks s id h
      rw [State.endSelection, if_pos rfl, issue, next]
    | false =>
      obtain ⟨issue, next⟩ := State.first_issues seeks s id h
      have claimed : (State.entry { s.popHead a.cls h with
          awards := s.awards.set id.val ((s.entry id).claimed a h none) } id) =
          (s.entry id).claimed a h none := Vector.getElem_set_self _
      rw [State.endSelection, if_neg Bool.false_ne_true,
        State.issueAward_open (congrArg AwardEntry.award claimed), claimed, issue, next, Vector.set_set,
        State.popHead_timebase, State.popHead_settings]
      rfl

/-! ### The visit -/

theorem exec_popVisit {s : State} {pop : PopOperands} {a : AskFields} (run : s.resetLow = false)
    (item : s.engine = .askFirst a) (grant : s.grants .award pop.asks = true) :
    exec (.popVisit pop) s = .next ((s.granted .award pop.asks).popVisit pop.defers a) := by
  have due : s.engine.visit = some .pop := by rw [item]; rfl
  have item' : (s.granted .award pop.asks).engine = .askFirst a := item
  show Host.Outcome.next (s.engineVisit .pop pop.asks _) = _
  rw [State.engineVisit_granted run due grant, item']

/-- A pop visit with a station in line pops the first, claims the lowest FREE entry and sets the item; what it
records of the station is what the record held before the holes were discarded. -/
theorem State.popVisit_takes {s : State} (law : ∀ d, s.ClassLawful d) {a : AskFields} {h : Handle}
    (first : s.firstInLine a.cls = some h) {id : AwardId} (lowest : s.lowestFreeEntry = some id)
    (defers : Bool) :
    s.popVisit defers a =
      { s.popped a.cls h with
        awards := s.awards.set id.val
          ((s.entry id).claimed a h (s.firstIssue defers a (s.station h)))
        engine := s.firstItem defers a id h (s.station h) } := by
  have head := (State.clearHead_head law).1.trans first
  have entry : ∀ k, (s.clearHead a.cls).entry k = s.entry k :=
    State.entry_of_frame (State.clearHead_frame s a.cls)
  have lowest' : (s.clearHead a.cls).lowestFreeEntry = some id := by
    simp only [State.lowestFreeEntry, entry]
    exact lowest
  have record := State.unplaced_of_frame (State.clearHead_frame s a.cls) h
  have allowed : allowance ((s.clearHead a.cls).station h) = allowance (s.station h) :=
    (congrArg allowance record :)
  have seeks : a.seeksMore ((s.clearHead a.cls).station h) = a.seeksMore (s.station h) :=
    (congrArg a.seeksMore record :)
  unfold State.popVisit
  dsimp only
  rw [head, lowest']
  dsimp only
  rw [State.popFirst_eq, State.firstIssue, State.firstItem, allowed, seeks, entry]
  simp only [State.clearHead_awards, State.clearHead_timebase, State.clearHead_settings]
  rfl

/-- Further members are sought where the maximum, the ASK and the station allow it (R88). -/
theorem AskFields.seeksMore_iff (a : AskFields) (first : StationRecord) :
    a.seeksMore first = true ↔
      1 < max 1 (min a.maximum 8) ∧ a.multiUser = true ∧ first.descriptor.multiUser = true := by
  rw [AskFields.seeksMore, Bool.and_eq_true, Bool.and_eq_true, decide_eq_true_eq, and_assoc]
  rfl

/-- Settles O35: the first pop visit with a station in line. -/
theorem popVisitTakesFirstInLine : Obligations.PopVisitTakesFirstInLine := by
  unfold Obligations.PopVisitTakesFirstInLine
  intro s pop a id h run item grant rings first isFree lowest
  dsimp only
  have law := (rings.granted .award pop.asks).classes
  have first' : (s.granted .award pop.asks).firstInLine a.cls = some h := first
  have lowest' : (s.granted .award pop.asks).lowestFreeEntry = some id :=
    State.lowestFreeEntry_eq (s := s.granted .award pop.asks) isFree lowest
  have record : (s.granted .award pop.asks).station h = s.station h := rfl
  rw [exec_popVisit run item grant, State.popVisit_takes law first' lowest']
  refine ⟨_, rfl, State.popped_ringSlot (s.granted .award pop.asks) a.cls h, fun line inLine => ?_, ?_,
    fun c ne => ?_, State.popped_waiting (s.granted .award pop.asks) a.cls h,
    State.popped_flags (s.granted .award pop.asks) a.cls h, fun seeks => ?_,
    fun ends => ⟨fun issues => ?_, fun defers => ?_⟩⟩
  · obtain ⟨rest, isLine, popped⟩ := State.inLine_popped law first'
      (State.InLine.of_view (t := s.granted .award pop.asks) inLine rfl)
    exact ⟨rest, isLine, popped.of_view rfl⟩
  · exact ((State.popFirst_advances law first').from_view (t := s) rfl).ofRings rfl rfl rfl
  · have other := (s.granted .award pop.asks).view_popped_ne ne h
    exact ⟨congrArg ClassView.ring other, congrArg ClassView.list other, fun k =>
      ⟨congrFun (congrArg ClassView.slot other) k, congrFun (congrArg ClassView.place other) k⟩⟩
  all_goals rw [State.popped_claim_frame]
  · have more := (a.seeksMore_iff (s.station h)).mpr seeks
    obtain ⟨issue, next⟩ := State.first_seeks more (s.granted .award pop.asks) pop.defers id h
    rw [record, issue, next]
    rfl
  · have last := Bool.eq_false_iff.mpr ((a.seeksMore_iff (s.station h)).not.mpr ends)
    obtain ⟨issue, next⟩ := State.first_issues last (s.granted .award pop.asks) id h
    rw [record, issues, issue, next]
    rfl
  · have last := Bool.eq_false_iff.mpr ((a.seeksMore_iff (s.station h)).not.mpr ends)
    obtain ⟨issue, next⟩ := State.first_defers last (s.granted .award pop.asks) id h
    rw [record, defers, issue, next]
    rfl

end Sys2Proof.Machine
end

section
/-!
PROOFS. What a visit makes of the rings, said once (O47, O48, O56): a change that the ring laws do not see, and a
visit that settles one station's place in every class by what the station has become (R63, R64, R65, R72).
-/

namespace Sys2Proof.Machine

/-! ### Changes that the ring laws do not see -/

/-- The record has the same places, and is eligible and waiting in the same classes. -/
structure StationRecord.Alike (r q : StationRecord) : Prop where
  slot : ∀ c, q.ringSlot.get c = r.ringSlot.get c
  place : ∀ c, q.overflow.get c = r.overflow.get c
  eligible : ∀ c, q.eligible c = r.eligible c
  isWaiting : ∀ c, q.isWaiting c = r.isWaiting c

/-- Only an ACTIVE record is eligible or waiting (R63). -/
theorem StationRecord.out_of_inactive {r : StationRecord} (idle : r.state ≠ .active) (c : ServiceClass) :
    r.eligible c = false ∧ r.isWaiting c = false := by
  simp [StationRecord.eligible, StationRecord.isWaiting, StationRecord.ready, idle]

namespace StationRecord.Alike

variable {r q p : StationRecord}

theorem refl (r : StationRecord) : r.Alike r :=
  ⟨fun _ => rfl, fun _ => rfl, fun _ => rfl, fun _ => rfl⟩

theorem trans (a : r.Alike q) (b : q.Alike p) : r.Alike p :=
  ⟨fun c => (b.slot c).trans (a.slot c), fun c => (b.place c).trans (a.place c),
    fun c => (b.eligible c).trans (a.eligible c), fun c => (b.isWaiting c).trans (a.isWaiting c)⟩

/-- A change of the links is not seen. -/
theorem of_links (same : ({ q with nextFree := none, nextInBucket := none } : StationRecord) =
    { r with nextFree := none, nextInBucket := none }) : r.Alike q := by
  have bare : ∀ p : StationRecord,
      p.Alike { p with nextFree := none, nextInBucket := none } := fun _ =>
    ⟨fun _ => rfl, fun _ => rfl, fun _ => rfl, fun _ => rfl⟩
  have a := bare r
  have b := bare q
  rw [same] at b
  exact ⟨fun c => (b.slot c).symm.trans (a.slot c), fun c => (b.place c).symm.trans (a.place c),
    fun c => (b.eligible c).symm.trans (a.eligible c),
    fun c => (b.isWaiting c).symm.trans (a.isWaiting c)⟩

/-- A record that is not ACTIVE before and after is out of every class. -/
theorem of_inactive (was : r.state ≠ .active) (is : q.state ≠ .active)
    (slot : ∀ c, q.ringSlot.get c = r.ringSlot.get c)
    (place : ∀ c, q.overflow.get c = r.overflow.get c) : r.Alike q :=
  ⟨slot, place,
    fun c => (StationRecord.out_of_inactive is c).1.trans (StationRecord.out_of_inactive was c).1.symm,
    fun c => (StationRecord.out_of_inactive is c).2.trans (StationRecord.out_of_inactive was c).2.symm⟩

end StationRecord.Alike

/-- The states have the same rings, lists and waiting counts, and records that the ring laws do not tell
apart. -/
structure State.Alike (s t : State) : Prop where
  records : ∀ k, (s.station k).Alike (t.station k)
  rings : t.rings = s.rings
  overflows : t.overflows = s.overflows
  waiting : t.waiting = s.waiting
  overflow : t.flags.overflow = s.flags.overflow

namespace State.Alike

variable {s t u : State}

theorem trans (a : s.Alike t) (b : t.Alike u) : s.Alike u :=
  ⟨fun k => (a.records k).trans (b.records k), b.rings.trans a.rings, b.overflows.trans a.overflows,
    b.waiting.trans a.waiting, b.overflow.trans a.overflow⟩

/-- A change outside the station table and the rings. -/
theorem of_fields (stations : t.stations = s.stations) (rings : t.rings = s.rings)
    (overflows : t.overflows = s.overflows) (waiting : t.waiting = s.waiting)
    (overflow : t.flags.overflow = s.flags.overflow) : s.Alike t := by
  refine ⟨fun k => ?_, rings, overflows, waiting, overflow⟩
  rw [State.station, State.station, stations]
  exact .refl _

theorem refl (s : State) : s.Alike s := .of_fields rfl rfl rfl rfl rfl

theorem setStation (s : State) {h : Handle} {r : StationRecord} (alike : (s.station h).Alike r) :
    s.Alike (s.setStation h r) := by
  refine ⟨fun k => ?_, rfl, rfl, rfl, rfl⟩
  rw [State.station_setStation]
  split
  · next own => exact own ▸ alike
  · exact .refl _

theorem view (a : s.Alike t) (c : ServiceClass) : t.view c = s.view c :=
  ClassView.ext_fun (by simp only [State.view, State.ring, a.rings])
    (by simp only [State.view, State.overflowList, a.overflows])
    (fun k => (a.records k).slot c) fun k => (a.records k).place c

/-- The ring laws do not see the change. -/
theorem lawful (a : s.Alike t) {c : ServiceClass} (law : s.ClassLawful c) : t.ClassLawful c := by
  refine law.transfer (a.view c) (fun k => (a.records k).eligible c) (by rw [a.waiting]) ?_
  simp only [State.countWaiting, (a.records _).isWaiting c]

theorem granted (s : State) (r : Requester) (asks : PortAsks) : s.Alike (s.granted r asks) :=
  .of_fields rfl rfl rfl rfl rfl

theorem respond (s : State) (status : Status) (clamped : Bool) (payload : List Byte) :
    s.Alike (s.respond status clamped payload) := by
  unfold State.respond
  split <;> exact .of_fields rfl rfl rfl rfl rfl

theorem raiseIf (s : State) (b : Bool) {f : Flag} (other : f ≠ .overflow) : s.Alike (s.raiseIf b f) := by
  cases b
  · exact .refl s
  · cases f with
    | overflow => exact absurd rfl other
    | _ => exact .of_fields rfl rfl rfl rfl rfl

theorem releaseMember (s : State) (id : AwardId) (h : Handle) : s.Alike (s.releaseMember id h) := by
  unfold State.releaseMember
  split <;> exact .of_fields rfl rfl rfl rfl rfl

/-- The COOLING of a DRAINING record: neither state is eligible or waiting (R9, R63). -/
theorem drained (s : State) (h : Handle) : s.Alike (s.drained h) := by
  unfold State.drained
  dsimp only
  split
  · next drains =>
    refine .setStation s (.of_inactive ?_ ?_ (fun _ => rfl) fun _ => rfl)
    · rw [drains.1]
      decide
    · simp
  · exact .refl s

theorem enterIndex (s : State) (h : Handle) : s.Alike (s.enterIndex h) := by
  refine ⟨fun k => ?_, rfl, rfl, rfl, rfl⟩
  rw [State.enterIndex_station]
  split
  · next own =>
    rw [own]
    exact .of_links rfl
  · exact .refl _

theorem leaveIndex (s : State) (h : Handle) : s.Alike (s.leaveIndex h) := by
  have frame := s.leaveIndex_frame h
  refine ⟨fun k => .of_links ?_, (congrArg State.rings frame :), (congrArg State.overflows frame :),
    (congrArg State.waiting frame :), (congrArg (fun u : State => u.flags.overflow) frame :)⟩
  exact congrArg (fun r : StationRecord => { r with nextFree := none }) (s.leaveIndex_content h k)

theorem setNextFree (s : State) (h : Handle) (x : Option Handle) : s.Alike (s.setNextFree h x) := by
  rw [State.setNextFree_eq]
  exact .setStation s (.of_links rfl)

theorem unlinkFree (s : State) (h : Handle) : s.Alike (s.unlinkFree h) := by
  have ends : ∀ (u : State) (head tail : Option Handle),
      u.Alike { u with freeHead := head, freeTail := tail } := fun _ _ _ =>
    .of_fields rfl rfl rfl rfl rfl
  unfold State.unlinkFree
  dsimp only
  split
  · exact (State.Alike.setNextFree s _ _).trans (ends _ _ _)
  · split <;> exact ends s _ _

/-- A FREE record taken for an ADMIT holds no place before and after (R18). -/
theorem formed {h : Handle} (free : (s.station h).state = .free) (d : Descriptor) :
    s.Alike ((s.takeFree h).changeStation h fun r => { r with state := .forming, descriptor := d }) := by
  refine ⟨fun k => ?_, rfl, rfl, rfl, rfl⟩
  rw [State.station_formed]
  split
  · next own =>
    rw [own]
    refine .of_inactive ?_ (by simp) (fun _ => rfl) fun _ => rfl
    rw [free]
    decide
  · exact .refl _

end State.Alike

/-- A station eligible in no class has no place (R65). -/
theorem State.unplaced_of_out {s : State} {c : ServiceClass} (law : s.ClassLawful c) {h : Handle}
    (out : (s.station h).eligible c = false) :
    (s.station h).ringSlot.get c = none ∧ (s.station h).overflow.get c = none := by
  have none_ := mt (law.places h).mpr (by simp [out])
  simpa only [not_or, Option.not_isSome_iff_eq_none] using none_

namespace State.Alike

variable {s : State}

/-- A record that is not ACTIVE holds no place, and may be cleared. -/
theorem cleared (law : ∀ c, s.ClassLawful c) {h : Handle} (idle : (s.station h).state ≠ .active)
    (x : Option Handle) : (s.station h).Alike { StationRecord.cleared with nextFree := x } := by
  have unplaced := fun c => State.unplaced_of_out (law c) (StationRecord.out_of_inactive idle c).1
  refine .of_inactive idle (by simp [StationRecord.cleared]) (fun c => ?_) fun c => ?_
  · rw [(unplaced c).1]
    exact PerClass.get_const none c
  · rw [(unplaced c).2]
    exact PerClass.get_const none c

theorem freeAtHead (law : ∀ c, s.ClassLawful c) {h : Handle} (idle : (s.station h).state ≠ .active) :
    s.Alike (s.freeAtHead h) :=
  (State.Alike.setStation s (cleared law idle s.freeHead)).trans (.of_fields rfl rfl rfl rfl rfl)

theorem freeAtTail (law : ∀ c, s.ClassLawful c) {h : Handle} (idle : (s.station h).state ≠ .active) :
    s.Alike (s.freeAtTail h) := by
  have freed := State.Alike.setStation s (cleared law idle none)
  unfold State.freeAtTail
  dsimp only
  split
  · exact freed.trans (.of_fields rfl rfl rfl rfl rfl)
  · exact (freed.trans (.setNextFree _ _ _)).trans (.of_fields rfl rfl rfl rfl rfl)

theorem freeInOrder (law : ∀ c, s.ClassLawful c) {h : Handle} (idle : (s.station h).state ≠ .active) :
    s.Alike (s.freeInOrder h) := by
  unfold State.freeInOrder
  split
  · exact freeAtHead law idle
  · exact ((State.Alike.setStation s (cleared law idle _)).trans (.setNextFree _ _ _)).trans
      (.of_fields rfl rfl rfl rfl rfl)

end State.Alike

namespace State.Alike

variable (s : State)

theorem engine (e : EngineItem) : s.Alike { s with engine := e } := .of_fields rfl rfl rfl rfl rfl

theorem executing (e : Execution) : s.Alike { s with executing := e } := .of_fields rfl rfl rfl rfl rfl

theorem setEntry (id : AwardId) (e : AwardEntry) : s.Alike (s.setEntry id e) :=
  .of_fields rfl rfl rfl rfl rfl

theorem appendMember (id : AwardId) (h : Handle) : s.Alike (s.appendMember id h) := by
  unfold State.appendMember
  split
  · exact .refl s
  · exact .setEntry s id _

theorem issueAward (a : AskFields) (id : AwardId) (allowances : List Int) :
    s.Alike (s.issueAward a id allowances) := by
  unfold State.issueAward
  split
  · exact .refl s
  · exact (State.Alike.setEntry s id _).trans (.engine _ _)

theorem endSelection (defers : Bool) (a : AskFields) (id : AwardId) (allowances : List Int) :
    s.Alike (s.endSelection defers a id allowances) := by
  unfold State.endSelection
  split
  · exact .engine s _
  · exact .issueAward s a id allowances

/-- Past its pop, the rest of a first pop visit is in the awards and the engine (R87, R88). -/
theorem popFirst (defers : Bool) (a : AskFields) (id : AwardId) (h : Handle) :
    (s.popHead a.cls h).Alike (s.popFirst defers a id h) := by
  have claimed : (s.popHead a.cls h).Alike ((s.popHead a.cls h).claimEntry id a h) := .setEntry _ id _
  unfold State.popFirst
  dsimp only
  split
  · exact claimed.trans (.engine _ _)
  · exact claimed.trans (.endSelection _ _ _ _ _)

/-- Past its pop, the rest of a conditional pop visit is in the awards and the engine (R70, R88). -/
theorem popFurther (defers : Bool) (a : AskFields) (id : AwardId) (allowances : List Int) (h : Handle) :
    (s.popHead a.cls h).Alike (s.popFurther defers a id allowances h) := by
  have appended : (s.popHead a.cls h).Alike ((s.popHead a.cls h).appendMember id h) :=
    .appendMember _ id h
  unfold State.popFurther
  dsimp only
  split
  · exact appended.trans (.engine _ _)
  · exact appended.trans (.endSelection _ _ _ _ _)

theorem releaseDone : s.Alike s.releaseDone := .of_fields rfl rfl rfl rfl rfl

end State.Alike

/-! ### A visit that settles a station's places -/

/-- The second state comes of a visit to one station: its place in each class is settled by its eligibility
there, the others' eligibility stays, the waiting counts follow it, and OVERFLOW is set when it is inserted
behind a full ring (R64, R65, R72). -/
structure State.Settles (s t : State) (h : Handle) : Prop where
  view : ∀ c, t.view c = (s.view c).settle h ((t.station h).eligible c)
  others : ∀ k, k ≠ h → ∀ c, (t.station k).eligible c = (s.station k).eligible c ∧
    (t.station k).isWaiting c = (s.station k).isWaiting c
  waiting : ∀ c, t.waiting.get c + one ((s.station h).isWaiting c) =
    s.waiting.get c + one ((t.station h).isWaiting c)
  overflow : t.flags.overflow = true ↔ s.flags.overflow = true ∨
    ∃ c, (s.station h).eligible c = false ∧ (t.station h).eligible c = true ∧
      (s.ring c).occupancy = 255

/-- A place that agrees with the station's eligibility is settled. -/
theorem State.view_settled {s : State} {c : ServiceClass} (law : s.ClassLawful c) (h : Handle) :
    (s.view c).settle h ((s.station h).eligible c) = s.view c := by
  have view := State.view_writeBack (h := h) (r := s.station h) law rfl rfl
  rwa [State.writeBack_same (r := s.station h) (by simp [sameInputs]), State.setStation_station,
    eq_comm] at view

namespace State.Settles

variable {s t u : State} {h : Handle}

/-- A change that the laws do not see settles every station where it is. -/
theorem of_alike (law : ∀ c, s.ClassLawful c) (a : s.Alike t) (h : Handle) : s.Settles t h := by
  refine ⟨fun c => ?_, fun k _ c => ⟨(a.records k).eligible c, (a.records k).isWaiting c⟩, fun c => ?_, ?_⟩
  · rw [a.view, (a.records h).eligible, State.view_settled (law c)]
  · rw [a.waiting, (a.records h).isWaiting]
  · rw [a.overflow]
    refine (or_iff_left ?_).symm
    rintro ⟨c, was, is, _⟩
    rw [(a.records h).eligible, was] at is
    cases is

theorem after (b : u.Settles t h) (a : s.Alike u) : s.Settles t h := by
  refine ⟨fun c => ?_, fun k ne c => ?_, fun c => ?_, ?_⟩
  · rw [b.view, a.view]
  · obtain ⟨eligible, waiting⟩ := b.others k ne c
    exact ⟨eligible.trans ((a.records k).eligible c), waiting.trans ((a.records k).isWaiting c)⟩
  · have waiting := b.waiting c
    rwa [a.waiting, (a.records h).isWaiting] at waiting
  · have overflow := b.overflow
    simp only [a.overflow, (a.records h).eligible, State.ring, a.rings] at overflow
    exact overflow

theorem before (b : s.Settles u h) (a : u.Alike t) : s.Settles t h := by
  refine ⟨fun c => ?_, fun k ne c => ?_, fun c => ?_, ?_⟩
  · rw [a.view, b.view, (a.records h).eligible]
  · obtain ⟨eligible, waiting⟩ := b.others k ne c
    exact ⟨((a.records k).eligible c).trans eligible, ((a.records k).isWaiting c).trans waiting⟩
  · rw [a.waiting, (a.records h).isWaiting]
    exact b.waiting c
  · simp only [a.overflow, (a.records h).eligible]
    exact b.overflow

/-- The laws of every class hold of the settled state. -/
theorem lawful (b : s.Settles t h) (law : ∀ c, s.ClassLawful c) (c : ServiceClass) : t.ClassLawful c := by
  let became : StationRecord :=
    { t.station h with ringSlot := (s.station h).ringSlot, overflow := (s.station h).overflow }
  let u := s.setStation h became
  have record : u.station h = became := State.station_setStation_same s h became
  have alike : ∀ k, (u.station k).eligible c = (t.station k).eligible c ∧
      (u.station k).isWaiting c = (t.station k).isWaiting c := by
    intro k
    by_cases own : k = h
    · rw [own, record]
      exact ⟨rfl, rfl⟩
    · rw [State.station_setStation_ne s own]
      exact ⟨(b.others k own c).1.symm, (b.others k own c).2.symm⟩
  have count : t.countWaiting c = u.countWaiting c := by
    simp only [State.countWaiting, (alike _).2]
  have changed : u.countWaiting c + one ((s.station h).isWaiting c) =
      s.countWaiting c + one (became.isWaiting c) := State.countWaiting_setStation s h became c
  have view : u.view c = s.view c := State.view_setStation s h became c rfl rfl
  obtain ⟨sound, tight, places, waiting⟩ := (State.classLawful_iff s c).mp (law c)
  have pending : u.Pending h (s.station h) c := by
    refine ⟨view ▸ sound, view ▸ tight, fun k ne => ?_, ?_⟩
    · rw [view, State.station_setStation_ne s ne]
      exact places k
    · rw [record]
      show s.waiting.get c + _ = _
      omega
  have frame := State.reevaluateIn_frame u h (s.station h) c
  have settled := pending.reevaluateIn
  refine settled.transfer ?_ (fun k => ?_) ?_ ?_
  · rw [b.view, State.view_reevaluateIn, if_pos rfl, view, (alike h).1]
  · rw [State.eligible_of_frame frame, (alike k).1]
  · rw [settled.waiting, State.countWaiting_of_frame frame]
    have followed := b.waiting c
    rw [← (alike h).2, record] at followed
    omega
  · rw [State.countWaiting_of_frame frame, count]

end State.Settles

/-! ### The OVERFLOW flag of a re-evaluation (R65, R72) -/

/-- An insertion sets OVERFLOW where the ring is full. -/
theorem State.insertStation_overflow (s : State) (c : ServiceClass) (h : Handle) :
    (s.insertStation c h).flags.overflow = true ↔
      s.flags.overflow = true ∨ (s.ring c).occupancy = 255 := by
  have small := Ring.occupancy_lt (s.ring c)
  unfold State.insertStation Config.ringFull
  split
  · next room =>
    have notFull : (s.ring c).occupancy ≠ 255 := by omega
    exact (or_iff_left notFull).symm
  · next full =>
    refine iff_of_true ?_ (Or.inr (by omega))
    unfold State.appendOverflow
    dsimp only
    split <;> rfl

/-- A re-evaluation in a class sets OVERFLOW where it inserts the station behind a full ring. -/
theorem State.reevaluateIn_overflow (s : State) (h : Handle) (before : StationRecord) (c : ServiceClass) :
    (s.reevaluateIn h before c).flags.overflow = true ↔ s.flags.overflow = true ∨
      ((s.station h).eligible c = true ∧ ¬ (s.view c).holds h ∧ (s.ring c).occupancy = 255) := by
  cases eligible : (s.station h).eligible c with
  | false =>
    rw [State.reevaluateIn_flags eligible]
    simp
  | true =>
    unfold State.reevaluateIn State.placeStation
    dsimp only
    rw [State.station_adjustWaiting, eligible, if_pos rfl]
    split
    · next free =>
      have out : ¬ (s.view c).holds h := by
        simp only [Bool.and_eq_true, Option.isNone_iff_eq_none] at free
        simp [ClassView.holds, State.view, free]
      rw [State.insertStation_overflow]
      exact or_congr_right ⟨fun full => ⟨rfl, out, full⟩, fun inserted => inserted.2.2⟩
    · next placed =>
      refine (or_iff_left fun inserted => placed ?_).symm
      have out := inserted.2.1
      simpa [ClassView.holds, State.view] using out

/-- A re-evaluation sets OVERFLOW where it inserts the station behind a full ring. -/
theorem State.reevaluate_overflow (s : State) (h : Handle) (before : StationRecord) :
    (s.reevaluate h before).flags.overflow = true ↔ s.flags.overflow = true ∨
      ∃ c, (s.station h).eligible c = true ∧ ¬ (s.view c).holds h ∧ (s.ring c).occupancy = 255 := by
  have four : ∀ p : ServiceClass → Prop, (∃ c, p c) ↔ p .sc0 ∨ p .sc1 ∨ p .sc2 ∨ p .sc3 := by
    refine fun p => ⟨?_, ?_⟩
    · rintro ⟨c, holds⟩
      cases c <;> simp [holds]
    · rintro (holds | holds | holds | holds) <;> exact ⟨_, holds⟩
  have elig : ∀ (u : State) (d e : ServiceClass),
      ((u.reevaluateIn h before d).station h).eligible e = (u.station h).eligible e :=
    fun u d e => State.eligible_of_frame (State.reevaluateIn_frame u h before d) h e
  have other : ∀ (u : State) {d e : ServiceClass}, e ≠ d →
      (u.reevaluateIn h before d).view e = u.view e :=
    fun u _ _ ne => (State.reevaluateIn_other u h before ne).1
  have ring : ∀ (u : State) {d e : ServiceClass}, e ≠ d →
      (u.reevaluateIn h before d).ring e = u.ring e :=
    fun u _ _ ne => congrArg ClassView.ring (other u ne)
  unfold State.reevaluate
  rw [four]
  simp only [State.reevaluateIn_overflow, elig, ne_eq, reduceCtorEq, not_false_eq_true, other, ring, or_assoc]

/-- A record written back with the places it found settles its station in every class (R16, R64, R65). -/
theorem State.Settles.writeBack {s : State} (law : ∀ c, s.ClassLawful c) {h : Handle} {r : StationRecord}
    (places : r.ringSlot = (s.station h).ringSlot ∧ r.overflow = (s.station h).overflow) :
    s.Settles (s.writeBack h r) h := by
  obtain ⟨slot, place⟩ := places
  have frame := State.writeBack_frame s h r
  have own : ∀ c, ((s.writeBack h r).station h).eligible c = r.eligible c ∧
      ((s.writeBack h r).station h).isWaiting c = r.isWaiting c := fun c => by
    rw [State.eligible_of_frame frame, State.isWaiting_of_frame frame, State.station_setStation_same]
    exact ⟨rfl, rfl⟩
  refine ⟨fun c => ?_, fun k ne c => ?_, fun c => ?_, ?_⟩
  · rw [State.view_writeBack (law c) slot place, (own c).1]
  · rw [State.eligible_of_frame frame, State.isWaiting_of_frame frame, State.station_setStation_ne s ne]
    exact ⟨rfl, rfl⟩
  · have after := (State.writeBack_lawful law slot place c).waiting
    rw [State.countWaiting_of_frame frame] at after
    have changed := State.countWaiting_setStation s h r c
    rw [after, (law c).waiting, (own c).2]
    exact changed
  · simp only [(own _).1]
    unfold State.writeBack
    split
    · next same =>
      refine (or_iff_left ?_).symm
      rintro ⟨c, was, is, _⟩
      rw [(sameInputs_eligible same c).1, is] at was
      cases was
    · have view := fun c => State.view_setStation s h r c (by rw [slot]) (by rw [place])
      rw [State.reevaluate_overflow, State.station_setStation_same]
      refine or_congr Iff.rfl (exists_congr fun c => ?_)
      have held : ¬ (s.view c).holds h ↔ (s.station h).eligible c = false := by
        rw [Bool.eq_false_iff]
        exact not_congr ((law c).places h).symm
      rw [view, held]
      exact and_left_comm

/-! ### The records that visits write keep their places -/

namespace StationRecord

variable (r : StationRecord)

theorem places_backlogged (e : BacklogEntry) (idleLimit : Nat) :
    (r.backlogged e idleLimit).ringSlot = r.ringSlot ∧ (r.backlogged e idleLimit).overflow = r.overflow := by
  unfold StationRecord.backlogged
  split <;> exact ⟨rfl, rfl⟩

theorem places_doneBy (t : Settings) (w : OpenAward) (airtime : Nat) (e : DoneEntry) :
    (r.doneBy t w airtime e).ringSlot = r.ringSlot ∧ (r.doneBy t w airtime e).overflow = r.overflow := by
  rw [StationRecord.doneBy_eq]
  exact ⟨rfl, rfl⟩

theorem places_retired (coolEpochs : Nat) :
    (r.retired coolEpochs).ringSlot = r.ringSlot ∧ (r.retired coolEpochs).overflow = r.overflow := by
  unfold StationRecord.retired
  split <;> exact ⟨rfl, rfl⟩

theorem places_walkedActive (t : Settings) (held : Bool) :
    (r.walkedActive t held).ringSlot = r.ringSlot ∧ (r.walkedActive t held).overflow = r.overflow := by
  have idled : ∀ q : StationRecord, (q.idled t.idleLimit).ringSlot = q.ringSlot ∧
      (q.idled t.idleLimit).overflow = q.overflow := by
    intro q
    unfold StationRecord.idled
    repeat' split
    all_goals exact ⟨rfl, rfl⟩
  cases held <;> exact idled _

end StationRecord

/-! ### The visits (R22, R65, R95, R99, R101, R116, R129 to R133) -/

namespace State.Settles

variable {s : State}

/-- The end of a closing visit (R95, R97). -/
theorem closeMember (law : ∀ c, s.ClassLawful c) (id : AwardId) {h : Handle} {r : StationRecord}
    (places : r.ringSlot = (s.station h).ringSlot ∧ r.overflow = (s.station h).overflow) :
    s.Settles (s.closeMember id h r) h :=
  ((State.Settles.writeBack law places).before (.drained _ h)).before (.releaseMember _ id h)

theorem doneMember (law : ∀ c, s.ClassLawful c) (id : AwardId) (w : OpenAward) (airtime : Nat) (h : Handle)
    (e : DoneEntry) : s.Settles (s.doneMember id w airtime h e) h := by
  rw [State.doneMember_eq]
  generalize flagged : ({ s with flags := _ } : State) = u
  have alike : s.Alike u := flagged ▸ .of_fields rfl rfl rfl rfl rfl
  have record : u.station h = s.station h := flagged ▸ rfl
  refine (State.Settles.closeMember (fun c => alike.lawful (law c)) id ?_).after alike
  rw [record]
  exact StationRecord.places_doneBy _ _ w airtime e

theorem expiryMember (law : ∀ c, s.ClassLawful c) (id : AwardId) (w : OpenAward) (i : Issue) (h : Handle) :
    s.Settles (s.expiryMember id w i h) h := by
  rw [State.expiryMember_eq]
  generalize flagged : ({ s with flags := _ } : State) = u
  have alike : s.Alike u := flagged ▸ .of_fields rfl rfl rfl rfl rfl
  have record : u.station h = s.station h := flagged ▸ rfl
  refine (State.Settles.closeMember (fun c => alike.lawful (law c)) id ?_).after alike
  rw [record]
  exact ⟨rfl, rfl⟩

theorem releaseOne (law : ∀ c, s.ClassLawful c) (m : ReleaseWork) (empties : Bool) :
    s.Settles (s.releaseOne m empties) m.handle := by
  unfold State.releaseOne
  split
  · exact .of_alike law (.refl s) _
  · dsimp only
    split <;> exact .closeMember law m.id ⟨rfl, rfl⟩

theorem backlogEntry (law : ∀ c, s.ClassLawful c) (e : BacklogEntry) :
    s.Settles (s.backlogEntry e) e.handle := by
  have noted := State.Settles.writeBack law
    (StationRecord.places_backlogged (s.station e.handle) e s.settings.idleLimit)
  have stale : s.Settles (s.raise .stale) e.handle :=
    .of_alike law (.raiseIf s true (by decide)) _
  have stays : s.Settles s e.handle := .of_alike law (.refl s) _
  unfold State.backlogEntry
  dsimp only
  split
  case h_4 => exact noted
  case h_5 =>
    split
    · exact noted
    · exact stays
  case h_6 => exact stays
  all_goals exact stale

theorem uplinkStation (law : ∀ c, s.ClassLawful c) (h : Handle) (airtime : Nat) :
    s.Settles (s.uplinkStation h airtime) h := by
  have stale : s.Settles (s.raise .stale) h := .of_alike law (.raiseIf s true (by decide)) _
  have charged : ∀ floors, s.Settles ((s.raiseIf floors .floor).writeBack h
      ((s.station h).uplinked airtime s.settings.idleLimit)) h := by
    intro floors
    have alike : s.Alike (s.raiseIf floors .floor) := .raiseIf s floors (by decide)
    have record : (s.raiseIf floors .floor).station h = s.station h := by cases floors <;> rfl
    refine (State.Settles.writeBack (fun c => alike.lawful (law c)) ?_).after alike
    rw [record]
    exact ⟨rfl, rfl⟩
  unfold State.uplinkStation
  dsimp only
  split
  case h_4 => exact .of_alike law (.refl s) _
  case h_5 => exact charged _
  case h_6 => exact charged _
  all_goals exact stale

theorem emptyBacklog (law : ∀ c, s.ClassLawful c) (h : Handle) : s.Settles (s.emptyBacklog h) h := by
  unfold State.emptyBacklog
  dsimp only
  split
  · exact .writeBack law ⟨rfl, rfl⟩
  · exact .of_alike law (.refl s) _

/-- A walker visit: a COOLING record, which holds no place, may be cleared (R116, R118). -/
theorem walkRecord (law : ∀ c, s.ClassLawful c) (h : Handle) : s.Settles (s.walkRecord h) h := by
  have stays : s.Settles s h := .of_alike law (.refl s) _
  unfold State.walkRecord
  dsimp only
  split
  · exact stays
  · exact stays
  · exact .writeBack law (StationRecord.places_walkedActive _ _ _)
  · exact .writeBack law ⟨rfl, rfl⟩
  · exact .writeBack law ⟨rfl, rfl⟩
  · next cooling =>
    have idle : (s.station h).state ≠ .active := by
      rw [cooling]
      decide
    split
    · exact .of_alike law (.freeAtTail law idle) h
    · have counts : (s.station h).Alike
          { s.station h with coolCountdown := (s.station h).coolCountdown - 1 } :=
        .of_inactive idle idle (fun _ => rfl) fun _ => rfl
      exact .of_alike law (.setStation s counts) h

/-- A record visit of a TABLE_CLEAR: the record leaves its places as it becomes FREE, and is cleared (R22). -/
theorem clearRecord (law : ∀ c, s.ClassLawful c) (h : Handle) : s.Settles (s.clearRecord h) h := by
  unfold State.clearRecord
  dsimp only
  generalize left : (if (s.station h).associated then s.leaveIndex h else s) = u
  have leaves : s.Alike u := by
    subst left
    split
    · exact .leaveIndex s h
    · exact .refl s
  generalize taken : (if (u.station h).state = .free then u.unlinkFree h else u) = v
  have unlinks : u.Alike v := by
    subst taken
    split
    · exact .unlinkFree u h
    · exact .refl u
  have before := leaves.trans unlinks
  have settles : v.Settles (v.writeBack h { v.station h with state := .free }) h :=
    .writeBack (fun c => before.lawful (law c)) ⟨rfl, rfl⟩
  have free : ((v.writeBack h { v.station h with state := .free }).station h).state = .free := by
    have frame := State.unplaced_of_frame
      (State.writeBack_frame v h { v.station h with state := .free }) h
    rw [State.station_setStation_same] at frame
    exact congrArg StationRecord.state frame
  have lawful := settles.lawful fun c => before.lawful (law c)
  exact (settles.before (.freeInOrder lawful (by rw [free]; decide))).after before

/-- A record that leaves the index and is retired (R13, R20). -/
theorem retired (law : ∀ c, s.ClassLawful c) (h : Handle) (coolEpochs : Nat) :
    s.Settles ((s.leaveIndex h).writeBack h (((s.leaveIndex h).station h).retired coolEpochs)) h :=
  have leaves : s.Alike (s.leaveIndex h) := .leaveIndex s h
  (State.Settles.writeBack (fun c => leaves.lawful (law c))
    (StationRecord.places_retired _ coolEpochs)).after leaves

end State.Settles

end Sys2Proof.Machine
end

section
/-!
PROOFS. The laws of rings and overflow lists (O56): every work keeps the laws of each class, given the laws of the
free list, and the records that a link restart has passed stay without a backlog (R64 to R74, R78, R130).
-/

namespace Sys2Proof.Machine

/-! ### The records that a link restart has passed (R130) -/

/-- The ACTIVE records that a link restart has passed have no backlog. -/
def State.RestartPassed (s : State) : Prop :=
  ∀ tag next, s.engine = .restartBacklog tag next →
    ∀ h : Handle, h < next → (s.station h).state = .active → (s.station h).backlog = ClassSet.none

/-- The engine's item is no link restart that has passed a record. -/
def EngineItem.Fresh (e : EngineItem) : Prop := ∀ tag next, e = .restartBacklog tag next → next = 0

/-- A record that is ACTIVE after a change has no backlog, or the one it had while ACTIVE. -/
def StationRecord.GainsNoBacklog (r q : StationRecord) : Prop :=
  q.state = .active → q.backlog = ClassSet.none ∨ (r.state = .active ∧ q.backlog = r.backlog)

theorem StationRecord.GainsNoBacklog.of_same {r q : StationRecord} (state : q.state = r.state)
    (backlog : q.backlog = r.backlog) : r.GainsNoBacklog q :=
  fun active => Or.inr ⟨state.symm.trans active, backlog⟩

/-- The walker writes no backlog, and makes no record ACTIVE (R116). -/
theorem StationRecord.gainsNoBacklog_walkedActive {r : StationRecord} (active : r.state = .active)
    (t : Settings) (held : Bool) : r.GainsNoBacklog (r.walkedActive t held) := fun _ =>
  Or.inr ⟨active, by rw [StationRecord.walkedActive_eq active]⟩

namespace State.RestartPassed

variable {s t : State}

theorem of_fresh (fresh : t.engine.Fresh) : t.RestartPassed := by
  intro tag next item h below
  rw [fresh tag next item] at below
  exact absurd below (Fin.not_lt_zero h)

theorem of_records (law : s.RestartPassed) (engine : t.engine = s.engine)
    (records : ∀ k, (s.station k).GainsNoBacklog (t.station k)) : t.RestartPassed := by
  intro tag next item h below active
  rcases records h active with none_ | ⟨was, same⟩
  · exact none_
  · rw [same]
    exact law tag next (engine ▸ item) h below was

theorem of_same (law : s.RestartPassed) (engine : t.engine = s.engine)
    (stations : t.stations = s.stations) : t.RestartPassed :=
  law.of_records engine fun k => by
    rw [State.station, State.station, stations]
    exact .of_same rfl rfl

theorem setExecuting (law : s.RestartPassed) (e : Execution) :
    ({ s with executing := e } : State).RestartPassed := law.of_same rfl rfl

theorem of_frame (law : s.RestartPassed) (same : t.beyondRings = s.beyondRings) : t.RestartPassed :=
  law.of_records (State.engine_of_frame same) fun k =>
    have record := State.unplaced_of_frame same k
    .of_same (congrArg StationRecord.state record :) (congrArg StationRecord.backlog record :)

theorem setStation (law : s.RestartPassed) {h : Handle} {q : StationRecord}
    (gains : (s.station h).GainsNoBacklog q) : (s.setStation h q).RestartPassed :=
  law.of_records rfl fun k => by
    rw [State.station_setStation]
    split
    · next own => exact own ▸ gains
    · exact .of_same rfl rfl

theorem writeBack (law : s.RestartPassed) {h : Handle} {q : StationRecord}
    (gains : (s.station h).GainsNoBacklog q) : (s.writeBack h q).RestartPassed :=
  (law.setStation gains).of_frame (State.writeBack_frame s h q)

theorem setNextFree (law : s.RestartPassed) (h : Handle) (x : Option Handle) :
    (s.setNextFree h x).RestartPassed := by
  rw [State.setNextFree_eq]
  exact law.setStation (.of_same rfl rfl)

/-- A record cleared is not ACTIVE. -/
theorem clears (law : s.RestartPassed) (h : Handle) (x : Option Handle) :
    (s.setStation h { StationRecord.cleared with nextFree := x }).RestartPassed :=
  law.setStation fun active => nomatch active

/-- A FORMING record is not ACTIVE. -/
theorem formed (law : s.RestartPassed) (h : Handle) (d : Descriptor) :
    ((s.takeFree h).changeStation h fun r =>
      { r with state := .forming, descriptor := d }).RestartPassed :=
  law.of_records rfl fun k => by
    rw [State.station_formed]
    split
    · exact fun active => nomatch active
    · exact .of_same rfl rfl

theorem freeAtTail (law : s.RestartPassed) (h : Handle) : (s.freeAtTail h).RestartPassed := by
  have freed : (s.setStation h StationRecord.cleared).RestartPassed := law.clears h none
  unfold State.freeAtTail
  dsimp only
  split
  · exact freed.of_same rfl rfl
  · next t _ => exact (freed.setNextFree t (some h)).of_same rfl rfl

theorem leaveIndex (law : s.RestartPassed) (h : Handle) : (s.leaveIndex h).RestartPassed :=
  law.of_records (congrArg State.engine (s.leaveIndex_frame h) :) fun k =>
    have content := s.leaveIndex_content h k
    .of_same (congrArg StationRecord.state content :) (congrArg StationRecord.backlog content :)

theorem enterIndex (law : s.RestartPassed) (h : Handle) : (s.enterIndex h).RestartPassed :=
  law.of_records rfl fun k => by
    rw [State.enterIndex_station]
    split
    · next own =>
      rw [own]
      exact .of_same rfl rfl
    · exact .of_same rfl rfl

/-- A record visit of a TABLE_CLEAR clears its record and leaves every other's state and backlog (R22). -/
theorem clearRecord (law : s.RestartPassed) (h : Handle) : (s.clearRecord h).RestartPassed := by
  obtain ⟨cleared, others⟩ := s.clearRecord_records h
  refine law.of_records (congrArg State.engine (s.clearRecord_frame h) :) fun k => ?_
  by_cases own : k = h
  · intro active
    have free : ((s.clearRecord h).station h).state = .free := (congrArg StationRecord.state cleared :)
    rw [own, free] at active
    cases active
  · have content := others k own
    exact .of_same (congrArg StationRecord.state content :) (congrArg StationRecord.backlog content :)

theorem walkRecord (law : s.RestartPassed) (h : Handle) : (s.walkRecord h).RestartPassed := by
  unfold State.walkRecord
  dsimp only
  split
  · exact law
  · exact law
  · next active => exact law.writeBack (StationRecord.gainsNoBacklog_walkedActive active _ _)
  · exact law.writeBack (.of_same rfl rfl)
  · exact law.writeBack (.of_same rfl rfl)
  · split
    · exact law.freeAtTail h
    · exact law.setStation (.of_same rfl rfl)

/-- A visit of a restart's second part leaves its record without a backlog too (R130). -/
theorem emptied (law : s.RestartPassed) {tag : Byte} {h : Handle} (item : s.engine = .restartBacklog tag h)
    {k : Handle} (upTo : k ≤ h) (active : ((s.emptyBacklog h).station k).state = .active) :
    ((s.emptyBacklog h).station k).backlog = ClassSet.none := by
  have written : ∀ q, ((s.writeBack h q).station k).state = ((s.setStation h q).station k).state ∧
      ((s.writeBack h q).station k).backlog = ((s.setStation h q).station k).backlog := fun q =>
    have record := State.unplaced_of_frame (State.writeBack_frame s h q) k
    ⟨(congrArg StationRecord.state record :), (congrArg StationRecord.backlog record :)⟩
  revert active
  unfold State.emptyBacklog
  dsimp only
  by_cases own : k = h
  · subst own
    split
    · rw [(written _).2, State.station_setStation_same]
      exact fun _ => rfl
    · next idle => exact fun active => absurd active idle
  · have below : k < h := lt_of_le_of_ne upTo own
    split
    · rw [(written _).1, (written _).2, State.station_setStation_ne s own]
      exact law tag h item k below
    · exact law tag h item k below

end State.RestartPassed

/-- The end of member selection starts no link restart. -/
theorem State.endSelection_fresh {s : State} (fresh : s.engine.Fresh) (defers : Bool) (a : AskFields)
    (id : AwardId) (allowances : List Int) : (s.endSelection defers a id allowances).engine.Fresh := by
  unfold State.endSelection State.issueAward
  split
  · exact fun _ _ item => nomatch item
  · split
    · exact fresh
    · exact fun _ _ item => nomatch item

namespace EngineItem.Fresh

theorem ite {p : Prop} [Decidable p] {d e : EngineItem} (a : d.Fresh) (b : e.Fresh) :
    (if p then d else e).Fresh := by
  split
  · exact a
  · exact b

theorem idle : EngineItem.idle.Fresh := fun _ _ item => nomatch item

theorem answer (m : OutMessage) : (EngineItem.answer m).Fresh := fun _ _ item => nomatch item

/-- A link restart begins at handle 0. -/
theorem begun (tag : Byte) : (EngineItem.restartBacklog tag 0).Fresh := fun _ _ item => by
  cases item
  rfl

end EngineItem.Fresh

/-- Every work keeps the records that a link restart has passed without a backlog (R130). -/
theorem restartPassed_kept : Kept (fun _ => True) State.RestartPassed where
  quietB _ _ _ _ := trivial
  quiet _ _ same law := law.of_same (congrArg State.engine same :) (congrArg State.stations same :)
  reset := .of_fresh .idle
  ended _ _ law _ _ := law.of_same rfl rfl
  started _ _ _ law _ _ := law.of_same rfl rfl
  ruled _ _ _ _ _ law := law.of_same rfl rfl
  written _ _ _ _ law := law.of_same rfl rfl
  clearing _ _ law _ := law.of_same rfl rfl
  allocated _ d _ h _ law _ _ _ := (law.formed h d).setExecuting _
  completed s h result clamped _ law _ _ :=
    ((law.writeBack fun _ => Or.inl rfl).enterIndex h).setExecuting .idle
  denied s h result clamped _ law _ := (law.clears h s.freeHead).of_same rfl rfl
  amended s h f _ _ law _ _ :=
    have gains : (s.station h).GainsNoBacklog ((s.station h).amended f) := .of_same rfl rfl
    (law.writeBack gains).setExecuting .idle
  reread _ _ _ law _ _ := law.of_same rfl rfl
  reapplied s h result _ law _ :=
    have gains : (s.station h).GainsNoBacklog
        { s.station h with profile := result.profile, trace := result.trace } := .of_same rfl rfl
    (law.writeBack gains).setExecuting .idle
  retired s h _ law _ _ := by
    refine ((law.leaveIndex h).writeBack fun active => ?_).setExecuting .idle
    revert active
    unfold StationRecord.retired
    split <;> exact fun active => nomatch active
  listed _ _ _ _ _ _ _ law _ := law.of_same rfl rfl
  cleared _ h next _ law _ _ := (law.clearRecord h).setExecuting (.clearRecords next)
  clearEnded _ h _ law _ _ := (law.clearRecord h).of_same rfl rfl
  taken _ _ _ _ _ item := .of_fresh (by
    rcases item with ⟨_, rfl⟩ | ⟨_, rfl⟩ | ⟨_, _, rfl⟩ <;> exact fun _ _ item => nomatch item)
  asked _ _ _ _ _ _ _ := .of_fresh fun _ _ item => nomatch item
  judged _ _ _ _ _ _ _ _ _ _ := .of_fresh fun _ _ item => nomatch item
  expired _ _ _ _ _ _ _ := .of_fresh fun _ _ item => nomatch item
  restarted _ tag _ _ _ := .of_fresh (.ite (.begun tag) fun _ _ item => nomatch item)
  released _ _ _ _ _ := by
    split
    · exact .of_fresh .idle
    · exact .of_fresh fun _ _ item => nomatch item
  sent _ _ _ _ _ := .of_fresh .idle
  declined _ _ m _ _ _ _ := .of_fresh (.answer m)
  unclaimed s a _ _ law _ _ _ := law.of_frame (State.clearHead_frame s a.cls)
  claimed s defers a h id _ _ item _ _ := by
    have fresh : (((s.clearHead a.cls).popHead a.cls h).claimEntry id a h).engine.Fresh := by
      show ((s.clearHead a.cls).popHead a.cls h).engine.Fresh
      rw [State.popHead_engine, State.clearHead_engine, item]
      exact fun _ _ item => nomatch item
    refine .of_fresh ?_
    unfold State.popFirst
    dsimp only
    split
    · exact fun _ _ item => nomatch item
    · exact State.endSelection_fresh fresh defers a id _
  selected s defers a id allowances _ _ item := by
    refine .of_fresh (State.endSelection_fresh ?_ defers a id allowances)
    rw [State.clearHead_engine, item]
    exact fun _ _ item => nomatch item
  joined s defers a id allowances h _ _ item _ := by
    have fresh : (((s.clearHead a.cls).popHead a.cls h).appendMember id h).engine.Fresh := by
      rw [State.appendMember_engine, State.popHead_engine, State.clearHead_engine, item]
      exact fun _ _ item => nomatch item
    refine .of_fresh ?_
    unfold State.popFurther
    dsimp only
    split
    · exact fun _ _ item => nomatch item
    · exact State.endSelection_fresh fresh defers a id _
  issued _ _ _ _ _ _ _ _ _ _ item := .of_fresh (by
    rcases item with rfl | ⟨m, rfl⟩
    · exact .idle
    · exact .answer m)
  doneVisited _ _ _ _ _ _ _ _ _ _ := .of_fresh (.ite .idle fun _ _ item => nomatch item)
  doneEnded _ _ _ _ _ _ _ _ := .of_fresh .idle
  expiryVisited _ _ _ _ _ _ _ _ _ _ _ := .of_fresh (.ite .idle fun _ _ item => nomatch item)
  expiryEnded _ _ _ _ _ _ _ := .of_fresh .idle
  clearReleased _ _ _ _ _ _ := by
    split
    · exact .of_fresh .idle
    · exact .of_fresh fun _ _ item => nomatch item
  clearReleaseEnded _ _ _ _ := .of_fresh .idle
  restartReleased _ tag _ _ _ _ _ := .of_fresh (.ite (.begun tag) fun _ _ item => nomatch item)
  restartReleaseEnded _ tag _ _ _ := .of_fresh (.begun tag)
  reported _ _ _ _ _ _ := .of_fresh (.ite .idle fun _ _ item => nomatch item)
  reportEnded _ _ _ _ := .of_fresh .idle
  uplinked _ _ _ _ _ _ := .of_fresh .idle
  emptied s tag h next _ law item after := by
    rintro _ _ ⟨⟩ k below active
    exact law.emptied item (by rw [Fin.lt_def] at below; rw [Fin.le_def]; omega) active
  restartEnded _ _ _ m _ _ _ _ := .of_fresh (.answer m)
  walked _ h _ law := law.walkRecord h

/-! ### A class that nobody is ready in -/

/-- The slots of a class in which nobody stands are all holes, and its laws stay when the ring is reset (R78). -/
theorem State.ClassLawful.resetRings {s : State} {c : ServiceClass} (law : s.ClassLawful c)
    (out : ∀ h, (s.station h).ready c = false) : s.resetRings.ClassLawful c := by
  obtain ⟨unplaced, list, _⟩ := law.empty out
  have ring : s.resetRings.ring c = Ring.powerOn := PerClass.get_const _ c
  refine ⟨fun i h => ?_, fun i h on => ?_, law.places, law.single, ?_, fun some_ => ?_, law.waiting⟩
  · rw [ring, Ring.at_powerOn, show s.resetRings.station h = s.station h from rfl, (unplaced h).1]
    simp
  · rw [ring, Ring.at_powerOn] at on
    cases on
  · obtain ⟨m, listed⟩ := law.list
    exact ⟨m, listed.nodup, listed.head, listed.tail, listed.length, listed.member, listed.linked⟩
  · rw [show s.resetRings.overflowList c = s.overflowList c from rfl, list] at some_
    exact absurd some_ (lt_irrefl 0)

/-! ### Every step -/

/-- The ring laws of every class. -/
def State.ClassesLawful (s : State) : Prop := ∀ c, s.ClassLawful c

namespace State.ClassesLawful

variable {s t : State}

theorem alike (law : s.ClassesLawful) (a : s.Alike t) : t.ClassesLawful := fun c => a.lawful (law c)

theorem settles (law : s.ClassesLawful) {h : Handle} (b : s.Settles t h) : t.ClassesLawful := b.lawful law

theorem of_fields (law : s.ClassesLawful) (stations : t.stations = s.stations) (rings : t.rings = s.rings)
    (overflows : t.overflows = s.overflows) (waiting : t.waiting = s.waiting) : t.ClassesLawful :=
  fun c => (law c).ofRings stations rings overflows waiting

theorem engine (law : s.ClassesLawful) (e : EngineItem) :
    ({ s with engine := e } : State).ClassesLawful := law.alike (.engine s e)

theorem executing (law : s.ClassesLawful) (e : Execution) :
    ({ s with executing := e } : State).ClassesLawful := law.alike (.executing s e)

end State.ClassesLawful

/-- Every work keeps the ring laws, given the free list's, and an empty backlog in every ACTIVE record that a
link restart has passed. -/
theorem classes_kept : Kept (fun s => s.FreeListLawful ∧ s.RestartPassed) State.ClassesLawful where
  quietB s t same b := ⟨b.1.of_stands (congrArg State.freeHead same :) (congrArg State.freeTail same :)
    (congrArg State.executing same :) (State.stands_of_table (State.table_of_core same)),
    restartPassed_kept.quiet s t same b.2⟩
  quiet _ _ same law := law.of_fields (congrArg State.stations same :) (congrArg State.rings same :)
    (congrArg State.overflows same :) (congrArg State.waiting same :)
  reset := State.classLawful_reset
  ended _ _ law _ _ := law.executing .idle
  started _ e _ law _ _ := law.executing e
  ruled _ _ _ _ _ law := law.of_fields rfl rfl rfl rfl
  written _ _ _ _ law := law.of_fields rfl rfl rfl rfl
  clearing _ _ law _ := law.of_fields rfl rfl rfl rfl
  allocated s d clamped h b law _ _ head := by
    obtain ⟨members, order, free, _⟩ := b.1.order
    have isFree := (free h).mp (List.mem_of_head? (order.head.symm.trans head))
    exact (law.alike (.formed isFree d)).executing _
  completed s h result _ _ law _ _ :=
    have settles : s.Settles (s.writeBack h (admitted (s.station h) s.settings result)) h :=
      .writeBack law ⟨rfl, rfl⟩
    ((law.settles settles).alike (.enterIndex _ h)).executing .idle
  denied s h result clamped b law ex := by
    have idle : (s.station h).state ≠ .active := by
      rw [b.1.forming h result clamped ex]
      decide
    exact (law.alike (.freeAtHead law idle)).executing .idle
  amended s h f _ _ law _ _ :=
    have settles : s.Settles (s.writeBack h ((s.station h).amended f)) h := .writeBack law ⟨rfl, rfl⟩
    (law.settles settles).executing .idle
  reread _ _ _ law _ _ := law.executing _
  reapplied s h result _ law _ :=
    have settles : s.Settles
        (s.writeBack h { s.station h with profile := result.profile, trace := result.trace }) h :=
      .writeBack law ⟨rfl, rfl⟩
    (law.settles settles).executing .idle
  retired s h _ law _ _ := (law.settles (.retired law h s.settings.coolEpochs)).executing .idle
  listed _ _ _ _ _ _ _ law _ := law.executing _
  cleared _ h next _ law _ _ := (law.settles (.clearRecord law h)).executing (.clearRecords next)
  clearEnded s h b law ex last := by
    have free : ∀ k, ((s.clearRecord h).station k).state = .free := fun k => by
      rw [s.clearRecord_state]
      split
      · rfl
      · next ne => exact b.1.passed_free ex (by rw [Fin.lt_def]; have := Fin.val_ne_of_ne ne; omega)
    have reset : (s.clearRecord h).resetRings.ClassesLawful := fun c =>
      ((State.Settles.clearRecord law h).lawful law c).resetRings fun k => by
        simp [StationRecord.ready, free]
    exact reset.of_fields rfl rfl rfl rfl
  taken _ e _ law _ _ := law.engine e
  asked _ _ _ law _ _ _ := law.engine _
  judged _ _ _ _ _ _ law _ _ _ := law.engine _
  expired _ _ _ _ law _ _ := law.engine _
  restarted _ _ _ law _ := law.engine _
  released s _ law _ _ := by
    have taken : ({ s with releaseDue := false } : State).ClassesLawful := law.of_fields rfl rfl rfl rfl
    split
    · exact taken.alike (.releaseDone _)
    · exact taken.engine _
  sent _ _ _ law _ := law.engine .idle
  declined s a m _ law _ _ :=
    have discarded : (s.clearHead a.cls).ClassesLawful := State.clearHead_lawful a.cls law
    discarded.engine (.answer m)
  unclaimed _ a _ _ law _ _ _ := State.clearHead_lawful a.cls law
  claimed _ defers a h id _ law _ head _ :=
    have popped := State.popHead_lawful (State.clearHead_lawful a.cls law) head
    fun c => (State.Alike.popFirst _ defers a id h).lawful (popped c)
  selected _ defers a id allowances _ law _ := fun c =>
    (State.Alike.endSelection _ defers a id allowances).lawful (State.clearHead_lawful a.cls law c)
  joined _ defers a id allowances h _ law _ head :=
    have popped := State.popHead_lawful (State.clearHead_lawful a.cls law) head
    fun c => (State.Alike.popFurther _ defers a id allowances h).lawful (popped c)
  issued s a id allowances _ e _ law _ _ _ := (law.alike (.issueAward s a id allowances)).engine e
  doneVisited _ id airtime m _ w _ law _ _ :=
    (law.settles (.doneMember law id w airtime m.handle m.entry)).engine _
  doneEnded _ _ _ _ _ law _ _ := law.engine .idle
  expiryVisited _ id h _ w i _ law _ _ _ := (law.settles (.expiryMember law id w i h)).engine _
  expiryEnded _ _ _ _ law _ _ := law.engine .idle
  clearReleased _ m _ _ law _ := by
    have released := law.settles (.releaseOne law m false)
    split
    · exact released.alike (.releaseDone _)
    · exact released.engine _
  clearReleaseEnded s _ law _ := law.alike (.releaseDone s)
  restartReleased _ _ m _ _ law _ := (law.settles (.releaseOne law m true)).engine _
  restartReleaseEnded _ _ _ law _ := law.engine _
  reported _ e _ _ law _ := (law.settles (.backlogEntry law e)).engine _
  reportEnded _ _ law _ := law.engine .idle
  uplinked _ h airtime _ law _ := (law.settles (.uplinkStation law h airtime)).engine .idle
  emptied _ _ h _ _ law _ _ := (law.settles (.emptyBacklog law h)).engine _
  restartEnded s tag h m b law item last := by
    have out : ∀ k c, ((s.emptyBacklog h).station k).ready c = false := by
      intro k c
      by_cases active : ((s.emptyBacklog h).station k).state = .active
      · have none_ := b.2.emptied item (k := k) (by rw [Fin.le_def]; omega) active
        simp [StationRecord.ready, none_, ClassSet.none]
      · simp [StationRecord.ready, active]
    have reset : (s.emptyBacklog h).resetRings.ClassesLawful := fun c =>
      ((State.Settles.emptyBacklog law h).lawful law c).resetRings fun k => out k c
    exact reset.engine (.answer m)
  walked _ h _ law := law.settles (.walkRecord law h)

/-- Settles O56: the laws of each class are kept by every work, and the handles that a TABLE_CLEAR and a link
restart have passed by the free list's order and by the second part of the restart. -/
theorem ringLawsAreKept : Obligations.RingLawsAreKept := by
  intro s t freeList rings stepped
  have after := freeListLawsAreKept s t freeList stepped
  exact ⟨classes_kept.step ⟨freeList, rings.restarted⟩ rings.classes stepped, after.forming,
    fun _ ex _ below => after.passed_free ex below,
    restartPassed_kept.step trivial rings.restarted stepped⟩

end Sys2Proof.Machine
end

section
/-!
PROOFS. The re-evaluations (O47, O48): every visit that changes a station's eligibility settles its place in each
class, at the end of the line when it becomes eligible and out of it when it no longer is (R63 to R65, R67, R68,
R72, R73).
-/

namespace Sys2Proof.Machine

/-! ### Every visit settles its station (R65) -/

/-- A visit below handle 511 goes on to the next handle. -/
theorem Handle.after_of_lt {h : Handle} (below : h.val < 511) : ∃ next, Handle.after h = some next := by
  unfold Handle.after
  rw [dif_pos (by omega)]
  exact ⟨_, rfl⟩

theorem exec_releaseVisit_clear {s : State} {asks : PortAsks} {m : ReleaseWork} {rest : List ReleaseWork}
    (run : s.resetLow = false) (item : s.engine = .clearRelease (m :: rest))
    (grant : s.grants .award asks = true) :
    exec (.releaseVisit asks) s = .next
      (if rest = [] then ((s.granted .award asks).releaseOne m false).releaseDone
       else { (s.granted .award asks).releaseOne m false with engine := .clearRelease rest }) := by
  have due : s.engine.visit = some .release := by rw [item]; rfl
  have item' : (s.granted .award asks).engine = .clearRelease (m :: rest) := item
  show Host.Outcome.next (s.engineVisit .release asks _) = _
  rw [State.engineVisit_granted run due grant, item']

theorem exec_releaseVisit_restart {s : State} {asks : PortAsks} {tag : Byte} {m : ReleaseWork}
    {rest : List ReleaseWork} (run : s.resetLow = false) (item : s.engine = .restartRelease tag (m :: rest))
    (grant : s.grants .award asks = true) :
    exec (.releaseVisit asks) s = .next
      { (s.granted .award asks).releaseOne m true with
        engine := if rest = [] then .restartBacklog tag 0 else .restartRelease tag rest } := by
  have due : s.engine.visit = some .release := by rw [item]; rfl
  have item' : (s.granted .award asks).engine = .restartRelease tag (m :: rest) := item
  show Host.Outcome.next (s.engineVisit .release asks _) = _
  rw [State.engineVisit_granted run due grant, item']

theorem exec_linkRestartBacklogVisit_goesOn {s : State} {asks : PortAsks} {tag : Byte} {h next : Handle}
    (run : s.resetLow = false) (item : s.engine = .restartBacklog tag h)
    (grant : s.grants .award asks = true) (after : Handle.after h = some next) :
    exec (.linkRestartBacklogVisit asks) s = .next
      { (s.granted .award asks).emptyBacklog h with engine := .restartBacklog tag next } := by
  have due : s.engine.visit = some .restartBacklog := by rw [item]; rfl
  have item' : (s.granted .award asks).engine = .restartBacklog tag h := item
  show Host.Outcome.next (s.engineVisit .restartBacklog asks _) = _
  simp only [State.engineVisit_granted run due grant, item', after]

theorem exec_linkRestartBacklogVisit_completes {s : State} {asks : PortAsks} {tag : Byte} {h : Handle}
    (run : s.resetLow = false) (item : s.engine = .restartBacklog tag h)
    (grant : s.grants .award asks = true) (after : Handle.after h = none) :
    exec (.linkRestartBacklogVisit asks) s =
      .next (((s.granted .award asks).emptyBacklog h).completeRestart tag) := by
  have due : s.engine.visit = some .restartBacklog := by rw [item]; rfl
  have item' : (s.granted .award asks).engine = .restartBacklog tag h := item
  show Host.Outcome.next (s.engineVisit .restartBacklog asks _) = _
  simp only [State.engineVisit_granted run due grant, item', after]

namespace State.Settles

variable {s : State}

/-- The completion of an ADMIT: a refused one clears a FORMING record, which holds no place (R19). -/
theorem completeAdmit (law : s.ClassesLawful) {h : Handle} (forming : (s.station h).state = .forming)
    (result : ClassResult) (clamped : Bool) : s.Settles (s.completeAdmit h result clamped) h := by
  have accepts : s.Settles (s.writeBack h (admitted (s.station h) s.settings result)) h :=
    .writeBack law ⟨rfl, rfl⟩
  have refuses : s.Settles (s.freeAtHead h) h := .of_alike law (.freeAtHead law (by rw [forming]; decide)) h
  unfold State.completeAdmit
  split
  · exact (accepts.before (.enterIndex _ h)).before (.respond _ _ _ _)
  · exact refuses.before (.respond _ _ _ _)
  · exact refuses.before (.respond _ _ _ _)

theorem amendStation (law : s.ClassesLawful) (h : Handle) (f : AmendFields) (clamped : Bool) :
    s.Settles (s.amendStation h f clamped) h := by
  have amends : s.Settles (s.writeBack h ((s.station h).amended f)) h := .writeBack law ⟨rfl, rfl⟩
  unfold State.amendStation
  split
  · exact amends.before (.respond _ _ _ _)
  · exact .of_alike law (.respond _ _ _ _) h

theorem applyReapply (law : s.ClassesLawful) (h : Handle) (result : ClassResult) :
    s.Settles (s.applyReapply h result) h :=
  have applies : s.Settles
      (s.writeBack h { s.station h with profile := result.profile, trace := result.trace }) h :=
    .writeBack law ⟨rfl, rfl⟩
  applies.before (.respond _ _ _ _)

theorem retireStation (law : s.ClassesLawful) (h : Handle) : s.Settles (s.retireStation h) h := by
  unfold State.retireStation
  split
  · exact (State.Settles.retired law h _).before (.respond _ _ _ _)
  · exact .of_alike law (.respond _ _ _ _) h

end State.Settles

/-- Whichever visit re-evaluates a station settles its place in every class (R65). -/
theorem State.Reevaluates.settles {s : State} {v : Instr} {h : Handle} (reevaluates : s.Reevaluates v h)
    (run : s.resetLow = false) (rings : s.RingsLawful) : ∃ t, exec v s = .next t ∧ s.Settles t h := by
  have alike : ∀ r asks, s.Alike (s.granted r asks) := State.Alike.granted s
  have law : ∀ r asks, (s.granted r asks).ClassesLawful := fun r asks c =>
    (alike r asks).lawful (rings.classes c)
  cases reevaluates with
  | @backlogEntry asks e rest item grant =>
    exact ⟨_, exec_backlogEntryVisit run item grant,
      ((State.Settles.backlogEntry (law _ asks) e).after (alike _ _)).before (.engine _ _)⟩
  | @uplink asks _ airtime item grant =>
    exact ⟨_, exec_uplinkVisit run item grant,
      ((State.Settles.uplinkStation (law _ asks) h airtime).after (alike _ _)).before (.engine _ _)⟩
  | @doneMember asks id airtime m rest w item isOpen grant =>
    exact ⟨_, exec_doneMemberVisit run item grant isOpen,
      ((State.Settles.doneMember (law _ asks) id w airtime m.handle m.entry).after (alike _ _)).before
        (.engine _ _)⟩
  | @expiryMember asks id _ rest w i item isOpen issued grant =>
    exact ⟨_, exec_expiryMemberVisit run item grant isOpen issued,
      (((State.Settles.expiryMember (law _ asks) id w i h).after (alike _ _)).before
        (.raiseIf _ _ (by decide))).before (.engine _ _)⟩
  | @clearRelease asks m rest w item isOpen grant =>
    refine ⟨_, exec_releaseVisit_clear run item grant, ?_⟩
    have released := (State.Settles.releaseOne (law .award asks) m false).after (alike _ _)
    split
    · exact released.before (.releaseDone _)
    · exact released.before (.engine _ _)
  | @restartRelease asks tag m rest w item isOpen grant =>
    exact ⟨_, exec_releaseVisit_restart run item grant,
      ((State.Settles.releaseOne (law _ asks) m true).after (alike _ _)).before (.engine _ _)⟩
  | @restartBacklog asks tag _ item below grant =>
    obtain ⟨next, after⟩ := Handle.after_of_lt below
    exact ⟨_, exec_linkRestartBacklogVisit_goesOn run item grant after,
      ((State.Settles.emptyBacklog (law _ asks) h).after (alike _ _)).before (.engine _ _)⟩
  | @completion asks _ result clamped ex grant =>
    have forming : ((s.granted .request asks).station h).state = .forming := rings.forming h result clamped ex
    exact ⟨_, exec_admitCompletionVisit run ex grant,
      (State.Settles.completeAdmit (law _ asks) forming result clamped).after (alike _ _)⟩
  | @amend asks _ f clamped ex grant =>
    exact ⟨_, exec_amendVisit run ex grant,
      (State.Settles.amendStation (law _ asks) h f clamped).after (alike _ _)⟩
  | @reapplyApply asks _ result ex grant =>
    exact ⟨_, exec_reapplyApplyVisit run ex grant,
      (State.Settles.applyReapply (law _ asks) h result).after (alike _ _)⟩
  | @retire asks _ ex grant =>
    exact ⟨_, exec_retireVisit run ex grant,
      (State.Settles.retireStation (law _ asks) h).after (alike _ _)⟩
  | @clearRecord asks _ ex below grant =>
    obtain ⟨next, after⟩ := Handle.after_of_lt below
    exact ⟨_, exec_tableClearRecordVisit_goesOn run ex grant after,
      ((State.Settles.clearRecord (law _ asks) h).after (alike _ _)).before (.executing _ _)⟩
  | @walker asks p inStep grant =>
    exact ⟨_, exec_walkerVisit run inStep grant,
      ((State.Settles.walkRecord (law _ asks) p.next).after (alike _ _)).before
        (.of_fields rfl rfl rfl rfl rfl)⟩

/-! ### What a settled place is (R67, R68, R72, R73) -/

/-- An insertion into a ring with room writes the tail (R67). -/
theorem ClassView.insert_room {v : ClassView} (room : v.ring.occupancy < 255) (h : Handle) :
    (v.insert h).ring = { v.ring with slots := v.ring.slots.set v.ring.tail.toFin.val (some h)
                                      tail := v.ring.tail + 1 } ∧
      (v.insert h).slot h = some v.ring.tail ∧ (v.insert h).list = v.list := by
  unfold ClassView.insert Config.ringFull
  rw [if_pos room]
  exact ⟨rfl, if_pos rfl, rfl⟩

/-- An insertion behind a full ring appends to the list (R72). -/
theorem ClassView.Sound.insert_full {v : ClassView} {m : List Handle} (law : v.Sound m)
    (full : v.ring.occupancy = 255) (h : Handle) :
    (v.insert h).ring = v.ring ∧
      (v.insert h).list =
        { head := v.list.head.or (some h), tail := some h, length := v.list.length + 1 } ∧
      (v.insert h).place h = some { prev := v.list.tail, next := none } := by
  have ends : (if v.list.tail.isNone then some h else v.list.head) = v.list.head.or (some h) := by
    rw [law.head, law.tail]
    cases m with
    | nil => rfl
    | cons k rest => simp
  unfold ClassView.insert Config.ringFull
  rw [if_neg (by omega), ← ends]
  unfold ClassView.append
  dsimp only
  refine ⟨?_, rfl, if_pos rfl⟩
  cases v.list.tail <;> rfl

/-- An unlinking leaves the ring, and its neighbours become the list's ends where it was one (R73). -/
theorem ClassView.unlink_eq (v : ClassView) (h : Handle) (p : OverflowPlace) :
    (v.unlink h p).ring = v.ring ∧
      (v.unlink h p).list =
        { head := if p.prev = none then p.next else v.list.head
          tail := if p.next = none then p.prev else v.list.tail
          length := v.list.length - 1 } := by
  obtain ⟨prev, next⟩ := p
  cases prev <;> cases next <;> exact ⟨rfl, rfl⟩

theorem ClassView.settle_inserts {v : ClassView} {h : Handle} (out : ¬ v.holds h) :
    v.settle h true = v.insert h := by
  obtain ⟨slot, place⟩ : v.slot h = none ∧ v.place h = none := by simpa [ClassView.holds] using out
  simp [ClassView.settle, slot, place]

/-- The states show the same of a class in every record, its ring and its list. -/
theorem State.same_of_view {s t : State} {c : ServiceClass} (same : t.view c = s.view c) :
    t.ring c = s.ring c ∧ t.overflowList c = s.overflowList c ∧
      ∀ k, (t.station k).ringSlot.get c = (s.station k).ringSlot.get c ∧
        (t.station k).overflow.get c = (s.station k).overflow.get c :=
  ⟨congrArg ClassView.ring same, congrArg ClassView.list same, fun k =>
    ⟨congrArg (fun v => ClassView.slot v k) same, congrArg (fun v => ClassView.place v k) same⟩⟩

namespace State.Settles

variable {s t : State} {h : Handle}

/-- A station that stays eligible keeps its place, and so does the class (R65). -/
theorem keeps (b : s.Settles t h) (law : s.ClassesLawful) {c : ServiceClass}
    (was : (s.station h).eligible c = true) (is : (t.station h).eligible c = true) :
    t.view c = s.view c := by
  rw [b.view, is, ← was, State.view_settled (law c)]

/-- A station that becomes eligible is inserted (R65). -/
theorem inserts (b : s.Settles t h) (law : s.ClassesLawful) {c : ServiceClass}
    (was : (s.station h).eligible c = false) (is : (t.station h).eligible c = true) :
    ¬ (s.view c).holds h ∧ t.view c = (s.view c).insert h := by
  have out : ¬ (s.view c).holds h := by
    rw [← show _ ↔ (s.view c).holds h from (law c).places h, was]
    exact Bool.false_ne_true
  exact ⟨out, by rw [b.view, is, ClassView.settle_inserts out]⟩

end State.Settles

/-- Settles O47: every visit that re-evaluates a station settles its place, and an insertion ends the line. -/
theorem eligibleStationIsInserted : Obligations.EligibleStationIsInserted := by
  refine ⟨fun r c => ?_, fun s v h run rings reevaluates => ?_⟩
  · simp [StationRecord.eligible, StationRecord.isWaiting, StationRecord.ready, and_assoc]
  · obtain ⟨t, made, settles⟩ := reevaluates.settles run rings
    have law : s.ClassesLawful := rings.classes
    refine ⟨t, made, fun c was is => ?_, fun c was is => ?_, settles.overflow, settles.waiting⟩
    · obtain ⟨ring, list, records⟩ := State.same_of_view (settles.keeps law was is)
      exact ⟨ring, list, records h⟩
    · obtain ⟨out, inserted⟩ := settles.inserts law was is
      obtain ⟨m, sound⟩ := ((State.classLawful_iff s c).mp (law c)).1
      refine ⟨fun line inLine => ?_, fun room => ?_, fun full => ?_⟩
      · rw [State.inLine_iff (settles.lawful law c), inserted]
        exact ((State.inLine_iff (law c) line).mp inLine).insert out
      · obtain ⟨ring, slot, list⟩ := ClassView.insert_room (v := s.view c) room h
        rw [← inserted] at ring slot list
        exact ⟨ring, slot, list⟩
      · obtain ⟨ring, list, place⟩ := sound.insert_full full h
        rw [← inserted] at ring list place
        exact ⟨ring, list, place⟩

/-- Settles O48: every visit that re-evaluates a station settles its place, and one that leaves it ineligible
takes it from its slot or its list. -/
theorem ineligibleStationGivesUpPlace : Obligations.IneligibleStationGivesUpPlace := by
  intro s v h run rings reevaluates
  obtain ⟨t, made, settles⟩ := reevaluates.settles run rings
  have law : s.ClassesLawful := rings.classes
  refine ⟨t, made, fun c out => ?_⟩
  have view := settles.view c
  rw [out] at view
  obtain ⟨noSlot, noPlace⟩ := State.unplaced_of_out (settles.lawful law c) out
  refine ⟨noSlot, noPlace, fun line inLine => ?_, fun i isAt => ?_, fun p listed => ?_,
    fun unslotted unlisted => ?_⟩
  · rw [State.inLine_iff (settles.lawful law c), view]
    exact ((State.inLine_iff (law c) line).mp inLine).settle h false
  · have slot : (s.view c).slot h = some i := isAt
    have hole : t.view c = (s.view c).makeHole h i := by
      rw [view]
      simp [ClassView.settle, slot]
    exact ⟨congrArg ClassView.ring hole, congrArg ClassView.list hole⟩
  · have place : (s.view c).place h = some p := listed
    have slot : (s.view c).slot h = none := by
      refine Option.not_isSome_iff_eq_none.mp fun slotted => (law c).single h ⟨slotted, ?_⟩
      rw [listed]
      rfl
    have unlinked : t.view c = (s.view c).unlink h p := by
      rw [view]
      simp [ClassView.settle, slot, place]
    obtain ⟨ring, list⟩ := (s.view c).unlink_eq h p
    rw [← unlinked] at ring list
    exact ⟨ring, list⟩
  · have slot : (s.view c).slot h = none := unslotted
    have place : (s.view c).place h = none := unlisted
    have stays : t.view c = s.view c := by
      rw [view]
      simp [ClassView.settle, slot, place]
    obtain ⟨ring, list, _⟩ := State.same_of_view stays
    exact ⟨ring, list⟩

end Sys2Proof.Machine
end

section
/-!
PROOFS. The visits of a link restart's second part (O32): each empties one backlog, and the last resets the rings
(R78, R130).
-/

namespace Sys2Proof.Machine

/-- Beyond the rings, a visit of the second part empties the backlog of an ACTIVE record (R130). -/
theorem State.emptyBacklog_frame (s : State) (h : Handle) :
    (s.emptyBacklog h).beyondRings =
      (s.setStation h
        { s.station h with
          backlog := if (s.station h).state = .active then ClassSet.none
            else (s.station h).backlog }).beyondRings := by
  unfold State.emptyBacklog
  dsimp only
  by_cases active : (s.station h).state = .active
  · rw [if_pos active, if_pos active]
    exact State.writeBack_frame s h _
  · rw [if_neg active, if_neg active]
    exact congrArg State.beyondRings (s.setStation_station h).symm

/-- Beyond the rings, the completion of a restart raises LINK_RESTART and answers the SYNC (R130). -/
theorem State.completeRestart_frame {s t : State} (same : t.beyondRings = s.beyondRings) (tag : Byte) :
    (t.completeRestart tag).beyondRings =
      State.beyondRings
        { s with engine := .answer (.sync tag), flags := { s.flags with linkRestart := true } } := by
  have on : ∀ u : State, (u.completeRestart tag).beyondRings = u.beyondRings.completeRestart tag :=
    fun _ => rfl
  rw [on, same]
  rfl

/-- Settles O32: the visits of a link restart's second part. -/
theorem restartVisitEmptiesBacklog : Obligations.RestartVisitEmptiesBacklog := by
  intro s asks tag h run item grant
  have emptied := (s.granted .award asks).emptyBacklog_frame h
  cases after : Handle.after h with
  | some next =>
    have below := Handle.after_some after
    refine ⟨_, exec_linkRestartBacklogVisit_goesOn run item grant after, fun lt => ?_, fun last => ?_⟩
    · obtain rfl : next = ⟨h.val + 1, lt⟩ := Fin.ext below
      exact State.engine_frame emptied _
    · have := next.isLt
      omega
  | none =>
    have last := Handle.after_none after
    refine ⟨_, exec_linkRestartBacklogVisit_completes run item grant after, fun lt => by omega,
      fun _ => ⟨State.completeRestart_frame emptied tag, fun c => ?_⟩⟩
    exact PerClass.get_const Ring.powerOn c

end Sys2Proof.Machine
end

section
/-!
PROOFS. The first pop visit of a class in which no station stands in line (O34): the DECLINE, and the report to
the walker (R69, R87, R114, R178).
-/

namespace Sys2Proof.Machine

/-- A report pulls a step in under the five conditions of R114. -/
theorem State.pullsIn_iff (s : State) :
    s.pullsIn = true ↔ s.settings.pullIn = 1 ∧ s.walker.lag = 0 ∧ s.walker.lead < 8 ∧
      s.walker.step = none ∧ s.walker.timerRunning = true := by
  unfold State.pullsIn Config.walkerLimit
  simp only [Bool.and_eq_true, beq_iff_eq, decide_eq_true_eq, Option.isNone_iff_eq_none, and_assoc]

/-- An empty ring with nobody waiting declines for want of a station (R87). -/
theorem State.declineEmpty_noStation {s : State} {a : AskFields} (nobody : s.waiting.get a.cls = 0) :
    s.declineEmpty a = { s with engine := .answer (.decline a.tag a.cls .noStation) } := by
  unfold State.declineEmpty
  rw [if_neg (by omega)]
  rfl

/-- An empty ring with a station waiting declines for want of credit, and pulls a step in (R87, R114). -/
theorem State.declineEmpty_pulls {s : State} {a : AskFields} (waits : 0 < s.waiting.get a.cls)
    (pulls : s.pullsIn = true) :
    s.declineEmpty a =
      { s with
        engine := .answer (.decline a.tag a.cls .noCredit)
        walker := { s.walker with lead := s.walker.lead + 1 }.beginStep .pulledIn } := by
  unfold State.declineEmpty State.noCreditReport
  rw [if_pos waits, if_pos pulls]
  rfl

/-- An empty ring with a station waiting declines for want of credit where no step is pulled in (R87). -/
theorem State.declineEmpty_noCredit {s : State} {a : AskFields} (waits : 0 < s.waiting.get a.cls)
    (stays : s.pullsIn = false) :
    s.declineEmpty a = { s with engine := .answer (.decline a.tag a.cls .noCredit) } := by
  unfold State.declineEmpty State.noCreditReport
  rw [if_pos waits, stays]
  rfl

/-- A first pop visit with no station in line finds an empty ring, brings its head to its tail and declines the
ASK (R69, R87). -/
theorem State.popVisit_declines {s : State} (law : ∀ d, s.ClassLawful d) {a : AskFields}
    (noStation : s.firstInLine a.cls = none) (defers : Bool) :
    s.popVisit defers a =
      (s.setRing a.cls { s.ring a.cls with head := (s.ring a.cls).tail }).declineEmpty a := by
  have head := (State.clearHead_head law).1.trans noStation
  unfold State.popVisit
  dsimp only
  rw [head]
  dsimp only
  rw [State.clearHead_none law noStation]

/-- Settles O34: the first pop visit of a class with no station in line. -/
theorem popVisitOfEmptyRingDeclines : Obligations.PopVisitOfEmptyRingDeclines := by
  intro s pop a run item grant rings noStation
  dsimp only
  have law := (rings.granted .award pop.asks).classes
  have noStation' : (s.granted .award pop.asks).firstInLine a.cls = none := noStation
  rw [exec_popVisit run item grant, State.popVisit_declines law noStation']
  generalize emptied : (s.granted .award pop.asks).setRing a.cls _ = t
  have waiting : t.waiting = s.waiting := emptied ▸ rfl
  have pulls : t.pullsIn = s.pullsIn := emptied ▸ rfl
  rw [← s.pullsIn_iff, ← pulls, ← waiting, Bool.not_eq_true]
  refine ⟨fun nobody => ?_, fun waits pulled => ?_, fun waits stays => ?_⟩
  · rw [State.declineEmpty_noStation nobody, ← emptied]
    rfl
  · rw [State.declineEmpty_pulls waits pulled, ← emptied]
    rfl
  · rw [State.declineEmpty_noCredit waits stays, ← emptied]
    rfl

end Sys2Proof.Machine
end

section
/-!
PROOFS. The conditional pop visit (O36): a further member popped, or the end of member selection, and the duration
of the award (R52, R69, R70, R74, R88, R89, R91).
-/

namespace Sys2Proof.Machine

/-! ### The duration of an award (R52) -/

/-- The duration is the least of the txop taken into its range and the recorded allowances. -/
theorem awardDuration_least (txop : Nat) (allowances : List Int) :
    ∃ least ∈ (clampNat txop 32 16383 : Int) :: allowances,
      (∀ x ∈ (clampNat txop 32 16383 : Int) :: allowances, least ≤ x) ∧
      awardDuration txop allowances = least.toNat := by
  have start : min (clampNat txop Config.txopLeast Config.durationLimit : Int)
      (Config.durationLimit : Nat) = clampNat txop 32 16383 := by
    have most := clampNat_le (lo := 32) (hi := 16383) txop (by decide)
    unfold Config.txopLeast Config.durationLimit
    omega
  have least : ((clampNat txop 32 16383 : Int) :: allowances).min? =
      some (allowances.foldl min (clampNat txop 32 16383 : Int)) := List.min?_cons'
  obtain ⟨mem, below⟩ := List.min?_eq_some_iff.mp least
  exact ⟨_, mem, below, by rw [awardDuration, start]⟩

theorem awardDuration_bounds (txop : Nat) {allowances : List Int} (positive : ∀ x ∈ allowances, 1 ≤ x) :
    1 ≤ (awardDuration txop allowances : Int) ∧ (awardDuration txop allowances : Int) ≤ 16383 ∧
      (awardDuration txop allowances : Int) ≤ max 32 (txop : Int) ∧
      (∀ x ∈ allowances, (awardDuration txop allowances : Int) ≤ x) ∧
      ((awardDuration txop allowances : Int) = 16383 ∨
        (awardDuration txop allowances : Int) = max 32 (txop : Int) ∨
        (awardDuration txop allowances : Int) ∈ allowances) := by
  obtain ⟨least, mem, below, isLeast⟩ := awardDuration_least txop allowances
  have taken : (clampNat txop 32 16383 : Int) = max 32 (min (txop : Int) 16383) := by
    unfold clampNat
    omega
  have first := below _ List.mem_cons_self
  have atLeast : 1 ≤ least := by
    rcases List.mem_cons.mp mem with own | isAllowed
    · omega
    · exact positive least isAllowed
  have d : (awardDuration txop allowances : Int) = least := by
    rw [isLeast]
    exact Int.toNat_of_nonneg (by omega)
  rw [d]
  refine ⟨atLeast, by omega, by omega, fun x isAllowed => below x (List.mem_cons_of_mem _ isAllowed), ?_⟩
  rcases List.mem_cons.mp mem with own | isAllowed
  · omega
  · exact Or.inr (Or.inr isAllowed)

/-! ### The end of member selection (R89, R91) -/

/-- What the end of member selection makes of an award, and the engine's item after it: the award is issued with
its answer, or its issuing step is still to come. -/
def State.selectionEnd (s : State) (defers : Bool) (a : AskFields) (id : AwardId) (w : OpenAward)
    (allowances : List Int) : OpenAward × EngineItem :=
  if defers then (w, .issuing a id allowances)
  else
    ({ w with issue := some ⟨awardDuration a.txop allowances,
        s.timebase + BitVec.ofNat 32 s.settings.awardTimeout⟩ },
      .answer (.award w.askTag id (s.entry id).generation w.cls (awardDuration a.txop allowances)
        (w.members.map (·.handle))))

/-- The end of member selection sees the time, the settings and the entry's generation only. -/
theorem State.selectionEnd_congr {s t : State} {id : AwardId} (timebase : t.timebase = s.timebase)
    (settings : t.settings = s.settings)
    (generation : (t.entry id).generation = (s.entry id).generation) (defers : Bool) (a : AskFields)
    (w : OpenAward) (allowances : List Int) :
    t.selectionEnd defers a id w allowances = s.selectionEnd defers a id w allowances := by
  rw [State.selectionEnd, State.selectionEnd, timebase, settings, generation]

theorem State.endSelection_eq {s : State} {id : AwardId} {w : OpenAward}
    (isOpen : (s.entry id).award = some w) (defers : Bool) (a : AskFields) (allowances : List Int) :
    s.endSelection defers a id allowances =
      { s with
        awards := s.awards.set id.val
          { s.entry id with award := some (s.selectionEnd defers a id w allowances).1 }
        engine := (s.selectionEnd defers a id w allowances).2 } := by
  cases defers with
  | true =>
    have same : s.awards.set id.val { s.entry id with award := some w } = s.awards := by
      rw [← isOpen]
      exact Vector.set_getElem_self _
    rw [State.endSelection_deferred, State.selectionEnd, if_pos rfl, same]
  | false =>
    rw [State.endSelection_now, State.issueAward_open isOpen, State.selectionEnd, if_neg Bool.false_ne_true]

/-! ### A further member (R70, R88) -/

/-- An award with a further held member. -/
def OpenAward.joined (w : OpenAward) (h : Handle) : OpenAward := { w with members := w.members ++ [⟨h, true⟩] }

/-- What a further member makes of an award, and the engine's item after it: more are sought below the maximum,
and at the maximum member selection ends. -/
def State.furtherEnd (s : State) (defers : Bool) (a : AskFields) (id : AwardId) (w : OpenAward)
    (allowances : List Int) (h : Handle) : OpenAward × EngineItem :=
  if allowances.length + 1 < a.members then
    (w.joined h, .askMore a id (allowances ++ [allowance (s.station h)]))
  else s.selectionEnd defers a id (w.joined h) (allowances ++ [allowance (s.station h)])

theorem State.appendMember_popHead {s : State} {id : AwardId} {w : OpenAward}
    (isOpen : (s.entry id).award = some w) (c : ServiceClass) (h : Handle) :
    (s.popHead c h).appendMember id h =
      { s.popHead c h with
        awards := s.awards.set id.val { s.entry id with award := some (w.joined h) } } := by
  have isOpen' : ((s.popHead c h).entry id).award = some w := by rw [State.entry_popHead, isOpen]
  rw [State.appendMember, isOpen']
  dsimp only
  rw [State.entry_popHead, State.setEntry, State.popHead_awards]
  rfl

/-- A further member is popped, joins the award and sets the item. -/
theorem State.popFurther_eq {s : State} {id : AwardId} {w : OpenAward}
    (isOpen : (s.entry id).award = some w) (defers : Bool) (a : AskFields) (allowances : List Int)
    (h : Handle) :
    s.popFurther defers a id allowances h =
      { s.popHead a.cls h with
        awards := s.awards.set id.val
          { s.entry id with award := some (s.furtherEnd defers a id w allowances h).1 }
        engine := (s.furtherEnd defers a id w allowances h).2 } := by
  unfold State.popFurther State.furtherEnd
  dsimp only
  rw [State.appendMember_popHead isOpen, List.length_append, List.length_singleton]
  split
  · rfl
  · generalize appended : ({ s.popHead a.cls h with
      awards := s.awards.set id.val { s.entry id with award := some (w.joined h) } } : State) = t
    have entry : t.entry id = { s.entry id with award := some (w.joined h) } := by
      rw [← appended]
      exact Vector.getElem_set_self _
    have timebase : t.timebase = s.timebase := by
      rw [← appended]
      exact State.popHead_timebase s a.cls h
    have settings : t.settings = s.settings := by
      rw [← appended]
      exact State.popHead_settings s a.cls h
    have isJoined : (t.entry id).award = some (w.joined h) := by rw [entry]
    have generation : (t.entry id).generation = (s.entry id).generation := by rw [entry]
    rw [State.endSelection_eq isJoined, State.selectionEnd_congr timebase settings generation, entry,
      ← appended, Vector.set_set]

/-! ### The visit -/

theorem exec_conditionalPopVisit {s : State} {pop : PopOperands} {a : AskFields} {id : AwardId}
    {allowances : List Int} (run : s.resetLow = false) (item : s.engine = .askMore a id allowances)
    (grant : s.grants .award pop.asks = true) :
    exec (.conditionalPopVisit pop) s =
      .next ((s.granted .award pop.asks).conditionalPop pop.defers a id allowances) := by
  have due : s.engine.visit = some .conditionalPop := by rw [item]; rfl
  have item' : (s.granted .award pop.asks).engine = .askMore a id allowances := item
  show Host.Outcome.next (s.engineVisit .conditionalPop pop.asks _) = _
  rw [State.engineVisit_granted run due grant, item']

section Visit
variable {s : State} {a : AskFields} {id : AwardId} {w : OpenAward} {h : Handle}

/-- The descriptor and the allowance of a record are the same once the holes are discarded. -/
theorem State.clearHead_record (s : State) (c : ServiceClass) (h : Handle) :
    ((s.clearHead c).station h).descriptor = (s.station h).descriptor ∧
      allowance ((s.clearHead c).station h) = allowance (s.station h) :=
  have record := State.unplaced_of_frame (State.clearHead_frame s c) h
  ⟨(congrArg StationRecord.descriptor record :), (congrArg allowance record :)⟩

theorem State.selectionEnd_clearHead (s : State) (c : ServiceClass) (defers : Bool) (a : AskFields)
    (id : AwardId) (w : OpenAward) (allowances : List Int) :
    (s.clearHead c).selectionEnd defers a id w allowances = s.selectionEnd defers a id w allowances :=
  State.selectionEnd_congr (State.clearHead_timebase s c) (State.clearHead_settings s c)
    (congrArg AwardEntry.generation (State.entry_of_frame (State.clearHead_frame s c) id)) defers a w
    allowances

/-- With no station in line, or one at the head that is not capable, member selection ends (R70). -/
theorem State.conditionalPop_ends (law : ∀ d, s.ClassLawful d) (isOpen : (s.entry id).award = some w)
    (ends : ∀ k, s.firstInLine a.cls = some k → (s.station k).descriptor.multiUser = false)
    (defers : Bool) (allowances : List Int) :
    s.conditionalPop defers a id allowances =
      { s.clearHead a.cls with
        awards := s.awards.set id.val
          { s.entry id with award := some (s.selectionEnd defers a id w allowances).1 }
        engine := (s.selectionEnd defers a id w allowances).2 } := by
  have head := (State.clearHead_head (c := a.cls) law).1
  have entry := State.entry_of_frame (State.clearHead_frame s a.cls) id
  have ended := State.endSelection_eq (s := s.clearHead a.cls) (entry ▸ isOpen) defers a allowances
  rw [State.selectionEnd_clearHead, entry, State.clearHead_awards] at ended
  unfold State.conditionalPop
  dsimp only
  rw [head]
  cases first : s.firstInLine a.cls with
  | none => exact ended
  | some k =>
    dsimp only
    rw [(s.clearHead_record a.cls k).1, ends k first, if_neg Bool.false_ne_true]
    exact ended

/-- A capable station in line is popped and joins the award (R70, R88). -/
theorem State.conditionalPop_joins (law : ∀ d, s.ClassLawful d) (isOpen : (s.entry id).award = some w)
    (first : s.firstInLine a.cls = some h) (capable : (s.station h).descriptor.multiUser = true)
    (defers : Bool) (allowances : List Int) :
    s.conditionalPop defers a id allowances =
      { s.popped a.cls h with
        awards := s.awards.set id.val
          { s.entry id with award := some (s.furtherEnd defers a id w allowances h).1 }
        engine := (s.furtherEnd defers a id w allowances h).2 } := by
  have head := (State.clearHead_head law).1.trans first
  obtain ⟨descriptor, allowed⟩ := s.clearHead_record a.cls h
  have entry := State.entry_of_frame (State.clearHead_frame s a.cls) id
  have joins := State.popFurther_eq (s := s.clearHead a.cls) (entry ▸ isOpen) defers a allowances h
  rw [State.furtherEnd, allowed, State.selectionEnd_clearHead, ← State.furtherEnd, entry,
    State.clearHead_awards] at joins
  unfold State.conditionalPop
  dsimp only
  rw [head]
  dsimp only
  rw [descriptor, if_pos capable]
  exact joins

/-- The states agree in every class but one. -/
def State.OthersAgree (s t : State) (c : ServiceClass) : Prop :=
  ∀ d, d ≠ c → t.ring d = s.ring d ∧ t.overflowList d = s.overflowList d ∧
    ∀ k, (t.station k).ringSlot.get d = (s.station k).ringSlot.get d ∧
      (t.station k).overflow.get d = (s.station k).overflow.get d

theorem State.clearHead_others (s : State) (c : ServiceClass) : s.OthersAgree (s.clearHead c) c :=
  fun _ ne => State.same_of_view (State.view_clearHead_ne s ne)

theorem State.popped_others (s : State) (c : ServiceClass) (h : Handle) : s.OthersAgree (s.popped c h) c :=
  fun _ ne => State.same_of_view (State.view_popped_ne s ne h)

theorem State.clearHead_flags (s : State) (c : ServiceClass) : (s.clearHead c).flags = s.flags :=
  State.discardHoles_flags 256 s c

/-- Beyond the rings, the discarding of holes in a visit that writes the awards and sets the item changes those
only (R69). -/
theorem State.clearHead_claim_frame (s : State) (c : ServiceClass) (awards : Vector AwardEntry 16)
    (item : EngineItem) :
    State.beyondRings { s.clearHead c with awards := awards, engine := item } =
      State.beyondRings { s with awards := awards, engine := item } :=
  congrArg (fun u : State => { u with awards := awards, engine := item }) (State.clearHead_frame s c)

/-- A station found at the head records the head as its slot (R66, R69). -/
theorem State.ringSlot_of_headStation {c : ServiceClass} (law : s.ClassLawful c)
    (head : s.headStation c = some h) : (s.station h).ringSlot.get c = some (s.ring c).head := by
  unfold State.headStation at head
  split at head
  · cases head
  · exact (law.slots _ _).mp head

end Visit

/-- Settles O36: the conditional pop visit, and the duration of the award it may end. -/
theorem conditionalPopVisitSeeksMember : Obligations.ConditionalPopVisitSeeksMember := by
  refine ⟨fun s pop a id allowances w run item grant rings isOpen => ?_,
    fun txop allowances positive => awardDuration_bounds txop positive⟩
  dsimp only
  have law := (rings.granted .award pop.asks).classes
  have isOpen' : ((s.granted .award pop.asks).entry id).award = some w := isOpen
  rw [exec_conditionalPopVisit run item grant]
  by_cases joins : ∃ h, s.firstInLine a.cls = some h ∧ (s.station h).descriptor.multiUser = true
  · obtain ⟨h, first, capable⟩ := joins
    have first' : (s.granted .award pop.asks).firstInLine a.cls = some h := first
    rw [State.conditionalPop_joins law isOpen' first' capable, first]
    refine ⟨_, rfl, State.popped_others (s.granted .award pop.asks) a.cls h,
      State.popped_waiting (s.granted .award pop.asks) a.cls h,
      State.popped_flags (s.granted .award pop.asks) a.cls h, fun nobody => (by cases nobody), ?_⟩
    rintro _ ⟨⟩
    refine ⟨fun incapable => absurd capable (by simp [incapable]), fun _ =>
      ⟨?_, ?_, fun line inLine => ?_, fun below => ?_, fun atMost => ?_⟩⟩
    · exact State.popped_ringSlot (s.granted .award pop.asks) a.cls h
    · exact ((State.popFirst_advances law first').from_view (t := s) rfl).ofRings rfl rfl rfl
    · obtain ⟨rest, isLine, popped⟩ := State.inLine_popped law first'
        (State.InLine.of_view (t := s.granted .award pop.asks) inLine rfl)
      exact ⟨rest, isLine, popped.of_view rfl⟩
    all_goals rw [State.popped_claim_frame]
    · have seeks : allowances.length + 1 < a.members := below
      rw [State.furtherEnd, if_pos seeks]
      rfl
    · have ends : ¬ allowances.length + 1 < a.members := not_lt.mpr atMost
      rw [State.furtherEnd, if_neg ends]
      rfl
  · have ends : ∀ k, (s.granted .award pop.asks).firstInLine a.cls = some k →
        ((s.granted .award pop.asks).station k).descriptor.multiUser = false := fun k found =>
      Bool.eq_false_iff.mpr fun capable => joins ⟨k, found, capable⟩
    have stopped := (s.granted .award pop.asks).clearHead_claim_frame a.cls
    have discards := (State.clearHead_advances (c := a.cls) law).from_view (t := s) rfl
    rw [State.conditionalPop_ends law isOpen' ends]
    refine ⟨_, rfl, State.clearHead_others (s.granted .award pop.asks) a.cls,
      State.clearHead_waiting (s.granted .award pop.asks) a.cls,
      State.clearHead_flags (s.granted .award pop.asks) a.cls,
      fun nobody => ⟨stopped _ _, discards.ofRings rfl rfl rfl, (State.clearHead_head law).2 nobody⟩,
      fun h first => ⟨fun _ => ⟨stopped _ _, discards.ofRings rfl rfl rfl, ?_, fun line inLine => ?_⟩,
        fun capable => (joins ⟨h, first, capable⟩).elim⟩⟩
    · have slot := State.ringSlot_of_headStation (State.clearHead_lawful a.cls law a.cls)
        ((State.clearHead_head law).1.trans first)
      exact slot
    · have kept := State.inLine_clearHead (c := a.cls) law
        (State.InLine.of_view (t := s.granted .award pop.asks) inLine rfl)
      exact kept.of_view rfl

end Sys2Proof.Machine
end

section
/-!
PROOFS. Time and the expiries it brings: the passing of time to the deadlines and to the step timer's expiry (O2),
and the taking of a due expiry (O40) (R98 to R100, R105, R106).
-/

namespace Sys2Proof.Machine

/-! ### Distances (R105) -/

theorem distance_self (now : Word) : distance now now = 0 := by
  rw [distance, sub_self]
  rfl

theorem distance_pos {now later : Word} : 0 < distance now later ↔ now ≠ later := by
  rw [Nat.pos_iff_ne_zero, ← not_iff_not, not_not, not_not]
  constructor
  · intro none_
    rw [← add_distance now later, none_]
    exact (add_zero now).symm
  · rintro rfl
    exact distance_self now

/-- A moment is one microsecond off exactly when it is the next (R105). -/
theorem distance_one {now later : Word} :
    0 < distance now later ∧ distance now later ≤ 1 ↔ later = now + 1 := by
  constructor
  · rintro ⟨least, most⟩
    rw [← add_distance now later, le_antisymm most least]
    rfl
  · rintro rfl
    rw [distance, add_sub_cancel_left]
    decide

/-! ### Time passes (R98, R105) -/

theorem allAwardIds_nodup : allAwardIds.Nodup := by decide

/-- Values that each name what they come from are not repeated. -/
theorem nodup_filterMap_of_key {α β : Type} {f : α → Option β} (key : β → α)
    (named : ∀ a b, f a = some b → key b = a) {l : List α} (nodup : l.Nodup) : (l.filterMap f).Nodup :=
  nodup.filterMap fun a a' b found found' => (named a b found).symm.trans (named a' b found')

/-- Each expiry becomes due once (R98). -/
theorem State.newlyDue_nodup (s : State) (n : Nat) : (s.newlyDue n).Nodup := by
  refine nodup_filterMap_of_key DueExpiry.id (fun id d found => ?_) allAwardIds_nodup
  split at found
  · cases found
  · split at found
    · cases found
    · split at found <;> cases found
      rfl

/-- Time that goes on to a moment comes to it (R105). -/
theorem State.pass_timebase_distance (s : State) (later : Word) :
    (s.pass (distance s.timebase later)).timebase = later := add_distance s.timebase later

/-- An expiry that is due stays due as time goes on. -/
theorem State.mem_dueExpiries_pass {s : State} {n : Nat} {d : DueExpiry} :
    d ∈ (s.pass n).dueExpiries ↔ d ∈ s.dueExpiries ∨ d ∈ s.newlyDue n := List.mem_append

/-! ### The step timer's expiry (R106, R107) -/

theorem State.raiseIf_fields (s : State) (b : Bool) (f : Flag) :
    (s.raiseIf b f).timebase = s.timebase ∧ (s.raiseIf b f).walker = s.walker ∧
      (s.raiseIf b f).stations = s.stations ∧ (s.raiseIf b f).awards = s.awards ∧
      (s.raiseIf b f).engine = s.engine ∧ (s.raiseIf b f).dueExpiries = s.dueExpiries := by
  cases b <;> exact ⟨rfl, rfl, rfl, rfl, rfl, rfl⟩

/-- The step timer's expiry changes the walker, the counters and the flags only (R107). -/
theorem State.timerExpiry_fields (s : State) :
    s.timerExpiry.timebase = s.timebase ∧
      s.timerExpiry.walker.nextExpiry = s.walker.nextExpiry + BitVec.ofNat 32 s.settings.stepInterval ∧
      s.timerExpiry.stations = s.stations ∧ s.timerExpiry.awards = s.awards ∧
      s.timerExpiry.engine = s.engine ∧ s.timerExpiry.dueExpiries = s.dueExpiries := by
  obtain ⟨timebase, walker, stations, awards, engine, due⟩ := State.raiseIf_fields
    { s with walker := { s.walker.expire with
        nextExpiry := s.walker.nextExpiry + BitVec.ofNat 32 s.settings.stepInterval } }
    s.walker.forfeits .forfeit
  exact ⟨timebase, (congrArg Walker.nextExpiry walker :), stations, awards, engine, due⟩

theorem exec_stepTimerExpiry {s : State} (run : s.resetLow = false)
    (runs : s.walker.timerRunning = true) :
    exec .stepTimerExpiry s = .next (s.pass (distance s.timebase s.walker.nextExpiry)).timerExpiry := by
  show execStepTimerExpiry s = _
  rw [execStepTimerExpiry, if_neg (by simp [run]), if_pos runs]

/-- At the timer's expiry value the command is the expiry alone. -/
theorem exec_stepTimerExpiry_due {s : State} (run : s.resetLow = false)
    (runs : s.walker.timerRunning = true) (now : s.timebase = s.walker.nextExpiry) :
    exec .stepTimerExpiry s = .next s.timerExpiry := by
  rw [exec_stepTimerExpiry run runs, now, distance_self, State.pass_zero]

/-- A step without a command is what the part does of itself. -/
theorem step_idle {s : State} (empty : s.pending = []) : step s = .next s.idleStep := by
  rw [step, empty]

/-- Settles O2: an empty queue, the passing of time, and the command of the step timer's expiry. -/
theorem timePassesToExpiries : Obligations.TimePassesToExpiries := by
  refine ⟨fun s empty => ⟨fun low => ?_, fun run runs now => ?_, fun run waits => ?_⟩,
    fun s n => ⟨s.newlyDue n, rfl, s.newlyDue_nodup n, s.mem_newlyDue n⟩, fun s run runs => ?_⟩
  · rw [step_idle empty, State.idleStep, if_pos low]
  · have due : s.timerDue = true := by simp [State.timerDue, runs, now]
    rw [step_idle empty, State.idleStep, if_neg (by simp [run]), if_pos due,
      exec_stepTimerExpiry_due run runs now]
  · have notDue : ¬ s.timerDue = true := by simpa [State.timerDue] using waits
    refine ⟨s.newlyDue 1, ?_, fun d => (s.mem_newlyDue 1 d).trans ?_⟩
    · rw [step_idle empty, State.idleStep, if_neg (by simp [run]), if_neg notDue]
      rfl
    · refine exists_congr fun w => exists_congr fun i => ?_
      rw [distance_one]
      tauto
  · have now := s.pass_timebase_distance s.walker.nextExpiry
    have reaches := exec_stepTimerExpiry run runs
    obtain ⟨timebase, nextExpiry, stations, awards, engine, due⟩ :=
      (s.pass (distance s.timebase s.walker.nextExpiry)).timerExpiry_fields
    refine ⟨now, reaches.trans (exec_stepTimerExpiry_due (s := s.pass _) run runs now).symm, _, reaches,
      timebase.trans now, nextExpiry, stations, awards, engine, fun id w i isOpen issued later within => ?_⟩
    rw [due, State.mem_dueExpiries_pass]
    exact Or.inr ((s.mem_newlyDue _ _).mpr
      ⟨w, i, isOpen, issued, rfl, distance_pos.mpr (Ne.symm later), within⟩)

/-! ### The taking of an expiry (R98 to R100) -/

section Expiry
variable {s : State} {id : AwardId} {generation : BitVec 4}

theorem exec_awardExpiry_due (run : s.resetLow = false) (free : s.engine = .idle)
    (due : ⟨id, generation⟩ ∈ s.dueExpiries) :
    exec (.awardExpiry id generation) s = .next (s.takeExpiry ⟨id, generation⟩) := by
  have may : ¬ s.engineFree = false := by simp [State.engineFree, run, free]
  show execAwardExpiry id generation s = _
  rw [execAwardExpiry, if_neg may, if_pos due]

/-- An award still OPEN under the generation named expires (R99). -/
theorem State.takeExpiry_open {w : OpenAward} (isOpen : (s.entry id).award = some w)
    (named : (s.entry id).generation = generation) :
    s.takeExpiry ⟨id, generation⟩ =
      { s with
        dueExpiries := s.dueExpiries.erase ⟨id, generation⟩
        engine := .expiry id w.heldHandles } := by
  have isOpen' : (State.entry { s with dueExpiries := s.dueExpiries.erase ⟨id, generation⟩ } id).award =
      some w := isOpen
  rw [State.takeExpiry]
  dsimp only
  rw [isOpen']
  exact if_pos named

/-- An expiry whose award is closed, or open anew, lapses (R100). -/
theorem State.takeExpiry_lapsed
    (lapsed : (s.entry id).award = none ∨ (s.entry id).generation ≠ generation) :
    s.takeExpiry ⟨id, generation⟩ = { s with dueExpiries := s.dueExpiries.erase ⟨id, generation⟩ } := by
  rw [State.takeExpiry]
  dsimp only
  split
  · rfl
  · next w isOpen =>
    have isOpen' : (s.entry id).award = some w := isOpen
    exact if_neg (lapsed.resolve_left (by simp [isOpen']))

/-- The command of an expiry whose deadline is next carries time on to it (log 1). -/
theorem exec_awardExpiry_next {w : OpenAward} {i : Issue} (run : s.resetLow = false)
    (free : s.engine = .idle) (notDue : ⟨id, generation⟩ ∉ s.dueExpiries)
    (isOpen : (s.entry id).award = some w) (issued : w.issue = some i)
    (named : (s.entry id).generation = generation) (later : s.timebase ≠ i.deadline)
    (next : s.walker.timerRunning = true →
      distance s.timebase i.deadline ≤ distance s.timebase s.walker.nextExpiry) :
    exec (.awardExpiry id generation) s =
      .next ((s.pass (distance s.timebase i.deadline)).takeExpiry ⟨id, generation⟩) := by
  have may : ¬ s.engineFree = false := by simp [State.engineFree, run, free]
  have time : s.timeToExpiry ⟨id, generation⟩ = some (distance s.timebase i.deadline) := by
    rw [State.timeToExpiry]
    dsimp only
    rw [isOpen]
    dsimp only
    rw [issued]
    exact if_pos ⟨named, distance_pos.mpr later, next⟩
  show execAwardExpiry id generation s = _
  rw [execAwardExpiry, if_neg may, if_neg notDue, time]

end Expiry

/-- Settles O40: a due expiry is taken or lapses, and one whose deadline is next is taken at its deadline. -/
theorem dueExpiryIsTaken : Obligations.DueExpiryIsTaken := by
  intro s id generation run free
  refine ⟨fun due => ⟨fun w isOpen named => ?_, fun lapsed => ?_⟩,
    fun w i notDue isOpen issued named later next => ?_⟩
  · rw [exec_awardExpiry_due run free due, State.takeExpiry_open isOpen named]
  · rw [exec_awardExpiry_due run free due, State.takeExpiry_lapsed lapsed]
  · have carried := exec_awardExpiry_next run free notDue isOpen issued named later next
    have expires := State.takeExpiry_open (s := s.pass (distance s.timebase i.deadline)) isOpen named
    have due : ⟨id, generation⟩ ∈ (s.pass (distance s.timebase i.deadline)).dueExpiries :=
      State.mem_dueExpiries_pass.mpr (Or.inr ((s.mem_newlyDue _ _).mpr
        ⟨w, i, isOpen, issued, named, distance_pos.mpr later, le_refl _⟩))
    refine ⟨s.pass_timebase_distance i.deadline, due,
      carried.trans (exec_awardExpiry_due (s := s.pass _) run free due).symm,
      carried.trans (congrArg Host.Outcome.next expires), rfl, rfl, rfl, fun d isDue => ?_⟩
    have other : d ≠ ⟨id, generation⟩ := fun same => notDue (same ▸ isDue)
    exact (List.mem_erase_of_ne other).mpr (State.mem_dueExpiries_pass.mpr (Or.inl isDue))

end Sys2Proof.Machine
end

section
/-!
PROOFS. What the Award Engine makes of an ASK and of a DONE (O33, O37), a member's release from its award (O39),
and the release of OPEN awards without a charge (O42) (R81, R84, R86, R90, R92 to R94, R97, R101, R129).
-/

namespace Sys2Proof.Machine

/-! ### The checks of an ASK (R86, R90) -/

theorem exec_ask {s : State} {a : AskFields} {rest : List InMessage} (run : s.resetLow = false)
    (up : s.linkUp = true) (free : s.engine = .idle) (head : s.inbound = .ask a :: rest) :
    exec .ask s = .next (State.checkAsk { s with inbound := rest } a) :=
  congrArg Host.Outcome.next (State.takeItem_eq run up free head _)

/-- No entry is FREE exactly when each is OPEN (R87). -/
theorem State.lowestFreeEntry_none {s : State} :
    s.lowestFreeEntry = none ↔ ∀ id, (s.entry id).award ≠ none := by
  simp [State.lowestFreeEntry, mem_allAwardIds]

/-- Settles O33: the three checks of an ASK, in order. -/
theorem askChecksInOrder : Obligations.AskChecksInOrder := by
  intro s a rest run up free head
  have entries : State.lowestFreeEntry { s with inbound := rest } = s.lowestFreeEntry := rfl
  rw [exec_ask run up free head, State.checkAsk, entries]
  refine ⟨fun clears => ?_, fun runs off => ?_, fun runs on full => ?_, fun runs on room => ?_⟩
  · rw [if_pos clears]
    rfl
  · rw [if_neg (by simp [runs]), if_pos off]
    rfl
  · rw [if_neg (by simp [runs]), if_neg (by simp [on]), if_pos (State.lowestFreeEntry_none.mpr full)]
    rfl
  · obtain ⟨id, isFree⟩ := room
    rw [if_neg (by simp [runs]), if_neg (by simp [on]),
      if_neg fun full => State.lowestFreeEntry_none.mp full id isFree]

/-! ### The checks of a DONE (R92 to R94) -/

theorem exec_done {s : State} {id : AwardId} {generation : BitVec 4} {airtime : Nat}
    {entries : List DoneEntry} {rest : List InMessage} (run : s.resetLow = false) (up : s.linkUp = true)
    (free : s.engine = .idle) (head : s.inbound = .done id generation airtime entries :: rest) :
    exec .done s =
      .next (State.judgeDone { s with inbound := rest } id generation airtime entries) :=
  congrArg Host.Outcome.next (State.takeItem_eq run up free head _)

section Judge
variable {s : State} {id : AwardId} {generation : BitVec 4} {w : OpenAward}

theorem State.doneIsLate_iff : s.doneIsLate id generation = true ↔
    (s.entry id).award = none ∨ (s.entry id).generation ≠ generation := by
  simp [State.doneIsLate]

theorem OpenAward.doneMisfits_iff {entries : List DoneEntry} : w.doneMisfits entries = true ↔
    entries.length ≠ w.members.length ∨ ∃ e ∈ entries, e.outcome = .unassigned := by
  simp [OpenAward.doneMisfits]

/-- A DONE that is late is dropped (R93). -/
theorem State.judgeDone_late (late : (s.entry id).award = none ∨ (s.entry id).generation ≠ generation)
    (airtime : Nat) (entries : List DoneEntry) :
    s.judgeDone id generation airtime entries = s.raise .late := by
  rw [State.judgeDone, if_pos (State.doneIsLate_iff.mpr late)]

/-- A DONE of an OPEN award, under its generation, is malformed or accepted (R92, R94). -/
theorem State.judgeDone_open (isOpen : (s.entry id).award = some w)
    (named : (s.entry id).generation = generation) (airtime : Nat) (entries : List DoneEntry) :
    s.judgeDone id generation airtime entries =
      if w.doneMisfits entries then s.raise .malformed
      else { s with engine := .done id airtime (doneWork w.members entries) } := by
  have inTime : ¬ s.doneIsLate id generation = true := by
    rw [State.doneIsLate_iff]
    simp [isOpen, named]
  rw [State.judgeDone, if_neg inTime, isOpen]

end Judge

/-- Settles O37: a DONE is late, malformed or accepted. -/
theorem doneIsJudged : Obligations.DoneIsJudged := by
  intro s id generation airtime entries rest run up free head
  rw [exec_done run up free head]
  refine ⟨fun late => ?_, fun w isOpen named => ?_⟩
  · rw [State.judgeDone_late (s := { s with inbound := rest }) late]
    rfl
  · rw [State.judgeDone_open (s := { s with inbound := rest }) isOpen named]
    refine ⟨fun misfits => ?_, fun sameCount assigned => ?_⟩
    · rw [if_pos (OpenAward.doneMisfits_iff.mpr misfits)]
      rfl
    · rw [if_neg]
      · rfl
      · rw [OpenAward.doneMisfits_iff]
        rintro (count | ⟨e, isIn, unassigned⟩)
        · exact count sameCount
        · exact assigned e isIn unassigned

/-! ### A member leaves its award (R81, R84, R97) -/

theorem State.releaseMember_open {s : State} {id : AwardId} {w : OpenAward}
    (isOpen : (s.entry id).award = some w) (h : Handle) :
    s.releaseMember id h = s.setEntry id
      { s.entry id with
        award := if (markReleased h w.members).any (·.held) then
            some { w with members := markReleased h w.members }
          else none } := by
  rw [State.releaseMember, isOpen]

/-- Settles O39: the first held member with the handle is marked released, and the last frees the entry. -/
theorem releasedMemberLeavesAward : Obligations.ReleasedMemberLeavesAward := by
  intro s id h before after w isOpen members first
  have marked : markReleased h w.members = before ++ ⟨h, false⟩ :: after := by
    rw [members, markReleased_append first]
  have held : (before ++ ⟨h, false⟩ :: after).any (·.held) = (before ++ after).any (·.held) := by
    rw [List.any_append, List.any_append, List.any_cons, Bool.false_or]
  rw [State.releaseMember_open isOpen, marked, held]
  rfl

/-! ### Release without a charge (R101, R129) -/

/-- The clear's release is taken when it is due (R101). -/
theorem exec_tableClearRelease {s : State} (run : s.resetLow = false) (free : s.engine = .idle)
    (due : s.releaseDue = true) :
    exec .tableClearRelease s = .next
      (if s.openMembers = [] then { s with releaseDue := false }.releaseDone
       else { s with releaseDue := false, engine := .clearRelease s.openMembers }) := by
  have may : (s.engineFree && s.releaseDue) = true := by simp [State.engineFree, run, free, due]
  show execTableClearRelease s = _
  rw [execTableClearRelease, if_pos may]
  rfl

/-- The release reported done begins the clear's record visits (R101). -/
theorem State.releaseDone_waits {s : State} (waits : s.executing = .clearRelease) :
    s.releaseDone = { s with engine := .idle, executing := .clearRecords 0 } := by
  rw [State.releaseDone, if_pos waits]

/-- The record that a release visit writes: the class leaves flight, and a link restart empties the backlog of an
ACTIVE one (R101, R129). -/
def StationRecord.released (r : StationRecord) (c : ServiceClass) (empties : Bool) : StationRecord :=
  { r.landed c with backlog := if empties && r.state == .active then ClassSet.none else r.backlog }

theorem StationRecord.released_eq (r : StationRecord) (c : ServiceClass) (empties : Bool) :
    (if empties && (r.landed c).state == .active then { r.landed c with backlog := ClassSet.none }
      else r.landed c) = r.released c empties := by
  show (if (empties && r.state == .active) = true then _ else _) = _
  unfold StationRecord.released
  cases empties && r.state == .active <;> rfl

theorem State.releaseOne_open {s : State} {m : ReleaseWork} {w : OpenAward}
    (isOpen : (s.entry m.id).award = some w) (empties : Bool) :
    s.releaseOne m empties =
      s.closeMember m.id m.handle ((s.station m.handle).released w.cls empties) := by
  rw [State.releaseOne, isOpen]
  dsimp only
  rw [StationRecord.released_eq]

/-- The record after a release visit, COOLING where R9 says so, field by field. -/
theorem StationRecord.cooled_released (r : StationRecord) (c : ServiceClass) (empties : Bool)
    (coolEpochs : Nat) :
    (r.released c empties).cooled coolEpochs =
      { r with
        inFlight := r.inFlight.set c false
        backlog := if empties && r.state == .active then ClassSet.none else r.backlog
        state := if r.state = .draining ∧ r.inFlight.set c false = ClassSet.none then .cooling else r.state
        coolCountdown :=
          if r.state = .draining ∧ r.inFlight.set c false = ClassSet.none then coolEpochs
          else r.coolCountdown } := by
  rw [StationRecord.cooled_eq]
  rfl

/-- Beyond the rings, a release visit writes its record and releases the member (R101, R129). -/
theorem State.releaseOne_frame {s : State} {m : ReleaseWork} {w : OpenAward}
    (isOpen : (s.entry m.id).award = some w) (empties : Bool) :
    (s.releaseOne m empties).beyondRings =
      State.beyondRings
        { s.releaseMember m.id m.handle with
          stations := s.stations.set m.handle.val
            (((s.station m.handle).released w.cls empties).cooled s.settings.coolEpochs) } := by
  rw [State.releaseOne_open isOpen, State.closeMember_frame]
  simp only [State.setStation, State.releaseMember_stations]

/-- A release visit leaves the executing request. -/
theorem State.releaseOne_executing (s : State) (m : ReleaseWork) (empties : Bool) :
    (s.releaseOne m empties).executing = s.executing := by
  cases isOpen : (s.entry m.id).award with
  | none => rw [State.releaseOne, isOpen]
  | some w =>
    rw [State.releaseOne_open isOpen]
    exact (State.executing_of_frame (s.closeMember_frame m.id m.handle _)).trans
      (State.releaseMember_executing s m.id m.handle)

/-- After the last member the clear's record visits begin, and before it the release goes on (R101). -/
theorem State.releaseOne_clear {s : State} (waits : s.executing = .clearRelease) (m : ReleaseWork)
    (rest : List ReleaseWork) :
    (if rest = [] then (s.releaseOne m false).releaseDone
      else { s.releaseOne m false with engine := .clearRelease rest }) =
    { s.releaseOne m false with
      engine := if rest = [] then .idle else .clearRelease rest
      executing := if rest = [] then .clearRecords 0 else .clearRelease } := by
  have stays := (s.releaseOne_executing m false).trans waits
  split
  · exact State.releaseDone_waits stays
  · rw [← stays]

/-- Settles O42: the taking of the clear's release, and the release visits of a clear and of a link restart. -/
theorem releaseVisitChargesNothing : Obligations.ReleaseVisitChargesNothing := by
  refine ⟨fun s run free due waits => ?_, fun s asks m rest w run grant isOpen => ?_⟩
  · rw [exec_tableClearRelease run free due]
    refine ⟨fun none_ => ?_, fun some_ => ?_⟩
    · rw [if_pos none_, State.releaseDone_waits (s := { s with releaseDue := false }) waits, ← free]
    · rw [if_neg some_]
  · have isOpen' : ((s.granted .award asks).entry m.id).award = some w := isOpen
    have record : (s.granted .award asks).station m.handle = s.station m.handle := rfl
    have settings : (s.granted .award asks).settings = s.settings := rfl
    dsimp only
    refine ⟨fun item waits => ⟨_, exec_releaseVisit_clear run item grant, ?_⟩,
      fun tag item => ⟨_, exec_releaseVisit_restart run item grant, ?_⟩⟩
    · have frame := State.releaseOne_frame isOpen' false
      rw [record, settings, StationRecord.cooled_released] at frame
      rw [State.releaseOne_clear (s := s.granted .award asks) waits]
      simp only [decide_eq_true_eq]
      exact congrArg (fun u : State => { u with
        engine := if rest = [] then .idle else .clearRelease rest
        executing := if rest = [] then .clearRecords 0 else .clearRelease }) frame
    · have frame := State.releaseOne_frame isOpen' true
      rw [record, settings, StationRecord.cooled_released, Bool.true_and] at frame
      simp only [decide_eq_true_eq, beq_iff_eq] at frame ⊢
      exact State.engine_frame frame _

end Sys2Proof.Machine
end

section
/-!
PROOFS. The laws of the Award Table in four parts (O59): which stations are in flight and which awards hold them, the
states in which nothing is in flight, the engine's item, and the course of a TABLE_CLEAR; and what keeps each of them
(R81, R83, R101).
-/

namespace Sys2Proof.Machine

/-! ### The laws in parts -/

/-- The station is a held member of this OPEN award, of this class (R81). -/
def State.Holds (s : State) (id : AwardId) (c : ServiceClass) (h : Handle) : Prop :=
  ∃ w, (s.entry id).award = some w ∧ w.cls = c ∧ h ∈ w.heldHandles

/-- A station is in flight in a class exactly when one OPEN award of the class holds it; and an OPEN award has 1 to
8 members, one at least held, each once (R81, R83). -/
structure State.FlightsLawful (s : State) : Prop where
  inFlight : ∀ h c, (s.station h).inFlight.get c = true ↔ ∃ id, s.Holds id c h
  single : ∀ {id id' c h}, s.Holds id c h → s.Holds id' c h → id = id'
  once : ∀ id w, (s.entry id).award = some w → w.heldHandles.Nodup ∧ w.heldHandles ≠ [] ∧
    w.members.length ≤ 8

/-- The record is FREE, FORMING or COOLING. -/
def StationRecord.Grounded (r : StationRecord) : Prop :=
  r.state = .free ∨ r.state = .forming ∨ r.state = .cooling

/-- A FREE, FORMING or COOLING record has nothing in flight (R2, R9). -/
def State.GroundLawful (s : State) : Prop :=
  ∀ h, (s.station h).Grounded → (s.station h).inFlight = ClassSet.none

/-- What the engine's item says of the awards: those that it is not closing have every member held, those that are
not issued it is selecting members for, and it names what it has still to visit (R81, R88, R91, R97). -/
structure State.ItemLawful (s : State) : Prop where
  whole : ∀ id w, (s.entry id).award = some w → ¬ s.engine.closes id → ∀ m ∈ w.members, m.held = true
  selecting : ∀ id w, (s.entry id).award = some w → w.issue = none →
    ∃ a allowances, s.engine = .askMore a id allowances ∨ s.engine = .issuing a id allowances
  engine : s.EngineLawful

/-- The clearing flag is set while a TABLE_CLEAR executes, and no award is open, nor an ASK in hand, while it makes
its record visits (R22, R101). -/
structure State.ClearLawful (s : State) : Prop where
  clearing : s.clearing = true ↔ ¬ s.executing.Plain
  cleared : ∀ next, s.executing = .clearRecords next →
    (∀ id, (s.entry id).award = none) ∧ ∀ a, s.engine ≠ .askFirst a

/-- The Award Table's law, but for the FORMING record of an ADMIT, which is in the free list's too. -/
structure State.AwardsInOrder (s : State) : Prop where
  flights : s.FlightsLawful
  ground : s.GroundLawful
  item : s.ItemLawful
  clear : s.ClearLawful

theorem Execution.plain_iff (e : Execution) :
    ¬ e.Plain ↔ e = .clearRelease ∨ ∃ next, e = .clearRecords next := by
  cases e <;> simp [Execution.Plain]

/-- The held members of an entry, as a release names them (R101). -/
def AwardEntry.releaseWork (e : AwardEntry) (id : AwardId) : List ReleaseWork :=
  match e.award with
  | none => []
  | some w => w.heldHandles.map fun h => ⟨id, h⟩

theorem AwardEntry.releaseWork_none {e : AwardEntry} (free : e.award = none) (id : AwardId) :
    e.releaseWork id = [] := by
  rw [AwardEntry.releaseWork, free]

theorem AwardEntry.releaseWork_some {e : AwardEntry} {w : OpenAward} (isOpen : e.award = some w)
    (id : AwardId) : e.releaseWork id = w.heldHandles.map fun h => ⟨id, h⟩ := by
  rw [AwardEntry.releaseWork, isOpen]

theorem State.openMembers_eq (s : State) :
    s.openMembers = allAwardIds.flatMap fun id => (s.entry id).releaseWork id := rfl

/-- No member is open exactly when no entry is. -/
theorem State.FlightsLawful.openMembers_nil {s : State} (law : s.FlightsLawful) :
    s.openMembers = [] ↔ ∀ id, (s.entry id).award = none := by
  rw [State.openMembers_eq, List.flatMap_eq_nil_iff]
  refine ⟨fun closed id => ?_, fun closed id _ => AwardEntry.releaseWork_none (closed id) id⟩
  cases isOpen : (s.entry id).award with
  | none => rfl
  | some w =>
    have none_ := closed id (mem_allAwardIds id)
    rw [AwardEntry.releaseWork_some isOpen, List.map_eq_nil_iff] at none_
    exact ((law.once id w isOpen).2.1 none_).elim

/-- The Award Table's law is these four parts, and the FORMING record of an ADMIT. -/
theorem State.awardsLawful_iff (s : State) : s.AwardsLawful ↔ s.AwardsInOrder ∧
    ∀ h result clamped, s.executing = .admitComplete h result clamped →
      (s.station h).state = .forming := by
  constructor
  · intro law
    have flights : s.FlightsLawful := by
      refine ⟨law.inFlight, ?_, law.once⟩
      rintro id id' c h ⟨w, isOpen, rfl, held⟩ ⟨w', isOpen', cls, held'⟩
      exact law.single id id' w w' h isOpen isOpen' cls.symm held held'
    refine ⟨⟨flights, law.states, ⟨law.whole, law.selecting, law.engine⟩, ⟨?_, fun next ex => ?_⟩⟩,
      law.forming⟩
    · rw [law.clearing, Execution.plain_iff]
    · exact ⟨flights.openMembers_nil.mp (law.cleared next ex).1, (law.cleared next ex).2⟩
  · rintro ⟨⟨flights, ground, item, clear⟩, forming⟩
    refine ⟨flights.inFlight, ?_, flights.once, item.whole, item.selecting, item.engine, ground, forming,
      ?_, fun next ex => ?_⟩
    · intro id id' w w' h isOpen isOpen' cls held held'
      exact flights.single ⟨w, isOpen, cls, held⟩ ⟨w', isOpen', rfl, held'⟩
    · rw [clear.clearing, Execution.plain_iff]
    · exact ⟨flights.openMembers_nil.mpr (clear.cleared next ex).1, (clear.cleared next ex).2⟩

/-! ### Changes that the laws do not see -/

/-- The record keeps its in-flight set, and becomes FREE, FORMING or COOLING only with nothing in flight. -/
structure StationRecord.Flies (r q : StationRecord) : Prop where
  inFlight : q.inFlight = r.inFlight
  grounded : q.Grounded → r.Grounded ∨ r.inFlight = ClassSet.none

namespace StationRecord.Flies

variable {r q p : StationRecord}

theorem of_same (state : q.state = r.state) (inFlight : q.inFlight = r.inFlight) : r.Flies q :=
  ⟨inFlight, fun grounded => Or.inl (by rwa [StationRecord.Grounded, state] at grounded)⟩

theorem refl (r : StationRecord) : r.Flies r := .of_same rfl rfl

theorem trans (a : r.Flies q) (b : q.Flies p) : r.Flies p := by
  refine ⟨b.inFlight.trans a.inFlight, fun grounded => ?_⟩
  rcases b.grounded grounded with was | none_
  · exact a.grounded was
  · exact Or.inr (a.inFlight ▸ none_)

/-- A record in another state than FREE, FORMING and COOLING keeps its in-flight set. -/
theorem of_aloft (state : ¬ q.Grounded) (inFlight : q.inFlight = r.inFlight) : r.Flies q :=
  ⟨inFlight, fun grounded => absurd grounded state⟩

/-- A record with nothing in flight may become any other with nothing in flight. -/
theorem of_none (was : r.inFlight = ClassSet.none) (is : q.inFlight = ClassSet.none) : r.Flies q :=
  ⟨is.trans was.symm, fun _ => Or.inr was⟩

end StationRecord.Flies

theorem StationRecord.not_grounded_of_active {r : StationRecord} (active : r.state = .active) :
    ¬ r.Grounded := by
  simp [StationRecord.Grounded, active]

/-- The records keep what the Award Table's law reads of them, and so do the awards, the engine's item, the
executing request and the clearing flag. -/
structure State.Flies (s t : State) : Prop where
  records : ∀ k, (s.station k).Flies (t.station k)
  awards : t.awards = s.awards
  engine : t.engine = s.engine
  executing : t.executing = s.executing
  clearing : t.clearing = s.clearing

namespace State.Flies

variable {s t u : State}

theorem trans (a : s.Flies t) (b : t.Flies u) : s.Flies u :=
  ⟨fun k => (a.records k).trans (b.records k), b.awards.trans a.awards, b.engine.trans a.engine,
    b.executing.trans a.executing, b.clearing.trans a.clearing⟩

theorem of_fields (stations : t.stations = s.stations) (awards : t.awards = s.awards)
    (engine : t.engine = s.engine) (executing : t.executing = s.executing)
    (clearing : t.clearing = s.clearing) : s.Flies t := by
  refine ⟨fun k => ?_, awards, engine, executing, clearing⟩
  rw [State.station, State.station, stations]
  exact .refl _

theorem refl (s : State) : s.Flies s := .of_fields rfl rfl rfl rfl rfl

theorem of_frame (same : t.beyondRings = s.beyondRings) : s.Flies t := by
  refine ⟨fun k => ?_, State.awards_of_frame same, State.engine_of_frame same,
    State.executing_of_frame same, State.clearing_of_frame same⟩
  have record := State.unplaced_of_frame same k
  exact .of_same (congrArg StationRecord.state record :) (congrArg StationRecord.inFlight record :)

theorem raiseIf (s : State) (b : Bool) (f : Flag) : s.Flies (s.raiseIf b f) := by
  cases b
  · exact .refl s
  · exact .of_fields rfl rfl rfl rfl rfl

theorem setStation (s : State) {h : Handle} {q : StationRecord} (flies : (s.station h).Flies q) :
    s.Flies (s.setStation h q) := by
  refine ⟨fun k => ?_, rfl, rfl, rfl, rfl⟩
  rw [State.station_setStation]
  split
  · next own => exact own ▸ flies
  · exact .refl _

theorem writeBack (s : State) {h : Handle} {q : StationRecord} (flies : (s.station h).Flies q) :
    s.Flies (s.writeBack h q) :=
  (State.Flies.setStation s flies).trans (.of_frame (State.writeBack_frame s h q))

theorem setNextFree (s : State) (h : Handle) (x : Option Handle) : s.Flies (s.setNextFree h x) := by
  rw [State.setNextFree_eq]
  exact .setStation s (.of_same rfl rfl)

/-- A record with nothing in flight is cleared (R2). -/
theorem clears (s : State) {h : Handle} (none_ : (s.station h).inFlight = ClassSet.none)
    (x : Option Handle) : s.Flies (s.setStation h { StationRecord.cleared with nextFree := x }) :=
  .setStation s (.of_none none_ rfl)

theorem freeAtHead {h : Handle} (none_ : (s.station h).inFlight = ClassSet.none) :
    s.Flies (s.freeAtHead h) :=
  (State.Flies.clears s none_ s.freeHead).trans (.of_fields rfl rfl rfl rfl rfl)

theorem freeAtTail {h : Handle} (none_ : (s.station h).inFlight = ClassSet.none) :
    s.Flies (s.freeAtTail h) := by
  have freed : s.Flies (s.setStation h StationRecord.cleared) := .clears s none_ none
  unfold State.freeAtTail
  dsimp only
  split
  · exact freed.trans (.of_fields rfl rfl rfl rfl rfl)
  · exact (freed.trans (.setNextFree _ _ _)).trans (.of_fields rfl rfl rfl rfl rfl)

/-- A FREE record becomes FORMING (R18). -/
theorem formed {h : Handle} (free : (s.station h).state = .free) (d : Descriptor) :
    s.Flies ((s.takeFree h).changeStation h fun r => { r with state := .forming, descriptor := d }) := by
  refine ⟨fun k => ?_, rfl, rfl, rfl, rfl⟩
  rw [State.station_formed]
  split
  · next own =>
    rw [own]
    exact ⟨rfl, fun _ => Or.inl (Or.inl free)⟩
  · exact .refl _

theorem enterIndex (s : State) (h : Handle) : s.Flies (s.enterIndex h) := by
  refine ⟨fun k => ?_, rfl, rfl, rfl, rfl⟩
  rw [State.enterIndex_station]
  split
  · next own =>
    rw [own]
    exact .of_same rfl rfl
  · exact .refl _

theorem leaveIndex (s : State) (h : Handle) : s.Flies (s.leaveIndex h) := by
  have frame := s.leaveIndex_frame h
  refine ⟨fun k => ?_, (congrArg State.awards frame :), (congrArg State.engine frame :),
    (congrArg State.executing frame :), (congrArg State.clearing frame :)⟩
  have content := s.leaveIndex_content h k
  exact .of_same (congrArg StationRecord.state content :) (congrArg StationRecord.inFlight content :)

/-- A record visit of a TABLE_CLEAR clears a record with nothing in flight (R22). -/
theorem clearRecord {h : Handle} (none_ : (s.station h).inFlight = ClassSet.none) :
    s.Flies (s.clearRecord h) := by
  have frame := s.clearRecord_frame h
  obtain ⟨cleared, others⟩ := s.clearRecord_records h
  refine ⟨fun k => ?_, (congrArg State.awards frame :), (congrArg State.engine frame :),
    (congrArg State.executing frame :), (congrArg State.clearing frame :)⟩
  by_cases own : k = h
  · subst own
    exact .of_none none_ (congrArg StationRecord.inFlight cleared :)
  · have content := others k own
    exact .of_same (congrArg StationRecord.state content :) (congrArg StationRecord.inFlight content :)

/-- RETIRE makes a record COOLING only with nothing in flight (R9, R20). -/
theorem retired (s : State) (h : Handle) (coolEpochs : Nat) :
    s.Flies ((s.leaveIndex h).writeBack h (((s.leaveIndex h).station h).retired coolEpochs)) := by
  refine (State.Flies.leaveIndex s h).trans (.writeBack _ ?_)
  unfold StationRecord.retired
  split
  · next none_ => exact .of_none none_ none_
  · exact .of_aloft (by simp [StationRecord.Grounded]) rfl

theorem backlogEntry (s : State) (e : BacklogEntry) : s.Flies (s.backlogEntry e) := by
  have stale : s.Flies (s.raise .stale) := .raiseIf s true .stale
  have noted :
      s.Flies (s.writeBack e.handle ((s.station e.handle).backlogged e s.settings.idleLimit)) := by
    refine .writeBack s ?_
    unfold StationRecord.backlogged
    split
    · exact .of_aloft (StationRecord.not_grounded_of_active rfl) rfl
    · exact .of_same rfl rfl
  unfold State.backlogEntry
  dsimp only
  split
  · exact stale
  · exact stale
  · exact stale
  · exact noted
  · split
    · exact noted
    · exact .refl s
  · exact .refl s

theorem uplinkStation (s : State) (h : Handle) (airtime : Nat) : s.Flies (s.uplinkStation h airtime) := by
  have stale : s.Flies (s.raise .stale) := .raiseIf s true .stale
  have charged : ∀ floors, s.Flies ((s.raiseIf floors .floor).writeBack h
      ((s.station h).uplinked airtime s.settings.idleLimit)) := by
    intro floors
    have record : (s.raiseIf floors .floor).station h = s.station h := by cases floors <;> rfl
    refine (State.Flies.raiseIf s floors .floor).trans (.writeBack _ ?_)
    rw [record]
    exact .of_aloft (StationRecord.not_grounded_of_active rfl) rfl
  unfold State.uplinkStation
  dsimp only
  split
  · exact stale
  · exact stale
  · exact stale
  · exact .refl s
  · exact charged _
  · exact charged _

theorem emptyBacklog (s : State) (h : Handle) : s.Flies (s.emptyBacklog h) := by
  unfold State.emptyBacklog
  dsimp only
  split
  · exact .writeBack s (.of_same rfl rfl)
  · exact .refl s

/-- A walker visit frees a COOLING record, which has nothing in flight, and no other (R116, R118). -/
theorem walkRecord (law : s.GroundLawful) (h : Handle) : s.Flies (s.walkRecord h) := by
  unfold State.walkRecord
  dsimp only
  split
  · exact .refl s
  · exact .refl s
  · next active =>
    refine .writeBack s ?_
    rw [StationRecord.walkedActive_eq active]
    refine .of_aloft ?_ rfl
    dsimp only [StationRecord.Grounded]
    split <;> decide
  · exact .writeBack s (.of_same rfl rfl)
  · exact .writeBack s (.of_same rfl rfl)
  · next cooling =>
    split
    · exact .freeAtTail (law h (Or.inr (Or.inr cooling)))
    · exact .setStation s (.of_same rfl rfl)

end State.Flies

end Sys2Proof.Machine
end

section
/-!
PROOFS. What each kind of work does to the parts of the Award Table's law (O59): an item taken, a request begun or
ended, a member popped into an award, an award issued, and a member closed (R81, R88, R89, R97, R101).
-/

namespace Sys2Proof.Machine

variable {s t : State}

/-! ### Records and requests -/

theorem State.Holds.congr (awards : t.awards = s.awards) (id : AwardId) (c : ServiceClass) (h : Handle) :
    t.Holds id c h ↔ s.Holds id c h := by
  simp only [State.Holds, State.entry, awards]

theorem State.Holds.inFlight (law : s.FlightsLawful) {id : AwardId} {c : ServiceClass} {h : Handle}
    (holds : s.Holds id c h) : (s.station h).inFlight.get c = true := (law.inFlight h c).mpr ⟨id, holds⟩

/-- With no entry OPEN, nothing is in flight. -/
theorem State.FlightsLawful.none_of_closed (law : s.FlightsLawful)
    (closed : ∀ id, (s.entry id).award = none) (h : Handle) :
    (s.station h).inFlight = ClassSet.none := by
  refine PerClass.ext_get fun c => ?_
  rw [ClassSet.none, PerClass.get_const, Bool.eq_false_iff]
  intro aloft
  obtain ⟨id, w, isOpen, _⟩ := (law.inFlight h c).mp aloft
  rw [closed id] at isOpen
  cases isOpen

theorem State.FlightsLawful.congr (law : s.FlightsLawful) (awards : t.awards = s.awards)
    (records : ∀ k, (t.station k).inFlight = (s.station k).inFlight) : t.FlightsLawful := by
  have holds := State.Holds.congr awards
  refine ⟨fun h c => ?_, fun on on' => law.single ((holds _ _ _).mp on) ((holds _ _ _).mp on'), ?_⟩
  · rw [records, law.inFlight]
    simp only [holds]
  · simp only [State.entry, awards]
    exact law.once

theorem State.GroundLawful.flies (law : s.GroundLawful) (records : ∀ k, (s.station k).Flies (t.station k)) :
    t.GroundLawful := by
  intro h grounded
  rw [(records h).inFlight]
  exact ((records h).grounded grounded).elim (law h) id

theorem State.EngineLawful.congr (law : s.EngineLawful) (awards : t.awards = s.awards)
    (engine : t.engine = s.engine) : t.EngineLawful := by
  simp only [State.EngineLawful, State.openMembers, State.lowestFreeEntry, State.entry, awards, engine]
  exact law

theorem State.ItemLawful.congr (law : s.ItemLawful) (awards : t.awards = s.awards)
    (engine : t.engine = s.engine) : t.ItemLawful := by
  refine ⟨?_, ?_, law.engine.congr awards engine⟩
  · simp only [State.entry, awards, engine]
    exact law.whole
  · simp only [State.entry, awards, engine]
    exact law.selecting

/-- The executing request begins, goes on or ends without a TABLE_CLEAR's record visits beginning. -/
theorem State.ClearLawful.turned (law : s.ClearLawful) (awards : t.awards = s.awards)
    (engine : t.engine = s.engine) (clearing : t.clearing = true ↔ ¬ t.executing.Plain)
    (visits : ∀ next, t.executing = .clearRecords next → ∃ was, s.executing = .clearRecords was) :
    t.ClearLawful := by
  refine ⟨clearing, fun next ex => ?_⟩
  obtain ⟨was, wasVisited⟩ := visits next ex
  simp only [State.entry, awards, engine]
  exact law.cleared was wasVisited

namespace State.AwardsInOrder

/-- A change that the laws do not see. -/
theorem flies (law : s.AwardsInOrder) (a : s.Flies t) : t.AwardsInOrder :=
  ⟨law.flights.congr a.awards fun k => (a.records k).inFlight, law.ground.flies a.records,
    law.item.congr a.awards a.engine,
    law.clear.turned a.awards a.engine (by rw [a.clearing, a.executing]; exact law.clear.clearing)
      fun next ex => ⟨next, a.executing ▸ ex⟩⟩

/-- The executing request changes, and the clearing flag with it. -/
theorem turned (law : s.AwardsInOrder) {e : Execution} {clears due : Bool}
    (clearing : clears = true ↔ ¬ e.Plain)
    (visits : ∀ next, e = .clearRecords next → ∃ was, s.executing = .clearRecords was) :
    ({ s with executing := e, clearing := clears, releaseDue := due } : State).AwardsInOrder :=
  ⟨law.flights.congr rfl fun _ => rfl, law.ground, law.item.congr rfl rfl,
    law.clear.turned rfl rfl clearing visits⟩

/-- A request other than TABLE_CLEAR is followed by none, or by another one. -/
theorem plain (law : s.AwardsInOrder) (was : s.executing.Plain) {e : Execution} (is : e.Plain) :
    ({ s with executing := e } : State).AwardsInOrder := by
  refine law.turned (due := s.releaseDue) ?_ ?_
  · rw [law.clear.clearing]
    exact iff_of_false (not_not.mpr was) (not_not.mpr is)
  · rintro next rfl
    exact is.elim

end State.AwardsInOrder

/-! ### Items taken and ended -/

/-- The engine's item is closing no award and selecting no members. -/
structure EngineItem.Resting (e : EngineItem) : Prop where
  closes : ∀ id, ¬ e.closes id
  selects : ∀ a id allowances, e ≠ .askMore a id allowances ∧ e ≠ .issuing a id allowances

namespace EngineItem.Resting

theorem idle : EngineItem.idle.Resting := ⟨fun _ => not_false, fun _ _ _ => ⟨nofun, nofun⟩⟩
theorem answer (m : OutMessage) : (EngineItem.answer m).Resting :=
  ⟨fun _ => not_false, fun _ _ _ => ⟨nofun, nofun⟩⟩
theorem askFirst (a : AskFields) : (EngineItem.askFirst a).Resting :=
  ⟨fun _ => not_false, fun _ _ _ => ⟨nofun, nofun⟩⟩
theorem backlog (work : List BacklogEntry) : (EngineItem.backlog work).Resting :=
  ⟨fun _ => not_false, fun _ _ _ => ⟨nofun, nofun⟩⟩
theorem uplink (h : Handle) (airtime : Nat) : (EngineItem.uplink h airtime).Resting :=
  ⟨fun _ => not_false, fun _ _ _ => ⟨nofun, nofun⟩⟩
theorem restartBacklog (tag : Byte) (h : Handle) : (EngineItem.restartBacklog tag h).Resting :=
  ⟨fun _ => not_false, fun _ _ _ => ⟨nofun, nofun⟩⟩

end EngineItem.Resting

namespace State.ItemLawful

/-- While the engine closes and selects nothing, every award is issued and has every member held. -/
theorem issued (law : s.ItemLawful) (rests : s.engine.Resting) {id : AwardId} {w : OpenAward}
    (isOpen : (s.entry id).award = some w) : w.issue ≠ none ∧ ∀ m ∈ w.members, m.held = true := by
  refine ⟨fun none_ => ?_, law.whole id w isOpen (rests.closes id)⟩
  obtain ⟨a, allowances, selects⟩ := law.selecting id w isOpen none_
  exact selects.elim (rests.selects a id allowances).1 (rests.selects a id allowances).2

theorem takes (law : s.ItemLawful) (rests : s.engine.Resting) {e : EngineItem}
    (engine : ({ s with engine := e } : State).EngineLawful) : ({ s with engine := e } : State).ItemLawful :=
  ⟨fun _ _ isOpen _ => (law.issued rests isOpen).2,
    fun _ _ isOpen none_ => ((law.issued rests isOpen).1 none_).elim, engine⟩

end State.ItemLawful

theorem State.ClearLawful.takes (law : s.ClearLawful) {e : EngineItem}
    (ask : ∀ a, e = .askFirst a → s.clearing = false) : ({ s with engine := e } : State).ClearLawful := by
  refine ⟨law.clearing, fun next ex => ⟨(law.cleared next ex).1, fun a isAsk => ?_⟩⟩
  have clears := law.clearing.mpr (by rw [show s.executing = .clearRecords next from ex]; exact id)
  rw [ask a isAsk] at clears
  cases clears

/-- The engine goes from an item that closes and selects nothing to another. -/
theorem State.AwardsInOrder.takes (law : s.AwardsInOrder) (rests : s.engine.Resting) {e : EngineItem}
    (engine : ({ s with engine := e } : State).EngineLawful)
    (ask : ∀ a, e = .askFirst a → s.clearing = false) : ({ s with engine := e } : State).AwardsInOrder :=
  ⟨law.flights.congr rfl fun _ => rfl, law.ground, law.item.takes rests engine, law.clear.takes ask⟩

/-! ### Awards selected and issued (R84, R87 to R89, R91) -/

/-- The award in this item's hand is selected for, waits for its issuing step, or is issued. -/
inductive EngineItem.Selects (id : AwardId) (w : OpenAward) : EngineItem → Prop where
  /-- A further member is sought (R88). -/
  | more {a allowances} : w.cls = a.cls → w.issue = none → allowances.length = w.members.length →
      w.members.length < a.members → EngineItem.Selects id w (.askMore a id allowances)
  /-- The issuing step is still to come (R91). -/
  | issuing {a allowances} : w.issue = none → allowances.length = w.members.length →
      EngineItem.Selects id w (.issuing a id allowances)
  /-- The award is issued, and its answer waits or has been sent (R89). -/
  | issued {e} : w.issue ≠ none → e = .idle ∨ (∃ m, e = .answer m) → EngineItem.Selects id w e

theorem EngineItem.Selects.item {id : AwardId} {w : OpenAward} {e : EngineItem} (on : e.Selects id w)
    (engine : t.engine = e) (isOpen : (t.entry id).award = some w)
    (held : ∀ m ∈ w.members, m.held = true) :
    t.EngineLawful ∧ (∀ k, ¬ e.closes k) ∧
      (w.issue = none → ∃ a allowances, e = .askMore a id allowances ∨ e = .issuing a id allowances) := by
  rw [State.EngineLawful, engine]
  cases on with
  | @more a allowances cls none_ count below =>
    exact ⟨⟨w, isOpen, cls, none_, held, count, below⟩, fun _ => not_false,
      fun _ => ⟨a, allowances, Or.inl rfl⟩⟩
  | @issuing a allowances none_ count =>
    exact ⟨⟨w, isOpen, none_, held, count⟩, fun _ => not_false, fun _ => ⟨a, allowances, Or.inr rfl⟩⟩
  | issued some_ item =>
    rcases item with rfl | ⟨m, rfl⟩ <;>
      exact ⟨trivial, fun _ => not_false, fun none_ => (some_ none_).elim⟩

/-- The engine's item is closing no award, and selecting members for this one at most. -/
structure EngineItem.Seeks (e : EngineItem) (id : AwardId) : Prop where
  closes : ∀ k, ¬ e.closes k
  selects : ∀ a k allowances, e = .askMore a k allowances ∨ e = .issuing a k allowances → k = id

theorem EngineItem.Resting.seeks {e : EngineItem} (rests : e.Resting) (id : AwardId) : e.Seeks id :=
  ⟨rests.closes, fun a k allowances on =>
    (on.elim (rests.selects a k allowances).1 (rests.selects a k allowances).2).elim⟩

theorem EngineItem.Seeks.askMore (a : AskFields) (id : AwardId) (allowances : List Int) :
    (EngineItem.askMore a id allowances).Seeks id :=
  ⟨fun _ => not_false, fun _ _ _ on => by rcases on with ⟨⟨⟩⟩ | ⟨⟨⟩⟩; rfl⟩

theorem EngineItem.Seeks.issuing (a : AskFields) (id : AwardId) (allowances : List Int) :
    (EngineItem.issuing a id allowances).Seeks id :=
  ⟨fun _ => not_false, fun _ _ _ on => by rcases on with ⟨⟨⟩⟩ | ⟨⟨⟩⟩; rfl⟩

/-- One entry holds an award whose selection goes on or ends, and the others stay. -/
theorem State.ItemLawful.selects (law : s.ItemLawful) {id : AwardId} (seeks : s.engine.Seeks id)
    {w : OpenAward} (others : ∀ k, k ≠ id → t.entry k = s.entry k) (isOpen : (t.entry id).award = some w)
    (held : ∀ m ∈ w.members, m.held = true) (on : t.engine.Selects id w) : t.ItemLawful := by
  obtain ⟨engine, closes, selects⟩ := on.item rfl isOpen held
  refine ⟨fun k w' isOpen' _ => ?_, fun k w' isOpen' none_ => ?_, engine⟩
  · by_cases own : k = id
    · subst own
      cases isOpen.symm.trans isOpen'
      exact held
    · rw [others k own] at isOpen'
      exact law.whole k w' isOpen' (seeks.closes k)
  · by_cases own : k = id
    · subst own
      cases isOpen.symm.trans isOpen'
      exact selects none_
    · rw [others k own] at isOpen'
      obtain ⟨a, allowances, was⟩ := law.selecting k w' isOpen' none_
      exact (own (seeks.selects a k allowances was)).elim

/-- Outside a TABLE_CLEAR's record visits, the clear's part of the law sees its flag and the request only. -/
theorem State.ClearLawful.busy (law : s.ClearLawful) (executing : t.executing = s.executing)
    (clearing : t.clearing = s.clearing) (busy : ∀ next, s.executing ≠ .clearRecords next) :
    t.ClearLawful :=
  ⟨by rw [clearing, executing]; exact law.clearing,
    fun next ex => (busy next (executing ▸ ex)).elim⟩

/-- With an entry OPEN a TABLE_CLEAR makes no record visit. -/
theorem State.ClearLawful.busy_of_open (law : s.ClearLawful) {id : AwardId} {w : OpenAward}
    (isOpen : (s.entry id).award = some w) (next : Handle) : s.executing ≠ .clearRecords next := by
  intro ex
  have closed := (law.cleared next ex).1 id
  rw [isOpen] at closed
  cases closed

theorem State.entry_setAward (s : State) (id k : AwardId) (e : AwardEntry) (item : EngineItem) :
    State.entry { s with awards := s.awards.set id.val e, engine := item } k =
      if k = id then e else s.entry k := State.entry_setEntry s id k e

/-- An award keeps its class and members as it is issued or its issuing step is put off (R89, R91). -/
theorem State.AwardsInOrder.issues (law : s.AwardsInOrder) {id : AwardId} {w w' : OpenAward}
    (isOpen : (s.entry id).award = some w) (seeks : s.engine.Seeks id)
    (held : ∀ m ∈ w.members, m.held = true) (cls : w'.cls = w.cls) (members : w'.members = w.members)
    {e : EngineItem} (on : e.Selects id w') :
    ({ s with
        awards := s.awards.set id.val { s.entry id with award := some w' }
        engine := e } : State).AwardsInOrder := by
  have entry := fun k => s.entry_setAward id k { s.entry id with award := some w' } e
  have handles : w'.heldHandles = w.heldHandles := by rw [OpenAward.heldHandles, members]; rfl
  have holds : ∀ k c h, State.Holds { s with
      awards := s.awards.set id.val { s.entry id with award := some w' }, engine := e } k c h ↔
      s.Holds k c h := by
    intro k c h
    rw [State.Holds, State.Holds, entry]
    by_cases own : k = id
    · subst own
      simp [isOpen, cls, handles]
    · rw [if_neg own]
  refine ⟨⟨fun h c => ?_, fun a b => law.flights.single ((holds _ _ _).mp a) ((holds _ _ _).mp b),
    fun k v opened => ?_⟩, law.ground, law.item.selects seeks (fun k ne => ?_) ?_ (members ▸ held) on,
    law.clear.busy rfl rfl (law.clear.busy_of_open isOpen)⟩
  · simp only [holds]
    exact law.flights.inFlight h c
  · rw [entry] at opened
    split at opened
    · cases opened
      rw [handles, members]
      exact law.flights.once id w isOpen
    · exact law.flights.once k v opened
  · rw [entry, if_neg ne]
  · rw [entry, if_pos rfl]

/-! ### A member popped into an award (R69, R87, R88) -/

/-- The second state comes of the pop of one station in a class, which is ACTIVE and not in flight there, into an
entry that held `old` and holds it too now. -/
structure State.Joins (s t : State) (id : AwardId) (h : Handle) (c : ServiceClass) (w : OpenAward)
    (old : List Handle) : Prop where
  active : (s.station h).state = .active
  out : (s.station h).inFlight.get c = false
  own : (t.station h).state = (s.station h).state ∧
    (t.station h).inFlight = (s.station h).inFlight.set c true
  others : ∀ k, k ≠ h → (s.station k).Flies (t.station k)
  entries : ∀ k, k ≠ id → t.entry k = s.entry k
  had : ∀ d k, s.Holds id d k ↔ d = c ∧ k ∈ old
  nodup : old.Nodup
  isOpen : (t.entry id).award = some w
  cls : w.cls = c
  handles : w.heldHandles = old ++ [h]
  count : w.members.length ≤ 8

namespace State.Joins

variable {id : AwardId} {h : Handle} {c : ServiceClass} {w : OpenAward} {old : List Handle}

theorem holds (a : s.Joins t id h c w old) (k : AwardId) (d : ServiceClass) (j : Handle) :
    t.Holds k d j ↔ s.Holds k d j ∨ (k = id ∧ d = c ∧ j = h) := by
  by_cases own : k = id
  · subst own
    rw [a.had, State.Holds, a.isOpen]
    simp only [Option.some.injEq, exists_eq_left', a.cls, a.handles, List.mem_append,
      List.mem_singleton, true_and]
    rw [eq_comm, and_or_left]
  · rw [State.Holds, a.entries k own]
    exact (or_iff_left fun is => own is.1).symm

theorem inFlight (a : s.Joins t id h c w old) (j : Handle) (d : ServiceClass) :
    (t.station j).inFlight.get d = true ↔ (s.station j).inFlight.get d = true ∨ (d = c ∧ j = h) := by
  by_cases own : j = h
  · subst own
    rw [a.own.2, PerClass.get_set]
    by_cases same : d = c <;> simp [same]
  · rw [(a.others j own).inFlight]
    exact (or_iff_left fun is => own is.2).symm

theorem flights (a : s.Joins t id h c w old) (law : s.FlightsLawful) : t.FlightsLawful := by
  have ground : ∀ k, ¬ s.Holds k c h := fun k holds => by
    have aloft := holds.inFlight law
    rw [a.out] at aloft
    cases aloft
  refine ⟨fun j d => ?_, fun {k k' d j} on on' => ?_, fun k v opened => ?_⟩
  · rw [a.inFlight, law.inFlight]
    simp only [a.holds]
    rw [exists_or]
    refine or_congr Iff.rfl ⟨fun is => ⟨id, rfl, is⟩, fun ⟨_, _, is⟩ => is⟩
  · rcases (a.holds k d j).mp on with was | ⟨rfl, rfl, rfl⟩
    · rcases (a.holds k' d j).mp on' with was' | ⟨rfl, rfl, rfl⟩
      · exact law.single was was'
      · exact (ground k was).elim
    · rcases (a.holds k' d j).mp on' with was' | ⟨rfl, _, _⟩
      · exact (ground k' was').elim
      · rfl
  · by_cases own : k = id
    · subst own
      cases a.isOpen.symm.trans opened
      refine ⟨?_, by simp [a.handles], a.count⟩
      have new : h ∉ old := fun isIn => ground k ((a.had c h).mpr ⟨rfl, isIn⟩)
      rw [a.handles, ← List.concat_eq_append]
      exact a.nodup.concat new
    · rw [a.entries k own] at opened
      exact law.once k v opened

theorem ground (a : s.Joins t id h c w old) (law : s.GroundLawful) : t.GroundLawful := by
  intro j grounded
  by_cases own : j = h
  · subst own
    exact absurd grounded (StationRecord.not_grounded_of_active (a.own.1.trans a.active))
  · have flies := a.others j own
    rw [flies.inFlight]
    exact (flies.grounded grounded).elim (law j) (fun none_ => none_)

/-- A member popped into an award keeps the laws. -/
theorem inOrder (a : s.Joins t id h c w old) (law : s.AwardsInOrder) (seeks : s.engine.Seeks id)
    (held : ∀ m ∈ w.members, m.held = true) (on : t.engine.Selects id w)
    (executing : t.executing = s.executing) (clearing : t.clearing = s.clearing)
    (busy : ∀ next, s.executing ≠ .clearRecords next) : t.AwardsInOrder :=
  ⟨a.flights law.flights, a.ground law.ground, law.item.selects seeks a.entries a.isOpen held on,
    law.clear.busy executing clearing busy⟩

end State.Joins

end Sys2Proof.Machine
end

section
/-!
PROOFS. A member closed and the Award Table's law (O59): the class leaves its in-flight set as it leaves its award,
the last one frees the entry, and the engine's item goes on to the next (R9, R81, R95, R97, R99, R101, R129).
-/

namespace Sys2Proof.Machine

/-! ### The entry after a release (R81, R97) -/

theorem ClassSet.none_set (c : ServiceClass) : PerClass.set ClassSet.none c false = ClassSet.none := by
  cases c <;> rfl

theorem State.entry_releaseMember {s : State} {id : AwardId} {w : OpenAward}
    (isOpen : (s.entry id).award = some w) (h : Handle) (k : AwardId) :
    (s.releaseMember id h).entry k =
      if k = id then { s.entry id with
        award := if w.heldHandles.erase h = [] then none
          else some { w with members := markReleased h w.members } }
      else s.entry k := by
  have last : (markReleased h w.members).any (·.held) = true ↔ ¬ w.heldHandles.erase h = [] :=
    any_held_markReleased w h
  rw [State.releaseMember_open isOpen, State.entry_setEntry]
  simp only [last, ite_not]

theorem length_markReleased (h : Handle) (members : List Member) :
    (markReleased h members).length = members.length := by
  induction members with
  | nil => rfl
  | cons m rest ih =>
    unfold markReleased
    split
    · rfl
    · rw [List.length_cons, List.length_cons, ih]

/-! ### A closing visit -/

/-- The second state comes of the end of a closing visit: the class leaves the member's in-flight set, which alone
may make it COOLING, and the member leaves its award (R9, R95, R97). -/
structure State.Closes (s t : State) (id : AwardId) (h : Handle) (w : OpenAward) : Prop where
  isOpen : (s.entry id).award = some w
  landed : (t.station h).inFlight = (s.station h).inFlight.set w.cls false
  grounded : (t.station h).Grounded → (s.station h).Grounded ∨ (t.station h).inFlight = ClassSet.none
  others : ∀ k, k ≠ h → (s.station k).Flies (t.station k)
  entries : ∀ k, k ≠ id → t.entry k = s.entry k
  own : (t.entry id).award =
    if w.heldHandles.erase h = [] then none else some { w with members := markReleased h w.members }
  executing : t.executing = s.executing
  clearing : t.clearing = s.clearing

namespace State.Closes

variable {s t : State} {id : AwardId} {h : Handle} {w : OpenAward}

theorem closeMember (isOpen : (s.entry id).award = some w) {r : StationRecord}
    (inFlight : r.inFlight = (s.station h).inFlight.set w.cls false)
    (state : r.Grounded → (s.station h).Grounded) : s.Closes (s.closeMember id h r) id h w := by
  have frame := s.closeMember_frame id h r
  generalize s.closeMember id h r = t at frame
  have entry : ∀ k, t.entry k = (s.releaseMember id h).entry k := fun k =>
    (State.entry_of_frame frame k).trans (State.entry_setStation _ h _ k)
  have released : ∀ k, (s.releaseMember id h).station k = s.station k := fun k => by
    rw [State.station, State.station]
    simp only [State.releaseMember_stations]
  have own := State.unplaced_of_frame frame h
  rw [State.station_setStation_same, StationRecord.cooled_eq] at own
  have landed : (t.station h).inFlight = r.inFlight := (congrArg StationRecord.inFlight own :)
  have state' : (t.station h).state =
      if r.state = .draining ∧ r.inFlight = ClassSet.none then .cooling else r.state :=
    (congrArg StationRecord.state own :)
  refine ⟨isOpen, landed.trans inFlight, fun grounded => ?_, fun k ne => ?_, fun k ne => ?_, ?_,
    (State.executing_of_frame frame).trans (State.releaseMember_executing s id h),
    (State.clearing_of_frame frame).trans (State.releaseMember_clearing s id h)⟩
  · by_cases cools : r.state = .draining ∧ r.inFlight = ClassSet.none
    · exact Or.inr (landed.trans cools.2)
    · rw [if_neg cools] at state'
      exact Or.inl (state (by rwa [StationRecord.Grounded, state'] at grounded))
  · have other := State.unplaced_of_frame frame k
    rw [State.station_setStation_ne _ ne, released] at other
    exact .of_same (congrArg StationRecord.state other :) (congrArg StationRecord.inFlight other :)
  · rw [entry, State.entry_releaseMember isOpen, if_neg ne]
  · rw [entry, State.entry_releaseMember isOpen, if_pos rfl]

/-- What a visit has raised before its end is not seen. -/
theorem of_fields {u : State} (a : u.Closes t id h w) (stations : u.stations = s.stations)
    (awards : u.awards = s.awards) (executing : u.executing = s.executing)
    (clearing : u.clearing = s.clearing) : s.Closes t id h w := by
  have record : ∀ k, u.station k = s.station k := fun k => by rw [State.station, State.station, stations]
  have entry : ∀ k, u.entry k = s.entry k := fun k => by rw [State.entry, State.entry, awards]
  exact ⟨entry id ▸ a.isOpen, record h ▸ a.landed, record h ▸ a.grounded, fun k => record k ▸ a.others k,
    fun k => entry k ▸ a.entries k, a.own, a.executing.trans executing, a.clearing.trans clearing⟩

/-- A DONE's member visit closes its member (R95). -/
theorem doneMember (isOpen : (s.entry id).award = some w) (airtime : Nat) (h : Handle) (e : DoneEntry) :
    s.Closes (s.doneMember id w airtime h e) id h w := by
  rw [State.doneMember_eq]
  generalize flagged : ({ s with flags := _ } : State) = u
  have record : u.station h = s.station h := flagged ▸ rfl
  have entry : u.entry id = s.entry id := flagged ▸ rfl
  refine (State.Closes.closeMember (entry ▸ isOpen) ?_ fun grounded => ?_).of_fields
    (flagged ▸ rfl) (flagged ▸ rfl) (flagged ▸ rfl) (flagged ▸ rfl)
  · rw [record, StationRecord.doneBy_eq]
  · rw [StationRecord.doneBy_eq, StationRecord.Grounded] at grounded
    dsimp only at grounded
    rw [record]
    split at grounded
    · exact absurd grounded (by decide)
    · exact grounded

/-- An expiry's member visit closes its member (R99). -/
theorem expiryMember (isOpen : (s.entry id).award = some w) (i : Issue) (h : Handle) :
    s.Closes (s.expiryMember id w i h) id h w := by
  rw [State.expiryMember_eq]
  generalize flagged : ({ s with flags := _ } : State) = u
  have record : u.station h = s.station h := flagged ▸ rfl
  have entry : u.entry id = s.entry id := flagged ▸ rfl
  refine (State.Closes.closeMember (entry ▸ isOpen) ?_ fun grounded => ?_).of_fields
    (flagged ▸ rfl) (flagged ▸ rfl) (flagged ▸ rfl) (flagged ▸ rfl)
  · rw [record]
    rfl
  · rw [record]
    exact grounded

/-- A release visit closes its member (R101, R129). -/
theorem releaseOne {m : ReleaseWork} (isOpen : (s.entry m.id).award = some w) (empties : Bool) :
    s.Closes (s.releaseOne m empties) m.id m.handle w := by
  rw [State.releaseOne_open isOpen]
  exact .closeMember isOpen rfl fun on => on

/-! ### What it keeps -/

/-- The award that stays OPEN, if one does, is the one that was, with the member marked. -/
theorem stays (a : s.Closes t id h w) {v : OpenAward} (isOpen : (t.entry id).award = some v) :
    w.heldHandles.erase h ≠ [] ∧ v = { w with members := markReleased h w.members } := by
  have own := a.own
  rw [isOpen] at own
  split at own
  · cases own
  · next some_ => exact ⟨some_, Option.some.inj own⟩

theorem holds (a : s.Closes t id h w) (nodup : w.heldHandles.Nodup) (k : AwardId) (d : ServiceClass)
    (j : Handle) : t.Holds k d j ↔ s.Holds k d j ∧ ¬ (k = id ∧ j = h) := by
  by_cases own : k = id
  · subst own
    have mem : j ∈ w.heldHandles.erase h ↔ j ∈ w.heldHandles ∧ ¬ j = h := by
      rw [nodup.mem_erase_iff, and_comm]
    rw [State.Holds, State.Holds, a.own, a.isOpen]
    by_cases last : w.heldHandles.erase h = []
    · rw [last] at mem
      have gone : j ∈ w.heldHandles → j = h := fun isIn =>
        by_contra fun ne => List.not_mem_nil (mem.mpr ⟨isIn, ne⟩)
      simpa [last] using fun _ => gone
    · simp [last, heldHandles_markReleased, mem, and_assoc]
  · rw [State.Holds, State.Holds, a.entries k own]
    exact (and_iff_left fun is => own is.1).symm

theorem inFlight (a : s.Closes t id h w) (j : Handle) (d : ServiceClass) :
    (t.station j).inFlight.get d = true ↔
      (s.station j).inFlight.get d = true ∧ ¬ (d = w.cls ∧ j = h) := by
  by_cases own : j = h
  · subst own
    rw [a.landed, PerClass.get_set]
    by_cases same : d = w.cls <;> simp [same]
  · rw [(a.others j own).inFlight]
    exact (and_iff_left fun is => own is.2).symm

theorem flights (a : s.Closes t id h w) (law : s.FlightsLawful) (held : h ∈ w.heldHandles) :
    t.FlightsLawful := by
  obtain ⟨nodup, _, count⟩ := law.once id w a.isOpen
  have holds := a.holds nodup
  have holder : s.Holds id w.cls h := ⟨w, a.isOpen, rfl, held⟩
  refine ⟨fun j d => ?_, fun on on' => law.single ((holds _ _ _).mp on).1 ((holds _ _ _).mp on').1,
    fun k v isOpen => ?_⟩
  · rw [a.inFlight, law.inFlight]
    simp only [holds]
    rw [exists_and_right.symm]
    refine exists_congr fun k => and_congr_right fun on => not_congr ?_
    constructor
    · rintro ⟨rfl, rfl⟩
      exact ⟨law.single on holder, rfl⟩
    · rintro ⟨rfl, rfl⟩
      obtain ⟨v, isOpen, cls, _⟩ := on
      cases a.isOpen.symm.trans isOpen
      exact ⟨cls.symm, rfl⟩
  · by_cases own : k = id
    · subst own
      obtain ⟨some_, rfl⟩ := a.stays isOpen
      rw [heldHandles_markReleased]
      exact ⟨nodup.erase h, some_, (length_markReleased h w.members).trans_le count⟩
    · rw [a.entries k own] at isOpen
      exact law.once k v isOpen

theorem ground (a : s.Closes t id h w) (law : s.GroundLawful) : t.GroundLawful := by
  intro j grounded
  by_cases own : j = h
  · subst own
    rcases a.grounded grounded with was | none_
    · rw [a.landed, law j was, ClassSet.none_set]
    · exact none_
  · have flies := a.others j own
    rw [flies.inFlight]
    exact (flies.grounded grounded).elim (law j) (fun none_ => none_)

/-- The engine goes on with an item that closes the award as long as it is OPEN. -/
theorem item (a : s.Closes t id h w) (law : s.ItemLawful) (issued : w.issue ≠ none)
    (closing : ∀ k, s.engine.closes k → k = id)
    (resting : ∀ b k allowances, s.engine ≠ .askMore b k allowances ∧ s.engine ≠ .issuing b k allowances)
    (goesOn : w.heldHandles.erase h ≠ [] → t.engine.closes id) (engine : t.EngineLawful) :
    t.ItemLawful := by
  refine ⟨fun k v isOpen open_ => ?_, fun k v isOpen none_ => ?_, engine⟩
  · by_cases own : k = id
    · subst own
      exact (open_ (goesOn (a.stays isOpen).1)).elim
    · rw [a.entries k own] at isOpen
      exact law.whole k v isOpen (mt (closing k) own)
  · by_cases own : k = id
    · subst own
      obtain ⟨_, rfl⟩ := a.stays isOpen
      exact (issued none_).elim
    · rw [a.entries k own] at isOpen
      obtain ⟨b, allowances, was⟩ := law.selecting k v isOpen none_
      exact (was.elim (resting b k allowances).1 (resting b k allowances).2).elim

end State.Closes
end Sys2Proof.Machine
end

section
/-!
PROOFS. The Award Table's law (O59): every work keeps it, given the laws of the free list and of the rings, by what
it does to records, awards, the engine's item and the executing request (R81, R83, R101).
-/

namespace Sys2Proof.Machine

variable {s t : State}

/-! ### Members popped (R69, R87, R88) -/

theorem OpenAward.heldHandles_append (w : OpenAward) (h : Handle) :
    (w.joined h).heldHandles = w.heldHandles ++ [h] := by
  simp [OpenAward.heldHandles, OpenAward.joined]

/-- An eligible station that is popped into an award joins it (R63, R69). -/
theorem State.Joins.popHead {id : AwardId} {h : Handle} {c : ServiceClass} {w : OpenAward}
    {old : List Handle} (eligible : (s.station h).eligible c = true)
    (had : ∀ d k, s.Holds id d k ↔ d = c ∧ k ∈ old) (nodup : old.Nodup) (cls : w.cls = c)
    (handles : w.heldHandles = old ++ [h]) (count : w.members.length ≤ 8) {entry : AwardEntry}
    (isOpen : entry.award = some w) (e : EngineItem) :
    s.Joins { s.popHead c h with awards := s.awards.set id.val entry, engine := e } id h c w old := by
  have frame := State.popHead_frame s c h
  have own := State.unplaced_of_frame frame h
  rw [State.station_setStation_same] at own
  have ready : (s.station h).ready c = true := by
    rw [StationRecord.eligible, Bool.and_eq_true] at eligible
    exact eligible.1
  simp only [StationRecord.ready, Bool.and_eq_true, beq_iff_eq, Bool.not_eq_true'] at ready
  obtain ⟨⟨⟨active, _⟩, _⟩, out⟩ := ready
  have entries : ∀ k, State.entry { s.popHead c h with
      awards := s.awards.set id.val entry, engine := e } k = if k = id then entry else s.entry k :=
    fun k => s.entry_setAward id k entry e
  refine ⟨active, out, ⟨(congrArg StationRecord.state own :), (congrArg StationRecord.inFlight own :)⟩,
    fun k ne => ?_, fun k ne => ?_, had, nodup, ?_, cls, handles, count⟩
  · have other := State.unplaced_of_frame frame k
    rw [State.station_setStation_ne s ne] at other
    exact .of_same (congrArg StationRecord.state other :) (congrArg StationRecord.inFlight other :)
  · rw [entries, if_neg ne]
  · rw [entries, if_pos rfl, isOpen]

theorem AskFields.members_le (a : AskFields) : a.members ≤ 8 := clampNat_le _ (by decide)

/-- The end of member selection issues the award or puts its issuing step off, and keeps its class and members
(R89, R91). -/
theorem State.selectionEnd_selects (s : State) (defers : Bool) (a : AskFields) (id : AwardId) {w : OpenAward}
    {allowances : List Int} (none_ : w.issue = none) (count : allowances.length = w.members.length) :
    (s.selectionEnd defers a id w allowances).2.Selects id (s.selectionEnd defers a id w allowances).1 ∧
      (s.selectionEnd defers a id w allowances).1.cls = w.cls ∧
      (s.selectionEnd defers a id w allowances).1.members = w.members := by
  cases defers with
  | true => exact ⟨.issuing none_ count, rfl, rfl⟩
  | false => exact ⟨.issued (by simp [State.selectionEnd]) (Or.inr ⟨_, rfl⟩), rfl, rfl⟩

/-- After a further member another is sought, or member selection ends (R88). -/
theorem State.furtherEnd_selects (s : State) (defers : Bool) {a : AskFields} (id : AwardId) {w : OpenAward}
    {allowances : List Int} (cls : w.cls = a.cls) (none_ : w.issue = none)
    (count : allowances.length = w.members.length) (h : Handle) :
    (s.furtherEnd defers a id w allowances h).2.Selects id (s.furtherEnd defers a id w allowances h).1 ∧
      (s.furtherEnd defers a id w allowances h).1.cls = w.cls ∧
      (s.furtherEnd defers a id w allowances h).1.members = (w.joined h).members := by
  have count' : (allowances ++ [allowance (s.station h)]).length = (w.joined h).members.length := by
    simp [OpenAward.joined, count]
  unfold State.furtherEnd
  split
  · next below =>
    refine ⟨.more cls none_ count' ?_, rfl, rfl⟩
    rwa [← count', List.length_append]
  · exact s.selectionEnd_selects defers a id (w := w.joined h) none_ count'

/-- After the first member another is sought, or member selection ends (R87, R88). -/
theorem State.firstItem_selects (s : State) (defers : Bool) (a : AskFields) (id : AwardId) (h : Handle)
    (first : StationRecord) :
    (s.firstItem defers a id h first).Selects id
      { askTag := a.tag, cls := a.cls, issue := s.firstIssue defers a first, members := [⟨h, true⟩] } := by
  cases seeks : a.seeksMore first with
  | true =>
    obtain ⟨issue, item⟩ := State.first_seeks seeks s defers id h
    rw [issue, item]
    simp only [AskFields.seeksMore, Bool.and_eq_true, decide_eq_true_eq] at seeks
    exact .more rfl rfl rfl seeks.1.1
  | false =>
    cases defers with
    | true =>
      obtain ⟨issue, item⟩ := State.first_defers seeks s id h
      rw [issue, item]
      exact .issuing rfl rfl
    | false =>
      obtain ⟨issue, item⟩ := State.first_issues seeks s id h
      rw [issue, item]
      exact .issued (by simp) (Or.inr ⟨_, rfl⟩)

namespace State.AwardsInOrder

/-- The first pop visit claims a FREE entry for the station it pops (R84, R87). -/
theorem claims (law : s.AwardsInOrder) {a : AskFields} (item : s.engine = .askFirst a) {h : Handle}
    (eligible : (s.station h).eligible a.cls = true) {id : AwardId}
    (isFree : (s.entry id).award = none) (defers : Bool) :
    (s.popFirst defers a id h).AwardsInOrder := by
  have busy : ∀ next, s.executing ≠ .clearRecords next := fun next ex =>
    (law.clear.cleared next ex).2 a item
  have rests : s.engine.Resting := item ▸ .askFirst a
  have had : ∀ d k, s.Holds id d k ↔ d = a.cls ∧ k ∈ [] := fun d k => by simp [State.Holds, isFree]
  rw [State.popFirst_eq]
  exact (State.Joins.popHead (w := { askTag := a.tag, cls := a.cls
                                     issue := s.firstIssue defers a (s.station h), members := [⟨h, true⟩] })
    eligible had List.nodup_nil rfl rfl (show 1 ≤ 8 by decide) rfl _).inOrder law (rests.seeks id) (by simp)
      (s.firstItem_selects defers a id h _) (State.popHead_executing s a.cls h)
      (State.popHead_clearing s a.cls h) busy

/-- What the law says of an award whose members are being selected (R88). -/
theorem selecting (law : s.AwardsInOrder) {a : AskFields} {id : AwardId} {allowances : List Int}
    (item : s.engine = .askMore a id allowances) :
    ∃ w, (s.entry id).award = some w ∧ w.cls = a.cls ∧ w.issue = none ∧
      (∀ m ∈ w.members, m.held = true) ∧ allowances.length = w.members.length ∧
      w.members.length < a.members := by
  have engine := law.item.engine
  rwa [State.EngineLawful, item] at engine

/-- A further member is popped into the award (R88). -/
theorem joins (law : s.AwardsInOrder) {a : AskFields} {id : AwardId} {allowances : List Int}
    (item : s.engine = .askMore a id allowances) {h : Handle}
    (eligible : (s.station h).eligible a.cls = true) (defers : Bool) :
    (s.popFurther defers a id allowances h).AwardsInOrder := by
  obtain ⟨w, isOpen, cls, none_, held, count, below⟩ := law.selecting item
  obtain ⟨selects, cls', members⟩ := s.furtherEnd_selects defers id cls none_ count h
  rw [State.popFurther_eq isOpen]
  generalize (s.furtherEnd defers a id w allowances h).1 = w' at *
  have had : ∀ d k, s.Holds id d k ↔ d = a.cls ∧ k ∈ w.heldHandles := fun d k => by
    simp [State.Holds, isOpen, cls, eq_comm]
  have handles : w'.heldHandles = w.heldHandles ++ [h] := by
    rw [OpenAward.heldHandles, members, ← OpenAward.heldHandles, OpenAward.heldHandles_append]
  have within : w'.members.length ≤ 8 := by
    have most := a.members_le
    rw [members, OpenAward.joined, List.length_append, List.length_singleton]
    omega
  refine (State.Joins.popHead (id := id) eligible had (law.flights.once id w isOpen).1 (cls'.trans cls)
    handles within rfl _).inOrder law (item ▸ .askMore a id allowances) ?_ selects
    (State.popHead_executing s a.cls h) (State.popHead_clearing s a.cls h) (law.clear.busy_of_open isOpen)
  rw [members]
  intro m isIn
  rcases List.mem_append.mp isIn with was | new
  · exact held m was
  · rw [List.mem_singleton.mp new]

/-- Member selection ends (R89, R91). -/
theorem ends (law : s.AwardsInOrder) {a : AskFields} {id : AwardId} {allowances : List Int}
    (item : s.engine = .askMore a id allowances) (defers : Bool) :
    (s.endSelection defers a id allowances).AwardsInOrder := by
  obtain ⟨w, isOpen, cls, none_, held, count, _⟩ := law.selecting item
  obtain ⟨selects, cls', members⟩ := s.selectionEnd_selects defers a id none_ count
  rw [State.endSelection_eq isOpen]
  exact law.issues isOpen (item ▸ .askMore a id allowances) held cls' members selects

/-- The issuing step (R89, R91). -/
theorem issued (law : s.AwardsInOrder) {a : AskFields} {id : AwardId} {allowances : List Int}
    (item : s.engine = .issuing a id allowances) {e : EngineItem} (on : e = .idle ∨ ∃ m, e = .answer m) :
    ({ s.issueAward a id allowances with engine := e } : State).AwardsInOrder := by
  have engine := law.item.engine
  rw [State.EngineLawful, item] at engine
  obtain ⟨w, isOpen, _, held, _⟩ := engine
  rw [State.issueAward_open isOpen]
  exact law.issues (w' := { w with issue := some _ }) isOpen (item ▸ .issuing a id allowances) held rfl rfl
    (.issued (by simp) on)

end State.AwardsInOrder

/-! ### Members closed (R95, R97, R99, R101, R129) -/

/-- The engine's item is closing this award at most, and selecting no members. -/
structure EngineItem.ClosesOnly (e : EngineItem) (id : AwardId) : Prop where
  closes : ∀ k, e.closes k → k = id
  selects : ∀ a k allowances, e ≠ .askMore a k allowances ∧ e ≠ .issuing a k allowances

namespace EngineItem.ClosesOnly

theorem done (id : AwardId) (airtime : Nat) (work : List DoneWork) :
    (EngineItem.done id airtime work).ClosesOnly id :=
  ⟨fun _ => Eq.symm, fun _ _ _ => ⟨nofun, nofun⟩⟩

theorem expiry (id : AwardId) (work : List Handle) : (EngineItem.expiry id work).ClosesOnly id :=
  ⟨fun _ => Eq.symm, fun _ _ _ => ⟨nofun, nofun⟩⟩

theorem clearRelease (m : ReleaseWork) (rest : List ReleaseWork) :
    (EngineItem.clearRelease (m :: rest)).ClosesOnly m.id :=
  ⟨fun _ ⟨_, _, work, own⟩ => by cases work; exact own.symm, fun _ _ _ => ⟨nofun, nofun⟩⟩

theorem restartRelease (tag : Byte) (m : ReleaseWork) (rest : List ReleaseWork) :
    (EngineItem.restartRelease tag (m :: rest)).ClosesOnly m.id :=
  ⟨fun _ ⟨_, _, work, own⟩ => by cases work; exact own.symm, fun _ _ _ => ⟨nofun, nofun⟩⟩

end EngineItem.ClosesOnly

namespace State.Closes

variable {id : AwardId} {h : Handle} {w : OpenAward}

theorem engine (a : s.Closes t id h w) (e : EngineItem) : s.Closes { t with engine := e } id h w :=
  ⟨a.isOpen, a.landed, a.grounded, a.others, a.entries, a.own, a.executing, a.clearing⟩

/-- A member closed keeps the laws. -/
theorem inOrder (a : s.Closes t id h w) (law : s.AwardsInOrder) (held : h ∈ w.heldHandles)
    (only : s.engine.ClosesOnly id) {e : EngineItem}
    (goesOn : w.heldHandles.erase h ≠ [] → e.closes id)
    (engine : ({ t with engine := e } : State).EngineLawful) :
    ({ t with engine := e } : State).AwardsInOrder := by
  have b := a.engine e
  have issued : w.issue ≠ none := fun none_ => by
    obtain ⟨x, allowances, selects⟩ := law.item.selecting id w a.isOpen none_
    exact selects.elim (only.selects x id allowances).1 (only.selects x id allowances).2
  exact ⟨b.flights law.flights held, b.ground law.ground,
    b.item law.item issued only.closes only.selects goesOn engine,
    law.clear.busy b.executing b.clearing (law.clear.busy_of_open a.isOpen)⟩

/-- The award after its first held member has been closed: OPEN with the others, if there are any. -/
theorem next (a : s.Closes t id h w) {more : List Handle} (handles : w.heldHandles = h :: more)
    (some_ : more ≠ []) : ∃ v, (t.entry id).award = some v ∧ v.issue = w.issue ∧ v.heldHandles = more := by
  have rest : w.heldHandles.erase h = more := by rw [handles, List.erase_cons_head]
  have own := a.own
  rw [rest, if_neg some_] at own
  exact ⟨_, own, rfl, (heldHandles_markReleased w h).trans rest⟩

end State.Closes

namespace State.AwardsInOrder

/-- A member visit of a DONE (R95, R97). -/
theorem doneVisited (law : s.AwardsInOrder) {id : AwardId} {airtime : Nat} {m : DoneWork}
    {rest : List DoneWork} {w : OpenAward} (item : s.engine = .done id airtime (m :: rest))
    (isOpen : (s.entry id).award = some w) :
    ({ s.doneMember id w airtime m.handle m.entry with
       engine := if rest = [] then .idle else .done id airtime rest } : State).AwardsInOrder := by
  have engine := law.item.engine
  rw [State.EngineLawful, item] at engine
  obtain ⟨v, opened, issued, handles⟩ := engine
  cases isOpen.symm.trans opened
  have handles' : w.heldHandles = m.handle :: rest.map (·.handle) := handles.symm
  have closes := State.Closes.doneMember isOpen airtime m.handle m.entry
  generalize s.doneMember id w airtime m.handle m.entry = t at closes ⊢
  have inOrder := fun e => closes.inOrder law (e := e) (by simp [handles'])
    (item ▸ EngineItem.ClosesOnly.done id airtime _)
  by_cases last : rest = []
  · rw [if_pos last]
    exact inOrder .idle (fun some_ => (some_ (by simp [handles', last])).elim) trivial
  · rw [if_neg last]
    obtain ⟨v, stays, issue, more⟩ := closes.next handles' (by simpa using last)
    exact inOrder _ (fun _ => rfl) ⟨v, stays, issue ▸ issued, more.symm⟩

/-- A member visit of an expiry (R99). -/
theorem expiryVisited (law : s.AwardsInOrder) {id : AwardId} {h : Handle} {rest : List Handle}
    {w : OpenAward} (item : s.engine = .expiry id (h :: rest)) (isOpen : (s.entry id).award = some w)
    (i : Issue) :
    ({ s.expiryMember id w i h with
       engine := if rest = [] then .idle else .expiry id rest } : State).AwardsInOrder := by
  have engine := law.item.engine
  rw [State.EngineLawful, item] at engine
  obtain ⟨v, opened, issued, handles⟩ := engine
  cases isOpen.symm.trans opened
  have closes := State.Closes.expiryMember isOpen i h
  generalize s.expiryMember id w i h = t at closes ⊢
  have inOrder := fun e => closes.inOrder law (e := e) (by simp [← handles])
    (item ▸ EngineItem.ClosesOnly.expiry id _)
  by_cases last : rest = []
  · rw [if_pos last]
    exact inOrder .idle (fun some_ => (some_ (by simp [← handles, last])).elim) trivial
  · rw [if_neg last]
    obtain ⟨v, stays, issue, more⟩ := closes.next handles.symm last
    exact inOrder _ (fun _ => rfl) ⟨v, stays, issue ▸ issued, more.symm⟩

end State.AwardsInOrder

/-! ### Releases (R101, R129) -/

/-- In a list of lists, each of which names where it comes from, the first element is the first of its own list:
taking it from there takes it from the whole. -/
theorem flatMap_first {α β : Type} {key : β → α} {f g : α → List β}
    (keyed : ∀ i, ∀ x ∈ f i, key x = i) {l : List α} (nodup : l.Nodup) {x : β} {rest : List β}
    (first : l.flatMap f = x :: rest) (own : ∀ more, f (key x) = x :: more → g (key x) = more)
    (others : ∀ i, i ≠ key x → g i = f i) :
    ∃ more later, f (key x) = x :: more ∧ rest = more ++ later ∧ l.flatMap g = rest := by
  induction l with
  | nil => cases first
  | cons i is ih =>
    obtain ⟨out, nodup'⟩ := List.nodup_cons.mp nodup
    rw [List.flatMap_cons] at first ⊢
    cases head : f i with
    | nil =>
      rw [head, List.nil_append] at first
      have ne : i ≠ key x := by
        rintro rfl
        obtain ⟨j, _, isIn⟩ := List.mem_flatMap.mp (first ▸ List.mem_cons_self : x ∈ is.flatMap f)
        rw [keyed j x isIn] at head
        rw [head] at isIn
        cases isIn
      rw [others i ne, head, List.nil_append]
      exact ih nodup' first
    | cons y more =>
      rw [head, List.cons_append, List.cons.injEq] at first
      obtain ⟨rfl, later⟩ := first
      have here : key y = i := keyed i y (head ▸ List.mem_cons_self)
      subst here
      refine ⟨more, is.flatMap f, head, later.symm, ?_⟩
      rw [own more head, ← later]
      congr 1
      refine List.flatMap_congr fun j isIn => others j ?_
      rintro rfl
      exact out isIn

theorem AwardEntry.id_of_mem_releaseWork {e : AwardEntry} {id : AwardId} {m : ReleaseWork}
    (isIn : m ∈ e.releaseWork id) : m.id = id := by
  unfold AwardEntry.releaseWork at isIn
  split at isIn
  · cases isIn
  · obtain ⟨h, _, rfl⟩ := List.mem_map.mp isIn
    rfl

/-- An open member is a held member of its award. -/
theorem State.mem_openMembers {m : ReleaseWork} (isIn : m ∈ s.openMembers) :
    ∃ w, (s.entry m.id).award = some w ∧ m.handle ∈ w.heldHandles := by
  rw [State.openMembers_eq] at isIn
  obtain ⟨id, _, isIn⟩ := List.mem_flatMap.mp isIn
  cases AwardEntry.id_of_mem_releaseWork isIn
  cases isOpen : (s.entry m.id).award with
  | none =>
    rw [AwardEntry.releaseWork_none isOpen] at isIn
    cases isIn
  | some w =>
    rw [AwardEntry.releaseWork_some isOpen] at isIn
    obtain ⟨h, held, same⟩ := List.mem_map.mp isIn
    exact ⟨w, rfl, by rw [← same]; exact held⟩

/-- Once the first member of an entry has been closed, the entry has the others. -/
theorem State.Closes.releaseWork {m : ReleaseWork} {w : OpenAward} (a : s.Closes t m.id m.handle w)
    {more : List ReleaseWork} (work : (s.entry m.id).releaseWork m.id = m :: more) :
    (t.entry m.id).releaseWork m.id = more := by
  obtain ⟨id, head⟩ := m
  rw [AwardEntry.releaseWork_some a.isOpen] at work
  obtain ⟨h, handles, held, ⟨⟩, rfl⟩ := List.map_eq_cons_iff.mp work
  by_cases last : handles = []
  · have own := a.own
    rw [held, List.erase_cons_head, if_pos last] at own
    rw [AwardEntry.releaseWork_none own, last]
    rfl
  · obtain ⟨v, isOpen, _, rest⟩ := a.next held last
    rw [AwardEntry.releaseWork_some isOpen, rest]

/-- Once the first of the open members has been closed, the others are the open members, and those of the same award
come first. -/
theorem State.Closes.openMembers {m : ReleaseWork} {rest : List ReleaseWork} {w : OpenAward}
    (a : s.Closes t m.id m.handle w) (first : s.openMembers = m :: rest) :
    t.openMembers = rest ∧
      (w.heldHandles.erase m.handle ≠ [] → ∃ n later, rest = n :: later ∧ n.id = m.id) := by
  rw [State.openMembers_eq] at first ⊢
  obtain ⟨more, later, work, rfl, after⟩ := flatMap_first (key := ReleaseWork.id)
    (g := fun id => (t.entry id).releaseWork id)
    (fun _ _ isIn => AwardEntry.id_of_mem_releaseWork isIn) allAwardIds_nodup first
    (fun _ => a.releaseWork) fun k ne => by rw [a.entries k ne]
  refine ⟨after, fun stays => ?_⟩
  cases more with
  | nil =>
    have gone := a.own
    rw [if_neg stays] at gone
    have none_ := a.releaseWork work
    rw [AwardEntry.releaseWork_some gone, List.map_eq_nil_iff, heldHandles_markReleased] at none_
    exact (stays none_).elim
  | cons n others =>
    exact ⟨n, others ++ later, rfl, AwardEntry.id_of_mem_releaseWork
      (show n ∈ (s.entry m.id).releaseWork m.id by rw [work]; simp)⟩

namespace State.AwardsInOrder

/-- The release reported done finds no entry OPEN (R101). -/
theorem releaseDone (law : s.AwardsInOrder) (rests : s.engine.Resting)
    (closed : ∀ id, (s.entry id).award = none) : s.releaseDone.AwardsInOrder := by
  have idle : ({ s with engine := .idle } : State).AwardsInOrder := law.takes rests trivial nofun
  by_cases waits : s.executing = .clearRelease
  · rw [State.releaseDone_waits waits]
    have clears : s.clearing = true := law.clear.clearing.mpr (by rw [waits]; exact not_false)
    exact ⟨idle.flights.congr rfl fun _ => rfl, idle.ground, idle.item.congr rfl rfl,
      iff_of_true clears not_false, fun _ _ => ⟨closed, nofun⟩⟩
  · have same : s.releaseDone = { s with engine := .idle } := by rw [State.releaseDone, if_neg waits]
    rwa [same]

/-- A release visit leaves the other members open, and keeps the laws with an item that goes on to them (R101,
R129). -/
theorem releasedOne (law : s.AwardsInOrder) {m : ReleaseWork} {rest : List ReleaseWork}
    (first : s.openMembers = m :: rest) (only : s.engine.ClosesOnly m.id) (empties : Bool) :
    (s.releaseOne m empties).openMembers = rest ∧
      ∀ e : EngineItem, (∀ n later, rest = n :: later → e.closes n.id) →
        ({ s.releaseOne m empties with engine := e } : State).EngineLawful →
        ({ s.releaseOne m empties with engine := e } : State).AwardsInOrder := by
  obtain ⟨w, isOpen, held⟩ := State.mem_openMembers (first ▸ List.mem_cons_self)
  have closes := State.Closes.releaseOne isOpen empties
  obtain ⟨others, ownFirst⟩ := closes.openMembers first
  refine ⟨others, fun e goesOn => closes.inOrder law held only fun stays => ?_⟩
  obtain ⟨n, later, isRest, own⟩ := ownFirst stays
  exact own ▸ goesOn n later isRest

/-- A release visit of a TABLE_CLEAR (R101). -/
theorem clearReleased (law : s.AwardsInOrder) {m : ReleaseWork} {rest : List ReleaseWork}
    (item : s.engine = .clearRelease (m :: rest)) :
    (if rest = [] then (s.releaseOne m false).releaseDone
      else { s.releaseOne m false with engine := .clearRelease rest }).AwardsInOrder := by
  have engine := law.item.engine
  rw [State.EngineLawful, item] at engine
  obtain ⟨others, inOrder⟩ := law.releasedOne engine.1.symm (item ▸ .clearRelease m rest) false
  generalize s.releaseOne m false = t at others inOrder ⊢
  by_cases last : rest = []
  · rw [if_pos last]
    have idle := inOrder .idle (fun _ _ some_ => nomatch last.symm.trans some_) trivial
    exact idle.releaseDone .idle (idle.flights.openMembers_nil.mp (others.trans last))
  · rw [if_neg last]
    exact inOrder _ (fun n later isRest => ⟨n, later, isRest, rfl⟩) ⟨others.symm, last⟩

/-- A release visit of a link restart (R129). -/
theorem restartReleased (law : s.AwardsInOrder) {tag : Byte} {m : ReleaseWork} {rest : List ReleaseWork}
    (item : s.engine = .restartRelease tag (m :: rest)) :
    ({ s.releaseOne m true with
       engine := if rest = [] then .restartBacklog tag 0 else .restartRelease tag rest } :
      State).AwardsInOrder := by
  have engine := law.item.engine
  rw [State.EngineLawful, item] at engine
  obtain ⟨others, inOrder⟩ := law.releasedOne engine.1.symm (item ▸ .restartRelease tag m rest) true
  generalize s.releaseOne m true = t at others inOrder ⊢
  by_cases last : rest = []
  · rw [if_pos last]
    exact inOrder _ (fun _ _ some_ => nomatch last.symm.trans some_) trivial
  · rw [if_neg last]
    exact inOrder _ (fun n later isRest => ⟨n, later, isRest, rfl⟩) ⟨others.symm, last⟩

end State.AwardsInOrder

/-! ### Items taken (R80, R92, R99, R101, R129) -/

/-- The members matched to a DONE's entries by position are the award's, in pop order (R92). -/
theorem map_handle_doneWork {members : List Member} {entries : List DoneEntry}
    (count : entries.length = members.length) :
    (doneWork members entries).map (·.handle) = members.map (·.handle) := by
  induction members generalizing entries with
  | nil => rfl
  | cons m rest ih =>
    cases entries with
    | nil => cases count
    | cons e others => exact congrArg (m.handle :: ·) (ih (Nat.succ.inj count))

theorem OpenAward.heldHandles_whole {w : OpenAward} (held : ∀ m ∈ w.members, m.held = true) :
    w.heldHandles = w.members.map (·.handle) := by
  rw [OpenAward.heldHandles, List.filter_eq_self.mpr held]

namespace State.AwardsInOrder

/-- An accepted DONE has the held members of its award to visit (R92, R95). -/
theorem judged (law : s.AwardsInOrder) (free : s.engine = .idle) {id : AwardId} {w : OpenAward}
    (isOpen : (s.entry id).award = some w) {entries : List DoneEntry}
    (count : entries.length = w.members.length) (airtime : Nat) :
    ({ s with engine := .done id airtime (doneWork w.members entries) } : State).AwardsInOrder := by
  have rests : s.engine.Resting := free ▸ .idle
  obtain ⟨issued, held⟩ := law.item.issued rests isOpen
  refine law.takes rests ⟨w, isOpen, issued, ?_⟩ nofun
  rw [map_handle_doneWork count, OpenAward.heldHandles_whole held]

/-- An expiry has the held members of its award to visit (R99). -/
theorem expired (law : s.AwardsInOrder) (free : s.engine = .idle) {id : AwardId} {w : OpenAward}
    (isOpen : (s.entry id).award = some w) :
    ({ s with engine := .expiry id w.heldHandles } : State).AwardsInOrder :=
  have rests : s.engine.Resting := free ▸ .idle
  law.takes rests ⟨w, isOpen, (law.item.issued rests isOpen).1, rfl⟩ nofun

/-- A link restart releases every open member first (R129). -/
theorem restarted (law : s.AwardsInOrder) (free : s.engine = .idle) (tag : Byte) :
    ({ s with engine := if s.openMembers = [] then .restartBacklog tag 0
        else .restartRelease tag s.openMembers } : State).AwardsInOrder := by
  have rests : s.engine.Resting := free ▸ .idle
  split
  · exact law.takes rests trivial nofun
  · next some_ => exact law.takes rests ⟨rfl, some_⟩ nofun

/-- The clear's release has every open member to visit, or is done (R101). -/
theorem released (law : s.AwardsInOrder) (free : s.engine = .idle) :
    (if s.openMembers = [] then { s with releaseDue := false }.releaseDone
      else { s with releaseDue := false, engine := .clearRelease s.openMembers }).AwardsInOrder := by
  have rests : s.engine.Resting := free ▸ .idle
  have taken : ({ s with releaseDue := false } : State).AwardsInOrder :=
    law.flies (.of_fields rfl rfl rfl rfl rfl)
  split
  · next none_ => exact taken.releaseDone rests (law.flights.openMembers_nil.mp none_)
  · next some_ => exact taken.takes rests ⟨rfl, some_⟩ nofun

/-- A DONE in hand has a member to visit, and its award is OPEN (R95, R97). -/
theorem done_goesOn (law : s.AwardsInOrder) {id : AwardId} {airtime : Nat} {work : List DoneWork}
    (item : s.engine = .done id airtime work) : work ≠ [] ∧ (s.entry id).award ≠ none := by
  have engine := law.item.engine
  rw [State.EngineLawful, item] at engine
  obtain ⟨w, isOpen, _, handles⟩ := engine
  refine ⟨fun none_ => (law.flights.once id w isOpen).2.1 ?_, by simp [isOpen]⟩
  rw [← handles, none_]
  rfl

/-- An expiry in hand has a member to visit, and its award is OPEN and issued (R99). -/
theorem expiry_goesOn (law : s.AwardsInOrder) {id : AwardId} {work : List Handle}
    (item : s.engine = .expiry id work) :
    ¬ (work = [] ∨ (s.entry id).award = none ∨ ∃ w, (s.entry id).award = some w ∧ w.issue = none) := by
  have engine := law.item.engine
  rw [State.EngineLawful, item] at engine
  obtain ⟨w, isOpen, issued, rfl⟩ := engine
  simp [isOpen, issued, (law.flights.once id w isOpen).2.1]

end State.AwardsInOrder

/-! ### Every step -/

theorem Execution.Started.plain {e : Execution} (on : e.Started) : e.Plain := by
  cases e with
  | clearRelease => exact on
  | clearRecords next => exact on
  | _ => trivial

/-- Every work keeps the Award Table's law, given those of the free list and of the rings. -/
theorem awards_kept : Kept (fun s => s.FreeListLawful ∧ s.ClassesLawful) State.AwardsInOrder where
  quietB s t same b :=
    ⟨freeList_kept.kept.quiet s t same b.1, classes_kept.quiet s t same b.2⟩
  quiet _ _ same law := law.flies (.of_fields (congrArg State.stations same :) (congrArg State.awards same :)
    (congrArg State.engine same :) (congrArg State.executing same :) (congrArg State.clearing same :))
  reset := ((State.awardsLawful_iff _).mp State.awardsLawful_reset).1
  ended _ _ law plain _ := law.plain plain trivial
  started _ _ _ law idle on := law.plain (idle ▸ trivial) on.plain
  ruled _ _ _ _ _ law := law.flies (.of_fields rfl rfl rfl rfl rfl)
  written _ _ _ _ law := law.flies (.of_fields rfl rfl rfl rfl rfl)
  clearing _ _ law _ := law.turned (iff_of_true rfl not_false) nofun
  allocated s d clamped h b law ex _ head := by
    obtain ⟨members, order, free, _⟩ := b.1.order
    have isFree := (free h).mp (List.mem_of_head? (order.head.symm.trans head))
    exact (law.flies (.formed isFree d)).plain (show s.executing.Plain from ex ▸ trivial) trivial
  completed s h result clamped b law ex _ := by
    have forming := b.1.forming h result clamped ex
    have none_ := law.ground h (Or.inr (Or.inl forming))
    have admits : (s.station h).Flies (admitted (s.station h) s.settings result) := .of_none none_ rfl
    have flies := (State.Flies.writeBack s admits).trans (.enterIndex _ h)
    exact (law.flies flies).plain (flies.executing ▸ ex ▸ trivial) trivial
  denied s h result clamped b law ex := by
    have forming := b.1.forming h result clamped ex
    have flies := State.Flies.freeAtHead (law.ground h (Or.inr (Or.inl forming)))
    exact (law.flies flies).plain (flies.executing ▸ ex ▸ trivial) trivial
  amended s h f clamped _ law ex _ := by
    have flies := State.Flies.writeBack s (q := (s.station h).amended f) (.of_same rfl rfl)
    exact (law.flies flies).plain (flies.executing ▸ ex ▸ trivial) trivial
  reread _ _ _ law ex _ := law.plain (ex ▸ trivial) trivial
  reapplied s h result _ law ex := by
    have flies := State.Flies.writeBack s (h := h)
      (q := { s.station h with profile := result.profile, trace := result.trace }) (.of_same rfl rfl)
    exact (law.flies flies).plain (flies.executing ▸ ex ▸ trivial) trivial
  retired s h _ law ex _ := by
    have flies := State.Flies.retired s h s.settings.coolEpochs
    exact (law.flies flies).plain (flies.executing ▸ ex ▸ trivial) trivial
  listed _ _ _ _ _ _ _ law ex := law.plain (ex ▸ trivial) trivial
  cleared s h next _ law ex _ := by
    have flies := State.Flies.clearRecord
      (law.flights.none_of_closed (law.clear.cleared h ex).1 h)
    have clears : s.clearing = true := law.clear.clearing.mpr (ex ▸ not_false)
    have turned := (law.flies flies).turned (e := .clearRecords next) (due := (s.clearRecord h).releaseDue)
      (iff_of_true (flies.clearing.trans clears) not_false) fun _ _ => ⟨h, flies.executing.trans ex⟩
    exact turned
  clearEnded s h _ law ex _ := by
    have flies := State.Flies.clearRecord
      (law.flights.none_of_closed (law.clear.cleared h ex).1 h)
    have reset : (s.clearRecord h).Flies (s.clearRecord h).resetRings := .of_fields rfl rfl rfl rfl rfl
    exact (law.flies (flies.trans reset)).turned (iff_of_false Bool.false_ne_true (not_not.mpr trivial)) nofun
  taken s e _ law free on := by
    have rests : s.engine.Resting := free ▸ .idle
    rcases on with ⟨_, rfl⟩ | ⟨_, rfl⟩ | ⟨_, _, rfl⟩ <;> exact law.takes rests trivial nofun
  asked _ _ _ law free runs room := law.takes (free ▸ .idle) room fun _ _ => runs
  judged _ _ airtime _ _ _ law free isOpen count := law.judged free isOpen count airtime
  expired _ _ _ _ law free isOpen := law.expired free isOpen
  restarted _ tag _ law free := law.restarted free tag
  released _ _ law free _ := law.released free
  sent _ m _ law item := law.takes (item ▸ .answer m) trivial nofun
  declined s a m _ law item _ := by
    have flies := State.Flies.of_frame (State.clearHead_frame s a.cls)
    exact (law.flies flies).takes (flies.engine ▸ item ▸ .askFirst a) trivial nofun
  unclaimed s a _ _ law _ _ _ := law.flies (.of_frame (State.clearHead_frame s a.cls))
  claimed s defers a h id b law item head lowest := by
    have flies := State.Flies.of_frame (State.clearHead_frame s a.cls)
    have isFree : (s.entry id).award = none :=
      Option.isNone_iff_eq_none.mp (List.find?_some (p := fun id => (s.entry id).award.isNone) lowest)
    refine (law.flies flies).claims (flies.engine.trans item)
      (State.headStation_eligible (State.clearHead_lawful a.cls b.2 a.cls) head) ?_ defers
    rwa [State.entry_of_frame (State.clearHead_frame s a.cls)]
  selected s defers a id allowances _ law item := by
    have flies := State.Flies.of_frame (State.clearHead_frame s a.cls)
    exact (law.flies flies).ends (flies.engine.trans item) defers
  joined s defers a id allowances h b law item head := by
    have flies := State.Flies.of_frame (State.clearHead_frame s a.cls)
    exact (law.flies flies).joins (flies.engine.trans item)
      (State.headStation_eligible (State.clearHead_lawful a.cls b.2 a.cls) head) defers
  issued _ _ _ _ _ _ _ law item _ on := law.issued item on
  doneVisited _ _ _ _ _ _ _ law item isOpen := law.doneVisited item isOpen
  doneEnded _ _ _ _ _ law item ended :=
    (ended.elim (law.done_goesOn item).1 (law.done_goesOn item).2).elim
  expiryVisited _ _ _ _ _ i _ law item isOpen _ := law.expiryVisited item isOpen i
  expiryEnded _ _ _ _ law item ended := (law.expiry_goesOn item ended).elim
  clearReleased _ _ _ _ law item := law.clearReleased item
  clearReleaseEnded s _ law item := by
    have engine := law.item.engine
    rw [State.EngineLawful, item] at engine
    exact (engine.2 rfl).elim
  restartReleased _ _ _ _ _ law item := law.restartReleased item
  restartReleaseEnded s _ _ law item := by
    have engine := law.item.engine
    rw [State.EngineLawful, item] at engine
    exact (engine.2 rfl).elim
  reported s e rest _ law item := by
    have flies := State.Flies.backlogEntry s e
    have rests : (s.backlogEntry e).engine.Resting := flies.engine ▸ item ▸ .backlog _
    split <;> exact (law.flies flies).takes rests trivial nofun
  reportEnded _ _ law item := law.takes (item ▸ .backlog []) trivial nofun
  uplinked s h airtime _ law item := by
    have flies := State.Flies.uplinkStation s h airtime
    exact (law.flies flies).takes (flies.engine ▸ item ▸ .uplink h airtime) trivial nofun
  emptied s tag h next _ law item _ := by
    have flies := State.Flies.emptyBacklog s h
    exact (law.flies flies).takes (flies.engine ▸ item ▸ .restartBacklog tag h) trivial nofun
  restartEnded s tag h m _ law item _ := by
    have flies := (State.Flies.emptyBacklog s h).trans
      (.of_fields (t := (s.emptyBacklog h).resetRings) rfl rfl rfl rfl rfl)
    exact (law.flies flies).takes (flies.engine ▸ item ▸ .restartBacklog tag h) trivial nofun
  walked s h _ law := law.flies (.walkRecord law.ground h)

/-- Settles O59: every work keeps the four parts of the law, and the free list's law has the FORMING record. -/
theorem awardLawsAreKept : Obligations.AwardLawsAreKept := by
  intro s t freeList rings awards stepped
  have inOrder := awards_kept.step ⟨freeList, rings.classes⟩ ((State.awardsLawful_iff s).mp awards).1 stepped
  exact (State.awardsLawful_iff t).mpr ⟨inOrder, (freeListLawsAreKept s t freeList stepped).forming⟩

end Sys2Proof.Machine
end

section
/-!
PROOFS. The walker by itself: what an expiry of the step timer, the visit to a handle and the end of a step make of
it, and what each of its moves keeps (R106 to R112, R114, R122).
-/

namespace Sys2Proof.Machine

/-! ### The beginning and the end of a step (R109 to R111) -/

namespace Walker

variable {w : Walker}

/-- No step begins while one is in progress (R109). -/
theorem beginOwed_waits (inStep : w.step ≠ none) : w.beginOwed = w :=
  if_neg fun begins => inStep begins.2.1

theorem beginOwed_begins (owes : 0 < w.lag) (rests : w.step = none) (runs : w.timerRunning = true) :
    w.beginOwed = w.beginStep .owed :=
  if_pos ⟨owes, rests, runs⟩

/-- Nothing begins where no step is owed (R109). -/
theorem beginOwed_even (even : ¬ 0 < w.lag) : w.beginOwed = w :=
  if_neg fun begins => even begins.1

/-- The visit before the last of a group leaves the step at the next handle (R110). -/
theorem advance_within {p : WalkerStep} (within : p.next.val % 32 < 31) :
    ∃ next : Handle, next.val = p.next.val + 1 ∧
      w.advance p = { w with step := some { p with next := next } } := by
  have more : p.next.val + 1 < 512 := by omega
  have after : Handle.after p.next = some ⟨p.next.val + 1, more⟩ := dif_pos more
  refine ⟨⟨p.next.val + 1, more⟩, rfl, ?_⟩
  rw [advance, if_neg (by omega), after]

/-- The visit to the last handle of a group ends the step (R110). -/
theorem advance_last {p : WalkerStep} (last : p.next.val % 32 = 31) : w.advance p = w.endStep p.kind :=
  if_pos last

/-- The end of a step while the timer runs (R111). -/
theorem endStep_eq (runs : w.timerRunning = true) (kind : StepKind) :
    w.endStep kind =
      let lag := if kind = .owed then w.lag - 1 else w.lag
      let pointer := w.groupPointer + 1
      { w with
        lag := lag, groupPointer := pointer
        epoch := if w.groupPointer = 15 then w.epoch + 1 else w.epoch
        step := if 0 < lag then
          some { kind := .owed, next := ⟨32 * pointer.val, by omega⟩ } else none } := by
  dsimp only
  generalize owing : (if kind = .owed then w.lag - 1 else w.lag) = lag
  rw [endStep, owing]
  by_cases owes : 0 < lag
  · rw [if_pos owes]
    exact beginOwed_begins owes rfl runs
  · rw [if_neg owes]
    exact beginOwed_even owes

/-! ### The cases of an expiry (R107) -/

theorem expire_lead (ahead : 0 < w.lead) : w.expire = { w with lead := w.lead - 1 } := if_pos ahead

theorem expire_inStep (even : w.lead = 0) (room : w.lag < 8) (inStep : w.step ≠ none) :
    w.expire = { w with lag := w.lag + 1 } := by
  rw [expire, if_neg (by omega), if_pos (show w.lag < Config.walkerLimit from room)]
  exact beginOwed_waits inStep

theorem expire_begins (even : w.lead = 0) (room : w.lag < 8) (rests : w.step = none)
    (runs : w.timerRunning = true) :
    w.expire = { w with lag := w.lag + 1 }.beginStep .owed := by
  rw [expire, if_neg (by omega), if_pos (show w.lag < Config.walkerLimit from room)]
  exact beginOwed_begins (Nat.succ_pos _) rests runs

theorem expire_full (even : w.lead = 0) (full : 8 ≤ w.lag) : w.expire = w := by
  rw [expire, if_neg (by omega), if_neg (show ¬ w.lag < Config.walkerLimit from not_lt.mpr full)]

/-- An expiry forfeits where no step is ahead and eight are owed (R107 (c)). -/
theorem forfeits_iff : w.forfeits = true ↔ w.lead = 0 ∧ 8 ≤ w.lag := by
  rw [forfeits, Bool.and_eq_true, beq_iff_eq, decide_eq_true_eq]
  rfl

/-! ### What the laws say of a step (R108, R109) -/

namespace Lawful

/-- The step timer runs while a step is in progress (R109, R122). -/
theorem runs (law : w.Lawful) {p : WalkerStep} (inStep : w.step = some p) : w.timerRunning = true := by
  by_contra off
  have rests := (law.stopped (Bool.eq_false_iff.mpr off)).2.2
  rw [inStep] at rests
  cases rests

/-- A step that begins in its group, owed only where the lag is above 0, is lawful (R109). -/
theorem beginStep (lag_le : w.lag ≤ 8) (lead_le : w.lead ≤ 8) (one_zero : w.lag = 0 ∨ w.lead = 0)
    (runs : w.timerRunning = true) {kind : StepKind} (owed : kind = .owed → 0 < w.lag) :
    (w.beginStep kind).Lawful where
  lag_le := lag_le
  lead_le := lead_le
  one_zero := one_zero
  inGroup := by
    rintro p ⟨⟩
    exact Nat.mul_div_cancel_left w.groupPointer.val (by decide)
  owed := by
    rintro p ⟨⟩
    exact owed
  begun _ := rfl
  stopped off := absurd (off.symm.trans runs) Bool.false_ne_true

/-- Between steps, nothing being owed and the timer running, the walker is lawful whatever its pointer. -/
theorem rests (even : w.lag = 0) (lead_le : w.lead ≤ 8) (none_ : w.step = none)
    (runs : w.timerRunning = true) : w.Lawful where
  lag_le := by omega
  lead_le := lead_le
  one_zero := Or.inl even
  inGroup p inStep := by cases none_.symm.trans inStep
  owed p inStep := by cases none_.symm.trans inStep
  begun owes := by omega
  stopped off := absurd (off.symm.trans runs) Bool.false_ne_true

/-- The walker of a stopped timer, everything at 0 (R122). -/
theorem stops (lag : w.lag = 0) (lead : w.lead = 0) (none_ : w.step = none) : w.Lawful where
  lag_le := by omega
  lead_le := by omega
  one_zero := Or.inl lag
  inGroup p inStep := by cases none_.symm.trans inStep
  owed p inStep := by cases none_.symm.trans inStep
  begun owes := by omega
  stopped _ := ⟨lag, lead, none_⟩

/-- The laws do not see the next expiry. -/
theorem schedules (law : w.Lawful) (next : Word) : ({ w with nextExpiry := next } : Walker).Lawful :=
  ⟨law.lag_le, law.lead_le, law.one_zero, law.inGroup, law.owed, law.begun, law.stopped⟩

/-- The timer starts running (R106). -/
theorem starts (law : w.Lawful) (now : Word) (interval : Nat) : (w.start now interval).Lawful :=
  ⟨law.lag_le, law.lead_le, law.one_zero, law.inGroup, law.owed, law.begun, nofun⟩

/-- An expiry of the running timer keeps the laws, in each of its cases (R107). -/
theorem expires (law : w.Lawful) (runs : w.timerRunning = true) : w.expire.Lawful := by
  have lag_le := law.lag_le
  have lead_le := law.lead_le
  rcases Nat.eq_zero_or_pos w.lead with even | ahead
  · rcases lt_or_ge w.lag 8 with room | full
    · by_cases rests : w.step = none
      · rw [expire_begins even room rests runs]
        exact beginStep (w := { w with lag := w.lag + 1 }) room lead_le (Or.inr even) runs
          fun _ => Nat.succ_pos _
      · rw [expire_inStep even room rests]
        exact ⟨room, lead_le, Or.inr even, law.inGroup, fun _ _ _ => Nat.succ_pos _,
          fun _ => Option.isSome_iff_ne_none.mpr rests,
          fun off => absurd (off.symm.trans runs) Bool.false_ne_true⟩
    · rw [expire_full even full]
      exact law
  · rw [expire_lead ahead]
    have caught : w.lag = 0 := law.one_zero.resolve_right (by omega)
    exact ⟨lag_le, (Nat.sub_le w.lead 1).trans lead_le, Or.inl caught, law.inGroup, law.owed, law.begun,
      fun off => absurd (off.symm.trans runs) Bool.false_ne_true⟩

/-- A walker between steps, its counts lawful, begins the step that it owes (R109). -/
theorem beginOwed (lag_le : w.lag ≤ 8) (lead_le : w.lead ≤ 8) (one_zero : w.lag = 0 ∨ w.lead = 0)
    (none_ : w.step = none) (runs : w.timerRunning = true) : w.beginOwed.Lawful := by
  by_cases owes : 0 < w.lag
  · rw [beginOwed_begins owes none_ runs]
    exact beginStep lag_le lead_le one_zero runs fun _ => owes
  · rw [beginOwed_even owes]
    exact rests (Nat.eq_zero_of_not_pos owes) lead_le none_ runs

/-- The end of a step keeps the laws (R111). -/
theorem ends (law : w.Lawful) (runs : w.timerRunning = true) (kind : StepKind) :
    (w.endStep kind).Lawful := by
  have lag_le := law.lag_le
  have one_zero := law.one_zero
  have less : (if kind = .owed then w.lag - 1 else w.lag) ≤ w.lag := by split <;> omega
  have even (level : w.lag = 0) := Nat.eq_zero_of_le_zero (less.trans level.le)
  exact beginOwed (less.trans lag_le) law.lead_le (one_zero.imp_left even) rfl runs

/-- The visit to a handle of the step keeps the laws: the next handle is of the same group (R109, R110). -/
theorem advances (law : w.Lawful) {p : WalkerStep} (inStep : w.step = some p) : (w.advance p).Lawful := by
  have runs := law.runs inStep
  rcases lt_or_ge (p.next.val % 32) 31 with within | last
  · obtain ⟨next, follows, advanced⟩ := w.advance_within within
    have group := law.inGroup p inStep
    rw [advanced]
    refine ⟨law.lag_le, law.lead_le, law.one_zero, ?_, ?_, fun _ => rfl,
      fun off => absurd (off.symm.trans runs) Bool.false_ne_true⟩
    · rintro _ ⟨⟩
      show next.val / 32 = w.groupPointer.val
      omega
    · rintro _ ⟨⟩
      exact law.owed p inStep
  · rw [advance_last (by omega)]
    exact law.ends runs p.kind

end Lawful

/-! ### The moves of the walker -/

/-- What an event can make of the walker: nothing, its power-on values, the start of its timer, its state in a
TABLE_CLEAR, an expiry, a step pulled in, and the visit to a handle (R106, R107, R110, R114, R122). -/
inductive Moves : Walker → Walker → Prop
  | stays (w : Walker) : Moves w w
  | held (w : Walker) : Moves w Walker.held
  | starts (w : Walker) (now : Word) (interval : Nat) : Moves w (w.start now interval)
  | cleared (w : Walker) : Moves w w.cleared
  | expires {w : Walker} (runs : w.timerRunning = true) (next : Word) :
      Moves w { w.expire with nextExpiry := next }
  | pullsIn {w : Walker} (even : w.lag = 0) (room : w.lead < 8) (rests : w.step = none)
      (runs : w.timerRunning = true) : Moves w ({ w with lead := w.lead + 1 }.beginStep .pulledIn)
  | advances {w : Walker} {p : WalkerStep} (inStep : w.step = some p) : Moves w (w.advance p)

/-- Every move keeps the laws of the walker. -/
theorem Lawful.moves {v : Walker} (law : w.Lawful) (move : w.Moves v) : v.Lawful := by
  cases move with
  | stays => exact law
  | held => exact .stops rfl rfl rfl
  | starts now interval => exact law.starts now interval
  | cleared => exact .stops rfl rfl rfl
  | expires runs next => exact (law.expires runs).schedules next
  | pullsIn even room rests runs =>
    exact .beginStep (w := { w with lead := w.lead + 1 }) law.lag_le room (Or.inl even) runs nofun
  | advances inStep => exact law.advances inStep

end Walker

end Sys2Proof.Machine
end

section
/-!
PROOFS. The expiry of the step timer (O43), the visits and the end of a step (O45), and the values that the part
holds in reset (O3) (R105 to R111, R122, R146).
-/

namespace Sys2Proof.Machine

/-! ### RESET_N (R105, R106, R122, R146) -/

theorem exec_resetRelease {s : State} (low : s.resetLow = true) :
    exec .resetRelease s = .next
      { s with resetLow := false, walker := s.walker.start s.timebase s.settings.stepInterval } := by
  show execResetRelease s = _
  rw [execResetRelease, if_pos low]

/-- Settles O3: RESET_ASSERT answers the power-on values from every state, and RESET_RELEASE starts the timer. -/
theorem resetHoldsPowerOnValues : Obligations.ResetHoldsPowerOnValues :=
  ⟨fun _ => rfl, fun _ low => exec_resetRelease low⟩

/-! ### The expiry of the step timer (R106, R107) -/

/-- An expiry that forfeits nothing changes the walker only (R107 (a), (b)). -/
theorem State.timerExpiry_counts {s : State} (room : 0 < s.walker.lead ∨ s.walker.lag < 8) :
    s.timerExpiry =
      { s with walker := { s.walker.expire with
          nextExpiry := s.walker.nextExpiry + BitVec.ofNat 32 s.settings.stepInterval } } := by
  have keeps : s.walker.forfeits = false := by
    rw [Bool.eq_false_iff, Ne, Walker.forfeits_iff]
    omega
  rw [State.timerExpiry, keeps]
  rfl

/-- An expiry at a lag of 8 forfeits its step: the walker is scheduled anew, and FORFEIT counts (R107 (c)). -/
theorem State.timerExpiry_forfeits {s : State} (even : s.walker.lead = 0) (full : 8 ≤ s.walker.lag) :
    s.timerExpiry =
      { s with
        walker := { s.walker with
          nextExpiry := s.walker.nextExpiry + BitVec.ofNat 32 s.settings.stepInterval }
        flags := { s.flags with forfeit := true }
        counters := { s.counters with forfeit := min (s.counters.forfeit + 1) 65535 } } := by
  rw [State.timerExpiry, Walker.forfeits_iff.mpr ⟨even, full⟩, Walker.expire_full even full]
  rfl

/-- Settles O43: the cases of an expiry, by the lead, the lag and the step that it finds. -/
theorem stepTimerExpiryCountsStep : Obligations.StepTimerExpiryCountsStep := by
  intro s run runs _ now
  rw [exec_stepTimerExpiry_due run runs now]
  refine ⟨fun ahead => ?_, fun even room inStep => ?_, fun even room rests => ?_, fun even full => ?_⟩
  · rw [State.timerExpiry_counts (Or.inl ahead), Walker.expire_lead ahead]
  · rw [State.timerExpiry_counts (Or.inr room), Walker.expire_inStep even room inStep]
  · rw [State.timerExpiry_counts (Or.inr room), Walker.expire_begins even room rests runs]
    rfl
  · rw [State.timerExpiry_forfeits even full.ge]

/-! ### The visits of a step (R110, R111) -/

@[simp] theorem State.walkRecord_walker (s : State) (h : Handle) : (s.walkRecord h).walker = s.walker := by
  unfold State.walkRecord
  dsimp only
  split
  · rfl
  · rfl
  · exact State.writeBack_walker s h _
  · exact State.writeBack_walker s h _
  · exact State.writeBack_walker s h _
  · split
    · exact State.freeAtTail_walker s h
    · rfl

/-- A visit of the walker takes its step one handle on, whatever the record (R110). -/
theorem State.walk1_walker (s : State) (p : WalkerStep) : (s.walk1 p).walker = s.walker.advance p := by
  rw [State.walk1]
  exact congrArg (Walker.advance · p) (s.walkRecord_walker p.next)

/-- Settles O45: a visit before the last of a group goes on to the next handle, and the last ends the step. -/
theorem stepVisitsItsGroupAndEnds : Obligations.StepVisitsItsGroupAndEnds := by
  intro s u asks p run inStep grant law visited
  have walked : u.walker = s.walker.advance p := by
    cases (exec_walkerVisit run inStep grant).symm.trans visited
    exact State.walk1_walker (s.granted .walker asks) p
  rw [walked]
  refine ⟨Walker.advance_within, fun last => ?_⟩
  rw [Walker.advance_last last, Walker.endStep_eq (law.runs inStep)]

end Sys2Proof.Machine
end

section
/-!
PROOFS. Every step keeps the laws of the walker (O53): the works of the Award Engine, the Request Processor, the link
and the port leave the walker as it is but for the starts, stops, expiries and pull-ins that `Walker.Moves` lists.
-/

namespace Sys2Proof.Machine

/-! ### The works that leave the walker alone -/

namespace State

variable (s : State)

@[simp] theorem decline_walker (a : AskFields) (reason : DeclineReason) :
    (s.decline a reason).walker = s.walker := rfl

@[simp] theorem checkAsk_walker (a : AskFields) : (s.checkAsk a).walker = s.walker := by
  unfold checkAsk
  repeat' split
  all_goals rfl

@[simp] theorem endSelection_walker (defers : Bool) (a : AskFields) (id : AwardId) (allowances : List Int) :
    (s.endSelection defers a id allowances).walker = s.walker := by
  cases defers with
  | false => exact s.issueAward_walker a id allowances
  | true => rfl

@[simp] theorem issueDue_walker : s.issueDue.walker = s.walker := by
  unfold issueDue
  split
  · exact s.issueAward_walker _ _ _
  · rfl

@[simp] theorem enqueueAnswer_walker : s.enqueueAnswer.walker = s.walker := by
  unfold enqueueAnswer
  split
  · split <;> rfl
  · rfl

@[simp] theorem popFirst_walker (defers : Bool) (a : AskFields) (id : AwardId) (h : Handle) :
    (s.popFirst defers a id h).walker = s.walker := by
  unfold popFirst
  dsimp only
  split <;> simp [claimEntry]

@[simp] theorem popFurther_walker (defers : Bool) (a : AskFields) (id : AwardId) (allowances : List Int)
    (h : Handle) : (s.popFurther defers a id allowances h).walker = s.walker := by
  unfold popFurther
  dsimp only
  split <;> simp

@[simp] theorem conditionalPop_walker (defers : Bool) (a : AskFields) (id : AwardId) (allowances : List Int) :
    (s.conditionalPop defers a id allowances).walker = s.walker := by
  unfold conditionalPop
  dsimp only
  split
  · simp
  · split <;> simp

@[simp] theorem judgeDone_walker (id : AwardId) (generation : BitVec 4) (airtime : Nat)
    (entries : List DoneEntry) : (s.judgeDone id generation airtime entries).walker = s.walker := by
  unfold judgeDone
  repeat' split
  all_goals rfl

@[simp] theorem doneMember_walker (id : AwardId) (w : OpenAward) (airtime : Nat) (h : Handle) (e : DoneEntry) :
    (s.doneMember id w airtime h e).walker = s.walker := by simp [doneMember]

@[simp] theorem takeExpiry_walker (d : DueExpiry) : (s.takeExpiry d).walker = s.walker := by
  unfold takeExpiry
  dsimp only
  repeat' split
  all_goals rfl

@[simp] theorem expiryMember_walker (id : AwardId) (w : OpenAward) (i : Issue) (h : Handle) :
    (s.expiryMember id w i h).walker = s.walker := by simp [expiryMember]

@[simp] theorem releaseDone_walker : s.releaseDone.walker = s.walker := rfl

@[simp] theorem releaseOne_walker (w : ReleaseWork) (empties : Bool) :
    (s.releaseOne w empties).walker = s.walker := by
  unfold releaseOne
  split
  · rfl
  · exact s.closeMember_walker _ _ _

@[simp] theorem receive_walker (nibbles : List Nibble) : (s.receive nibbles).walker = s.walker := by
  unfold receive
  repeat' split
  all_goals rfl

@[simp] theorem backlogEntry_walker (e : BacklogEntry) : (s.backlogEntry e).walker = s.walker := by
  unfold backlogEntry
  dsimp only
  split
  · rfl
  · rfl
  · rfl
  · exact s.writeBack_walker _ _
  · split
    · exact s.writeBack_walker _ _
    · rfl
  · rfl

@[simp] theorem uplinkStation_walker (h : Handle) (airtime : Nat) :
    (s.uplinkStation h airtime).walker = s.walker := by
  unfold uplinkStation
  dsimp only
  split <;> simp

@[simp] theorem emptyBacklog_walker (h : Handle) : (s.emptyBacklog h).walker = s.walker := by
  unfold emptyBacklog
  dsimp only
  split <;> simp

@[simp] theorem completeRestart_walker (tag : Byte) : (s.completeRestart tag).walker = s.walker := rfl

@[simp] theorem takeFree_walker (h : Handle) : (s.takeFree h).walker = s.walker := rfl

@[simp] theorem freeAtHead_walker (h : Handle) : (s.freeAtHead h).walker = s.walker := rfl

@[simp] theorem enterIndex_walker (h : Handle) : (s.enterIndex h).walker = s.walker := rfl

@[simp] theorem asksFor_walker (e : Execution) : (s.asksFor e).walker = s.walker := rfl

@[simp] theorem startAmend_walker (p : List Byte) : (s.startAmend p).walker = s.walker := by
  unfold startAmend
  split <;> simp

@[simp] theorem startReapply_walker (p : List Byte) : (s.startReapply p).walker = s.walker := by
  unfold startReapply
  split <;> simp

@[simp] theorem startRetire_walker (p : List Byte) : (s.startRetire p).walker = s.walker := by
  unfold startRetire
  split <;> simp

@[simp] theorem startQuery_walker (p : List Byte) : (s.startQuery p).walker = s.walker := by
  unfold startQuery
  split <;> simp

@[simp] theorem startList_walker (p : List Byte) : (s.startList p).walker = s.walker := by
  unfold startList
  split <;> simp

@[simp] theorem startRulePut_walker (p : List Byte) : (s.startRulePut p).walker = s.walker := by
  unfold startRulePut
  split <;> simp

@[simp] theorem startRuleGet_walker (p : List Byte) : (s.startRuleGet p).walker = s.walker := by
  unfold startRuleGet
  split <;> simp

@[simp] theorem startItemPut_walker (p : List Byte) : (s.startItemPut p).walker = s.walker := by
  unfold startItemPut
  split <;> simp

@[simp] theorem startItemGet_walker (p : List Byte) : (s.startItemGet p).walker = s.walker := by
  unfold startItemGet
  split <;> simp

@[simp] theorem startSummaryClear_walker (p : List Byte) : (s.startSummaryClear p).walker = s.walker := by
  simp [startSummaryClear]

@[simp] theorem runClassifier_walker (d : Descriptor) : (s.runClassifier d).1.walker = s.walker :=
  s.raiseIf_walker _ _

@[simp] theorem allocate_walker (d : Descriptor) (clamped : Bool) :
    (s.allocate d clamped).walker = s.walker := by
  unfold allocate
  split
  · simp
  · split <;> simp

@[simp] theorem completeAdmit_walker (h : Handle) (result : ClassResult) (clamped : Bool) :
    (s.completeAdmit h result clamped).walker = s.walker := by
  unfold completeAdmit
  split <;> simp

@[simp] theorem amendStation_walker (h : Handle) (f : AmendFields) (clamped : Bool) :
    (s.amendStation h f clamped).walker = s.walker := by
  unfold amendStation
  split <;> simp

@[simp] theorem readForReapply_walker (h : Handle) : (s.readForReapply h).walker = s.walker := by
  unfold readForReapply
  split
  · dsimp only
    split <;> simp
  · simp

@[simp] theorem applyReapply_walker (h : Handle) (result : ClassResult) :
    (s.applyReapply h result).walker = s.walker := by simp [applyReapply]

@[simp] theorem retireStation_walker (h : Handle) : (s.retireStation h).walker = s.walker := by
  unfold retireStation
  split <;> simp

@[simp] theorem scan_walker (states : BitVec 6) (h : Handle) (found : List Handle) :
    (s.scan states h found).walker = s.walker := by
  unfold scan
  dsimp only
  generalize (if states.getLsbD (s.station h).state.code = true then found ++ [h] else found) = more
  split
  · simp
  · split <;> simp

@[simp] theorem clearRecord_walker (h : Handle) : (s.clearRecord h).walker = s.walker := by
  unfold clearRecord
  dsimp only
  split <;> split <;> simp

@[simp] theorem transactionByte_walker (b : Byte) : (s.transactionByte b).walker = s.walker := by
  unfold transactionByte
  repeat' split
  all_goals rfl

end State

/-! ### The works that move it -/

namespace Walker.Moves

/-- A work that leaves the walker alone makes the move that changes nothing. -/
theorem of_eq {w v : Walker} (same : v = w) : w.Moves v := same ▸ .stays w

variable {s : State}

/-- The report of a DECLINE for want of credit pulls a step in, or does nothing (R114). -/
theorem noCreditReport : s.walker.Moves s.noCreditReport.walker := by
  unfold State.noCreditReport
  split
  · next pulls =>
    obtain ⟨_, even, room, rests, runs⟩ := s.pullsIn_iff.mp pulls
    exact .pullsIn even room rests runs
  · exact .stays _

theorem popVisit (defers : Bool) (a : AskFields) : s.walker.Moves (s.popVisit defers a).walker := by
  unfold State.popVisit State.declineEmpty
  dsimp only
  have clears := s.clearHead_walker a.cls
  split
  · split
    · exact clears ▸ noCreditReport
    · exact .of_eq clears
  · exact .of_eq (by simp)
  · exact .of_eq clears

/-- An expiry of the running step timer (R107). -/
theorem timerExpiry (runs : s.walker.timerRunning = true) : s.walker.Moves s.timerExpiry.walker := by
  rw [State.timerExpiry, State.raiseIf_walker]
  exact .expires runs _

/-- The end of a TABLE_CLEAR starts the timer (R106, R122). -/
theorem completeClear : s.walker.Moves s.completeClear.walker := by
  rw [State.completeClear, State.respond_walker]
  exact .starts _ _ _

/-- The start of a request moves the walker where it is TABLE_CLEAR (R122, R147). -/
theorem start (q : Request) : s.walker.Moves (s.start q).walker := by
  unfold State.start
  cases q.form with
  | none => exact .of_eq (s.respond_walker _ _ _)
  | some kind =>
    cases kind with
    | tableClear => exact .cleared _
    | admitting => exact .stays _
    | amend => exact .of_eq (s.startAmend_walker _)
    | reapply => exact .of_eq (s.startReapply_walker _)
    | retire => exact .of_eq (s.startRetire_walker _)
    | find => exact .stays _
    | query => exact .of_eq (s.startQuery_walker _)
    | list => exact .of_eq (s.startList_walker _)
    | rulePut => exact .of_eq (s.startRulePut_walker _)
    | ruleGet => exact .of_eq (s.startRuleGet_walker _)
    | itemPut => exact .of_eq (s.startItemPut_walker _)
    | itemGet => exact .of_eq (s.startItemGet_walker _)
    | summaryClear => exact .of_eq (s.startSummaryClear_walker _)

theorem startHead : s.walker.Moves s.startHead.walker := by
  unfold State.startHead
  repeat' split
  · exact .stays _
  · exact start _
  · exact .stays _

theorem startForm (form : Option RequestKind) : s.walker.Moves (s.startForm form).walker := by
  unfold State.startForm
  repeat' split
  · exact .stays _
  · exact startHead
  · exact .stays _

/-- A response that leaves its queue may start a request that waited for its slot (R142). -/
theorem removeResponse : s.walker.Moves s.removeResponse.walker := by
  unfold State.removeResponse State.startWaiting
  split
  · exact startHead (s := { s with responses := s.responses.tail })
  · exact .stays _

/-- The end of a transaction moves the walker where it frees a response slot (R137, R144). -/
theorem endingWork (bytes : List Byte) : s.walker.Moves (s.endingWork bytes).walker := by
  unfold State.endingWork
  split
  · split <;> exact .stays _
  · split
    · exact removeResponse (s := { s with port := .idle })
    · exact .stays _
  all_goals exact .stays _

theorem endTransaction (bytes : List Byte) : s.walker.Moves (s.endTransaction bytes).walker :=
  endingWork (s := { s with csLow := false, spiOut := _ }) bytes

/-- A visit moves the walker as its work does. -/
theorem visit {r : Requester} {asks : PortAsks} {due : Bool} {work : State → State}
    (moves : ∀ u : State, u.walker.Moves (work u).walker) :
    s.walker.Moves (s.visit r asks due work).walker := by
  rcases s.visit_cases r asks due work with same | waits | ⟨_, _, _, granted⟩
  · rw [same]; exact .stays _
  · rw [waits]; exact .stays _
  · rw [granted]; exact moves (s.granted r asks)

/-- A visit whose work leaves the walker alone does not move it. -/
theorem visitOfEq {r : Requester} {asks : PortAsks} {due : Bool} {work : State → State}
    (same : ∀ u : State, (work u).walker = u.walker) : s.walker.Moves (s.visit r asks due work).walker :=
  visit fun u => .of_eq (same u)

/-- The taking of a message leaves the walker alone where its work does. -/
theorem takeItem {work : InMessage → Option (State → State)}
    (same : ∀ m f, work m = some f → ∀ u : State, (f u).walker = u.walker) :
    s.walker.Moves (s.takeItem work).walker := by
  unfold State.takeItem
  split
  · split
    · exact .stays _
    · split
      · exact .stays _
      · next f works => exact .of_eq (same _ f works s.takeMessage)
  · exact .stays _

theorem inOpening {work : State → State} (same : (work s).walker = s.walker) :
    s.walker.Moves (s.inOpening work).walker := by
  unfold State.inOpening
  repeat' split
  · exact .stays _
  · exact .of_eq same
  · exact .stays _

/-! ### Every command -/

variable {t : State}

theorem chipSelectRise {bytes : List Byte} {stray : Nat}
    (ran : execChipSelectRise bytes stray s = .next t) : s.walker.Moves t.walker := by
  cases ran
  split
  · exact .stays _
  · split
    · exact .stays _
    · split
      · split
        · exact endTransaction []
        · next b rest => exact s.transactionByte_walker b ▸ endTransaction rest
      · exact endTransaction bytes

theorem awardExpiry {id : AwardId} {generation : BitVec 4}
    (ran : execAwardExpiry id generation s = .next t) : s.walker.Moves t.walker := by
  cases ran
  refine .of_eq ?_
  split
  · rfl
  · split
    · exact s.takeExpiry_walker _
    · split
      · exact (s.pass _).takeExpiry_walker _
      · rfl

/-- The command of the step timer's expiry moves the walker of a running timer (R107). -/
theorem stepTimerExpiry (ran : execStepTimerExpiry s = .next t) : s.walker.Moves t.walker := by
  cases ran
  split
  · exact .stays _
  · split
    · next runs => exact timerExpiry (s := s.pass _) runs
    · exact .stays _

/-- Of the record visits of a TABLE_CLEAR, the last starts the timer (R122). -/
theorem tableClearRecordVisit {asks : PortAsks} (ran : execTableClearRecordVisit asks s = .next t) :
    s.walker.Moves t.walker := by
  cases ran
  refine visit fun u => ?_
  split
  · next h _ =>
    split
    · exact .of_eq (u.clearRecord_walker h)
    · exact u.clearRecord_walker h ▸ completeClear
  · exact .stays _

/-- A visit of the walker takes its step one handle on (R110). -/
theorem walkerVisit {asks : PortAsks} (ran : execWalkerVisit asks s = .next t) :
    s.walker.Moves t.walker := by
  cases ran
  refine visit fun u => ?_
  split
  · next p inStep => exact u.walk1_walker p ▸ .advances inStep
  · exact .stays _

/-- What each command does to the walker: the pins, the starts of requests, the expiry of the step timer, the last
visit of a TABLE_CLEAR, the pop visit and the walker's own can move it; no other does. -/
theorem exec {c : Instr} (ran : Machine.exec c s = .next t) : s.walker.Moves t.walker := by
  cases c with
  | resetAssert => cases ran; exact .held _
  | resetRelease =>
    cases ran
    split
    · exact .starts _ _ _
    · exact .stays _
  | chipSelectFall =>
    cases ran
    repeat' split
    all_goals exact .stays _
  | chipSelectRise bytes stray => exact chipSelectRise (stray := stray) ran
  | put => cases ran; exact inOpening rfl
  | take => cases ran; exact inOpening rfl
  | peek => cases ran; exact inOpening rfl
  | ignoring byte =>
    cases ran
    split
    · exact .stays _
    · exact inOpening rfl
  | badKind => cases ran; exact startForm _
  | admitStart => cases ran; exact startForm _
  | amend => cases ran; exact startForm _
  | reapply => cases ran; exact startForm _
  | retire => cases ran; exact startForm _
  | find => cases ran; exact startForm _
  | query => cases ran; exact startForm _
  | list => cases ran; exact startForm _
  | rulePut => cases ran; exact startForm _
  | ruleGet => cases ran; exact startForm _
  | itemPut => cases ran; exact startForm _
  | itemGet => cases ran; exact startForm _
  | summaryClear => cases ran; exact startForm _
  | tableClear => cases ran; exact startForm _
  | admitAllocationVisit asks => cases ran; exact visitOfEq fun u => by split <;> simp
  | admitCompletionVisit asks => cases ran; exact visitOfEq fun u => by split <;> simp
  | amendVisit asks => cases ran; exact visitOfEq fun u => by split <;> simp
  | reapplyReadVisit asks => cases ran; exact visitOfEq fun u => by split <;> simp
  | reapplyApplyVisit asks => cases ran; exact visitOfEq fun u => by split <;> simp
  | retireVisit asks => cases ran; exact visitOfEq fun u => by split <;> simp
  | findProbeVisit asks =>
    cases ran
    refine visitOfEq fun u => ?_
    repeat' split
    all_goals simp
  | queryVisit asks =>
    cases ran
    refine visitOfEq fun u => ?_
    repeat' split
    all_goals simp
  | listScanVisit asks => cases ran; exact visitOfEq fun u => by split <;> simp
  | tableClearRecordVisit asks => exact tableClearRecordVisit ran
  | messageReceived nibbles cut =>
    cases ran
    refine .of_eq ?_
    split
    · rfl
    · exact s.receive_walker nibbles
  | firstSync =>
    cases ran
    repeat' split
    all_goals exact .stays _
  | downMessageDrop =>
    cases ran
    repeat' split
    all_goals exact .stays _
  | outboundEnqueue =>
    cases ran
    refine .of_eq ?_
    split <;> simp
  | outboundSent =>
    cases ran
    repeat' split
    all_goals exact .stays _
  | ask =>
    cases ran
    refine takeItem fun m f works u => ?_
    split at works <;> cases works
    exact u.checkAsk_walker _
  | done =>
    cases ran
    refine takeItem fun m f works u => ?_
    split at works <;> cases works
    exact u.judgeDone_walker _ _ _ _
  | backlog =>
    cases ran
    refine takeItem fun m f works u => ?_
    split at works <;> cases works
    rfl
  | uplink =>
    cases ran
    refine takeItem fun m f works u => ?_
    split at works <;> cases works
    rfl
  | linkRestart =>
    cases ran
    refine takeItem fun m f works u => ?_
    split at works <;> cases works
    rfl
  | awardExpiry id generation => exact awardExpiry ran
  | stepTimerExpiry => exact stepTimerExpiry ran
  | tableClearRelease =>
    cases ran
    dsimp only
    repeat' split
    all_goals exact .stays _
  | popVisit pop =>
    cases ran
    refine visit fun u => ?_
    split
    · exact popVisit _ _
    · exact .stays _
  | conditionalPopVisit pop => cases ran; exact visitOfEq fun u => by split <;> simp
  | doneMemberVisit asks =>
    cases ran
    refine visitOfEq fun u => ?_
    repeat' split
    all_goals simp
  | expiryMemberVisit asks =>
    cases ran
    refine visitOfEq fun u => ?_
    repeat' split
    all_goals simp
  | releaseVisit asks =>
    cases ran
    refine visitOfEq fun u => ?_
    repeat' split
    all_goals simp
  | backlogEntryVisit asks => cases ran; exact visitOfEq fun u => by split <;> simp
  | uplinkVisit asks => cases ran; exact visitOfEq fun u => by split <;> simp
  | linkRestartBacklogVisit asks =>
    cases ran
    refine visitOfEq fun u => ?_
    repeat' split
    all_goals simp
  | walkerVisit asks => exact walkerVisit ran

/-- What a step can do to the walker. -/
theorem step (stepped : Machine.step s = .next t) : s.walker.Moves t.walker := by
  unfold Machine.step at stepped
  split at stepped
  · cases stepped
    unfold State.idleStep
    split
    · exact .stays _
    · split
      · next due => exact timerExpiry (Bool.and_eq_true_iff.mp due).1
      · exact .stays _
  · next rest _ => exact exec (s := { s with pending := rest }) stepped

end Walker.Moves

/-- Settles O53: a step makes one of the walker's moves, and each of them keeps the laws. -/
theorem walkerLawsAreKept : Obligations.WalkerLawsAreKept :=
  fun _ _ law stepped => law.moves (.step stepped)

end Sys2Proof.Machine
end

section
/-!
PROOFS. What leaves the queues alone: the visits of the Award Engine and of the walker, and the taking of a message
but for the inbound queue, read and write neither the queues nor the port nor the request under way.
-/

namespace Sys2Proof.Machine

/-- What the laws of the queues are about: the port, the request under way, and the four queues. -/
structure Queues where
  port      : PortState
  requests  : List Request
  executing : Execution
  responses : List Response
  inbound   : List InMessage
  outbound  : List OutMessage

namespace State

/-- The queues of a state, with the port and the request under way. -/
def queues (s : State) : Queues :=
  { port := s.port, requests := s.requests, executing := s.executing, responses := s.responses
    inbound := s.inbound, outbound := s.outbound }

variable (s : State)

/-! ### The operations of the visits -/

theorem writeBack_queues (h : Handle) (r : StationRecord) : (s.writeBack h r).queues = s.queues := by
  simp [queues]

theorem clearHead_queues (c : ServiceClass) : (s.clearHead c).queues = s.queues := by simp [queues]

theorem popHead_queues (c : ServiceClass) (h : Handle) : (s.popHead c h).queues = s.queues := by
  simp [queues]

theorem closeMember_queues (id : AwardId) (h : Handle) (r : StationRecord) :
    (s.closeMember id h r).queues = s.queues := by simp [queues]

theorem issueAward_queues (a : AskFields) (id : AwardId) (allowances : List Int) :
    (s.issueAward a id allowances).queues = s.queues := by simp [queues]

theorem raiseIf_queues (happens : Bool) (f : Flag) : (s.raiseIf happens f).queues = s.queues := by
  simp [queues]

theorem chargeFlags_queues (r : StationRecord) (raw : Nat) : (s.chargeFlags r raw).queues = s.queues := by
  simp [queues]

theorem noCreditReport_queues : s.noCreditReport.queues = s.queues := by
  unfold noCreditReport
  split <;> rfl

/-- Writing the request under way, after what leaves the queues alone. -/
theorem executing_queues {s t : State} (same : t.queues = s.queues) (e : Execution) :
    ({ t with executing := e } : State).queues = { s.queues with executing := e } :=
  (congrArg (fun q : Queues => { q with executing := e }) same :)

/-- The engine's item is no matter of the queues. -/
theorem engine_queues {s t : State} (same : t.queues = s.queues) (e : EngineItem) :
    ({ t with engine := e } : State).queues = s.queues := same

/-! ### ASK and member selection (R86 to R90) -/

theorem checkAsk_queues (a : AskFields) : (s.checkAsk a).queues = s.queues := by
  unfold checkAsk
  repeat' split
  all_goals rfl

theorem endSelection_queues (defers : Bool) (a : AskFields) (id : AwardId) (allowances : List Int) :
    (s.endSelection defers a id allowances).queues = s.queues := by
  cases defers with
  | false => exact s.issueAward_queues a id allowances
  | true => rfl

theorem popFirst_queues (defers : Bool) (a : AskFields) (id : AwardId) (h : Handle) :
    (s.popFirst defers a id h).queues = s.queues := by
  have popped : ((s.popHead a.cls h).claimEntry id a h).queues = s.queues := s.popHead_queues a.cls h
  unfold popFirst
  dsimp only
  split
  · exact popped
  · exact (endSelection_queues _ defers a id _).trans popped

theorem popFurther_queues (defers : Bool) (a : AskFields) (id : AwardId) (allowances : List Int)
    (h : Handle) : (s.popFurther defers a id allowances h).queues = s.queues := by
  have popped : ((s.popHead a.cls h).appendMember id h).queues = s.queues := by simp [queues]
  unfold popFurther
  dsimp only
  split
  · exact popped
  · exact (endSelection_queues _ defers a id _).trans popped

theorem popVisit_queues (defers : Bool) (a : AskFields) : (s.popVisit defers a).queues = s.queues := by
  have clears := s.clearHead_queues a.cls
  unfold popVisit declineEmpty
  dsimp only
  split
  · split
    · exact (noCreditReport_queues _).trans clears
    · exact clears
  · exact (popFirst_queues _ defers a _ _).trans clears
  · exact clears

theorem conditionalPop_queues (defers : Bool) (a : AskFields) (id : AwardId) (allowances : List Int) :
    (s.conditionalPop defers a id allowances).queues = s.queues := by
  have ends := (endSelection_queues _ defers a id allowances).trans (s.clearHead_queues a.cls)
  unfold conditionalPop
  dsimp only
  split
  · exact ends
  · split
    · exact (popFurther_queues _ defers a id allowances _).trans (s.clearHead_queues a.cls)
    · exact ends

/-! ### DONE, expiry and release (R92 to R101) -/

theorem judgeDone_queues (id : AwardId) (generation : BitVec 4) (airtime : Nat) (entries : List DoneEntry) :
    (s.judgeDone id generation airtime entries).queues = s.queues := by
  unfold judgeDone
  repeat' split
  all_goals rfl

theorem doneMember_queues (id : AwardId) (w : OpenAward) (airtime : Nat) (h : Handle) (e : DoneEntry) :
    (s.doneMember id w airtime h e).queues = s.queues :=
  (closeMember_queues _ id h _).trans <| (raiseIf_queues _ _ .unreachable).trans <| chargeFlags_queues _ _ _

theorem takeExpiry_queues (d : DueExpiry) : (s.takeExpiry d).queues = s.queues := by
  unfold takeExpiry
  dsimp only
  repeat' split
  all_goals rfl

theorem expiryMember_queues (id : AwardId) (w : OpenAward) (i : Issue) (h : Handle) :
    (s.expiryMember id w i h).queues = s.queues :=
  (closeMember_queues _ id h _).trans (chargeFlags_queues _ _ _)

theorem releaseOne_queues (w : ReleaseWork) (empties : Bool) : (s.releaseOne w empties).queues = s.queues := by
  unfold releaseOne
  split
  · rfl
  · exact s.closeMember_queues _ _ _

/-! ### The link and the walker (R107, R116, R130, R131, R133) -/

theorem backlogEntry_queues (e : BacklogEntry) : (s.backlogEntry e).queues = s.queues := by
  unfold backlogEntry
  dsimp only
  split
  · rfl
  · rfl
  · rfl
  · exact s.writeBack_queues _ _
  · split
    · exact s.writeBack_queues _ _
    · rfl
  · rfl

theorem uplinkStation_queues (h : Handle) (airtime : Nat) :
    (s.uplinkStation h airtime).queues = s.queues := by
  unfold uplinkStation
  dsimp only
  split
  · rfl
  · rfl
  · rfl
  · rfl
  · exact (writeBack_queues _ _ _).trans (s.raiseIf_queues _ .floor)
  · exact (writeBack_queues _ _ _).trans (s.raiseIf_queues _ .floor)

theorem emptyBacklog_queues (h : Handle) : (s.emptyBacklog h).queues = s.queues := by
  unfold emptyBacklog
  dsimp only
  split
  · exact s.writeBack_queues _ _
  · rfl

theorem completeRestart_queues (tag : Byte) : (s.completeRestart tag).queues = s.queues := rfl

theorem walkRecord_queues (h : Handle) : (s.walkRecord h).queues = s.queues := by
  unfold walkRecord
  dsimp only
  split
  · rfl
  · rfl
  · exact s.writeBack_queues _ _
  · exact s.writeBack_queues _ _
  · exact s.writeBack_queues _ _
  · split
    · simp [queues]
    · rfl

theorem timerExpiry_queues : s.timerExpiry.queues = s.queues := raiseIf_queues _ _ .forfeit

/-! ### The table of records (R18, R22) -/

theorem clearRecord_queues (h : Handle) : (s.clearRecord h).queues = s.queues := by
  unfold clearRecord
  dsimp only
  split <;> split <;> simp [queues]

end State

end Sys2Proof.Machine
end

section
/-!
PROOFS. Every step keeps the laws of the queues (O54): a queue grows only where it has room, a request starts only
with room for its response, and nothing takes that room while the request is under way (R126, R135, R139, R141, R142).
-/

namespace Sys2Proof.Machine

namespace State.QueuesLawful

variable {s t : State}

/-! ### The rules of the queues -/

/-- The laws see the queues, the port and the request under way. -/
theorem of_queues (law : s.QueuesLawful) (same : t.queues = s.queues) : t.QueuesLawful := by
  obtain ⟨port, requests, executing, responses, inbound, outbound⟩ := Queues.mk.inj same
  constructor
  · exact requests ▸ law.requests_le
  · exact responses ▸ law.responses_le
  · exact inbound ▸ law.inbound_le
  · exact outbound ▸ law.outbound_le
  · rw [executing, requests, responses]
    exact law.executing
  · rw [port, requests]
    exact law.reserved

/-- A request under way has room for its response (R142). -/
theorem room (law : s.QueuesLawful) (busy : s.executing ≠ .idle) : s.responses.length < 4 :=
  (law.executing busy).2

/-- A request of the queue executes with room for its response (R142). -/
theorem executes (law : s.QueuesLawful) (queued : s.requests ≠ []) (room : s.responses.length < 4)
    {e : Execution} (same : t.queues = { s.queues with executing := e }) : t.QueuesLawful :=
  of_queues (s := { s with executing := e }) ⟨law.requests_le, law.responses_le, law.inbound_le,
    law.outbound_le, fun _ => ⟨queued, room⟩, law.reserved⟩ same

/-- The request under way goes on (R142). -/
theorem goesOn (law : s.QueuesLawful) (busy : s.executing ≠ .idle) {e : Execution}
    (same : t.queues = { s.queues with executing := e }) : t.QueuesLawful :=
  law.executes (law.executing busy).1 (law.room busy) same

/-- The end of a request frees its slot, and its response enters the room there is for it (R141, R142). -/
theorem responded (law : s.QueuesLawful) (room : s.responses.length < 4) (status : Status) (clamped : Bool)
    (payload : List Byte) : (s.respond status clamped payload).QueuesLawful := by
  unfold State.respond
  split
  · exact ⟨law.requests_le, law.responses_le, law.inbound_le, law.outbound_le, absurd rfl, law.reserved⟩
  · next q rest head =>
    have frees : rest.length < s.requests.length := by simp [head]
    have answered : (s.responses ++ [(⟨q.kind, status, clamped, payload⟩ : Response)]).length ≤ 4 := by
      rw [List.length_append]
      exact room
    exact ⟨frees.le.trans law.requests_le, answered, law.inbound_le, law.outbound_le, absurd rfl,
      fun put => frees.trans (law.reserved put)⟩

/-- A request ends, after a work that leaves the queues alone. -/
theorem responds (law : s.QueuesLawful) (room : s.responses.length < 4) {status : Status} {clamped : Bool}
    {payload : List Byte} (same : t.queues = s.queues) :
    (t.respond status clamped payload).QueuesLawful :=
  (law.of_queues same).responded ((congrArg (·.responses.length) same).trans_lt room) status clamped payload

/-- The request under way ends, after a work that leaves the queues alone. -/
theorem finishes (law : s.QueuesLawful) (busy : s.executing ≠ .idle) {status : Status} {clamped : Bool}
    {payload : List Byte} (same : t.queues = s.queues) :
    (t.respond status clamped payload).QueuesLawful :=
  law.responds (law.room busy) same

/-- A PUT reserves a slot that is free; no other transaction reserves one (R139). -/
theorem enters (law : s.QueuesLawful) {p : PortState} (free : p = .putFrame → s.requests.length < 4) :
    (s.enter p).QueuesLawful :=
  ⟨law.requests_le, law.responses_le, law.inbound_le, law.outbound_le, law.executing, free⟩

/-- The port returns to IDLE (R137). -/
theorem closes (law : s.QueuesLawful) : ({ s with port := .idle } : State).QueuesLawful :=
  law.enters (p := .idle) nofun |>.of_queues rfl

/-- A request enters the slot that its PUT reserved (R139, R140). -/
theorem accepts (law : s.QueuesLawful) (put : s.port = .putFrame) (q : Request) :
    ({ s with port := .idle, requests := s.requests ++ [q] } : State).QueuesLawful := by
  refine ⟨?_, law.responses_le, law.inbound_le, law.outbound_le, fun busy => ?_, nofun⟩
  · rw [List.length_append]
    exact law.reserved put
  · exact ⟨List.append_ne_nil_of_right_ne_nil _ (List.cons_ne_nil q []), law.room busy⟩

/-- The oldest response leaves its queue (R144). -/
theorem dropsResponse (law : s.QueuesLawful) :
    ({ s with responses := s.responses.tail } : State).QueuesLawful := by
  have shorter : s.responses.tail.length ≤ s.responses.length := by rw [List.length_tail]; omega
  exact ⟨law.requests_le, shorter.trans law.responses_le, law.inbound_le, law.outbound_le,
    fun busy => ⟨(law.executing busy).1, shorter.trans_lt (law.room busy)⟩, law.reserved⟩

/-- The link's queues change within their depths (R126, R135). -/
theorem links (law : s.QueuesLawful) {inbound : List InMessage} {outbound : List OutMessage}
    (inbound_le : inbound.length ≤ 8) (outbound_le : outbound.length ≤ 4)
    (same : t.queues = { s.queues with inbound := inbound, outbound := outbound }) : t.QueuesLawful :=
  of_queues (s := { s with inbound := inbound, outbound := outbound }) ⟨law.requests_le, law.responses_le,
    inbound_le, outbound_le, law.executing, law.reserved⟩ same

/-- The inbound queue without its head is within its depth (R126). -/
theorem inboundTail_le (law : s.QueuesLawful) : s.inbound.tail.length ≤ 8 := by
  have inbound_le := law.inbound_le
  rw [List.length_tail]
  omega

/-- The outbound queue with room is within its depth with one message more (R135). -/
theorem outboundAppend_le (room : s.outbound.length < Config.outboundDepth) (m : OutMessage) :
    (s.outbound ++ [m]).length ≤ 4 := by
  rw [List.length_append]
  exact room

/-! ### The start of a request (R142, R147) -/

/-- A request whose number names no station is refused, any other takes its visit in hand (R149 to R153). -/
theorem startOfHandle (law : s.QueuesLawful) (queued : s.requests ≠ []) (room : s.responses.length < 4)
    {named : Option Handle} {status : Status} {payload : List Byte} {e : Handle → Execution} :
    (match named with
      | none => s.respond status false payload
      | some h => s.asksFor (e h)).QueuesLawful := by
  cases named with
  | none => exact law.responds room rfl
  | some h => exact law.executes queued room rfl

theorem startList (law : s.QueuesLawful) (queued : s.requests ≠ []) (room : s.responses.length < 4)
    (p : List Byte) : (s.startList p).QueuesLawful := by
  unfold State.startList
  split
  · exact law.responds room rfl
  · exact law.executes queued room rfl

theorem startRulePut (law : s.QueuesLawful) (room : s.responses.length < 4) (p : List Byte) :
    (s.startRulePut p).QueuesLawful := by
  unfold State.startRulePut
  split <;> exact law.responds room rfl

theorem startRuleGet (law : s.QueuesLawful) (room : s.responses.length < 4) (p : List Byte) :
    (s.startRuleGet p).QueuesLawful := by
  unfold State.startRuleGet
  split <;> exact law.responds room rfl

theorem startItemPut (law : s.QueuesLawful) (room : s.responses.length < 4) (p : List Byte) :
    (s.startItemPut p).QueuesLawful := by
  unfold State.startItemPut
  split <;> exact law.responds room rfl

theorem startItemGet (law : s.QueuesLawful) (room : s.responses.length < 4) (p : List Byte) :
    (s.startItemGet p).QueuesLawful := by
  unfold State.startItemGet
  split <;> exact law.responds room rfl

theorem startSummaryClear (law : s.QueuesLawful) (room : s.responses.length < 4) (p : List Byte) :
    (s.startSummaryClear p).QueuesLawful :=
  law.responds room rfl

/-- The request at the head starts: it ends with its response at once, or goes on with its visits (R142). -/
theorem start (law : s.QueuesLawful) (queued : s.requests ≠ []) (room : s.responses.length < 4)
    (q : Request) : (s.start q).QueuesLawful := by
  unfold State.start
  cases q.form with
  | none => exact law.responds room rfl
  | some kind =>
    cases kind with
    | admitting => exact law.executes queued room rfl
    | amend => exact law.startOfHandle queued room
    | reapply => exact law.startOfHandle queued room
    | retire => exact law.startOfHandle queued room
    | find => exact law.executes queued room rfl
    | query => exact law.startOfHandle queued room
    | list => exact law.startList queued room _
    | rulePut => exact law.startRulePut room _
    | ruleGet => exact law.startRuleGet room _
    | itemPut => exact law.startItemPut room _
    | itemGet => exact law.startItemGet room _
    | summaryClear => exact law.startSummaryClear room _
    | tableClear => exact law.executes queued room rfl

theorem startHead (law : s.QueuesLawful) : s.startHead.QueuesLawful := by
  unfold State.startHead
  split
  · next may =>
    split
    · exact law
    · next q rest head =>
      exact law.start (head ▸ List.cons_ne_nil q rest) (of_decide_eq_true (Bool.and_eq_true_iff.mp may).2) q
  · exact law

theorem startForm (law : s.QueuesLawful) (form : Option RequestKind) : (s.startForm form).QueuesLawful := by
  unfold State.startForm
  repeat' split
  · exact law
  · exact law.startHead
  · exact law

/-! ### Transactions (R137 to R144) -/

/-- A PUT reserves a slot where one is free; the other transaction bytes reserve none (R138, R139). -/
theorem beginPut (law : s.QueuesLawful) : s.beginPut.QueuesLawful := by
  refine law.enters fun put => ?_
  by_contra full
  rw [if_neg (show ¬ s.requests.length < Config.queueSlots from full)] at put
  cases put

theorem beginIgnoring (law : s.QueuesLawful) : s.beginIgnoring.QueuesLawful :=
  (law.enters (p := .ignoring) nofun).of_queues rfl

theorem transactionByte (law : s.QueuesLawful) (b : Byte) : (s.transactionByte b).QueuesLawful := by
  unfold State.transactionByte
  repeat' split
  · exact law.beginPut
  · exact law.enters nofun
  · exact law.enters nofun
  · exact law.beginIgnoring

theorem inOpening {work : State → State} (law : s.QueuesLawful) (kept : (work s).QueuesLawful) :
    (s.inOpening work).QueuesLawful := by
  unfold State.inOpening
  repeat' split
  · exact law
  · exact kept
  · exact law

/-- A response that leaves its queue may start a request that waited for its room (R142, R144). -/
theorem removeResponse (law : s.QueuesLawful) : s.removeResponse.QueuesLawful := by
  unfold State.removeResponse State.startWaiting
  split
  · exact law.dropsResponse.startHead
  · exact law.dropsResponse

theorem endingWork (law : s.QueuesLawful) (bytes : List Byte) : (s.endingWork bytes).QueuesLawful := by
  unfold State.endingWork
  split
  · next put =>
    split
    · exact law.accepts put _
    · exact law.closes.of_queues rfl
  · split
    · exact law.closes.removeResponse
    · exact law.closes
  · exact law.closes
  · exact law
  all_goals exact law.closes

theorem endTransaction (law : s.QueuesLawful) (bytes : List Byte) : (s.endTransaction bytes).QueuesLawful :=
  endingWork (s := { s with csLow := false, spiOut := _ }) (law.of_queues rfl) bytes

theorem chipSelectRise (law : s.QueuesLawful) {bytes : List Byte} {stray : Nat}
    (ran : execChipSelectRise bytes stray s = .next t) : t.QueuesLawful := by
  cases ran
  split
  · exact law
  · split
    · exact law.of_queues rfl
    · split
      · split
        · exact law.endTransaction []
        · exact (law.transactionByte _).endTransaction _
      · exact law.endTransaction bytes

/-! ### Visits (R16, R17) -/

/-- A visit keeps the laws where its work on the granted state does. -/
theorem visit (law : s.QueuesLawful) {r : Requester} {asks : PortAsks} {due : Bool} {work : State → State}
    (kept : ∀ u : State, u.QueuesLawful → (work u).QueuesLawful) :
    (s.visit r asks due work).QueuesLawful := by
  rcases s.visit_cases r asks due work with same | waits | ⟨_, _, _, granted⟩
  · rw [same]; exact law
  · rw [waits]; exact law.of_queues rfl
  · rw [granted]; exact kept _ (law.of_queues rfl)

/-- A visit whose work leaves the queues alone keeps the laws. -/
theorem quietVisit (law : s.QueuesLawful) {r : Requester} {asks : PortAsks} {due : Bool}
    {work : State → State} (quiet : ∀ u : State, (work u).queues = u.queues) :
    (s.visit r asks due work).QueuesLawful :=
  law.visit fun u law => law.of_queues (quiet u)

/-- The visit of a request keeps the laws where its work does while the request is under way. -/
theorem requestVisit (law : s.QueuesLawful) {kind : RequestVisit} {asks : PortAsks} {work : State → State}
    (kept : ∀ u : State, u.QueuesLawful → u.executing ≠ .idle → (work u).QueuesLawful) :
    (s.requestVisit kind asks work).QueuesLawful := by
  rcases s.visit_cases .request asks (s.executing.visit == some kind) work with
    same | waits | ⟨_, due, _, granted⟩
  · rw [State.requestVisit, same]; exact law
  · rw [State.requestVisit, waits]; exact law.of_queues rfl
  · rw [State.requestVisit, granted]
    refine kept _ (law.of_queues rfl) fun idle => ?_
    have resting : s.executing.visit = none := congrArg Execution.visit idle
    cases (beq_iff_eq.mp due).symm.trans resting

/-- The clear's release reported done, its record visits begin (R101). -/
theorem releaseDone (law : s.QueuesLawful) : s.releaseDone.QueuesLawful := by
  unfold State.releaseDone
  split
  · next clears =>
    exact law.goesOn (by rw [clears]; nofun) rfl
  · exact law.of_queues rfl

theorem releaseVisit (law : s.QueuesLawful) {asks : PortAsks} (ran : execReleaseVisit asks s = .next t) :
    t.QueuesLawful := by
  cases ran
  refine law.visit fun u law => ?_
  split
  · next m rest _ =>
    have released : (u.releaseOne m false).QueuesLawful := law.of_queues (u.releaseOne_queues m false)
    dsimp only
    split
    · exact released.releaseDone
    · exact released.of_queues rfl
  · exact law.releaseDone
  · next tag m rest _ => exact law.of_queues (u.releaseOne_queues m true)
  · exact law.of_queues rfl
  · exact law

/-! ### The visits of the Request Processor (R141, R142) -/

theorem allocate (law : s.QueuesLawful) (busy : s.executing ≠ .idle) (d : Descriptor) (clamped : Bool) :
    (s.allocate d clamped).QueuesLawful := by
  unfold State.allocate
  split
  · exact law.finishes busy rfl
  · split
    · exact law.finishes busy rfl
    · exact law.goesOn busy (State.executing_queues (State.raiseIf_queues _ _ .chainRange) _)

theorem completeAdmit (law : s.QueuesLawful) (busy : s.executing ≠ .idle) (h : Handle)
    (result : ClassResult) (clamped : Bool) : (s.completeAdmit h result clamped).QueuesLawful := by
  unfold State.completeAdmit
  split
  · exact law.finishes busy (s.writeBack_queues h _)
  · exact law.finishes busy rfl
  · exact law.finishes busy rfl

theorem amendStation (law : s.QueuesLawful) (busy : s.executing ≠ .idle) (h : Handle) (f : AmendFields)
    (clamped : Bool) : (s.amendStation h f clamped).QueuesLawful := by
  unfold State.amendStation
  split
  · exact law.finishes busy (s.writeBack_queues h _)
  · exact law.finishes busy rfl

theorem readForReapply (law : s.QueuesLawful) (busy : s.executing ≠ .idle) (h : Handle) :
    (s.readForReapply h).QueuesLawful := by
  unfold State.readForReapply State.runClassifier
  split
  · dsimp only
    have raised := s.raiseIf_queues (classify s.classPolicy (s.station h).descriptor).2 .chainRange
    split
    · exact law.goesOn busy (State.executing_queues raised _)
    · exact law.finishes busy raised
    · exact law.finishes busy raised
  · exact law.finishes busy rfl

theorem retireStation (law : s.QueuesLawful) (busy : s.executing ≠ .idle) (h : Handle) :
    (s.retireStation h).QueuesLawful := by
  unfold State.retireStation
  split
  · refine law.finishes busy ((State.writeBack_queues _ h _).trans ?_)
    simp [State.queues]
  · exact law.finishes busy rfl

theorem scan (law : s.QueuesLawful) (busy : s.executing ≠ .idle) (states : BitVec 6) (h : Handle)
    (found : List Handle) : (s.scan states h found).QueuesLawful := by
  unfold State.scan
  dsimp only
  generalize (if states.getLsbD (s.station h).state.code = true then found ++ [h] else found) = more
  split
  · exact law.finishes busy rfl
  · split
    · exact law.finishes busy rfl
    · exact law.goesOn busy rfl

theorem tableClearRecordVisit (law : s.QueuesLawful) {asks : PortAsks}
    (ran : execTableClearRecordVisit asks s = .next t) : t.QueuesLawful := by
  cases ran
  refine law.requestVisit fun u law busy => ?_
  split
  · split
    · exact law.goesOn busy (State.executing_queues (u.clearRecord_queues _) _)
    · exact law.finishes busy (u.clearRecord_queues _)
  · exact law

/-! ### The link (R126, R127, R135) -/

theorem receive (law : s.QueuesLawful) (nibbles : List Nibble) : (s.receive nibbles).QueuesLawful := by
  unfold State.receive
  split
  · exact law.of_queues rfl
  · split
    · next room =>
      refine law.links ?_ law.outbound_le rfl
      rw [List.length_append]
      exact room
    · exact law.of_queues rfl

/-- The taking of a message shortens the inbound queue, where its work leaves the queues alone (R126). -/
theorem takeItem (law : s.QueuesLawful) {work : InMessage → Option (State → State)}
    (quiet : ∀ m f, work m = some f → ∀ u : State, (f u).queues = u.queues) :
    (s.takeItem work).QueuesLawful := by
  unfold State.takeItem
  repeat' split
  · exact law
  · exact law
  · next f works => exact law.links law.inboundTail_le law.outbound_le (quiet _ f works _)
  · exact law

theorem firstSync (law : s.QueuesLawful) (ran : execFirstSync s = .next t) : t.QueuesLawful := by
  cases ran
  split
  · exact law
  · split
    · next tag rest head =>
      split
      · next room =>
        have fewer := law.inboundTail_le
        rw [head] at fewer
        exact law.links fewer (outboundAppend_le room (.sync tag)) rfl
      · exact law
    · exact law

theorem downMessageDrop (law : s.QueuesLawful) (ran : execDownMessageDrop s = .next t) : t.QueuesLawful := by
  cases ran
  split
  · exact law
  · split
    · exact law
    · exact law
    · next m rest _ head =>
      have fewer := law.inboundTail_le
      rw [head] at fewer
      exact law.links fewer law.outbound_le rfl

theorem issueDue (law : s.QueuesLawful) : s.issueDue.QueuesLawful := by
  unfold State.issueDue
  split
  · exact law.of_queues (s.issueAward_queues _ _ _)
  · exact law

theorem enqueueAnswer (law : s.QueuesLawful) : s.enqueueAnswer.QueuesLawful := by
  unfold State.enqueueAnswer
  split
  · split
    · next room => exact law.links law.inbound_le (outboundAppend_le room _) rfl
    · exact law
  · exact law

theorem outboundSent (law : s.QueuesLawful) (ran : execOutboundSent s = .next t) : t.QueuesLawful := by
  cases ran
  split
  · exact law
  · split
    · exact law
    · next m rest head =>
      have fewer : rest.length < s.outbound.length := by simp [head]
      exact law.links law.inbound_le (fewer.le.trans law.outbound_le) rfl

/-! ### Expiries (R98, R107) -/

theorem awardExpiry (law : s.QueuesLawful) {id : AwardId} {generation : BitVec 4}
    (ran : execAwardExpiry id generation s = .next t) : t.QueuesLawful := by
  cases ran
  split
  · exact law
  · split
    · exact law.of_queues (s.takeExpiry_queues _)
    · split
      · exact law.of_queues (State.takeExpiry_queues _ _)
      · exact law

theorem stepTimerExpiry (law : s.QueuesLawful) (ran : execStepTimerExpiry s = .next t) :
    t.QueuesLawful := by
  cases ran
  repeat' split
  · exact law
  · exact law.of_queues (State.timerExpiry_queues _)
  · exact law

theorem tableClearRelease (law : s.QueuesLawful) (ran : execTableClearRelease s = .next t) :
    t.QueuesLawful := by
  cases ran
  dsimp only
  repeat' split
  · exact releaseDone (s := { s with releaseDue := false }) (law.of_queues rfl)
  · exact law.of_queues rfl
  · exact law

/-! ### Every command -/

/-- Every command keeps the laws of the queues. -/
theorem exec (law : s.QueuesLawful) {c : Instr} (ran : Machine.exec c s = .next t) : t.QueuesLawful := by
  cases c with
  | resetAssert => cases ran; exact State.queuesLawful_reset.of_queues rfl
  | resetRelease =>
    cases ran
    split
    · exact law.of_queues rfl
    · exact law
  | chipSelectFall =>
    cases ran
    repeat' split
    · exact law
    · exact law.of_queues rfl
    · exact (law.enters (p := .opening) nofun).of_queues rfl
    · exact law.of_queues rfl
  | chipSelectRise bytes stray => exact law.chipSelectRise (stray := stray) ran
  | put => cases ran; exact law.inOpening law.beginPut
  | take => cases ran; exact law.inOpening (law.enters nofun)
  | peek => cases ran; exact law.inOpening (law.enters nofun)
  | ignoring byte =>
    cases ran
    split
    · exact law
    · exact law.inOpening law.beginIgnoring
  | badKind => cases ran; exact law.startForm _
  | admitStart => cases ran; exact law.startForm _
  | amend => cases ran; exact law.startForm _
  | reapply => cases ran; exact law.startForm _
  | retire => cases ran; exact law.startForm _
  | find => cases ran; exact law.startForm _
  | query => cases ran; exact law.startForm _
  | list => cases ran; exact law.startForm _
  | rulePut => cases ran; exact law.startForm _
  | ruleGet => cases ran; exact law.startForm _
  | itemPut => cases ran; exact law.startForm _
  | itemGet => cases ran; exact law.startForm _
  | summaryClear => cases ran; exact law.startForm _
  | tableClear => cases ran; exact law.startForm _
  | admitAllocationVisit asks =>
    cases ran
    refine law.requestVisit fun u law busy => ?_
    split
    · exact law.allocate busy _ _
    · exact law
  | admitCompletionVisit asks =>
    cases ran
    refine law.requestVisit fun u law busy => ?_
    split
    · exact law.completeAdmit busy _ _ _
    · exact law
  | amendVisit asks =>
    cases ran
    refine law.requestVisit fun u law busy => ?_
    split
    · exact law.amendStation busy _ _ _
    · exact law
  | reapplyReadVisit asks =>
    cases ran
    refine law.requestVisit fun u law busy => ?_
    split
    · exact law.readForReapply busy _
    · exact law
  | reapplyApplyVisit asks =>
    cases ran
    refine law.requestVisit fun u law busy => ?_
    split
    · exact law.finishes busy (u.writeBack_queues _ _)
    · exact law
  | retireVisit asks =>
    cases ran
    refine law.requestVisit fun u law busy => ?_
    split
    · exact law.retireStation busy _
    · exact law
  | findProbeVisit asks =>
    cases ran
    refine law.requestVisit fun u law busy => ?_
    split
    · split <;> exact law.finishes busy rfl
    · exact law
  | queryVisit asks =>
    cases ran
    refine law.requestVisit fun u law busy => ?_
    split
    · split <;> exact law.finishes busy rfl
    · exact law
  | listScanVisit asks =>
    cases ran
    refine law.requestVisit fun u law busy => ?_
    split
    · exact law.scan busy _ _ _
    · exact law
  | tableClearRecordVisit asks => exact law.tableClearRecordVisit ran
  | messageReceived nibbles cut =>
    cases ran
    split
    · exact law
    · exact law.receive nibbles
  | firstSync => exact law.firstSync ran
  | downMessageDrop => exact law.downMessageDrop ran
  | outboundEnqueue =>
    cases ran
    split
    · exact law
    · exact law.issueDue.enqueueAnswer
  | outboundSent => exact law.outboundSent ran
  | ask =>
    cases ran
    refine law.takeItem fun m f works u => ?_
    split at works <;> cases works
    exact u.checkAsk_queues _
  | done =>
    cases ran
    refine law.takeItem fun m f works u => ?_
    split at works <;> cases works
    exact u.judgeDone_queues _ _ _ _
  | backlog =>
    cases ran
    refine law.takeItem fun m f works u => ?_
    split at works <;> cases works
    rfl
  | uplink =>
    cases ran
    refine law.takeItem fun m f works u => ?_
    split at works <;> cases works
    rfl
  | linkRestart =>
    cases ran
    refine law.takeItem fun m f works u => ?_
    split at works <;> cases works
    rfl
  | awardExpiry id generation => exact law.awardExpiry ran
  | stepTimerExpiry => exact law.stepTimerExpiry ran
  | tableClearRelease => exact law.tableClearRelease ran
  | releaseVisit asks => exact law.releaseVisit ran
  | popVisit pop =>
    cases ran
    refine law.quietVisit fun u => ?_
    split
    · exact u.popVisit_queues _ _
    · rfl
  | conditionalPopVisit pop =>
    cases ran
    refine law.quietVisit fun u => ?_
    split
    · exact u.conditionalPop_queues _ _ _ _
    · rfl
  | doneMemberVisit asks =>
    cases ran
    refine law.quietVisit fun u => ?_
    split
    · split
      · exact State.engine_queues (u.doneMember_queues _ _ _ _ _) _
      · rfl
    · rfl
    · rfl
  | expiryMemberVisit asks =>
    cases ran
    refine law.quietVisit fun u => ?_
    split
    · split
      · split
        · exact State.engine_queues
            ((State.raiseIf_queues _ _ .expired).trans (u.expiryMember_queues _ _ _ _)) _
        · rfl
      · rfl
    · rfl
    · rfl
  | backlogEntryVisit asks =>
    cases ran
    refine law.quietVisit fun u => ?_
    split
    · exact State.engine_queues (u.backlogEntry_queues _) _
    all_goals rfl
  | uplinkVisit asks =>
    cases ran
    refine law.quietVisit fun u => ?_
    split
    · exact State.engine_queues (u.uplinkStation_queues _ _) _
    · rfl
  | linkRestartBacklogVisit asks =>
    cases ran
    refine law.quietVisit fun u => ?_
    repeat' split
    · exact State.engine_queues (u.emptyBacklog_queues _) _
    · exact (State.completeRestart_queues _ _).trans (u.emptyBacklog_queues _)
    · rfl
  | walkerVisit asks =>
    cases ran
    refine law.quietVisit fun u => ?_
    split
    · exact u.walkRecord_queues _
    · rfl

end State.QueuesLawful

/-- Settles O54: the command at the front keeps the laws of the queues, and the passing of time does not touch
them. -/
theorem queueLawsAreKept : Obligations.QueueLawsAreKept := by
  intro s t law stepped
  unfold step at stepped
  split at stepped
  · cases stepped
    unfold State.idleStep
    repeat' split
    · exact law
    · exact law.of_queues s.timerExpiry_queues
    · exact law.of_queues rfl
  · next rest _ => exact State.QueuesLawful.exec (s := { s with pending := rest }) (law.of_queues rfl) stepped

end Sys2Proof.Machine
end

section
/-!
PROOFS. The link (O27, O29): the first SYNC and what is dropped before it, the items that a message begins, and the
order in which a release names its members (R127 to R132).
-/

namespace Sys2Proof.Machine

/-! ### The link in DOWN (R127) -/

section
variable {s : State} {rest : List InMessage}

theorem exec_firstSync {tag : Byte} (run : s.resetLow = false) (down : s.linkUp = false)
    (head : s.inbound = .sync tag :: rest) (room : s.outbound.length < 4) :
    exec .firstSync s = .next
      { s with linkUp := true, inbound := rest, outbound := s.outbound ++ [.sync tag] } := by
  show execFirstSync s = _
  rw [execFirstSync, if_neg (by simp [run, down]), head]
  exact congrArg Host.Outcome.next (if_pos room)

/-- A message that is no SYNC is dropped and counted as malformed. -/
theorem exec_downMessageDrop {m : InMessage} (run : s.resetLow = false) (down : s.linkUp = false)
    (head : s.inbound = m :: rest) (other : ∀ tag, m ≠ .sync tag) :
    exec .downMessageDrop s = .next ({ s with inbound := rest }.raise .malformed) := by
  show execDownMessageDrop s = _
  rw [execDownMessageDrop, if_neg (by simp [run, down]), head]
  cases m with
  | sync tag => exact (other tag rfl).elim
  | _ => rfl

end

/-- Settles O27: a SYNC brings the link up, any other message is dropped. -/
theorem downLinkTakesFirstSync : Obligations.DownLinkTakesFirstSync := by
  intro s m rest run down head
  refine ⟨fun tag isSync room => ?_, fun other => exec_downMessageDrop run down head other⟩
  subst isSync
  exact exec_firstSync run down head room

/-! ### The order of a release (R129) -/

/-- In a list of lists, each of which names where it comes from, what comes from one place is the list of that
place. -/
theorem filter_flatMap_keyed {α β : Type} [DecidableEq α] {key : β → α} {f : α → List β}
    (keyed : ∀ i, ∀ x ∈ f i, key x = i) {i : α} {l : List α} (nodup : l.Nodup) (isIn : i ∈ l) :
    (l.flatMap f).filter (fun x => key x == i) = f i := by
  have own : (f i).filter (fun x => key x == i) = f i :=
    List.filter_eq_self.mpr fun x mem => beq_iff_eq.mpr (keyed i x mem)
  have others (j : α) (ne : j ≠ i) : (f j).filter (fun x => key x == i) = [] :=
    List.filter_eq_nil_iff.mpr fun x mem same => ne ((keyed j x mem).symm.trans (beq_iff_eq.mp same))
  induction l with
  | nil => cases isIn
  | cons j js ih =>
    obtain ⟨out, nodup'⟩ := List.nodup_cons.mp nodup
    rw [List.flatMap_cons, List.filter_append]
    rcases List.mem_cons.mp isIn with rfl | later
    · have none_ : (js.flatMap f).filter (fun x => key x == i) = [] := by
        rw [List.filter_flatMap]
        exact List.flatMap_eq_nil_iff.mpr fun j mem => others j fun same => out (same ▸ mem)
      rw [own, none_, List.append_nil]
    · rw [others j fun same => out (same ▸ later), List.nil_append, ih nodup' later]

/-- The open members stand in ascending award id. -/
theorem State.openMembers_ascending (s : State) : (s.openMembers.map (·.id)).Pairwise (· ≤ ·) := by
  have ids : allAwardIds.Pairwise (· ≤ ·) := by decide
  rw [State.openMembers_eq, List.pairwise_map, List.pairwise_flatMap]
  refine ⟨fun id _ => List.pairwise_of_forall_mem_list fun m hm n hn => ?_, ids.imp fun le m hm n hn => ?_⟩
  · rw [AwardEntry.id_of_mem_releaseWork hm, AwardEntry.id_of_mem_releaseWork hn]
  · rwa [AwardEntry.id_of_mem_releaseWork hm, AwardEntry.id_of_mem_releaseWork hn]

/-- Of one entry, the open members are its held members in pop order. -/
theorem State.openMembers_of_entry (s : State) (id : AwardId) :
    s.openMembers.filter (fun m => m.id == id) = (s.entry id).releaseWork id :=
  filter_flatMap_keyed (fun _ _ isIn => AwardEntry.id_of_mem_releaseWork isIn) allAwardIds_nodup
    (mem_allAwardIds id)

theorem AwardEntry.map_handle_releaseWork (e : AwardEntry) (id : AwardId) :
    (e.releaseWork id).map (·.handle) = e.award.elim [] OpenAward.heldHandles := by
  cases isOpen : e.award with
  | none => rw [AwardEntry.releaseWork_none isOpen]; rfl
  | some w =>
    rw [AwardEntry.releaseWork_some isOpen, List.map_map]
    exact List.map_id _

/-! ### The items (R128, R129, R132) -/

section
variable {s : State} {rest : List InMessage}

theorem exec_backlog {entries : List BacklogEntry} (run : s.resetLow = false) (up : s.linkUp = true)
    (free : s.engine = .idle) (head : s.inbound = .backlog entries :: rest) :
    exec .backlog s = .next { s with inbound := rest, engine := .backlog entries } :=
  congrArg Host.Outcome.next (State.takeItem_eq run up free head _)

theorem exec_uplink {h : Handle} {airtime : Nat} (run : s.resetLow = false) (up : s.linkUp = true)
    (free : s.engine = .idle) (head : s.inbound = .uplink h airtime :: rest) :
    exec .uplink s = .next
      { s with inbound := rest, engine := .uplink h airtime
               tablePort := { s.tablePort with award := true } } :=
  congrArg Host.Outcome.next (State.takeItem_eq run up free head _)

theorem exec_linkRestart {tag : Byte} (run : s.resetLow = false) (up : s.linkUp = true)
    (free : s.engine = .idle) (head : s.inbound = .sync tag :: rest) :
    exec .linkRestart s = .next
      { s with
        inbound := rest
        engine := if s.openMembers = [] then .restartBacklog tag 0 else .restartRelease tag s.openMembers } :=
  congrArg Host.Outcome.next (State.takeItem_eq run up free head _)

end

/-- Settles O29: the order of the open members, and the item that each message begins. -/
theorem linkItemsBegin : Obligations.LinkItemsBegin := by
  refine ⟨fun s => ⟨s.openMembers_ascending, fun id => ?_⟩, fun s m rest run up free head => ⟨?_, ?_, ?_⟩⟩
  · rw [State.openMembers_of_entry, AwardEntry.map_handle_releaseWork]
    cases (s.entry id).award <;> rfl
  · rintro entries rfl
    exact exec_backlog run up free head
  · rintro h airtime rfl
    exact exec_uplink run up free head
  · rintro tag rfl
    refine ⟨fun none_ => ?_, fun some_ => ?_⟩
    · rw [exec_linkRestart run up free head, if_pos none_]
    · rw [exec_linkRestart run up free head, if_neg some_]

end Sys2Proof.Machine
end

section
/-!
PROOFS. What the link receives (O26): nibbles make words, words make a message of one of the five types or none, and
the message is queued or counted as malformed (R124 to R126, R176).
-/

namespace Sys2Proof.Machine

/-! ### Nibbles and words (R124, R167) -/

/-- The nibbles of a word, by their places. -/
theorem nibblesOf_eq (w : Word) : nibblesOf w = (List.range 8).map fun i => w.extractLsb' (28 - 4 * i) 4 := rfl

/-- A word is its eight nibbles. -/
theorem word_nibbles (w : Word) :
    (w.extractLsb' 28 4 ++ w.extractLsb' 24 4 ++ w.extractLsb' 20 4 ++ w.extractLsb' 16 4 ++
      w.extractLsb' 12 4 ++ w.extractLsb' 8 4 ++ w.extractLsb' 4 4 ++ w.extractLsb' 0 4 : Word) = w := by
  have joins {hi lo m n : Nat} (next : hi = lo + n) :
      w.extractLsb' hi m ++ w.extractLsb' lo n = w.extractLsb' lo (m + n) :=
    BitVec.extractLsb'_append_extractLsb'_eq_extractLsb' next
  rw [joins (show 28 = 24 + 4 from rfl), joins (show 24 = 20 + 4 from rfl), joins (show 20 = 16 + 4 from rfl),
    joins (show 16 = 12 + 4 from rfl), joins (show 12 = 8 + 4 from rfl), joins (show 8 = 4 + 4 from rfl),
    joins (show 4 = 0 + 4 from rfl)]
  exact BitVec.extractLsb'_eq_self

/-- Words are read back from their nibbles. -/
theorem wordsOf_nibbles (words : List Word) : wordsOf (words.flatMap nibblesOf) = some words := by
  induction words with
  | nil => rfl
  | cons w words ih =>
    show (wordsOf (words.flatMap nibblesOf)).map _ = _
    rw [ih, Option.map_some, word_nibbles]

/-- An incomplete word is left over where the nibbles are not a multiple of eight. -/
theorem wordsOf_incomplete (nibbles : List Nibble) (left : nibbles.length % 8 ≠ 0) :
    wordsOf nibbles = none := by
  fun_induction wordsOf nibbles with
  | case1 => exact (left rfl).elim
  | case2 a b c d e f g h rest ih =>
    rw [ih (by simp only [List.length_cons] at left; omega), Option.map_none]
  | case3 => rfl

theorem receivedMessage_nibbles (words : List Word) :
    receivedMessage (words.flatMap nibblesOf) = if 24 < words.length then none else inMessageOf words := by
  rw [receivedMessage, wordsOf_nibbles]
  rfl

/-! ### Fields (R92, R125, R176) -/

/-- A count agrees with the words that follow where it is theirs, and within 1..8. -/
theorem countAgrees_iff {count : Nat} {rest : List Word} :
    countAgrees count rest = true ↔ count = rest.length ∧ 1 ≤ count ∧ count ≤ 8 := by
  have most : Config.memberLimit = 8 := rfl
  rw [countAgrees, Bool.and_eq_true, Bool.and_eq_true, decide_eq_true_eq, decide_eq_true_eq, decide_eq_true_eq]
  omega

theorem outcomeOf_bits (b : BitVec 2) :
    outcomeOf b.toNat =
      if b = 0 then .delivered else if b = 1 then .partly else if b = 2 then .failed else .unassigned := by
  revert b
  decide

theorem handleOf_some {n : Nat} (lt : n < 512) : handleOf n = some ⟨n, lt⟩ := dif_pos lt

theorem handleOf_none {n : Nat} (le : 512 ≤ n) : handleOf n = none := dif_neg (Nat.not_lt.mpr le)

/-- The entries of a BACKLOG whose handles are all of the table, in order. -/
theorem backlogEntries_some {words : List Word} (named : ∀ x ∈ words, (x.extractLsb' 16 16).toNat < 512) :
    ∃ entries, words.mapM backlogEntryOf = some entries ∧
      entries.map (fun e => (e.handle.val, e.cls, e.sets)) =
        words.map fun x => ((x.extractLsb' 16 16).toNat, classOfBits (x.extractLsb' 14 2),
          x.getLsbD 13) := by
  induction words with
  | nil => exact ⟨[], rfl, rfl⟩
  | cons x words ih =>
    obtain ⟨entries, read, fields⟩ := ih fun y mem => named y (List.mem_cons_of_mem x mem)
    have lt := named x List.mem_cons_self
    have first : backlogEntryOf x =
        some ⟨⟨(x.extractLsb' 16 16).toNat, lt⟩, classOfBits (x.extractLsb' 14 2), x.getLsbD 13⟩ :=
      congrArg (Option.map _) (handleOf_some lt)
    refine ⟨_ :: entries, by rw [List.mapM_cons, first, read]; rfl, ?_⟩
    rw [List.map_cons, List.map_cons, fields]

/-- A BACKLOG with a handle above 511 has no entries to read. -/
theorem backlogEntries_none {words : List Word} (beyond : ∃ x ∈ words, 512 ≤ (x.extractLsb' 16 16).toNat) :
    words.mapM backlogEntryOf = none := by
  obtain ⟨x, isIn, le⟩ := beyond
  have unread : backlogEntryOf x = none := congrArg (Option.map _) (handleOf_none le)
  induction words with
  | nil => cases isIn
  | cons y words ih =>
    rw [List.mapM_cons]
    rcases List.mem_cons.mp isIn with rfl | later
    · rw [unread]
      rfl
    · rw [ih later]
      cases backlogEntryOf y <;> rfl

/-! ### The five types (R125, R176) -/

section
variable {w : Word} {rest : List Word}

/-- An ASK is two words. -/
theorem inMessageOf_ask (type : w.extractLsb' 28 4 = 1) :
    (∀ t, rest = [t] → inMessageOf (w :: rest) = some (.ask
      { tag := w.extractLsb' 0 8, cls := classOfBits (w.extractLsb' 26 2)
        maximum := (w.extractLsb' 21 4).toNat, multiUser := w.getLsbD 25
        txop := (t.extractLsb' 0 16).toNat })) ∧
    (rest.length ≠ 1 → inMessageOf (w :: rest) = none) := by
  have code : fieldOf w 28 4 = 1 := congrArg BitVec.toNat type
  match rest with
  | [] => simp [inMessageOf, code]
  | [t] =>
    have read : inMessageOf [w, t] = some (.ask
        { tag := w.extractLsb' 0 8, cls := classOfBits (w.extractLsb' 26 2)
          maximum := (w.extractLsb' 21 4).toNat, multiUser := w.getLsbD 25
          txop := (t.extractLsb' 0 16).toNat }) := by
      simp only [inMessageOf, code]
      rfl
    simp [read]
  | _ :: _ :: _ => simp [inMessageOf, code]

/-- A DONE has as many entries as its count, 1 to 8. -/
theorem inMessageOf_done (type : w.extractLsb' 28 4 = 2) :
    inMessageOf (w :: rest) =
      if countAgrees (fieldOf w 16 4) rest then
        some (.done (w.extractLsb' 24 4).toFin (w.extractLsb' 20 4) (w.extractLsb' 0 14).toNat
          (rest.map doneEntryOf))
      else none := by
  have code : fieldOf w 28 4 = 2 := congrArg BitVec.toNat type
  simp only [inMessageOf, code]
  rfl

/-- A BACKLOG has as many entries as its count, 1 to 8, each with a handle of the table. -/
theorem inMessageOf_backlog (type : w.extractLsb' 28 4 = 3) :
    inMessageOf (w :: rest) =
      if countAgrees (fieldOf w 24 4) rest then (rest.mapM backlogEntryOf).map .backlog else none := by
  have code : fieldOf w 28 4 = 3 := congrArg BitVec.toNat type
  simp only [inMessageOf, code]

/-- An UPLINK is two words, with a handle of the table. -/
theorem inMessageOf_uplink (type : w.extractLsb' 28 4 = 4) :
    (∀ t, rest = [t] → ∀ lt : (w.extractLsb' 0 16).toNat < 512,
      inMessageOf (w :: rest) = some (.uplink ⟨(w.extractLsb' 0 16).toNat, lt⟩
        (t.extractLsb' 0 14).toNat)) ∧
    (rest.length ≠ 1 ∨ 512 ≤ (w.extractLsb' 0 16).toNat → inMessageOf (w :: rest) = none) := by
  have code : fieldOf w 28 4 = 4 := congrArg BitVec.toNat type
  match rest with
  | [] => simp [inMessageOf, code]
  | [t] =>
    have read : inMessageOf [w, t] =
        (handleOf (w.extractLsb' 0 16).toNat).map fun h => .uplink h (t.extractLsb' 0 14).toNat := by
      simp only [inMessageOf, code]
      rfl
    rw [read]
    refine ⟨?_, ?_⟩
    · rintro _ ⟨⟩ lt
      rw [handleOf_some lt, Option.map_some]
    · rintro (long | le)
      · exact (long rfl).elim
      · rw [handleOf_none le, Option.map_none]
  | _ :: _ :: _ => simp [inMessageOf, code]

/-- A SYNC is one word. -/
theorem inMessageOf_sync (type : w.extractLsb' 28 4 = 5) :
    (rest = [] → inMessageOf (w :: rest) = some (.sync (w.extractLsb' 0 8))) ∧
    (rest ≠ [] → inMessageOf (w :: rest) = none) := by
  have code : fieldOf w 28 4 = 5 := congrArg BitVec.toNat type
  match rest with
  | [] => simp [inMessageOf, code]
  | _ :: _ => simp [inMessageOf, code]

/-- No other type is well formed. -/
theorem inMessageOf_otherType (type : w.extractLsb' 28 4 = 0 ∨ 6 ≤ (w.extractLsb' 28 4).toNat) :
    inMessageOf (w :: rest) = none := by
  have code : fieldOf w 28 4 = 0 ∨ 6 ≤ fieldOf w 28 4 := type.imp_left (congrArg BitVec.toNat)
  unfold inMessageOf
  dsimp only
  split
  iterate 5 next => omega
  rfl

end

/-! ### The fall of LKI_STB (R124 to R126) -/

/-- A message while RESET_N is high, begun after its release, is received. -/
theorem exec_messageReceived {s : State} (run : s.resetLow = false) (nibbles : List Nibble) :
    exec (.messageReceived nibbles false) s = .next (s.receive nibbles) := by
  show execMessageReceived nibbles false s = _
  rw [execMessageReceived, if_neg (by simp [run])]

theorem exec_messageReceived_cut (s : State) (nibbles : List Nibble) :
    exec (.messageReceived nibbles true) s = .next s := by
  show execMessageReceived nibbles true s = _
  rw [execMessageReceived, if_pos (by simp)]

/-- A well-formed message joins the queue where it has room. -/
theorem State.receive_queued {s : State} {nibbles : List Nibble} {m : InMessage}
    (read : receivedMessage nibbles = some m) (room : s.inbound.length < 8) :
    s.receive nibbles = { s with inbound := s.inbound ++ [m] } := by
  rw [State.receive, read]
  exact if_pos room

/-- A message that is malformed, or finds the queue full, is dropped and counted. -/
theorem State.receive_dropped {s : State} {nibbles : List Nibble}
    (drops : receivedMessage nibbles = none ∨ 8 ≤ s.inbound.length) :
    s.receive nibbles = s.raise .malformed := by
  unfold State.receive
  split
  · rfl
  · next m read =>
    rcases drops with unread | full
    · cases read.symm.trans unread
    · exact if_neg (Nat.not_lt.mpr full)

/-- Settles O26: what a strobe's nibbles are read as, by the type of their first word, and what becomes of it. -/
theorem messageIsQueuedOrMalformed : Obligations.MessageIsQueuedOrMalformed := by
  refine ⟨fun s nibbles run => ⟨fun m read room => ?_, fun drops => ?_, exec_messageReceived_cut s nibbles⟩,
    fun words => ⟨fun short => ?_, fun long => ?_⟩, fun nibbles left => ?_, rfl, ⟨rfl, rfl, rfl, rfl⟩,
    fun w => ?_, fun w rest => ⟨inMessageOf_ask, fun type => ?_, fun type => ?_, inMessageOf_uplink,
      inMessageOf_sync, inMessageOf_otherType⟩⟩
  · rw [exec_messageReceived run, State.receive_queued read room]
  · rw [exec_messageReceived run, State.receive_dropped drops]
    rfl
  · exact (receivedMessage_nibbles words).trans (if_neg (Nat.not_lt.mpr short))
  · exact (receivedMessage_nibbles words).trans (if_pos long)
  · rw [receivedMessage, wordsOf_incomplete nibbles left]
  · rw [← outcomeOf_bits]
    rfl
  · rw [inMessageOf_done type]
    refine ⟨fun agrees least most => if_pos (countAgrees_iff.mpr ⟨agrees, least, most⟩),
      fun fails => if_neg ?_⟩
    rw [countAgrees_iff, fieldOf]
    omega
  · rw [inMessageOf_backlog type]
    refine ⟨fun agrees least most named => ?_, fun fails => ?_⟩
    · obtain ⟨entries, read, fields⟩ := backlogEntries_some named
      refine ⟨entries, ?_, fields⟩
      rw [read]
      exact if_pos (countAgrees_iff.mpr ⟨agrees, least, most⟩)
    · rcases fails with none_ | many | differs | beyond
      · exact if_neg fun agrees => absurd (countAgrees_iff.mp agrees).2.1 (by rw [fieldOf]; omega)
      · exact if_neg fun agrees => absurd (countAgrees_iff.mp agrees).2.2 (Nat.not_le.mpr many)
      · exact if_neg fun agrees => differs (countAgrees_iff.mp agrees).1
      · rw [backlogEntries_none beyond, Option.map_none, ite_self]

end Sys2Proof.Machine
end

section
/-!
PROOFS. What the link sends (O28): an answer enters the outbound queue, the oldest message leaves it framed by the
strobe, and the words of a message hold its fields (R89, R91, R135, R176).
-/

namespace Sys2Proof.Machine

/-! ### The outbound queue (R89, R91, R135) -/

section
variable {s : State}

theorem exec_outboundEnqueue (run : s.resetLow = false) :
    exec .outboundEnqueue s = .next s.issueDue.enqueueAnswer := by
  show execOutboundEnqueue s = _
  rw [execOutboundEnqueue, if_neg (by simp [run])]

theorem exec_outboundSent {m : OutMessage} {rest : List OutMessage} (run : s.resetLow = false)
    (head : s.outbound = m :: rest) :
    exec .outboundSent s = .next { s with outbound := rest, lkoSent := m.frame } := by
  show execOutboundSent s = _
  rw [execOutboundSent, if_neg (by simp [run]), head]

/-- An answer in hand has no issuing step to come. -/
theorem State.issueDue_answer {m : OutMessage} (item : s.engine = .answer m) : s.issueDue = s := by
  rw [State.issueDue, item]

/-- The answer in hand enters the queue, which ends its item, or waits for room. -/
theorem State.enqueueAnswer_eq {m : OutMessage} (item : s.engine = .answer m) :
    s.enqueueAnswer =
      if s.outbound.length < 4 then { s with engine := .idle, outbound := s.outbound ++ [m] } else s := by
  rw [State.enqueueAnswer, item]
  rfl

theorem exec_outboundEnqueue_answer {m : OutMessage} (run : s.resetLow = false)
    (item : s.engine = .answer m) :
    exec .outboundEnqueue s = .next
      (if s.outbound.length < 4 then { s with engine := .idle, outbound := s.outbound ++ [m] } else s) := by
  rw [exec_outboundEnqueue run, State.issueDue_answer item, State.enqueueAnswer_eq item]

/-- An award whose issuing step is still to come is issued, and then placed as an answer in hand. -/
theorem exec_outboundEnqueue_issuing {a : AskFields} {id : AwardId} {allowances : List Int}
    (run : s.resetLow = false) (item : s.engine = .issuing a id allowances) :
    exec .outboundEnqueue s = .next (s.issueAward a id allowances).enqueueAnswer := by
  rw [exec_outboundEnqueue run, State.issueDue_issuing item]

theorem State.lkoStrobe_iff : s.lkoStrobe = true ↔ s.outbound ≠ [] := by
  rw [State.lkoStrobe, Bool.not_eq_true', List.isEmpty_eq_false_iff]

end

/-! ### The words of a message (R176) -/

theorem classOfBits_number (c : ServiceClass) : classOfBits (BitVec.ofNat 2 c.number) = c := by
  cases c <;> rfl

/-- The fields of the first word of an AWARD. -/
theorem awardWord_fields (type id generation count : BitVec 4) (cls : BitVec 2) (tag : Byte) :
    let word : Word := type ++ id ++ generation ++ cls ++ count ++ 0#6 ++ tag
    word.extractLsb' 28 4 = type ∧ word.extractLsb' 24 4 = id ∧ word.extractLsb' 20 4 = generation ∧
      word.extractLsb' 18 2 = cls ∧ word.extractLsb' 14 4 = count ∧ word.extractLsb' 8 6 = 0 ∧
      word.extractLsb' 0 8 = tag := by
  refine ⟨?_, ?_, ?_, ?_, ?_, ?_, BitVec.extractLsb'_append_eq_right⟩
  · iterate 5 refine field_above (by decide) ?_
    exact BitVec.extractLsb'_append_eq_left
  · iterate 5 refine field_above (by decide) ?_
    exact BitVec.extractLsb'_append_eq_right
  · iterate 4 refine field_above (by decide) ?_
    exact BitVec.extractLsb'_append_eq_right
  · iterate 3 refine field_above (by decide) ?_
    exact BitVec.extractLsb'_append_eq_right
  · iterate 2 refine field_above (by decide) ?_
    exact BitVec.extractLsb'_append_eq_right
  · exact field_above (by decide) BitVec.extractLsb'_append_eq_right

/-- The fields of the word of a DECLINE. -/
theorem declineWord_fields (type : BitVec 4) (cls : BitVec 2) (reason : BitVec 3) (tag : Byte) :
    let word : Word := type ++ cls ++ 0#7 ++ reason ++ 0#8 ++ tag
    word.extractLsb' 28 4 = type ∧ word.extractLsb' 26 2 = cls ∧ word.extractLsb' 19 7 = 0 ∧
      word.extractLsb' 16 3 = reason ∧ word.extractLsb' 8 8 = 0 ∧ word.extractLsb' 0 8 = tag := by
  refine ⟨?_, ?_, ?_, ?_, ?_, BitVec.extractLsb'_append_eq_right⟩
  · iterate 4 refine field_above (by decide) ?_
    exact BitVec.extractLsb'_append_eq_left
  · iterate 4 refine field_above (by decide) ?_
    exact BitVec.extractLsb'_append_eq_right
  · iterate 3 refine field_above (by decide) ?_
    exact BitVec.extractLsb'_append_eq_right
  · iterate 2 refine field_above (by decide) ?_
    exact BitVec.extractLsb'_append_eq_right
  · exact field_above (by decide) BitVec.extractLsb'_append_eq_right

/-- The reasons of a DECLINE and their codes. -/
theorem declineReason_bits : ∀ k ∈ ([(.clearing, 1), (.classOff, 2), (.awardsFull, 3), (.noCredit, 4),
    (.noStation, 5)] : List (DeclineReason × BitVec 3)), BitVec.ofNat 3 k.1.code = k.2 := by
  decide

/-- The two halves of a word of handles. -/
theorem handleWord_halves {high low : Nat} (fitsHigh : high < 65536) (fitsLow : low < 65536) :
    ((BitVec.ofNat 16 high ++ BitVec.ofNat 16 low : Word).extractLsb' 16 16).toNat = high ∧
      ((BitVec.ofNat 16 high ++ BitVec.ofNat 16 low : Word).extractLsb' 0 16).toNat = low := by
  have upper : (BitVec.ofNat 16 high ++ BitVec.ofNat 16 low : Word).extractLsb' 16 16 = BitVec.ofNat 16 high :=
    BitVec.extractLsb'_append_eq_left
  have lower : (BitVec.ofNat 16 high ++ BitVec.ofNat 16 low : Word).extractLsb' 0 16 = BitVec.ofNat 16 low :=
    BitVec.extractLsb'_append_eq_right
  rw [upper, lower, BitVec.toNat_ofNat, BitVec.toNat_ofNat]
  exact ⟨Nat.mod_eq_of_lt fitsHigh, Nat.mod_eq_of_lt fitsLow⟩

/-- Two member handles go to a word. -/
theorem memberWords_length (members : List Handle) : (memberWords members).length = (members.length + 1) / 2 := by
  fun_induction memberWords members with
  | case1 => simp
  | case2 h => simp
  | case3 h k rest ih =>
    simp only [List.length_cons, ih]
    omega

/-- The halves of the words of handles are the member handles in order, and 0xFFFF where one is unused. -/
theorem memberWords_halves (members : List Handle) {i : Nat} (lt : i < (memberWords members).length) :
    ((memberWords members)[i].extractLsb' 16 16).toNat = (members.map (·.val)).getD (2 * i) 0xFFFF ∧
      ((memberWords members)[i].extractLsb' 0 16).toNat =
        (members.map (·.val)).getD (2 * i + 1) 0xFFFF := by
  have fits (h : Handle) : h.val < 65536 := by omega
  fun_induction memberWords members generalizing i with
  | case1 => cases lt
  | case2 h =>
    cases i with
    | zero => exact handleWord_halves (fits h) (by decide)
    | succ i => simp at lt
  | case3 h k rest ih =>
    cases i with
    | zero => exact handleWord_halves (fits h) (fits k)
    | succ i => exact ih (Nat.lt_of_succ_lt_succ lt)

/-- Settles O28: what enters the outbound queue, what leaves it and how it is coded. -/
theorem outboundQueueSendsInOrder : Obligations.OutboundQueueSendsInOrder := by
  refine ⟨fun s run => ⟨fun m item room => ?_, fun m item full => ?_, fun a id allowances w item isOpen => ?_,
    fun m rest head => exec_outboundSent run head⟩, fun s => State.lkoStrobe_iff, ?_, ?_, ?_⟩
  · rw [exec_outboundEnqueue_answer run item, if_pos room]
  · rw [exec_outboundEnqueue_answer run item, if_neg (Nat.not_lt.mpr full)]
  · have issued := exec_outboundEnqueue_issuing run item
    rw [State.issueAward_open isOpen, State.enqueueAnswer_eq rfl] at issued
    exact ⟨fun room => issued.trans (congrArg Host.Outcome.next (if_pos room)),
      fun full => issued.trans (congrArg Host.Outcome.next (if_neg (Nat.not_lt.mpr full)))⟩
  · intro tag id generation cls d members
    obtain ⟨type, idField, generationField, clsField, count, zeros, tagField⟩ :=
      awardWord_fields 0x9 (BitVec.ofNat 4 id.val) generation (BitVec.ofNat 4 members.length)
        (BitVec.ofNat 2 cls.number) tag
    refine ⟨_, _, memberWords members, rfl, type, ?_, generationField, ?_, count, zeros, tagField,
      BitVec.extractLsb'_append_eq_left, BitVec.extractLsb'_append_eq_right, memberWords_length members,
      fun i lt => memberWords_halves members lt⟩
    · exact (congrArg BitVec.toNat idField).trans (Nat.mod_eq_of_lt id.isLt)
    · exact (congrArg classOfBits clsField).trans (classOfBits_number cls)
  · intro tag cls k isIn
    obtain ⟨type, clsField, zeros, reason, zeros', tagField⟩ :=
      declineWord_fields 0xA (BitVec.ofNat 2 cls.number) (BitVec.ofNat 3 k.1.code) tag
    exact ⟨_, rfl, type, (congrArg classOfBits clsField).trans (classOfBits_number cls), zeros,
      reason.trans (declineReason_bits k isIn), zeros', tagField⟩
  · intro tag
    refine ⟨_, rfl, ?_, ?_, BitVec.extractLsb'_append_eq_right⟩
    · exact field_above (by decide) BitVec.extractLsb'_append_eq_left
    · exact field_above (by decide) BitVec.extractLsb'_append_eq_right

end Sys2Proof.Machine
end

section
/-!
PROOFS. The start of a request by its own command, and the requests that are refused BAD_KIND (O11) (R140, R142,
R147, R169).
-/

namespace Sys2Proof.Machine

/-! ### The start of the head request (R142) -/

section
variable {s : State} {q : Request} {rest : List Request}

/-- The command of the head request does what the start of the head does. -/
theorem exec_command (head : s.requests = q :: rest) : exec q.command s = .next s.startHead := by
  have starts (form : Option RequestKind) (isForm : q.form = form) : s.startForm form = s.startHead := by
    rw [State.startForm, head]
    exact if_pos isForm
  cases isForm : q.form with
  | none =>
    rw [Request.command, isForm]
    exact congrArg Host.Outcome.next (starts none isForm)
  | some k =>
    rw [Request.command, isForm]
    cases k <;> exact congrArg Host.Outcome.next (starts _ isForm)

/-- A request starts where RESET_N is high, none is executing and its response has room. -/
theorem State.startHead_eq (run : s.resetLow = false) (idle : s.executing = .idle)
    (room : s.responses.length < 4) (head : s.requests = q :: rest) : s.startHead = s.start q := by
  rw [← State.startForm_eq run idle room head rfl, State.startForm, head]
  exact (if_pos rfl).symm

theorem exec_command_starts (run : s.resetLow = false) (idle : s.executing = .idle)
    (room : s.responses.length < 4) (head : s.requests = q :: rest) :
    exec q.command s = .next (s.start q) := by
  rw [exec_command head, State.startHead_eq run idle room head]

/-- No request starts while one is executing. -/
theorem State.startHead_busy (busy : s.executing ≠ .idle) : s.startHead = s := by
  have mayNot : s.canStart = false := by simp [State.canStart, busy]
  rw [State.startHead, mayNot]
  rfl

theorem State.startHead_empty (none_ : s.requests = []) : s.startHead = s := by
  rw [State.startHead, none_]
  exact ite_self s

end

/-! ### Kinds and lengths (R147, R169) -/

/-- The code of a request kind (R169). -/
def RequestKind.code : RequestKind → Byte
  | .admitting => 0x01
  | .amend => 0x02
  | .reapply => 0x03
  | .retire => 0x04
  | .find => 0x05
  | .query => 0x06
  | .list => 0x07
  | .rulePut => 0x10
  | .ruleGet => 0x11
  | .itemPut => 0x12
  | .itemGet => 0x13
  | .summaryClear => 0x14
  | .tableClear => 0x1F

theorem requestKindOf_eq_some {b : Byte} {k : RequestKind} : requestKindOf b = some k ↔ b = k.code := by
  constructor
  · revert b
    cases k <;> decide
  · rintro rfl
    cases k <;> rfl

/-- A request has the form of a kind when its kind byte is that kind's and its payload is as long (R147). -/
theorem Request.form_eq_some {q : Request} {k : RequestKind} :
    q.form = some k ↔ q.kind = k.code ∧ q.payload.length = k.payloadLength := by
  constructor
  · intro isForm
    unfold Request.form at isForm
    split at isForm
    · cases isForm
    · next kind =>
      split at isForm
      · next length =>
        cases isForm
        exact ⟨requestKindOf_eq_some.mp kind, length⟩
      · cases isForm
  · rintro ⟨kind, length⟩
    exact Request.form_eq (requestKindOf_eq_some.mpr kind) length

/-- Settles O11: a request with no kind's code and length has no form, and its start is the refusal. -/
theorem unknownKindIsRefused : Obligations.UnknownKindIsRefused := by
  intro s q rest run idle room head unlisted
  have noForm : q.form = none := by
    rw [Option.eq_none_iff_forall_ne_some]
    intro k isForm
    obtain ⟨kind, length⟩ := Request.form_eq_some.mp isForm
    refine unlisted (k.code, k.payloadLength) ?_ (by rw [kind, length])
    cases k <;> decide
  have starts := exec_command_starts run idle room head
  rw [Request.command, State.start, noForm] at starts
  exact starts.trans (congrArg Host.Outcome.next (State.respond_eq head _ _ _))

end Sys2Proof.Machine
end

section
/-!
PROOFS. The transactions of the Management Port: the transaction byte (O6), PEEK and ATTN (O7), and how a
transaction begins and ends (O10) (R137 to R139, R144 to R146, R165, R168).
-/

namespace Sys2Proof.Machine

/-! ### Bytes shifted out (R137) -/

/-- A part whose own bytes are all 0, or that has none, shifts out fill bytes. -/
theorem shiftedOut_zeros (k n : Nat) : shiftedOut (List.replicate k 0x00) n = List.replicate n 0x00 := by
  have whole : min n k + (n - k) = n := by omega
  rw [shiftedOut, List.take_replicate, List.length_replicate, Config.fillByte, List.replicate_append_replicate,
    whole]

/-- A part that has one byte of its own shifts it out first, then fill bytes. -/
theorem shiftedOut_single (b : Byte) (n : Nat) :
    shiftedOut [b] n = (b :: List.replicate (n - 1) 0x00).take n := by
  cases n with
  | zero => rfl
  | succ n => simp [shiftedOut, Config.fillByte]

/-! ### The transaction byte (R138, R139, R144, R145) -/

section
variable {s : State}

theorem State.inOpening_opening (run : s.resetLow = false) (opening : s.port = .opening) (work : State → State) :
    s.inOpening work = work s := by
  rw [State.inOpening, if_neg (by simp [run]), if_pos opening]

/-- A transaction byte elsewhere than in OPENING has no effect (log 2). -/
theorem State.inOpening_elsewhere (other : s.port ≠ .opening) (work : State → State) : s.inOpening work = s := by
  rw [State.inOpening, if_neg other, ite_self]

theorem exec_ignoring {byte : Byte} (notPut : byte ≠ 0xB1) (notTake : byte ≠ 0xB2) (notPeek : byte ≠ 0xB4) :
    exec (.ignoring byte) s = .next (s.inOpening State.beginIgnoring) := by
  have other : ¬ (byte = Config.putByte ∨ byte = Config.takeByte ∨ byte = Config.peekByte) := by
    rintro (put | take | peek)
    · exact notPut put
    · exact notTake take
    · exact notPeek peek
  exact congrArg Host.Outcome.next (if_neg other)

/-- A PUT reserves a slot while fewer than four requests are queued (R139). -/
theorem State.beginPut_eq (s : State) :
    s.beginPut = s.enter (if s.requests.length < 4 then .putFrame else .putRefused) := rfl

/-- The command of a transaction byte (R138). -/
def byteCommand (byte : Byte) : Instr :=
  if byte = 0xB1 then .put else if byte = 0xB2 then .take else if byte = 0xB4 then .peek else .ignoring byte

/-- In OPENING the command of a byte does what the completion of the byte does. -/
theorem exec_byteCommand (run : s.resetLow = false) (opening : s.port = .opening) (byte : Byte) :
    exec (byteCommand byte) s = .next (s.transactionByte byte) := by
  have made (work : State → State) : s.inOpening work = work s := State.inOpening_opening run opening work
  unfold byteCommand State.transactionByte
  by_cases put : byte = 0xB1
  · rw [if_pos put, if_pos (show byte = Config.putByte from put)]
    exact congrArg Host.Outcome.next (made _)
  · rw [if_neg put, if_neg (show ¬ byte = Config.putByte from put)]
    by_cases take : byte = 0xB2
    · rw [if_pos take, if_pos (show byte = Config.takeByte from take)]
      exact congrArg Host.Outcome.next (made _)
    · rw [if_neg take, if_neg (show ¬ byte = Config.takeByte from take)]
      by_cases peek : byte = 0xB4
      · rw [if_pos peek, if_pos (show byte = Config.peekByte from peek)]
        exact congrArg Host.Outcome.next (made _)
      · rw [if_neg peek, if_neg (show ¬ byte = Config.peekByte from peek), exec_ignoring put take peek, made]

end

/-- Settles O6: what the port goes to at each transaction byte but PEEK's. -/
theorem transactionByteDecides : Obligations.TransactionByteDecides := by
  intro s run opening
  have put : exec .put s = .next s.beginPut :=
    congrArg Host.Outcome.next (State.inOpening_opening run opening _)
  refine ⟨fun room => ?_, fun full => ?_, ?_, fun byte notPut notTake notPeek => ?_⟩
  · rw [put, State.beginPut_eq, if_pos room]
    rfl
  · rw [put, State.beginPut_eq, if_neg (Nat.not_lt.mpr full)]
    rfl
  · exact congrArg Host.Outcome.next (State.inOpening_opening run opening _)
  · rw [exec_ignoring notPut notTake notPeek, State.inOpening_opening run opening]
    rfl

/-! ### The summary and ATTN (R145, R165, R168) -/

/-- A word in two parts is the number of the high part, moved up, and that of the low part. -/
theorem toNat_append_eq_add {v w : Nat} (high : BitVec v) (low : BitVec w) :
    (high ++ low).toNat = high.toNat * 2 ^ w + low.toNat := by
  rw [BitVec.toNat_append, ← Nat.shiftLeft_add_eq_or_of_lt low.isLt, Nat.shiftLeft_eq]

/-- The first byte of a summary holds the counts of both queues, the link state and the clearing flag. -/
theorem summaryByte_toNat (clearing up : Bool) {responses requests : Nat} (few : responses ≤ 4)
    (few' : requests ≤ 4) :
    (BitVec.ofBool clearing ++ BitVec.ofBool up ++ BitVec.ofNat 3 responses ++ BitVec.ofNat 3 requests : Byte).toNat =
      requests + 8 * responses + (if up then 64 else 0) + (if clearing then 128 else 0) := by
  have bit (b : Bool) (n : Nat) : b.toNat * n = if b then n else 0 := by cases b <;> simp
  have small {n : Nat} (few : n ≤ 4) : n % 2 ^ 3 = n := Nat.mod_eq_of_lt (by omega)
  rw [toNat_append_eq_add, toNat_append_eq_add, toNat_append_eq_add, BitVec.toNat_ofNat, BitVec.toNat_ofNat,
    small few, small few', BitVec.toNat_ofBool, BitVec.toNat_ofBool, ← bit up, ← bit clearing]
  omega

/-- The bits of the flag field are the flags in the flag order, and 0 above them (R168). -/
theorem Flags.word_getLsbD (fs : Flags) (n : Nat) : fs.word.getLsbD n = (Flag.all.map fs.get).getD n false := by
  simp only [Flags.word, BitVec.getLsbD_append, BitVec.getLsbD_ofBool, BitVec.getLsbD_zero]
  match n with
  | 0 | 1 | 2 | 3 | 4 | 5 | 6 | 7 | 8 | 9 | 10 | 11 | 12 => rfl
  | n + 13 => simp [Flag.all]

theorem Flags.word_bit (fs : Flags) (f : Flag) : fs.word.getLsbD f.bit = fs.get f := by
  rw [Flags.word_getLsbD]
  cases f <;> rfl

theorem Flags.word_spare (fs : Flags) {n : Nat} (above : 13 ≤ n) : fs.word.getLsbD n = false := by
  rw [Flags.word_getLsbD]
  exact List.getD_eq_default _ _ above

theorem Flag.mem_all (f : Flag) : f ∈ Flag.all := by
  cases f <;> decide

theorem State.attnAsserted_iff (s : State) :
    s.attnAsserted = true ↔ s.settings.attnMask.getLsbD 13 = true ∧ s.responses ≠ [] ∨
      ∃ f : Flag, s.settings.attnMask.getLsbD f.bit = true ∧ s.flags.get f = true := by
  have waits : (!s.responses.isEmpty) = true ↔ s.responses ≠ [] := by
    rw [Bool.not_eq_true', List.isEmpty_eq_false_iff]
  have flagged : (Flag.all.any fun f => s.settings.attnMask.getLsbD f.bit && s.flags.get f) = true ↔
      ∃ f : Flag, s.settings.attnMask.getLsbD f.bit = true ∧ s.flags.get f = true := by
    simp only [List.any_eq_true, Flag.mem_all, true_and, Bool.and_eq_true]
  rw [State.attnAsserted, Bool.or_eq_true, Bool.and_eq_true, waits, flagged]
  rfl

/-- Settles O7: the bytes that PEEK captures, and when ATTN is asserted. -/
theorem peekAndAttentionReport : Obligations.PeekAndAttentionReport := by
  refine ⟨fun s run opening law => ?_, State.attnAsserted_iff⟩
  have field : s.flags.word.extractLsb' 8 8 ++ s.flags.word.extractLsb' 0 8 = s.flags.word :=
    (BitVec.extractLsb'_append_extractLsb'_eq_extractLsb' rfl).trans BitVec.extractLsb'_eq_self
  refine ⟨_, _, _, congrArg Host.Outcome.next (State.inOpening_opening run opening State.beginPeek),
    summaryByte_toNat _ _ law.responses_le law.requests_le, fun f => ?_, fun n above => ?_⟩
  · rw [field, Flags.word_bit]
  · rw [field, Flags.word_spare _ above]

/-! ### Begin and end (R137, R146) -/

section
variable {s : State}

/-- The rise of chip select ends the transaction, but for a whole byte in OPENING. -/
theorem exec_chipSelectRise_ends {bytes : List Byte} (run : s.resetLow = false) (low : s.csLow = true)
    (begun : s.port ≠ .opening ∨ bytes = []) (stray : Nat) :
    exec (.chipSelectRise bytes stray) s = .next (s.endTransaction bytes) := by
  have up : ¬ s.csLow = false := by simp [low]
  have held : ¬ s.resetLow = true := by simp [run]
  refine congrArg Host.Outcome.next ((if_neg up).trans ((if_neg held).trans ?_))
  rcases begun with other | rfl
  · exact if_neg other
  · exact ite_self _

/-- In OPENING the first whole byte that the rise brings is the transaction byte (R138). -/
theorem exec_chipSelectRise_opens (run : s.resetLow = false) (low : s.csLow = true) (opening : s.port = .opening)
    (byte : Byte) (rest : List Byte) (stray : Nat) :
    exec (.chipSelectRise (byte :: rest) stray) s = .next ((s.transactionByte byte).endTransaction rest) := by
  have up : ¬ s.csLow = false := by simp [low]
  have held : ¬ s.resetLow = true := by simp [run]
  exact congrArg Host.Outcome.next ((if_neg up).trans ((if_neg held).trans (if_pos opening)))

/-- A transaction byte ends OPENING, with the pins as they are. -/
theorem State.transactionByte_cases (s : State) (byte : Byte) :
    (s.transactionByte byte).resetLow = s.resetLow ∧ (s.transactionByte byte).csLow = s.csLow ∧
      (s.transactionByte byte).port ≠ .opening := by
  unfold State.transactionByte
  split
  · refine ⟨rfl, rfl, ?_⟩
    rw [State.beginPut_eq]
    split <;> exact PortState.noConfusion
  · split
    · exact ⟨rfl, rfl, PortState.noConfusion⟩
    · split
      · exact ⟨rfl, rfl, PortState.noConfusion⟩
      · exact ⟨rfl, rfl, PortState.noConfusion⟩

/-- The transaction states that a rise ends with no other effect: no frame to judge, no response to remove. -/
def PortState.EndsBare : PortState → Prop
  | .idle => True
  | .opening => True
  | .putRefused => True
  | .peekSending _ => True
  | .ignoring => True
  | .takeSending none => True
  | .putFrame => False
  | .takeSending (some _) => False

theorem State.endTransaction_bare (bare : s.port.EndsBare) (bytes : List Byte) :
    s.endTransaction bytes =
      { s with csLow := false, port := .idle, spiOut := s.spiOut ++ shiftedOut s.port.own bytes.length } := by
  unfold State.endTransaction State.endingWork
  cases port : s.port with
  | putFrame => rw [port] at bare; exact bare.elim
  | takeSending fixed =>
    cases fixed with
    | none => rfl
    | some r => rw [port] at bare; exact bare.elim
  | _ => rfl

theorem State.doutHighImpedance_iff (s : State) :
    s.doutHighImpedance = true ↔ s.csLow = false ∨ s.resetLow = true := by
  rw [State.doutHighImpedance, Bool.or_eq_true, Bool.not_eq_true', or_comm]

/-- With no transaction open, a transaction byte has no effect. -/
theorem exec_byte_idle (idle : s.port = .idle) :
    exec .put s = .next s ∧ exec .take s = .next s ∧ exec .peek s = .next s ∧
      ∀ byte, exec (.ignoring byte) s = .next s := by
  have still (work : State → State) : s.inOpening work = s :=
    State.inOpening_elsewhere (by rw [idle]; exact PortState.noConfusion) work
  refine ⟨congrArg Host.Outcome.next (still _), congrArg Host.Outcome.next (still _),
    congrArg Host.Outcome.next (still _), fun byte => ?_⟩
  show execIgnoring byte s = _
  rw [execIgnoring, still, ite_self]

end

/-- Settles O10: the fall and the rise of chip select, by the port's state. -/
theorem transactionsBeginAndEnd : Obligations.TransactionsBeginAndEnd := by
  refine ⟨State.doutHighImpedance_iff, fun s run low idle => ?_, fun s run high idle => ?_,
    fun s t byte rest stray run low opening made => ?_, fun s bytes stray run low ending => ?_⟩
  · obtain ⟨put, take, peek, ignoring⟩ := exec_byte_idle idle
    refine ⟨congrArg Host.Outcome.next (if_pos low), put, take, peek, ignoring, fun bytes stray => ?_⟩
    have notOpening : s.port ≠ .opening := by rw [idle]; exact PortState.noConfusion
    rw [exec_chipSelectRise_ends run low (Or.inl notOpening), State.endTransaction_bare (by rw [idle]; trivial),
      ← shiftedOut_zeros 0, idle]
    rfl
  · show execChipSelectFall s = _
    rw [execChipSelectFall, if_neg (by simp [high]), if_neg (by simp [run]), if_pos idle]
  · cases (exec_byteCommand run opening byte).symm.trans made
    obtain ⟨reset, pin, begun⟩ := s.transactionByte_cases byte
    rw [exec_chipSelectRise_opens run low opening,
      exec_chipSelectRise_ends (reset.trans run) (pin.trans low) (Or.inl begun)]
  · have bare : s.port.EndsBare ∧ (s.port ≠ .opening ∨ bytes = []) := by
      rcases ending with ⟨port, none_⟩ | port | ⟨summary, port⟩ | port | port <;> rw [port]
      · exact ⟨trivial, Or.inr none_⟩
      all_goals exact ⟨trivial, Or.inl PortState.noConfusion⟩
    have none_ (opening : s.port = .opening) : bytes = [] :=
      bare.2.resolve_left fun other => other opening
    refine ⟨shiftedOut s.port.own bytes.length, ?_, fun summary port => ?_, fun port => ?_, fun port => ?_,
      fun port => ?_⟩
    · rw [exec_chipSelectRise_ends run low bare.2, State.endTransaction_bare bare.1]
    · rw [port]
      rfl
    · rw [port]
      exact shiftedOut_single _ _
    · rcases port with port | port <;> rw [port]
      · exact shiftedOut_zeros 0 _
      · exact shiftedOut_zeros 4 _
    · rw [port, none_ port]
      rfl

end Sys2Proof.Machine
end

section
/-!
PROOFS. The ends of a PUT and of a TAKE (O8, O9): the frame judged, and the response removed after a whole frame,
with the start of a request that waited for room (R140, R142, R144, R169).
-/

namespace Sys2Proof.Machine

/-! ### The end of a PUT (R140) -/

/-- A frame is a kind byte, a length byte in 0..60 and as many payload bytes; no other bytes are one. -/
theorem requestOfFrame_eq_some {kind len : Byte} {payload : List Byte} (short : len.toNat ≤ 60)
    (whole : payload.length = len.toNat) :
    requestOfFrame (kind :: len :: payload) = some ⟨kind, payload⟩ :=
  if_pos ⟨short, whole⟩

theorem requestOfFrame_eq_none {bytes : List Byte}
    (misfits : ∀ kind len payload, bytes = kind :: len :: payload →
      60 < len.toNat ∨ payload.length ≠ len.toNat) : requestOfFrame bytes = none := by
  unfold requestOfFrame
  split
  · next kind len payload =>
    refine if_neg fun ⟨short, whole⟩ => ?_
    rcases misfits kind len payload rfl with long | differs
    · exact Nat.not_le.mpr long short
    · exact differs whole
  · rfl

section
variable {s : State} {bytes : List Byte}

theorem State.endTransaction_accepts (put : s.port = .putFrame) {q : Request} (frame : requestOfFrame bytes = some q) :
    s.endTransaction bytes =
      { s with
        csLow := false, port := .idle, requests := s.requests ++ [q]
        spiOut := s.spiOut ++ shiftedOut [0xAC] bytes.length } := by
  unfold State.endTransaction State.endingWork
  rw [put, frame]
  rfl

theorem State.endTransaction_frameError (put : s.port = .putFrame) (noFrame : requestOfFrame bytes = none) :
    s.endTransaction bytes =
      ({ s with
        csLow := false, port := .idle
        spiOut := s.spiOut ++ shiftedOut [0xAC] bytes.length } : State).raise .frameError := by
  unfold State.endTransaction State.endingWork
  rw [put, noFrame]
  rfl

end

/-- Settles O8: the rise of chip select in a PUT, by whether its bytes are a frame. -/
theorem putFrameIsJudged : Obligations.PutFrameIsJudged := by
  intro s bytes stray run low put
  have notOpening : s.port ≠ .opening := by rw [put]; exact PortState.noConfusion
  have ends := exec_chipSelectRise_ends (bytes := bytes) run low (Or.inl notOpening) stray
  refine ⟨?_, fun misfits => ?_⟩
  · rintro kind len payload rfl short whole
    have out : shiftedOut [0xAC] (kind :: len :: payload).length =
        0xAC :: List.replicate ((kind :: len :: payload).length - 1) 0x00 := rfl
    rw [ends, State.endTransaction_accepts put (requestOfFrame_eq_some short whole), out]
  · rw [ends, State.endTransaction_frameError put (requestOfFrame_eq_none misfits), shiftedOut_single]
    rfl

/-! ### The end of a TAKE (R142, R144) -/

/-- The bytes of a response frame: a header of four, and the payload. -/
theorem Response.bytes_length (r : Response) : r.bytes.length = 4 + r.payload.length := by
  rw [Response.bytes, List.length_append]
  rfl

/-- The state after the rise of chip select has shifted the part's bytes out and ended the transaction. -/
def State.shifted (s : State) (n : Nat) : State :=
  { s with csLow := false, port := .idle, spiOut := s.spiOut ++ shiftedOut s.port.own n }

section
variable {s : State} {bytes : List Byte} {r : Response}

theorem State.endTransaction_take (take : s.port = .takeSending (some r)) :
    s.endTransaction bytes =
      if r.bytes.length ≤ bytes.length then (s.shifted bytes.length).removeResponse
      else s.shifted bytes.length := by
  unfold State.endTransaction State.endingWork State.shifted
  rw [take]

theorem State.removeResponse_eq {rest : List Response} (head : s.responses = r :: rest) :
    s.removeResponse =
      if 3 ≤ rest.length then State.startHead { s with responses := rest } else { s with responses := rest } := by
  unfold State.removeResponse State.startWaiting
  rw [head]
  by_cases full : 3 ≤ rest.length
  · rw [if_pos full]
    exact if_pos (decide_eq_true (Nat.succ_le_succ full))
  · rw [if_neg full]
    exact if_neg (by simpa [Config.queueSlots] using full)

end

/-- Settles O9: the codes of the statuses, and the rise of chip select in a TAKE, by the bytes shifted out and by
whether a request waits for the slot that its end frees. -/
theorem takeRemovesWholeFrame : Obligations.TakeRemovesWholeFrame := by
  refine ⟨by decide, fun s bytes stray r rest run low take head => ?_⟩
  intro frame ended
  have isEnded : s.shifted bytes.length = ended := by
    unfold State.shifted
    rw [take, PortState.own, fixedFrame, shiftedOut, ← List.append_assoc]
    rfl
  have notOpening : s.port ≠ .opening := by rw [take]; exact PortState.noConfusion
  have ends : exec (.chipSelectRise bytes stray) s = .next
      (if 4 + r.payload.length ≤ bytes.length then ended.removeResponse else ended) := by
    rw [exec_chipSelectRise_ends run low (Or.inl notOpening), State.endTransaction_take take, isEnded,
      r.bytes_length]
  have removed : ended.removeResponse = _ := State.removeResponse_eq (s := ended) head
  refine ⟨fun short => ?_, fun whole => ⟨fun noWaiter => ?_, fun q more full queued idle => ?_⟩⟩
  · rw [ends, if_neg (Nat.not_le.mpr short)]
  · rw [ends, if_pos whole, removed]
    by_cases full : 3 ≤ rest.length
    · rw [if_pos full]
      rcases noWaiter with room | none_ | busy
      · exact absurd full (Nat.not_le.mpr room)
      · exact congrArg Host.Outcome.next (State.startHead_empty none_)
      · exact congrArg Host.Outcome.next (State.startHead_busy busy)
    · rw [if_neg full]
  · have queued' : ({ ended with responses := rest } : State).requests = q :: more := queued
    rw [ends, if_pos whole, removed, if_pos full.ge, exec_command queued']

end Sys2Proof.Machine
end

section
/-!
PROOFS. The requests on stations (O17): what each reads of its payload, the visit it takes in hand, and the refusal
of a handle above 511 (R3, R148 to R154, R169 to R171).
-/

namespace Sys2Proof.Machine

/-! ### The descriptor of an ADMIT (R148, R170) -/

theorem bitsAt_eq (b : Byte) (lo n : Nat) : bitsAt b lo n = b.toNat / 2 ^ lo % 2 ^ n := by
  rw [bitsAt, BitVec.extractLsb'_toNat, Nat.shiftRight_eq_div_pow]

/-- The byte of the numeric fields holds the band below the streams. -/
theorem descriptor_bits (b : Byte) : bitsAt b 0 2 = b.toNat % 4 ∧ bitsAt b 2 3 = b.toNat / 4 % 8 := by
  rw [bitsAt_eq, bitsAt_eq]
  exact ⟨congrArg (· % 4) (Nat.div_one _), rfl⟩

theorem classesOfBits_low (b : Byte) :
    classesOfBits (b.extractLsb' 0 4) =
      { sc0 := b.getLsbD 0, sc1 := b.getLsbD 1, sc2 := b.getLsbD 2, sc3 := b.getLsbD 3 } := by
  rw [classesOfBits]
  simp only [BitVec.getLsbD_extractLsb', Nat.zero_add]
  rfl

/-- The fields of the descriptor that an ADMIT carries, each in its range (R3). -/
theorem descriptorOf_fields (p : List Byte) :
    (descriptorOf p).band = min ((byteAt p 7).toNat % 4) 2 ∧
      (descriptorOf p).streams = max 1 (min ((byteAt p 7).toNat / 4 % 8) 4) ∧
      (descriptorOf p).requested =
        { sc0 := (byteAt p 10).getLsbD 0, sc1 := (byteAt p 10).getLsbD 1
          sc2 := (byteAt p 10).getLsbD 2, sc3 := (byteAt p 10).getLsbD 3 } := by
  obtain ⟨band, streams⟩ := descriptor_bits (byteAt p 7)
  rw [← band, ← streams]
  exact ⟨rfl, rfl, classesOfBits_low _⟩

/-- The clamped bit of an ADMIT tells that band, streams or top rate index is out of its range. -/
theorem descriptorClamped_iff (p : List Byte) :
    descriptorClamped p = true ↔ (byteAt p 7).toNat % 4 = 3 ∨ (byteAt p 7).toNat / 4 % 8 = 0 ∨
      4 < (byteAt p 7).toNat / 4 % 8 ∨ 31 < (byteAt p 8).toNat := by
  obtain ⟨band, streams⟩ := descriptor_bits (byteAt p 7)
  rw [descriptorClamped, band, streams]
  simp only [Bool.or_eq_true, decide_eq_true_eq]
  omega

/-! ### The fields of an AMEND (R149, R171) -/

/-- Ten profile bytes, each value taken to the nearer end of its range (R4, R149). -/
theorem profileValuesAt_clamp (p : List Byte) (i : Nat) :
    (profileValuesAt p i).clamp =
      { weight := max 1 (min (byteAt p i).toNat 64)
        classes :=
          { sc0 := (byteAt p (i + 1)).getLsbD 0, sc1 := (byteAt p (i + 1)).getLsbD 1
            sc2 := (byteAt p (i + 1)).getLsbD 2, sc3 := (byteAt p (i + 1)).getLsbD 3 }
        ceiling := fieldAt p (i + 2) 2
        borrow := min (fieldAt p (i + 4) 2) 8191
        costShift := max (-3) (min (byteAt p (i + 6)).toInt 3)
        uplinkEighths := min (byteAt p (i + 7)).toNat 8
        softCap := fieldAt p (i + 8) 2 } := by
  have ceiling : fieldAt p (i + 2) 2 ≤ 65535 := Nat.le_of_lt_succ (fieldAt_lt p (i + 2) 2)
  have softCap : fieldAt p (i + 8) 2 ≤ 65535 := Nat.le_of_lt_succ (fieldAt_lt p (i + 8) 2)
  rw [profileValuesAt, Profile.clamp, fieldAt_one, fieldAt_one, classesOfBits_low, min_eq_left ceiling,
    min_eq_left softCap]
  rfl

/-- A number differs from the nearer end of a range exactly when it is out of the range. -/
theorem ne_clampNat_iff {x lo hi : Nat} (fit : lo ≤ hi) : (x != clampNat x lo hi) = true ↔ x < lo ∨ hi < x := by
  rw [bne_iff_ne, clampNat]
  omega

theorem ne_clampInt_iff {x lo hi : Int} (fit : lo ≤ hi) : (x != clampInt x lo hi) = true ↔ x < lo ∨ hi < x := by
  rw [bne_iff_ne, clampInt]
  omega

theorem ne_min_iff {x hi : Nat} : (x != min x hi) = true ↔ hi < x := by
  rw [bne_iff_ne]
  omega

/-- The clamped bit of an AMEND tells that a named value is out of its range (R171). -/
theorem amendClamped_iff (p : List Byte) :
    amendClamped p = true ↔
      (fieldAt p 2 2).testBit 0 = true ∧ ((byteAt p 4).toNat < 1 ∨ 64 < (byteAt p 4).toNat) ∨
      (fieldAt p 2 2).testBit 3 = true ∧ 8191 < fieldAt p 8 2 ∨
      (fieldAt p 2 2).testBit 4 = true ∧ ((byteAt p 10).toInt < -3 ∨ 3 < (byteAt p 10).toInt) ∨
      (fieldAt p 2 2).testBit 5 = true ∧ 8 < (byteAt p 11).toNat ∨
      (fieldAt p 2 2).testBit 8 = true ∧
        (signedOf 24 (fieldAt p 15 3) < -524288 ∨ 524287 < signedOf 24 (fieldAt p 15 3)) := by
  have weight : ((amendRaw p).values.weight != (amendOf p).values.weight) = true ↔
      fieldAt p 4 1 < 1 ∨ 64 < fieldAt p 4 1 := ne_clampNat_iff (by decide)
  have borrow : ((amendRaw p).values.borrow != (amendOf p).values.borrow) = true ↔
      8191 < fieldAt p 8 2 := ne_min_iff
  have costShift : ((amendRaw p).values.costShift != (amendOf p).values.costShift) = true ↔
      (byteAt p 10).toInt < -3 ∨ 3 < (byteAt p 10).toInt := ne_clampInt_iff (by decide)
  have uplink : ((amendRaw p).values.uplinkEighths != (amendOf p).values.uplinkEighths) = true ↔
      8 < fieldAt p 11 1 := ne_min_iff
  have credit : ((amendRaw p).credit != (amendOf p).credit) = true ↔
      signedOf 24 (fieldAt p 15 3) < -524288 ∨ 524287 < signedOf 24 (fieldAt p 15 3) :=
    ne_clampInt_iff (by decide)
  simp only [amendClamped, Bool.or_eq_true, Bool.and_eq_true, weight, borrow, costShift, uplink, credit, or_assoc,
    fieldAt_one]
  rfl

/-! ### Handles (R167) -/

/-- The two bytes of a handle field are its first two. -/
theorem bytesOf_fieldAt_zero {p : List Byte} (long : 2 ≤ p.length) : bytesOf 2 (fieldAt p 0 2) = p.take 2 := by
  match p, long with
  | a :: b :: rest, _ =>
    have high := a.isLt
    have low := b.isLt
    have number : fieldAt (a :: b :: rest) 0 2 = a.toNat * 256 + b.toNat := by simp [fieldAt, natOf]
    rw [bytesOf_two, number]
    refine congrArg₂ (fun x y => [x, y]) (BitVec.eq_of_toNat_eq ?_) (BitVec.eq_of_toNat_eq ?_)
    · rw [BitVec.toNat_ofNat]
      omega
    · rw [BitVec.toNat_ofNat]
      omega

/-! ### The starts (R147) -/

/-- The command that starts a request of a kind. -/
def RequestKind.command : RequestKind → Instr
  | .admitting => .admitStart
  | .amend => .amend
  | .reapply => .reapply
  | .retire => .retire
  | .find => .find
  | .query => .query
  | .list => .list
  | .rulePut => .rulePut
  | .ruleGet => .ruleGet
  | .itemPut => .itemPut
  | .itemGet => .itemGet
  | .summaryClear => .summaryClear
  | .tableClear => .tableClear

/-- The start of a request of a kind, from its payload. -/
def State.startKind (s : State) (p : List Byte) : RequestKind → State
  | .admitting => s.startAdmit p
  | .amend => s.startAmend p
  | .reapply => s.startReapply p
  | .retire => s.startRetire p
  | .find => s.startFind p
  | .query => s.startQuery p
  | .list => s.startList p
  | .rulePut => s.startRulePut p
  | .ruleGet => s.startRuleGet p
  | .itemPut => s.startItemPut p
  | .itemGet => s.startItemGet p
  | .summaryClear => s.startSummaryClear p
  | .tableClear => s.startTableClear

theorem Request.command_of_form {q : Request} {k : RequestKind} (isForm : q.form = some k) :
    q.command = k.command := by
  rw [Request.command, isForm]
  cases k <;> rfl

theorem State.start_of_form (s : State) {q : Request} {k : RequestKind} (isForm : q.form = some k) :
    s.start q = s.startKind q.payload k := by
  rw [State.start, isForm]
  cases k <;> rfl

/-- A kind's command starts a request whose kind byte and payload length are the kind's. -/
theorem exec_kind {s : State} {kind : Byte} {p : List Byte} {rest : List Request} {k : RequestKind}
    (run : s.resetLow = false) (idle : s.executing = .idle) (room : s.responses.length < 4)
    (head : s.requests = ⟨kind, p⟩ :: rest) (code : kind = k.code) (length : p.length = k.payloadLength) :
    exec k.command s = .next (s.startKind p k) := by
  have isForm : Request.form ⟨kind, p⟩ = some k := Request.form_eq_some.mpr ⟨code, length⟩
  rw [← Request.command_of_form isForm, exec_command_starts run idle room head, State.start_of_form s isForm]

/-- Settles O17: the start of each request on stations, by the handle it names. -/
theorem stationRequestsStart : Obligations.StationRequestsStart := by
  intro s p rest run idle room asked
  refine ⟨fun length head => ?_, fun length head => exec_kind (k := .find) run idle room head rfl length,
    fun length head => ?_, fun length head => ?_, fun length head => ?_, fun length head => ?_,
    fun length head => ?_⟩
  · obtain ⟨band, streams, requested⟩ := descriptorOf_fields p
    exact ⟨exec_kind (k := .admitting) run idle room head rfl length, band, streams, rfl, toNat_fieldAt_six p 0,
      rfl, rfl, rfl, rfl, requested, descriptorClamped_iff p⟩
  · have echo : amendRefused (fieldAt p 0 2) = p.take 2 ++ List.replicate 16 0 :=
      congrArg (· ++ _) (bytesOf_fieldAt_zero (length.symm ▸ by decide))
    have starts : exec .amend s = .next (s.startAmend p) :=
      exec_kind (k := .amend) run idle room head rfl length
    rw [starts, State.startAmend]
    refine ⟨fun lt => ?_, ?_, ?_, fun beyond => ?_⟩
    · rw [handleOf_some lt]
      rfl
    · rw [amendOf, amendRaw, profileValuesAt_clamp]
      rfl
    · rw [amendClamped_iff, Nat.lt_one_iff]
      rfl
    · rw [handleOf_none beyond, ← echo]
      exact congrArg Host.Outcome.next (State.respond_eq head _ _ _)
  · have starts : exec .reapply s = .next (s.startReapply p) :=
      exec_kind (k := .reapply) run idle room head rfl length
    rw [starts, State.startReapply]
    refine ⟨fun lt => ?_, fun beyond => ?_⟩
    · rw [handleOf_some lt]
      rfl
    · rw [handleOf_none beyond]
      exact congrArg Host.Outcome.next (State.respond_eq head _ _ _)
  · have echo : bytesOf 2 (fieldAt p 0 2) = p := by
      rw [bytesOf_fieldAt_zero length.ge, List.take_of_length_le length.le]
    have starts : exec .retire s = .next (s.startRetire p) :=
      exec_kind (k := .retire) run idle room head rfl length
    rw [starts, State.startRetire]
    refine ⟨fun lt => ?_, fun beyond => ?_⟩
    · rw [handleOf_some lt]
      rfl
    · rw [handleOf_none beyond, echo]
      exact congrArg Host.Outcome.next (State.respond_eq head _ _ _)
  · have starts : exec .query s = .next (s.startQuery p) :=
      exec_kind (k := .query) run idle room head rfl length
    rw [starts, State.startQuery]
    refine ⟨fun lt => ?_, fun beyond => ?_⟩
    · rw [handleOf_some lt]
      rfl
    · rw [handleOf_none beyond]
      exact congrArg Host.Outcome.next (State.respond_eq head _ _ _)
  · have starts : exec .list s = .next (s.startList p) :=
      exec_kind (k := .list) run idle room head rfl length
    rw [starts, State.startList]
    refine ⟨fun lt => ?_, fun beyond => ?_⟩
    · rw [handleOf_some lt]
    · have payload : listResponse [] none = 0 :: List.replicate 58 0xFF := by decide
      rw [handleOf_none beyond, ← payload]
      exact congrArg Host.Outcome.next (State.respond_eq head _ _ _)

end Sys2Proof.Machine
end

section
/-!
PROOFS. The part in reset (O4): what each shared operation makes of a command while RESET_N is low, and so every
command but the pins' own (R146).
-/

namespace Sys2Proof.Machine

/-! ### The shared operations in reset -/

section
variable {s : State} (low : s.resetLow = true)
include low

theorem State.inOpening_reset (work : State → State) : s.inOpening work = s :=
  if_pos low

theorem State.startHead_reset : s.startHead = s := by
  have mayNot : s.canStart = false := by simp [State.canStart, low]
  rw [State.startHead, mayNot]
  rfl

theorem State.startForm_reset (form : Option RequestKind) : s.startForm form = s := by
  unfold State.startForm
  split
  · rfl
  · rw [State.startHead_reset low, ite_self]

/-- The engine takes no item. -/
theorem State.engineFree_reset : s.engineFree = false := by
  simp [State.engineFree, low]

theorem State.takeItem_reset (work : InMessage → Option (State → State)) : s.takeItem work = s := by
  rw [State.takeItem, State.engineFree_reset low]
  rfl

/-! ### The commands in reset -/

/-- No transaction byte has an effect. -/
theorem exec_ignoring_reset (byte : Byte) : exec (.ignoring byte) s = .next s := by
  show execIgnoring byte s = _
  rw [execIgnoring, State.inOpening_reset low, ite_self]

/-- SPI_CS_N goes on to follow its pin, and no transaction opens or ends (R146; log 23). -/
theorem exec_chipSelectFall_reset : exec .chipSelectFall s = .next { s with csLow := true } := by
  show execChipSelectFall s = _
  rw [execChipSelectFall, if_pos low]
  split
  · next already => rw [← already]
  · rfl

theorem exec_chipSelectRise_reset (bytes : List Byte) (stray : Nat) :
    exec (.chipSelectRise bytes stray) s = .next { s with csLow := false } := by
  have held : exec (.chipSelectRise bytes stray) s =
      .next (if s.csLow = false then s else { s with csLow := false }) :=
    congrArg Host.Outcome.next (if_congr Iff.rfl rfl (if_pos low))
  rw [held]
  split
  · next already => rw [← already]
  · rfl

/-- Every command but the pins' own is without effect. -/
theorem exec_reset {c : Instr} (notAssert : c ≠ .resetAssert) (notRelease : c ≠ .resetRelease)
    (notFall : c ≠ .chipSelectFall) (notRise : ∀ bytes stray, c ≠ .chipSelectRise bytes stray) :
    exec c s = .next s := by
  have still {t : State} (same : t = s) : (Host.Outcome.next t : Host.Outcome State Fault Refusal) = .next s :=
    congrArg Host.Outcome.next same
  cases c with
  | resetAssert => exact (notAssert rfl).elim
  | resetRelease => exact (notRelease rfl).elim
  | chipSelectFall => exact (notFall rfl).elim
  | chipSelectRise bytes stray => exact (notRise bytes stray rfl).elim
  | put => exact still (State.inOpening_reset low _)
  | take => exact still (State.inOpening_reset low _)
  | peek => exact still (State.inOpening_reset low _)
  | ignoring byte => exact exec_ignoring_reset low byte
  | badKind => exact still (State.startForm_reset low _)
  | admitStart => exact still (State.startForm_reset low _)
  | amend => exact still (State.startForm_reset low _)
  | reapply => exact still (State.startForm_reset low _)
  | retire => exact still (State.startForm_reset low _)
  | find => exact still (State.startForm_reset low _)
  | query => exact still (State.startForm_reset low _)
  | list => exact still (State.startForm_reset low _)
  | rulePut => exact still (State.startForm_reset low _)
  | ruleGet => exact still (State.startForm_reset low _)
  | itemPut => exact still (State.startForm_reset low _)
  | itemGet => exact still (State.startForm_reset low _)
  | summaryClear => exact still (State.startForm_reset low _)
  | tableClear => exact still (State.startForm_reset low _)
  | ask => exact still (State.takeItem_reset low _)
  | done => exact still (State.takeItem_reset low _)
  | backlog => exact still (State.takeItem_reset low _)
  | uplink => exact still (State.takeItem_reset low _)
  | linkRestart => exact still (State.takeItem_reset low _)
  | messageReceived nibbles cut =>
    show execMessageReceived nibbles cut s = _
    rw [execMessageReceived, low]
    rfl
  | firstSync =>
    show execFirstSync s = _
    rw [execFirstSync, low]
    rfl
  | downMessageDrop =>
    show execDownMessageDrop s = _
    rw [execDownMessageDrop, low]
    rfl
  | outboundEnqueue => exact still (if_pos low)
  | outboundSent => exact still (if_pos low)
  | stepTimerExpiry => exact still (if_pos low)
  | awardExpiry id generation => exact still (if_pos (State.engineFree_reset low))
  | tableClearRelease =>
    show execTableClearRelease s = _
    rw [execTableClearRelease, State.engineFree_reset low]
    rfl
  | _ => exact still (State.visit_reset low _ _ _ _)

end

/-- Settles O4: the pins follow, and every other command finds its operation held in reset. -/
theorem nothingHappensInReset : Obligations.NothingHappensInReset := fun _ low =>
  ⟨exec_chipSelectFall_reset low, exec_chipSelectRise_reset low, fun _ => exec_reset low⟩

end Sys2Proof.Machine
end

section
/-!
PROOFS. The requests on settings items (O14): which item a number names, what the read-only items report, and the
response to each number (R2, R66, R71, R81, R157, R158, R160, R161, R174).
-/

namespace Sys2Proof.Machine

/-! ### Item numbers (R157, R160) -/

/-- The programmable items are those of the numbers 1 to 0x1C. -/
theorem settingItemOf_isSome (n : Nat) : (settingItemOf n).isSome = true ↔ 1 ≤ n ∧ n ≤ 0x1C := by
  have tabled : ∀ m < 0x1D, (settingItemOf m).isSome = true ↔ 1 ≤ m ∧ m ≤ 0x1C := by decide
  by_cases low : n < 0x1D
  · exact tabled n low
  · obtain ⟨k, rfl⟩ := Nat.exists_eq_add_of_le' (Nat.not_lt.mp low)
    exact iff_of_false Bool.noConfusion fun ⟨_, le⟩ => by omega

/-- The read-only items are those of the number 0 and of the numbers 0x30 to 0x43. -/
theorem readOnlyItemOf_isSome (n : Nat) :
    (readOnlyItemOf n).isSome = true ↔ n = 0 ∨ 0x30 ≤ n ∧ n ≤ 0x43 := by
  have tabled : ∀ m < 0x44, (readOnlyItemOf m).isSome = true ↔ m = 0 ∨ 0x30 ≤ m ∧ m ≤ 0x43 := by decide
  by_cases low : n < 0x44
  · exact tabled n low
  · obtain ⟨k, rfl⟩ := Nat.exists_eq_add_of_le' (Nat.not_lt.mp low)
    exact iff_of_false Bool.noConfusion fun named => by omega

theorem settingItemOf_eq_none {n : Nat} (outside : n = 0 ∨ 0x1D ≤ n) : settingItemOf n = none := by
  rw [← Option.not_isSome_iff_eq_none, settingItemOf_isSome]
  omega

theorem readOnlyItemOf_eq_none {n : Nat} (outside : 0x1D ≤ n ∧ n ≤ 0x2F ∨ 0x43 < n) :
    readOnlyItemOf n = none := by
  rw [← Option.not_isSome_iff_eq_none, readOnlyItemOf_isSome]
  omega

/-- No number names both a programmable and a read-only item. -/
theorem settingItemOf_of_readOnly {n : Nat} (readOnly : (readOnlyItemOf n).isSome = true) :
    settingItemOf n = none := by
  rw [readOnlyItemOf_isSome] at readOnly
  exact settingItemOf_eq_none (by omega)

/-! ### What the read-only items report (R160) -/

theorem State.activeCount_eq (s : State) :
    s.activeCount = (List.finRange 512).countP fun h => (s.station h).state == .active :=
  List.countP_eq_length_filter.symm

theorem State.openAwards_eq (s : State) :
    s.openAwards = (List.finRange 16).countP fun id => (s.entry id).award.isSome := by
  have ids : allAwardIds = List.finRange 16 := by decide
  rw [State.openAwards, ids, List.countP_eq_length_filter]

/-- The lawful free list holds every FREE record once, so its length is their number (R2, R11). -/
theorem State.freeCount_eq {s : State} (law : s.FreeListLawful) :
    s.freeCount = (List.finRange 512).countP fun h => (s.station h).state == .free := by
  obtain ⟨nodup, mem⟩ := State.freeList_members law
  have listed : s.freeList.Perm ((List.finRange 512).filter fun h => (s.station h).state == .free) :=
    (List.perm_ext_iff_of_nodup nodup ((List.nodup_finRange 512).filter _)).mpr fun h => by simp [mem h]
  rw [State.freeCount, listed.length_eq, List.countP_eq_length_filter]

/-- A lag or a lead of at most 8, negated or not, has its number in 32 bits. -/
theorem Walker.Lawful.toInt_lagLead {w : Walker} (law : w.Lawful) :
    (BitVec.ofInt 32 w.lagLead).toInt = w.lagLead := by
  have lag := law.lag_le
  have lead := law.lead_le
  have bounds : -8 ≤ w.lagLead ∧ w.lagLead ≤ 8 := by
    unfold Walker.lagLead
    split <;> omega
  rw [BitVec.toInt_ofInt]
  exact Int.bmod_eq_of_le (by omega) (by omega)

theorem Walker.lagLead_of_lag {w : Walker} (behind : 0 < w.lag) : w.lagLead = w.lag :=
  if_pos behind

theorem Walker.lagLead_of_lead {w : Walker} (notBehind : w.lag = 0) : w.lagLead = -w.lead :=
  if_neg notBehind.not_gt

/-- LAG_LEAD is the lag, or the lead negated (R160). -/
theorem State.report_lagLead {s : State} (law : s.walker.Lawful) :
    (0 < s.walker.lag → (s.report .lagLead).toInt = s.walker.lag) ∧
      (0 < s.walker.lead → (s.report .lagLead).toInt = -s.walker.lead) ∧
      (s.walker.lag = 0 → s.walker.lead = 0 → s.report .lagLead = 0) := by
  refine ⟨fun behind => ?_, fun ahead => ?_, fun lag lead => ?_⟩
  · exact law.toInt_lagLead.trans (Walker.lagLead_of_lag behind)
  · have notBehind : s.walker.lag = 0 := law.one_zero.resolve_right ahead.ne'
    exact law.toInt_lagLead.trans (Walker.lagLead_of_lead notBehind)
  · rw [State.report, Walker.lagLead_of_lead lag, lead]
    rfl

theorem State.toNat_report_epoch (s : State) : (s.report .epoch).toNat = s.walker.epoch.toNat :=
  BitVec.toNat_setWidth_of_le (by decide)

theorem State.toNat_report_groupPointer (s : State) :
    (s.report .groupPointer).toNat = s.walker.groupPointer.val := by
  have small := s.walker.groupPointer.isLt
  exact Nat.mod_eq_of_lt (by omega)

/-! ### The coded value of an item (R174) -/

/-- The n bytes of a number carry its remainder by 256 ^ n. -/
theorem natOf_bytesOf (n x : Nat) : natOf (bytesOf n x) = x % 256 ^ n := by
  have carried : ∀ acc, (bytesOf n x).foldl (fun acc b => acc * 256 + b.toNat) acc =
      acc * 256 ^ n + x % 256 ^ n := by
    induction n with
    | zero => intro acc; simp [bytesOf, Nat.mod_one]
    | succ n ih =>
      intro acc
      rw [bytesOf, List.foldl_cons, ih, BitVec.toNat_ofNat, Nat.mod_pow_succ (b := 256)]
      ring
  rw [natOf, carried, Nat.zero_mul, Nat.zero_add]

theorem bytesOf_length (n x : Nat) : (bytesOf n x).length = n := by
  induction n with
  | zero => rfl
  | succ n ih => rw [bytesOf, List.length_cons, ih]

theorem byteAt_cons_zero (b : Byte) (p : List Byte) : byteAt (b :: p) 0 = b := rfl

theorem byteAt_itemResponse (number : Byte) (v : Word) : byteAt (itemResponse number v) 0 = number :=
  byteAt_cons_zero number _

theorem itemValue_itemResponse (number : Byte) (v : Word) : itemValue (itemResponse number v) = v := by
  have field : (bytesOf 4 v.toNat).take 4 = bytesOf 4 v.toNat :=
    List.take_of_length_le (bytesOf_length 4 _).le
  have fits : v.toNat % 256 ^ 4 = v.toNat := Nat.mod_eq_of_lt v.isLt
  rw [itemValue, fieldAt, itemResponse, List.drop_succ_cons, List.drop_zero, field, natOf_bytesOf,
    fits, BitVec.ofNat_toNat, BitVec.setWidth_eq]

/-! ### The response to an item number (R157, R158, R160) -/

section
variable (s : State) {number : Byte}

theorem State.startItemPut_stores {i : SettingItem} (names : settingItemOf number.toNat = some i) (v : Word) :
    s.startItemPut (itemResponse number v) =
      { s with settings := s.settings.write v i }.respond .ok (s.settings.clamps v i)
        (itemResponse number ((s.settings.write v i).read i)) := by
  rw [State.startItemPut, byteAt_itemResponse, names, itemValue_itemResponse]

theorem State.startItemPut_refuses (names : settingItemOf number.toNat = none) (v : Word) :
    s.startItemPut (itemResponse number v) =
      s.respond (if (readOnlyItemOf number.toNat).isSome then .readOnly else .badItem) false
        (itemResponse number 0) := by
  rw [State.startItemPut, byteAt_itemResponse, names]

theorem State.startItemGet_setting {i : SettingItem} (names : settingItemOf number.toNat = some i) :
    s.startItemGet [number] = s.respond .ok false (itemResponse number (s.settings.read i)) := by
  rw [State.startItemGet, byteAt_cons_zero, names]

theorem State.startItemGet_report {i : ReadOnlyItem} (names : readOnlyItemOf number.toNat = some i) :
    s.startItemGet [number] = s.respond .ok false (itemResponse number (s.report i)) := by
  have notSetting := settingItemOf_of_readOnly (Option.isSome_of_eq_some names)
  rw [State.startItemGet, byteAt_cons_zero, notSetting, names]

theorem State.startItemGet_refuses
    (outside : 0x1D ≤ number.toNat ∧ number.toNat ≤ 0x2F ∨ 0x43 < number.toNat) :
    s.startItemGet [number] = s.respond .badItem false (itemResponse number 0) := by
  rw [State.startItemGet, byteAt_cons_zero, settingItemOf_eq_none (by omega), readOnlyItemOf_eq_none outside]

end

/-- Settles O14: the numbers by their tables, the reports item by item, and ITEM_PUT and ITEM_GET by what the
number names. -/
theorem itemsArePutAndGot : Obligations.ItemsArePutAndGot := by
  refine ⟨List.map_inj_left.mp rfl, List.map_inj_left.mp rfl, fun s => ?_,
    fun s number v rest run idle room => ⟨fun head => ?_, fun head => ?_⟩⟩
  · exact ⟨rfl, congrArg (BitVec.ofNat 32) s.activeCount_eq,
      fun law => congrArg (BitVec.ofNat 32) (State.freeCount_eq law), fun _ => ⟨rfl, rfl⟩,
      State.report_lagLead, s.toNat_report_epoch, s.toNat_report_groupPointer,
      congrArg (BitVec.ofNat 32) s.openAwards_eq, rfl, rfl, rfl, rfl, rfl, rfl⟩
  · have starts : exec .itemPut s = .next (s.startItemPut (itemResponse number v)) :=
      exec_kind (k := .itemPut) run idle room head rfl (congrArg (· + 1) (bytesOf_length 4 _))
    rw [starts]
    refine ⟨fun i names => ?_, fun readOnly => ?_, fun outside => ?_⟩
    · rw [s.startItemPut_stores names]
      exact congrArg Host.Outcome.next
        (State.respond_eq (s := { s with settings := s.settings.write v i }) head _ _ _)
    · have isReadOnly : (readOnlyItemOf number.toNat).isSome = true :=
        (readOnlyItemOf_isSome _).mpr (readOnly.imp_left (congrArg BitVec.toNat))
      rw [s.startItemPut_refuses (settingItemOf_of_readOnly isReadOnly), if_pos isReadOnly,
        State.respond_eq head]
    · have unassigned : ¬ (readOnlyItemOf number.toNat).isSome = true := by simp [readOnlyItemOf_eq_none outside]
      rw [s.startItemPut_refuses (settingItemOf_eq_none (by omega)), if_neg unassigned, State.respond_eq head]
  · have starts : exec .itemGet s = .next (s.startItemGet [number]) :=
      exec_kind (k := .itemGet) run idle room head rfl rfl
    rw [starts]
    refine ⟨fun i names => ?_, fun i names => ?_, fun outside => ?_⟩
    · rw [s.startItemGet_setting names, State.respond_eq head]
    · rw [s.startItemGet_report names, State.respond_eq head]
    · rw [s.startItemGet_refuses outside, State.respond_eq head]

end Sys2Proof.Machine
end

section
/-!
PROOFS. SUMMARY_CLEAR (O16): the flag set of its payload, and the flags and counters that the set leaves (R163,
R168, R174).
-/

namespace Sys2Proof.Machine

theorem Flags.get_clearNamed (fs : Flags) (set : BitVec 16) (f : Flag) :
    (fs.clearNamed set).get f = (fs.get f && !set.getLsbD f.bit) := by
  cases f <;> rfl

/-- Of the two bytes of a flag set, the second names the flags of the bits 0 to 7. -/
theorem named_append_low (hi lo : Byte) {f : Flag} (low : f.bit < 8) :
    named (hi ++ lo) f = lo.getLsbD f.bit := by
  rw [named, BitVec.getLsbD_append, if_pos low]

theorem named_append_high (hi lo : Byte) {f : Flag} (high : 8 ≤ f.bit) :
    named (hi ++ lo) f = hi.getLsbD (f.bit - 8) := by
  rw [named, BitVec.getLsbD_append, if_neg (Nat.not_lt.mpr high)]

/-- The first two bytes of a payload are its flag set. -/
theorem flagSet_eq (hi lo bit : Byte) : BitVec.ofNat 16 (fieldAt [hi, lo, bit] 0 2) = hi ++ lo := by
  have pair : fieldAt [hi, lo, bit] 0 2 = (hi ++ lo : BitVec 16).toNat := natOf_pair hi lo
  rw [pair, BitVec.ofNat_toNat, BitVec.setWidth_eq]

/-- The counters that a flag set of two bytes leaves: the second byte names five, the first FRAME_ERROR's. -/
theorem Counters.clearNamed_append (cs : Counters) (hi lo : Byte) :
    cs.clearNamed (hi ++ lo) =
      { stale := if lo.getLsbD 0 then 0 else cs.stale
        late := if lo.getLsbD 1 then 0 else cs.late
        malformed := if lo.getLsbD 2 then 0 else cs.malformed
        expired := if lo.getLsbD 3 then 0 else cs.expired
        forfeit := if lo.getLsbD 5 then 0 else cs.forfeit
        frameError := if hi.getLsbD 1 then 0 else cs.frameError } := by
  have low {f : Flag} (lt : f.bit < 8) := named_append_low hi lo lt
  rw [Counters.clearNamed, low (f := .stale) (by decide), low (f := .late) (by decide),
    low (f := .malformed) (by decide), low (f := .expired) (by decide), low (f := .forfeit) (by decide),
    named_append_high hi lo (f := .frameError) (by decide)]
  rfl

theorem State.startSummaryClear_eq (s : State) (hi lo bit : Byte) :
    s.startSummaryClear [hi, lo, bit] =
      { s with
        flags := s.flags.clearNamed (hi ++ lo)
        counters := if bit.getLsbD 0 then s.counters.clearNamed (hi ++ lo) else s.counters }.respond
          .ok false [] := by
  have last : byteAt [hi, lo, bit] 2 = bit := rfl
  rw [State.startSummaryClear, flagSet_eq, last]

theorem exec_summaryClear {s : State} {hi lo bit : Byte} {rest : List Request} (run : s.resetLow = false)
    (idle : s.executing = .idle) (room : s.responses.length < 4)
    (head : s.requests = ⟨0x14, [hi, lo, bit]⟩ :: rest) :
    exec .summaryClear s = .next
      ({ s with
        flags := s.flags.clearNamed (hi ++ lo)
        counters := if bit.getLsbD 0 then s.counters.clearNamed (hi ++ lo) else s.counters }.responded
          0x14 .ok false []) := by
  have starts : exec .summaryClear s = .next (s.startSummaryClear [hi, lo, bit]) :=
    exec_kind (k := .summaryClear) run idle room head rfl rfl
  rw [starts, s.startSummaryClear_eq, State.respond_eq (q := ⟨0x14, [hi, lo, bit]⟩) (rest := rest)]
  exact head

/-- Settles O16: the flags and counters that SUMMARY_CLEAR leaves, by its flag set and clear-counters bit. -/
theorem summaryClearClearsNamedFlags : Obligations.SummaryClearClearsNamedFlags := by
  intro s hi lo bit rest run idle room head
  refine ⟨_, _, exec_summaryClear run idle room head, s.flags.get_clearNamed (hi ++ lo), fun kept => ?_,
    fun clears => ?_⟩
  · exact if_neg (Bool.eq_false_iff.mp kept)
  · rw [if_pos clears, Counters.clearNamed_append]
    exact ⟨rfl, rfl, rfl, rfl, rfl, rfl⟩

end Sys2Proof.Machine
end

section
/-!
PROOFS. A step on a queue that is not empty (O1): the command at its front, on the queue's rest (log 21).
`step_idle` says the other case.
-/

namespace Sys2Proof.Machine

/-- Settles O1, by the branch that a step takes on a queue with a front. -/
theorem stepRunsFrontCommand : Obligations.StepRunsFrontCommand := by
  intro s c rest front
  rw [step, front]

end Sys2Proof.Machine
end
